-- ==== Sys2Proof/Word.lean ====
section
/-! DEFINITION. The words and wire levels of the SFP+ 2-wire interface: 00_scope.md R12, R13; 30_encoding.md R120. -/

namespace Sys2Proof

/-- A word of the 2-wire bus: 8 bits, bit 7 first on the wire (00_scope.md R13). -/
abbrev Byte := BitVec 8

/-- The logic level of a contact (00_scope.md R14, R15). -/
inductive Level where
  | low
  | high
deriving DecidableEq, Repr, Inhabited

/-- A wired-AND line reads low if any driver pulls low (10_state.md R22). -/
def Level.meet : Level → Level → Level
  | .low, _ => .low
  | .high, b => b

/-- The level of a bit on SDA: 1 is the released line, high (30_encoding.md R120). -/
def Level.ofBool : Bool → Level
  | true => .high
  | false => .low

/-- The bit a level carries. -/
def Level.toBool : Level → Bool
  | .high => true
  | .low => false

end Sys2Proof
end

