-- ==== Sys2Proof/Syntax.lean ====
section
/-! DEFINITION. The operations of spec/opcode_table.json (one constructor a row), the symbols their encodings are made
of, and the entries of a host script: 00_scope.md R16; 30_encoding.md R120 to R129, R150. -/

namespace Sys2Proof

/-- The two address spaces, selected by the device address (20_memory.md R80). -/
inductive Space where
  | a0
  | a2
deriving DecidableEq, Repr, Inhabited

/-- The R/W select bit of a device address word: 0 write, 1 read (30_encoding.md R122). -/
inductive Dir where
  | write
  | read
deriving DecidableEq, Repr, Inhabited

/-- Power levels I, II and III (41_power_and_esd.md R231). -/
inductive PowerLevel where
  | one
  | two
  | three
deriving DecidableEq, Repr, Inhabited

/-- How the fault reset protocol is run (60_exceptions.md R626). -/
inductive Via where
  | contact
  | software
deriving DecidableEq, Repr, Inhabited

/-- How an acknowledge poll ends: `h:P or h:Sr` (30_encoding.md R126). -/
inductive PollEnd where
  | stop
  | repeatedStart
deriving DecidableEq, Repr, Inhabited

/-- A poll: the direction of its device address word, and its end (30_encoding.md R126). -/
structure Poll where
  dir : Dir
  fin : PollEnd
deriving DecidableEq, Repr, Inhabited

/-- The logic contacts a host drives without the bus: contacts 3, 7 and 9 (30_encoding.md R129). -/
inductive HostPin where
  | txDisable
  | rs0
  | rs1
deriving DecidableEq, Repr, Inhabited

/-- How far insertion has progressed (10_state.md R32, R23). `caseOnly` is R23's "case first", before the three stages of
R32. -/
inductive Mated where
  | absent
  | caseOnly
  | grounds
  | power
  | all
deriving DecidableEq, Repr, Inhabited

/-- The software controls reached over the 2-wire interface (10_state.md R37; format `2w-abstract` of R129). -/
inductive Control where
  /-- the power level enable: I disables (41 R240, R241) -/
  | power (l : PowerLevel)
  /-- the Software Tx disable (60 R626) -/
  | softTx (v : Bool)
  /-- the software rate select (40 R175) -/
  | softRate (rs0 rs1 : Level)
deriving DecidableEq, Repr, Inhabited

/-- The operations of spec/opcode_table.json. -/
inductive Instr where
  /-- DEVICE_ADDRESS_WORD (R122) -/
  | deviceAddressWord (s : Space) (r : Dir)
  /-- DATA_WORD_ADDRESS (R123) -/
  | dataWordAddress (a : Byte)
  /-- DATA_WORD (R124) -/
  | dataWord (d : Byte)
  /-- CURRENT_READ (R370) -/
  | currentRead (s : Space)
  /-- RANDOM_READ (R371) -/
  | randomRead (s : Space) (a : Byte)
  /-- SEQ_READ_CURRENT (R372) -/
  | seqReadCurrent (s : Space) (n : Nat)
  /-- SEQ_READ_RANDOM (R373) -/
  | seqReadRandom (s : Space) (a : Byte) (n : Nat)
  /-- BYTE_WRITE (R374) -/
  | byteWrite (s : Space) (a : Byte) (d : Byte)
  /-- SEQ_WRITE (R375) -/
  | seqWrite (s : Space) (a : Byte) (ds : List Byte)
  /-- ACK_POLL (R376) -/
  | ackPoll (s : Space) (r : Poll)
  /-- MGMT_RESET (R377) -/
  | mgmtReset
  /-- TX_DISABLE_ASSERT (R162) -/
  | txDisableAssert
  /-- TX_DISABLE_NEGATE (R163) -/
  | txDisableNegate
  /-- TX_FAULT_RESET (R626) -/
  | txFaultReset (via : Via)
  /-- RS0_SET (R172) -/
  | rs0Set (v : Level)
  /-- RS1_SET (R173) -/
  | rs1Set (v : Level)
  /-- POWER_ON (R238) -/
  | powerOn
  /-- POWER_OFF (R239) -/
  | powerOff
  /-- INSERT (R165) -/
  | insert
  /-- REMOVE (R166) -/
  | remove
  /-- POWER_LEVEL_ENABLE (R240) -/
  | powerLevelEnable (l : PowerLevel)
  /-- POWER_LEVEL_DISABLE (R241) -/
  | powerLevelDisable
  /-- SOFT_TX_DISABLE (R626) -/
  | softTxDisable (v : Bool)
  /-- SOFT_RATE_SELECT (R175) -/
  | softRateSelect (rs0 rs1 : Level)
deriving DecidableEq, Repr, Inhabited

/-- What a host puts on the wires and contacts, one symbol at a time: the bus symbols and word formats of 30_encoding.md
R120 to R125 (a word slot has nine SCL pulses, R121), the contact levels of R129, and the script forms of R150. -/
inductive Sym where
  /-- START or repeated START (R120) -/
  | start
  /-- STOP (R120) -/
  | stop
  /-- a device address word the host sends, `DEVW(s)`, `DEVR(s)` or another device's (R122, R125) -/
  | dev (w : Byte)
  /-- a data word address the host sends, `ADDR(a)` (R123, R125) -/
  | addr (a : Byte)
  /-- a data word the host sends, `DATA(d)` (R124, R125) -/
  | data (d : Byte)
  /-- a word slot in which the host releases SDA for eight bits and then acknowledges (`true`) or not (R125) -/
  | read (ack : Bool)
  /-- one SCL pulse with the host driving SDA to this level (R120); for words that break off -/
  | pulse (x : Level)
  /-- the management interface reset: up to nine SCL pulses, then START (R126, R377) -/
  | mgmt
  /-- a contact driven to a level (R129) -/
  | contact (p : HostPin) (x : Level)
  /-- a contact left open (R129; 10_state.md R25, R26) -/
  | openPin (p : HostPin)
  /-- the rails VccT, VccR inside (`true`) or outside Table 8 (R129; 41 R238) -/
  | rails (vccT vccR : Bool)
  /-- the contact groups mated so far (10_state.md R23) -/
  | mate (m : Mated)
  /-- a control written over the bus at a location that is a parameter (R129) -/
  | control (c : Control)
  /-- WAIT, in units of 100 ns (R150) -/
  | wait (t : Nat)
  /-- the host looks at Tx_Fault, Rx_LOS and Mod_ABS (`EXPECT`, R150) -/
  | sample
  /-- the host chooses the SCL period, in units of 100 ns (43 R353) -/
  | clock (period : Nat)
  /-- the host puts data on TD+/TD-, or stops (10_state.md R22, R31) -/
  | txData (present : Bool)
  /-- whether the host waits while the module holds SCL low (43 R362; 70_reset_and_hazards.md R685 row 8) -/
  | honour (b : Bool)
deriving DecidableEq, Repr, Inhabited

/-- What the environment does (00_scope.md R10 (c), (d)). -/
inductive EnvEvent where
  /-- `signal_present` (10_state.md R34) -/
  | signal (present : Bool)
  /-- `fault_condition` of the safety circuit (10_state.md R33) -/
  | fault (present : Bool)
  /-- `rx_data_valid`: what the receiver takes in is data (10_state.md R31) -/
  | rxData (valid : Bool)
  /-- a device holds SDA low, or releases it (60_exceptions.md R620, R641) -/
  | holdSda (held : Bool)
  /-- the module holds SCL low, or releases it (60_exceptions.md R641 (b)); it must have power -/
  | holdScl (held : Bool)
  /-- a device holds SCL low, or releases it (60_exceptions.md R620 HungBus) -/
  | blockScl (held : Bool)
deriving DecidableEq, Repr, Inhabited

/-- One line of a script: an operation or other symbols of the host, or an event of the environment. -/
inductive Entry where
  | host (line : List Sym)
  | env (e : EnvEvent)
deriving DecidableEq, Repr, Inhabited

/-- The abnormal conditions of 60_exceptions.md R620, as `raise` names them. -/
inductive Condition where
  | txFault
  | rxLos
  | modAbsent
  | noAcknowledge
  | abortedWrite
  | writeOverrun
  | hungBus
deriving DecidableEq, Repr, Inhabited

end Sys2Proof
end

