-- ==== Sys2Proof/Config.lean ====
section
/-! DEFINITION. What the source leaves to the implementation (00_scope.md R11), the time bounds of Tables 7, 22 and 23
(40_low_speed_control.md R200; 43_two_wire_operations.md R353, R354), and the free values (00_scope.md R14 `draw`). In every
file, log n is notes/assumptions/n.md, and 93 and 92 are 93_implementation_defined.md and 92_eei_decisions.md. -/

namespace Sys2Proof

/-- Receiver kinds (`P_RX_KIND`). -/
inductive RxKind where
  | linear
  | limiting
deriving DecidableEq, Repr, Inhabited

/-- What a host supports (`P_HOST_SUPPORTS`). -/
inductive HostSupports where
  | linear
  | limiting
  | both
deriving DecidableEq, Repr, Inhabited

/-- `P_ABORT_CTR` (20_memory.md R89). -/
inductive AbortCtr where
  | keepIncremented
  | restoreLoaded
deriving DecidableEq, Repr, Inhabited

/-- `P_RS_COMBINE` (40_low_speed_control.md R175). -/
inductive RsCombine where
  | or
  | contactOnly
  | softwareOnly
deriving DecidableEq, Repr, Inhabited

/-- `P_TXDIS_COMBINE` (40_low_speed_control.md R163). -/
inductive TxDisCombine where
  | or
  | contactOnly
deriving DecidableEq, Repr, Inhabited

/-- The place of a field of the SFF-8472 map, which the source does not give (10_state.md R37): the byte, the bits of it,
and the value of those bits that means "asserted". -/
structure Field where
  space : Space
  addr : Byte
  mask : Byte
  on : Byte
deriving DecidableEq, Repr, Inhabited

/-- The place of the power level enable (10_state.md R48: it selects I, II or III), with the code of each level above I. -/
structure PowerField where
  space : Space
  addr : Byte
  mask : Byte
  codeI : Byte
  codeII : Byte
  codeIII : Byte
deriving DecidableEq, Repr, Inhabited

/-- The implementation parameters of 00_scope.md R11 and 93_implementation_defined.md section 2. They never change while
the machine runs. Memory addresses are keys: 0 to 255 for A0h, 256 to 511 for A2h. -/
structure Params where
  /-- `P_TXFAULT_IMPL` -/
  txFaultImpl : Bool
  /-- `P_RXLOS_IMPL` -/
  rxLosImpl : Bool
  /-- `P_RS0_USED` -/
  rs0Used : Bool
  /-- `P_RS1_USED` -/
  rs1Used : Bool
  /-- `P_AS_MODE` -/
  asMode : Bool
  /-- `P_PASSIVE_CABLE` -/
  passiveCable : Bool
  /-- `P_COOLED` -/
  cooled : Bool
  /-- `P_POWER_LEVEL` -/
  powerLevel : PowerLevel
  /-- `P_RX_KIND` -/
  rxKind : RxKind
  /-- `P_HOST_SUPPORTS` -/
  hostSupports : HostSupports
  /-- `P_STRETCH` -/
  stretch : Bool
  /-- `P_A0_INIT`, `P_A2_INIT`: the bytes the map fixes, as (key, byte) -/
  init : List (Nat × Byte)
  /-- `P_WRITABLE`, as keys -/
  writable : List Nat
  /-- `P_VOLATILE`, as keys -/
  volatile : List Nat
  /-- the module is for Fibre Channel: the FC rate select bound of Table 7 applies -/
  fibreChannel : Bool
  /-- the host fitted the optional pull-up on Mod_ABS (10_state.md R27) -/
  modAbsPullUp : Bool
  /-- `P_1G_SUPPORT` -/
  oneGig : Bool
  /-- `P_VCC_HOST`, in mV -/
  vccHost : Nat
  /-- `Vcc_Host_2w`, in mV (10_state.md R46) -/
  vccHost2w : Nat
  /-- `P_RATE`, in kBd -/
  rate : Nat
  /-- `P_ABORT_CTR` -/
  abortCtr : AbortCtr
  /-- `P_MAY_NACK_BUSY` -/
  mayNackBusy : Bool
  /-- `P_RS_COMBINE` -/
  rsCombine : RsCombine
  /-- `P_TXDIS_COMBINE` -/
  txDisCombine : TxDisCombine
  /-- `t_power_level3`, in 100 ns -/
  tPowerLevel3 : Nat
  /-- `t_power_down3`, in 100 ns -/
  tPowerDown3 : Nat
  /-- the choice of 93_implementation_defined.md U11: a fault while disabled is latched at once -/
  latchWhenDisabled : Bool
  /-- Software Tx disable after power-up (10_state.md R50: parameter) -/
  softTxInit : Bool
  /-- software rate select after power-up (10_state.md R50: parameter) -/
  softRs0Init : Level
  softRs1Init : Level
  /-- where the software controls lie (10_state.md R37) -/
  softTxField : Field
  softRs0Field : Field
  softRs1Field : Field
  powerField : PowerField
  /-- where the fixed status bits lie (10_state.md R37, R48) -/
  cooledField : Field
  levelField : Field
  /-- where Rx_LOS is reported via the 2-wire interface, if it is (10_state.md R28, R37) -/
  losField : Option Field
deriving DecidableEq, Repr, Inhabited

/-- The parameters of the module and host at hand: unknown (00_scope.md R11). (DEDUCED: log 3.) -/
opaque Config.module : Params

/-- Free natural numbers (00_scope.md R14 `draw`); a bound is applied where one is drawn. (DESIGN CHOICE: log 4.) -/
opaque Config.freeNat : Nat → Nat

/-- Free truth values. -/
opaque Config.freeBool : Nat → Bool

/-- Free bytes. -/
opaque Config.freeByte : Nat → Byte

/-- The free level of a contact whose level the source does not define, at an observation (93 U1, U2). (DESIGN CHOICE:
log 4.) -/
opaque Config.freeLevel : Nat → Nat → Level

/-! Time is counted in units of 100 ns. Table 7 (40_low_speed_control.md R200). -/

/-- t_off, 100 µs. -/
def Config.tOff : Nat := 1000
/-- t_on, 2 ms. -/
def Config.tOn : Nat := 20000
/-- t_2w_start_up, 300 ms. -/
def Config.t2wStartUp : Nat := 3000000
/-- t_start_up, 300 ms. -/
def Config.tStartUp : Nat := 3000000
/-- t_start_up_cooled, 90 s. -/
def Config.tStartUpCooled : Nat := 900000000
/-- t_power_level2, 300 ms. -/
def Config.tPowerLevel2 : Nat := 3000000
/-- t_power_down, 300 ms. -/
def Config.tPowerDown : Nat := 3000000
/-- Tx_Fault_on, 1 ms. -/
def Config.txFaultOn : Nat := 10000
/-- Tx_Fault_on_cooled, 50 ms. -/
def Config.txFaultOnCooled : Nat := 500000
/-- t_reset, 10 µs: the one minimum of Table 7. -/
def Config.tReset : Nat := 100
/-- t_RS0_FC, t_RS1_FC, 500 µs. -/
def Config.tRsFc : Nat := 5000
/-- t_RS0, t_RS1, 24 ms. -/
def Config.tRs : Nat := 240000
/-- t_los_on, 100 µs. -/
def Config.tLosOn : Nat := 1000
/-- t_los_off, 100 µs. -/
def Config.tLosOff : Nat := 1000
/-- tBUF, 20 µs (43 R353). -/
def Config.tBuf : Nat := 200
/-- tSU,STA, tHD,STA and tSU,STO, 0.6 µs each (43 R353; 70_reset_and_hazards.md R690). -/
def Config.tSuSta : Nat := 6
/-- tHD,STA. -/
def Config.tHdSta : Nat := 6
/-- tSU,STO. -/
def Config.tSuSto : Nat := 6
/-- The shortest SCL period, 2.5 µs: fSCL at most 400 kHz (43 R353). -/
def Config.sclPeriodMin : Nat := 25
/-- The SCL period of 100 kHz: no stretching is needed at or above it (43 R353). -/
def Config.sclPeriodNoStretch : Nat := 100
/-- T_clock_hold, 500 µs (43 R354). -/
def Config.tClockHold : Nat := 5000
/-- tWR of 1 to 4 bytes, 40 ms (43 R354). -/
def Config.tWr4 : Nat := 400000
/-- tWR of 5 to 8 bytes, 80 ms (43 R354). -/
def Config.tWr8 : Nat := 800000
/-- The rails come up within 100 ms of each other (41 R233). -/
def Config.tRailSkew : Nat := 1000000
/-- The 500 ms allowance for excess power (41 R234). -/
def Config.tAllowance : Nat := 5000000
/-- `P_SEQ_WRITE_MAX`: 8 for every compliant module (00_scope.md R11). -/
def Config.seqWriteMax : Nat := 8

end Sys2Proof
end

