-- ==== Sys2Proof/WellFormed.lean ====
section
/-! DEFINITION. Which operands the legal frames and operations admit: 30_encoding.md R126; 41_power_and_esd.md R240. -/

namespace Sys2Proof

/-- The operand ranges of 30_encoding.md R126 (n at least 2; 2 to 8 data words) and 41_power_and_esd.md R240 (level II
or III). Every other operand value is legal (R123, R124). -/
def Instr.wf : Instr → Bool
  | .deviceAddressWord _ _ => true
  | .dataWordAddress _ => true
  | .dataWord _ => true
  | .currentRead _ => true
  | .randomRead _ _ => true
  | .seqReadCurrent _ n => decide (2 ≤ n)
  | .seqReadRandom _ _ n => decide (2 ≤ n)
  | .byteWrite _ _ _ => true
  | .seqWrite _ _ ds => decide (2 ≤ ds.length) && decide (ds.length ≤ 8)
  | .ackPoll _ _ => true
  | .mgmtReset => true
  | .txDisableAssert => true
  | .txDisableNegate => true
  | .txFaultReset _ => true
  | .rs0Set _ => true
  | .rs1Set _ => true
  | .powerOn => true
  | .powerOff => true
  | .insert => true
  | .remove => true
  | .powerLevelEnable l => decide (l ≠ .one)
  | .powerLevelDisable => true
  | .softTxDisable _ => true
  | .softRateSelect _ _ => true

end Sys2Proof
end

