-- ==== Sys2Proof/Decode.lean ====
section
/-! DEFINITION. From the symbols on the wires and contacts to the operation they are, and back: 30_encoding.md R122 to
R129. A line that is no operation is refused by name; `step` then plays it symbol by symbol. -/

namespace Sys2Proof

/-- Why a line of symbols is no operation of the table. -/
inductive Reject where
  /-- a device address word with bits 7..2 other than 101000 (R128, D13) -/
  | foreignAddress (w : Byte)
  /-- a frame begun by a read word that does not go on to a NACK and STOP (R126, R128) -/
  | badReadFrame
  /-- a frame begun by a write word that is none of R126 -/
  | badWriteFrame
  /-- a write frame with a data word address and no data word (R128, D15) -/
  | noDataWord
  /-- a write frame with more than eight data words (R128, D14) -/
  | tooManyDataWords
  /-- the second device address word of a random read selects the other space or is no read word (R371) -/
  | mixedSpaces
  /-- Tx_Disable high for less than t_reset between its two levels (R626; 93 U6) -/
  | shortResetPulse
  /-- Tx_Disable high for longer than t_reset: the same protocol (R626), played with its own length -/
  | longResetPulse
  /-- any other line -/
  | notAnOperation
deriving DecidableEq, Repr, Inhabited

/-- The memory key of a byte: the two spaces one after the other (20_memory.md R80). -/
def memKey (s : Space) (a : Byte) : Nat :=
  match s with
  | .a0 => a.toNat
  | .a2 => 256 + a.toNat

/-- The device address word `101000 AS RW` (R122). -/
def devWord (s : Space) (r : Dir) : Byte :=
  match s, r with
  | .a0, .write => 0b10100000#8
  | .a0, .read => 0b10100001#8
  | .a2, .write => 0b10100010#8
  | .a2, .read => 0b10100011#8

/-- Mask FCh, match A0h, then AS = w[1] and RW = w[0] (R122). -/
def decodeDev (w : Byte) : Except Reject (Space × Dir) :=
  if w &&& 0xFC#8 = 0xA0#8 then
    .ok (if w.getLsbD 1 then .a2 else .a0, if w.getLsbD 0 then .read else .write)
  else
    .error (.foreignAddress w)

/-- The rest of a read: words the host acknowledges, one it does not, STOP. Answers how many words (R126, R127). -/
def readTail : List Sym → Option Nat
  | .read true :: l => (readTail l).map (· + 1)
  | [.read false, .stop] => some 1
  | _ => none

/-- The rest of a write: data words and STOP (R126, R127). -/
def dataTail : List Sym → Option (List Byte)
  | .data d :: l => (dataTail l).map (d :: ·)
  | [.stop] => some []
  | _ => none

/-- A frame after a read device address word. -/
def decodeReadFrame (s : Space) : List Sym → Except Reject Instr
  | [.stop] => .ok (.ackPoll s ⟨.read, .stop⟩)
  | [.start] => .ok (.ackPoll s ⟨.read, .repeatedStart⟩)
  | l =>
    match readTail l with
    | some 1 => .ok (.currentRead s)
    | some n => .ok (.seqReadCurrent s n)
    | none => .error .badReadFrame

/-- The second half of a random read: a repeated START and the read word of the same space (R371, R373). -/
def decodeRandomRead (s : Space) (a : Byte) (w : Byte) (l : List Sym) : Except Reject Instr :=
  if w = devWord s .read then
    match readTail l with
    | some 1 => .ok (.randomRead s a)
    | some n => .ok (.seqReadRandom s a n)
    | none => .error .badReadFrame
  else
    .error .mixedSpaces

/-- The data words of a write frame (R374, R375). -/
def decodeDataWords (s : Space) (a : Byte) (l : List Sym) : Except Reject Instr :=
  match dataTail l with
  | none => .error .badWriteFrame
  | some [] => .error .noDataWord
  | some [d] => .ok (.byteWrite s a d)
  | some ds => if ds.length ≤ Config.seqWriteMax then .ok (.seqWrite s a ds) else .error .tooManyDataWords

/-- A frame after a write device address word. -/
def decodeWriteFrame (s : Space) : List Sym → Except Reject Instr
  | [.stop] => .ok (.ackPoll s ⟨.write, .stop⟩)
  | [.start] => .ok (.ackPoll s ⟨.write, .repeatedStart⟩)
  | .addr a :: .start :: .dev w :: l => decodeRandomRead s a w l
  | .addr a :: l => decodeDataWords s a l
  | _ => .error .badWriteFrame

/-- A frame: the device address word after START says which way it goes (R127). -/
def decodeFrame (w : Byte) (l : List Sym) : Except Reject Instr :=
  match decodeDev w with
  | .error e => .error e
  | .ok (s, .read) => decodeReadFrame s l
  | .ok (s, .write) => decodeWriteFrame s l

/-- The contact operations and the abstract operations (R129). -/
def decodeContacts : List Sym → Except Reject Instr
  | [.contact .txDisable .high] => .ok .txDisableAssert
  | [.openPin .txDisable] => .ok .txDisableAssert
  | [.contact .txDisable .low] => .ok .txDisableNegate
  | [.contact .txDisable .high, .wait t, .contact .txDisable .low] =>
    if t = Config.tReset then .ok (.txFaultReset .contact)
    else .error (if t < Config.tReset then .shortResetPulse else .longResetPulse)
  | [.contact .rs0 v] => .ok (.rs0Set v)
  | [.openPin .rs0] => .ok (.rs0Set .low)
  | [.contact .rs1 v] => .ok (.rs1Set v)
  | [.openPin .rs1] => .ok (.rs1Set .low)
  | [.rails true true] => .ok .powerOn
  | [.rails false false] => .ok .powerOff
  | [.mate .caseOnly, .mate .grounds, .mate .power, .mate .all] => .ok .insert
  | [.mate .power, .mate .grounds, .mate .caseOnly, .mate .absent] => .ok .remove
  | [.mate .absent] => .ok .remove
  | [.control (.power .one)] => .ok .powerLevelDisable
  | [.control (.power l)] => .ok (.powerLevelEnable l)
  | [.control (.softTx v)] => .ok (.softTxDisable v)
  | [.control (.softTx true), .control (.softTx false)] => .ok (.txFaultReset .software)
  | [.control (.softRate x y)] => .ok (.softRateSelect x y)
  | _ => .error .notAnOperation

/-- The operation a line of symbols is. Total; a line that is none is refused by name. -/
def decode : List Sym → Except Reject Instr
  | .start :: .dev w :: l => decodeFrame w l
  | [.dev w] => (decodeDev w).map fun (s, r) => .deviceAddressWord s r
  | [.addr a] => .ok (.dataWordAddress a)
  | [.data d] => .ok (.dataWord d)
  | [.mgmt] => .ok .mgmtReset
  | l => decodeContacts l

/-- The symbols of a read of n words: all acknowledged but the last, then STOP (R126). -/
def readSyms (n : Nat) : List Sym :=
  List.replicate (n - 1) (.read true) ++ [.read false, .stop]

/-- The symbols of an operation, from the same rows of R122 to R129. -/
def encode : Instr → List Sym
  | .deviceAddressWord s r => [.dev (devWord s r)]
  | .dataWordAddress a => [.addr a]
  | .dataWord d => [.data d]
  | .currentRead s => [.start, .dev (devWord s .read), .read false, .stop]
  | .randomRead s a =>
    [.start, .dev (devWord s .write), .addr a, .start, .dev (devWord s .read), .read false, .stop]
  | .seqReadCurrent s n => .start :: .dev (devWord s .read) :: readSyms n
  | .seqReadRandom s a n =>
    .start :: .dev (devWord s .write) :: .addr a :: .start :: .dev (devWord s .read) :: readSyms n
  | .byteWrite s a d => [.start, .dev (devWord s .write), .addr a, .data d, .stop]
  | .seqWrite s a ds => .start :: .dev (devWord s .write) :: .addr a :: (ds.map .data ++ [.stop])
  | .ackPoll s ⟨r, .stop⟩ => [.start, .dev (devWord s r), .stop]
  | .ackPoll s ⟨r, .repeatedStart⟩ => [.start, .dev (devWord s r), .start]
  | .mgmtReset => [.mgmt]
  | .txDisableAssert => [.contact .txDisable .high]
  | .txDisableNegate => [.contact .txDisable .low]
  | .txFaultReset .contact => [.contact .txDisable .high, .wait Config.tReset, .contact .txDisable .low]
  | .txFaultReset .software => [.control (.softTx true), .control (.softTx false)]
  | .rs0Set v => [.contact .rs0 v]
  | .rs1Set v => [.contact .rs1 v]
  | .powerOn => [.rails true true]
  | .powerOff => [.rails false false]
  | .insert => [.mate .caseOnly, .mate .grounds, .mate .power, .mate .all]
  | .remove => [.mate .power, .mate .grounds, .mate .caseOnly, .mate .absent]
  | .powerLevelEnable l => [.control (.power l)]
  | .powerLevelDisable => [.control (.power .one)]
  | .softTxDisable v => [.control (.softTx v)]
  | .softRateSelect x y => [.control (.softRate x y)]

/-- Word i of a table word: bits 8i+7..8i. -/
def tableWord (w i : Nat) : Byte := BitVec.ofNat 8 (w >>> (8 * i))

/-- The symbols of the words a table row gives: the words between a START and a STOP, with operand words of zeros up
to the shortest frame the first word begins; a first word that is no device address word is a data word (R127). The
table gives frames no bits for START, STOP and the acknowledge slots, so rows that share a first word share these
symbols. (DESIGN CHOICE: log 36.) -/
def layout (nbits w : Nat) : List Sym :=
  match decodeDev (tableWord w 0) with
  | .error _ => [.data (tableWord w 0)]
  | .ok (_, .read) => .start :: .dev (tableWord w 0) :: readSyms (max 1 (nbits / 8 - 1))
  | .ok (_, .write) =>
    .start :: .dev (tableWord w 0) :: .addr (tableWord w 1)
      :: ((List.range (max 1 (nbits / 8 - 2))).map fun i => Sym.data (tableWord w (i + 2))) ++ [.stop]

/-- The instruction the decoder reads from a table row's bits. -/
def decodeTableWord (nbits w : Nat) : Option Instr :=
  match decode (layout nbits w) with
  | .ok i => some i
  | .error _ => none

/-- The number of words of a frame on the wire (the Words column of R126). -/
def wordsOf : List Sym → Nat
  | [] => 0
  | .dev _ :: l => wordsOf l + 1
  | .addr _ :: l => wordsOf l + 1
  | .data _ :: l => wordsOf l + 1
  | .read _ :: l => wordsOf l + 1
  | _ :: l => wordsOf l

/-- SCL pulses of a frame: nine a word (R121; 70_reset_and_hazards.md R690). -/
def pulsesOf (l : List Sym) : Nat := 9 * wordsOf l

end Sys2Proof
end

