-- ==== Sys2Proof/Machine/State.lean ====
section
/-! DEFINITION. The state of the modelled system, 10_state.md R20 to R51, as plain data, and its value after power-up
(R50). INVENTORY.md lists every piece with the rule that names it. -/

namespace Sys2Proof.Machine

/-- Elapsed time (R45, in 100 ns) and the number of free values used so far (the model's own). -/
structure Clock where
  now : Nat
  drawn : Nat
deriving DecidableEq, Repr, Inhabited

/-- What the host holds (R46): its rails, the instant from which one rail has been alone at the module, the levels it
drives, data on TD+/TD-, its SCL period, whether it waits for SCL, and its bus master state: whether a transaction is
open, and the bus symbols of the open one so far, which say which transaction it is in and which bit. -/
structure HostSide where
  vccT : Bool
  vccR : Bool
  railAt : Option Nat
  txDisable : Level
  rs0 : Level
  rs1 : Level
  txData : Bool
  sclPeriod : Nat
  honours : Bool
  inFrame : Bool
  frame : List Sym
deriving DecidableEq, Repr, Inhabited

/-- What the host has read: the words and acknowledge bits of the latest transaction, the wires last sampled
(Tx_Fault, Rx_LOS, Mod_ABS). -/
structure Seen where
  rx : List Byte
  acks : List Bool
  wires : Option (Level × Level × Level)
deriving DecidableEq, Repr, Inhabited

/-- The environment's inputs (R31, R33, R34; 60_exceptions.md R641). -/
structure Outside where
  signal : Bool
  faultCond : Bool
  rxData : Bool
  sdaHeld : Bool
  sclHeld : Bool
deriving DecidableEq, Repr, Inhabited

/-- Presence, power and 2-wire readiness (R32); when VccT came to the module, until a start-up has used it
(70_reset_and_hazards.md R671); whether the module is marked faulty, `stuck` (60_exceptions.md R641). -/
structure SlotUnit where
  mated : Mated
  vccTAt : Option Nat
  powered : Bool
  powerAt : Nat
  ready : Bool
  readyDue : Nat
  stuck : Bool
deriving DecidableEq, Repr, Inhabited

/-- `tx_state` (R33). -/
inductive TxState where
  | offUnpowered
  | initializing
  | operating
  | disabled
  | faultLatched
deriving DecidableEq, Repr, Inhabited

/-- The transmitter (R33), the Software Tx disable (R37) and the transmitter's timers (R45). -/
structure TxUnit where
  state : TxState
  latch : Bool
  outputOn : Bool
  soft : Bool
  initDone : Bool
  due : Option Nat
  faultDue : Option Nat
  offDue : Option Nat
  riseAt : Nat
  fallAt : Nat
  faultAt : Nat
deriving DecidableEq, Repr, Inhabited

/-- The receiver's loss of signal (R34). `known` is false while the source does not state the level (R47). -/
structure RxUnit where
  los : Bool
  known : Bool
  due : Option Nat
  changeAt : Nat
deriving DecidableEq, Repr, Inhabited

/-- Rate selection (R35). -/
structure RateUnit where
  rxHigh : Bool
  txHigh : Bool
  soft0 : Level
  soft1 : Level
  due0 : Option Nat
  due1 : Option Nat
  changeAt : Nat
deriving DecidableEq, Repr, Inhabited

/-- The power level (R36): the level now, the level last asked for, whether it is reached. -/
structure LevelUnit where
  level : PowerLevel
  next : PowerLevel
  settled : Bool
  due : Option Nat
  writeAt : Option Nat
deriving DecidableEq, Repr, Inhabited

/-- `bus` (R42). -/
inductive BusState where
  | idle
  | gotStart
  | expectAddr
  | writeData
  | addressedRead
  | ignoring
  | idleUntilStop
deriving DecidableEq, Repr, Inhabited

/-- Where in a word slot the engine stands: the model's own refinement of R42 to single SCL edges (30_encoding.md
R121). `recv` takes bits in, `ackOut` answers the acknowledge bit, `send` puts bits out, `ackIn` takes the host's
acknowledge bit, `off` does nothing. (DESIGN CHOICE: log 7.) -/
inductive Phase where
  | off
  | recv
  | ackOut
  | send
  | ackIn
deriving DecidableEq, Repr, Inhabited

/-- The bus engine and the data word address counters (R40, R42). `sda` is the level the module leaves SDA at; `heldAt` is
when SCL last began to be held (`t_stretch`, R45) and `hold` how long the last word slot was stretched; `freeAt`,
`deafTill` and `deafWrite` are the host's: from when tBUF runs, until when the module may be starting up or in a write cycle
as far as it knows, and whether that is a write cycle. -/
structure Bus where
  state : BusState
  phase : Phase
  sel : Space
  shift : Byte
  nbits : Nat
  sda : Level
  willAck : Bool
  hostAck : Bool
  wbuf : List (Byte × Byte)
  loaded : Byte
  ctrA0 : Byte
  ctrA2 : Byte
  stretching : Bool
  heldAt : Nat
  hold : Nat
  freeAt : Option Nat
  deafTill : Option Nat
  deafWrite : Bool
deriving DecidableEq, Repr, Inhabited

/-- The write cycle (R43) and the endurance count (R44). -/
structure WriteUnit where
  busy : Bool
  space : Space
  due : Nat
  startAt : Nat
  cycles : Nat
deriving DecidableEq, Repr, Inhabited

/-- The whole state (R20). -/
structure State where
  clk : Clock
  cfg : Params
  host : HostSide
  seen : Seen
  out : Outside
  slot : SlotUnit
  tx : TxUnit
  rcv : RxUnit
  rate : RateUnit
  lvl : LevelUnit
  bus : Bus
  wr : WriteUnit
  mem : List Host.Cell
  raised : List Condition
  script : List Entry
deriving DecidableEq, Repr, Inhabited

/-- The reasons the machine stops: there is none. No condition of 60_exceptions.md R620 ends a run; a module marked
`stuck` (R641) waits for the loss of its power. -/
inductive Fault where
deriving DecidableEq, Repr

/-- The reasons a run is rejected as outside the spec. -/
inductive Refusal where
  /-- An instruction without a meaning, rejected by its arm in `exec`. Safe. -/
  | notModelled (mnemonic : String)
  /-- A ninth data word in one write: 93_implementation_defined.md U3, treatment `refuse`. Raised by the operations that
  clock data bits into a module that already holds eight. Safe: nothing is predicted. -/
  | writeOverrun
  /-- The rails came up more than 100 ms apart: 93_implementation_defined.md U10, treatment `refuse`. Raised when the
  second rail comes into range. Safe. -/
  | railSkew
  /-- The host asked for an SCL period below 2.5 µs: 70_reset_and_hazards.md R685 row 10, "not stated". Raised by the
  script symbol that sets the period. Safe. -/
  | clockTooFast
deriving DecidableEq, Repr, Inhabited

/-- The parameters after reset: unknown, but for the defaults the spec names (20_memory.md R89, R92;
40_low_speed_control.md R163; 93_implementation_defined.md U11). (DEDUCED: log 3.) -/
def resetParams : Params :=
  { Config.module with
    abortCtr := .keepIncremented
    mayNackBusy := false
    txDisCombine := .or
    latchWhenDisabled := true }

/-- The drawn instant at which a used, non-SFF-8079 rate select input is first taken over (R35). -/
def resetRateDue (used : Bool) (k : Nat) : Option Nat :=
  if used && !Config.module.asMode then
    some (Config.freeNat k % ((if Config.module.fibreChannel then Config.tRsFc else Config.tRs) + 1))
  else none

/-- Right after power-up of a mated module, the host's contacts undriven (10_state.md R50; 70_reset_and_hazards.md R670,
R672, R674). No bus master state is stated for it: the host has no transaction open and no symbol recorded, and no tBUF
runs. (DESIGN CHOICE where the spec gives no value: log 2, 5, 7, 14, 15, 33, 37, 46.) -/
def State.reset : State where
  clk := { now := 0, drawn := 7 }
  cfg := resetParams
  host :=
    { vccT := true, vccR := true, railAt := none, txDisable := .high, rs0 := .low, rs1 := .low, txData := false
      sclPeriod := Config.sclPeriodMin, honours := true, inFrame := false, frame := [] }
  seen := { rx := [], acks := [], wires := none }
  out := { signal := false, faultCond := false, rxData := false, sdaHeld := false, sclHeld := false }
  slot :=
    { mated := .all, vccTAt := none, powered := true, powerAt := 0, ready := false
      readyDue := Config.freeNat 0 % (Config.t2wStartUp + 1), stuck := false }
  tx :=
    { state := if Config.module.passiveCable then .initializing else .disabled
      latch := false, outputOn := false, soft := Config.module.softTxInit, initDone := false
      due :=
        if Config.module.passiveCable then
          some (Config.freeNat 1 % ((if Config.module.cooled then Config.tStartUpCooled else Config.tStartUp) + 1))
        else none
      faultDue := none, offDue := none, riseAt := 0, fallAt := 0, faultAt := 0 }
  rcv :=
    { los := false, known := false, due := some (Config.freeNat 2 % (Config.tStartUp + 1)), changeAt := 0 }
  rate :=
    { rxHigh := false, txHigh := false, soft0 := Config.module.softRs0Init, soft1 := Config.module.softRs1Init
      due0 := resetRateDue Config.module.rs0Used 3, due1 := resetRateDue Config.module.rs1Used 4, changeAt := 0 }
  lvl := { level := .one, next := .one, settled := true, due := none, writeAt := none }
  bus :=
    { state := .idle, phase := .off, sel := .a0, shift := 0, nbits := 0, sda := .high, willAck := false
      hostAck := false, wbuf := [], loaded := 0, ctrA0 := Config.freeByte 5, ctrA2 := Config.freeByte 6
      stretching := false, heldAt := 0, hold := 0, freeAt := none
      deafTill := some Config.t2wStartUp, deafWrite := false }
  wr := { busy := false, space := .a0, due := 0, startAt := 0, cycles := 0 }
  mem := []
  raised := []
  script := []

end Sys2Proof.Machine
end

