-- ==== Sys2Proof/Machine/Memory.lean ====
section
/-! DEFINITION. The two address spaces as one list of cells in canonical form (10_state.md R41; 20_memory.md R80, R93),
and the fields of the SFF-8472 map whose places are parameters (10_state.md R37). -/

namespace Sys2Proof.Machine

/-- What an unlisted key reads as: the byte `P_A0_INIT` / `P_A2_INIT` fixes, if it fixes one (30_encoding.md R128). -/
def Memory.unlisted (init : List (Nat × Byte)) (k : Nat) : Option Byte := init.lookup k

/-- `MemRead`, where the map fixes the byte or a write has set it; `none` where neither has (93 U5). (DEDUCED: log
24.) -/
def Memory.read (init : List (Nat × Byte)) (m : List Host.Cell) (k : Nat) : Option Byte :=
  match m.lookup k with
  | some v => some v
  | none => Memory.unlisted init k

/-- A cell put at its place in a rising list. -/
def Memory.insert (k : Nat) (v : Byte) : List Host.Cell → List Host.Cell
  | [] => [(k, v)]
  | c :: m =>
    if k < c.1 then (k, v) :: c :: m
    else if k = c.1 then (k, v) :: m
    else c :: Memory.insert k v m

/-- A key taken out. -/
def Memory.erase (k : Nat) (m : List Host.Cell) : List Host.Cell := m.filter fun c => decide (c.1 ≠ k)

/-- `MemWrite`. Writing what an unlisted key reads as takes the key out. -/
def Memory.write (init : List (Nat × Byte)) (k : Nat) (v : Byte) (m : List Host.Cell) : List Host.Cell :=
  if Memory.unlisted init k = some v then Memory.erase k m else Memory.insert k v m

/-- The canonical form: keys strictly rising and below 512, no cell equal to what its key reads as unlisted. -/
def Memory.wf (init : List (Nat × Byte)) (m : List Host.Cell) : Bool :=
  decide (m.Pairwise fun a b => a.1 < b.1) &&
    m.all fun c => decide (c.1 < 512) && decide (Memory.unlisted init c.1 ≠ some c.2)

/-- Whether the bits of a field say "asserted". -/
def fieldGet (f : Field) (v : Byte) : Bool := decide (v &&& f.mask = f.on &&& f.mask)

/-- A byte with the bits of a field set to say `b`. -/
def fieldPut (f : Field) (b : Bool) (v : Byte) : Byte :=
  (v &&& ~~~f.mask) ||| ((if b then f.on else ~~~f.on) &&& f.mask)

/-- The level a byte written to the power level enable asks for, if its code is one of the three. -/
def powerGet (f : PowerField) (v : Byte) : Option PowerLevel :=
  if v &&& f.mask = f.codeI &&& f.mask then some .one
  else if v &&& f.mask = f.codeII &&& f.mask then some .two
  else if v &&& f.mask = f.codeIII &&& f.mask then some .three
  else none

/-- A byte with the power level enable set to a level. -/
def powerPut (f : PowerField) (l : PowerLevel) (v : Byte) : Byte :=
  (v &&& ~~~f.mask) |||
    ((match l with
      | .one => f.codeI
      | .two => f.codeII
      | .three => f.codeIII) &&& f.mask)

/-- `P_WRITABLE`. The bytes of the software controls are host-writable (10_state.md R48). (DEDUCED: log 43.) -/
def isWritable (c : Params) (s : Space) (a : Byte) : Bool :=
  c.writable.contains (memKey s a)
    || decide (memKey c.softTxField.space c.softTxField.addr = memKey s a)
    || decide (memKey c.softRs0Field.space c.softRs0Field.addr = memKey s a)
    || decide (memKey c.softRs1Field.space c.softRs1Field.addr = memKey s a)
    || decide (memKey c.powerField.space c.powerField.addr = memKey s a)

/-- The bytes of one write put into memory, those that are writable (20_memory.md R93). -/
def Memory.writeAll (c : Params) (s : Space) : List (Byte × Byte) → List Host.Cell → List Host.Cell
  | [], m => m
  | (a, v) :: l, m =>
    Memory.writeAll c s l (if isWritable c s a then Memory.write c.init (memKey s a) v m else m)

/-- The bytes of an interrupted write hold any value: the k-th free byte for the k-th target (93 U8). (DEDUCED: log
23.) -/
def Memory.spoilAll (c : Params) (s : Space) : Nat → List (Byte × Byte) → List Host.Cell → List Host.Cell
  | _, [], m => m
  | k, (a, _) :: l, m =>
    Memory.spoilAll c s (k + 1) l
      (if isWritable c s a then Memory.write c.init (memKey s a) (Config.freeByte k) m else m)

end Sys2Proof.Machine
end

