-- ==== Sys2Proof/Machine/Ops.lean ====
section
/-! DEFINITION. The named operations over the registers: free values, conditions, the counters, entering the latched
fault (the one exception that changes the module's mode) and the return from it. -/

namespace Sys2Proof.Machine

/-- Go on with a step's next state. -/
def andThen (o : Host.Outcome State Fault Refusal) (f : State → Host.Outcome State Fault Refusal) :
    Host.Outcome State Fault Refusal :=
  match o with
  | .next s => f s
  | .fault r => .fault r
  | .refused r => .refused r

/-- A free number of at most `bound`, the k-th from now (00_scope.md R14 `draw`, `within`). (DESIGN CHOICE: log 4.) -/
def drawNat (s : State) (k bound : Nat) : Nat := Config.freeNat (s.clk.drawn + k) % (bound + 1)

/-- An instant at most `bound` from now (10_state.md R45; 92 D5). -/
def drawDue (s : State) (k bound : Nat) : Nat := s.clk.now + drawNat s k bound

/-- The k-th free truth value from now. -/
def drawBool (s : State) (k : Nat) : Bool := Config.freeBool (s.clk.drawn + k)

/-- The k-th free byte from now. -/
def drawByte (s : State) (k : Nat) : Byte := Config.freeByte (s.clk.drawn + k)

/-- n free values have been used. -/
def spend (n : Nat) (s : State) : State := { s with clk := { s.clk with drawn := s.clk.drawn + n } }

/-- Time passes. -/
def advance (t : Nat) (s : State) : State := { s with clk := { s.clk with now := s.clk.now + t } }

/-- `raise` (00_scope.md R14; 60_exceptions.md R620): recorded, control goes nowhere. (DESIGN CHOICE: log 46.) -/
def raise (c : Condition) (s : State) : State := { s with raised := s.raised ++ [c] }

/-- `ctr[s]` (10_state.md R40). -/
def ctrOf (b : Bus) (s : Space) : Byte :=
  match s with
  | .a0 => b.ctrA0
  | .a2 => b.ctrA2

/-- `ctr[s] <- v`; the other counter stays (20_memory.md R88). -/
def setCtr (s : Space) (v : Byte) (b : Bus) : Bus :=
  match s with
  | .a0 => { b with ctrA0 := v }
  | .a2 => { b with ctrA2 := v }

/-- `ctr[s] <- (ctr[s] + 1) mod 256` (20_memory.md R86, R87). -/
def stepCtr (s : Space) (b : Bus) : Bus := setCtr s (ctrOf b s + 1) b

/-- `t_init` (40_low_speed_control.md R201). -/
def tInit (c : Params) : Nat := if c.cooled then Config.tStartUpCooled else Config.tStartUp

/-- The bound of Tx_Fault assertion (40_low_speed_control.md R200). -/
def tFaultOn (c : Params) : Nat := if c.cooled then Config.txFaultOnCooled else Config.txFaultOn

/-- The bound of rate selection (40_low_speed_control.md R200). -/
def tRate (c : Params) : Nat := if c.fibreChannel then Config.tRsFc else Config.tRs

/-- TAKING THE EXCEPTION `TxFault` (60_exceptions.md R622, R647): the latch is set, the transmitter goes off, the wire is
released (it follows the latch, Flags.lean). Nothing is saved and no control is transferred. -/
def enterTxFault (s : State) : State :=
  raise .txFault
    { s with tx := { s.tx with
        state := .faultLatched, latch := true, outputOn := false, due := none, faultDue := none, offDue := none } }

/-- THE RETURN from `TxFault` (60_exceptions.md R626, R648), and the first negation since power-on
(70_reset_and_hazards.md R672): the latch is cleared and `t_init` runs. A fault present at this falling edge is latched
within Tx_Fault_on of its detection (60_exceptions.md R646 item 4), which is taken to be the edge. (DEDUCED: log 39.) -/
def beginInit (s : State) : State :=
  spend 2
    { s with tx := { s.tx with
        state := .initializing, latch := false, outputOn := false, initDone := false
        due := some (drawDue s 0 (tInit s.cfg))
        faultDue := if s.out.faultCond && s.cfg.txFaultImpl then some (drawDue s 1 (tFaultOn s.cfg)) else none } }

end Sys2Proof.Machine
end

