-- ==== Sys2Proof/Machine/Operands.lean ====
section
/-! DEFINITION. Where an operation's operands come from: the byte a data word address names, at the moment it is sent
(20_memory.md R84, R86; 43_two_wire_operations.md R372), the words a write has brought, and the software controls. -/

namespace Sys2Proof.Machine

/-- The byte memory holds at an address, a free one where nothing fixes it (93 U5). (DEDUCED: log 24.) -/
def storedByte (s : State) (sp : Space) (a : Byte) : Byte :=
  (Memory.read s.cfg.init s.mem (memKey sp a)).getD (drawByte s 0)

/-- A fixed status bit shown at its place, if this is its byte. -/
def showField (f : Field) (b : Bool) (sp : Space) (a : Byte) (v : Byte) : Byte :=
  if memKey f.space f.addr = memKey sp a then fieldPut f b v else v

/-- The SFF-8079 declaration: A0h byte 93 bit 2 (40_low_speed_control.md R176). -/
def asModeField : Field := { space := .a0, addr := 93#8, mask := 0b100#8, on := 0b100#8 }

/-- The bits of the map that are fixed for a module (10_state.md R48): cooled status, power level declaration,
SFF-8079 declaration. (DESIGN CHOICE: log 25.) -/
def showFixed (c : Params) (sp : Space) (a : Byte) (v : Byte) : Byte :=
  showField asModeField c.asMode sp a
    (showField c.levelField (decide (c.powerLevel ≠ .one)) sp a
      (showField c.cooledField c.cooled sp a v))

/-- Rx_LOS as reported via the 2-wire interface, where it is (10_state.md R28, R37): open while the source does not state it
(R47), a free value then; negated in a passive cable, which has no loss of signal indication (46_direct_attach_copper.md
R541). (DESIGN CHOICE: log 51.) -/
def showLos (s : State) (sp : Space) (a : Byte) (v : Byte) : Byte :=
  match s.cfg.losField with
  | some f => showField f (!s.cfg.passiveCable && if s.rcv.known then s.rcv.los else drawBool s 0) sp a v
  | none => v

/-- The software controls as their bytes show them (10_state.md R37, R48). (DESIGN CHOICE: log 17.) -/
def showControls (s : State) (sp : Space) (a : Byte) (v : Byte) : Byte :=
  let w :=
    showField s.cfg.softTxField s.tx.soft sp a
      (showField s.cfg.softRs0Field s.rate.soft0.toBool sp a
        (showField s.cfg.softRs1Field s.rate.soft1.toBool sp a v))
  if memKey s.cfg.powerField.space s.cfg.powerField.addr = memKey sp a then powerPut s.cfg.powerField s.lvl.next w else w

/-- The byte the module sends from an address: a free one where the byte is live status (`P_VOLATILE`), with the bits
that State or the parameters hold shown in it. (DEDUCED: log 48.) -/
def sampleByte (s : State) (sp : Space) (a : Byte) : Byte :=
  showFixed s.cfg sp a
    (showControls s sp a
      (showLos s sp a (if s.cfg.volatile.contains (memKey sp a) then drawByte s 0 else storedByte s sp a)))

/-- A byte that is memory and nothing else: not live, no control and no fixed bit in it. -/
def isPlain (c : Params) (sp : Space) (a : Byte) : Bool :=
  !c.volatile.contains (memKey sp a)
    && decide (memKey asModeField.space asModeField.addr ≠ memKey sp a)
    && decide (memKey c.levelField.space c.levelField.addr ≠ memKey sp a)
    && decide (memKey c.cooledField.space c.cooledField.addr ≠ memKey sp a)
    && decide (memKey c.softTxField.space c.softTxField.addr ≠ memKey sp a)
    && decide (memKey c.softRs0Field.space c.softRs0Field.addr ≠ memKey sp a)
    && decide (memKey c.softRs1Field.space c.softRs1Field.addr ≠ memKey sp a)
    && decide (memKey c.powerField.space c.powerField.addr ≠ memKey sp a)
    && c.losField.all fun f => decide (memKey f.space f.addr ≠ memKey sp a)

/-- The data word the current write has brought for a location, if any (43_two_wire_operations.md R366). (DEDUCED: log
18.) -/
def wordFor (b : Bus) (sp : Space) (a : Byte) : Option Byte :=
  if b.sel = sp then b.wbuf.lookup a else none

/-- The smaller of two power levels (92 D19). -/
def levelMin (a b : PowerLevel) : PowerLevel :=
  match a, b with
  | .one, _ => .one
  | _, .one => .one
  | .two, _ => .two
  | _, .two => .two
  | .three, .three => .three

/-- `wordFor` at the place of a one-bit control, as the value written there. -/
def controlFor (b : Bus) (f : Field) : Option Bool := (wordFor b f.space f.addr).map (fieldGet f)

end Sys2Proof.Machine
end

