-- ==== Sys2Proof/Machine/Flags.lean ====
section
/-! DEFINITION. The status wires as the host reads them (10_state.md R24, R27, R28, R47; 60_exceptions.md R623, R630,
R632), the control levels as the module reads them (R25, R26), and the level of every contact (R21 to R31). -/

namespace Sys2Proof.Machine

/-- Tx_Disable as the module reads it: the pull-up of the module makes it high where the host does not reach it (R25). -/
def txDisableIn (s : State) : Level := if s.slot.mated = .all then s.host.txDisable else .high

/-- RS0 as the module reads it: pulled low where the host does not reach it (R26). -/
def rs0In (s : State) : Level := if s.slot.mated = .all then s.host.rs0 else .low

/-- RS1 as the module reads it (R26). -/
def rs1In (s : State) : Level := if s.slot.mated = .all then s.host.rs1 else .low

/-- Whether the transmitter is told to be off: the contact and the Software Tx disable by `P_TXDIS_COMBINE`
(40_low_speed_control.md R163). -/
def txOff (s : State) : Bool :=
  decide (txDisableIn s = .high) || (decide (s.cfg.txDisCombine = .or) && s.tx.soft)

/-- A rate select contact and its software control by `P_RS_COMBINE` (40_low_speed_control.md R175). (DEDUCED: log
16.) -/
def rsCombined (c : RsCombine) (contact soft : Level) : Bool :=
  match c with
  | .or => contact.toBool || soft.toBool
  | .contactOnly => contact.toBool
  | .softwareOnly => soft.toBool

/-- The receive rate asked for (40_low_speed_control.md R172). -/
def rxWanted (s : State) : Bool := rsCombined s.cfg.rsCombine (rs0In s) s.rate.soft0

/-- The transmit rate asked for (40_low_speed_control.md R173). -/
def txWanted (s : State) : Bool := rsCombined s.cfg.rsCombine (rs1In s) s.rate.soft1

/-- Whether Tx_Fault is open: during initialisation and while Tx_Disable is held from power-on (93 U1, U2). (DEDUCED:
log 13.) -/
def txFaultOpen (t : TxUnit) : Bool :=
  decide (t.state = .initializing) || (decide (t.state = .disabled) && !t.initDone)

/-- Tx_Fault at the host (60_exceptions.md R621, R623); without power the wire is at its pulled level (R646 item 1). -/
def txFaultWire (s : State) : Level :=
  if s.slot.mated ≠ .all then .high
  else if !s.cfg.txFaultImpl then .low
  else if !s.slot.powered then .high
  else if s.tx.latch then .high
  else if txFaultOpen s.tx then Config.freeLevel s.clk.drawn 0
  else .low

/-- Rx_LOS at the host (60_exceptions.md R630; 46_direct_attach_copper.md R541); without power the wire is at its pulled
level (60_exceptions.md R646 item 1). (DESIGN CHOICE: log 14.) -/
def rxLosWire (s : State) : Level :=
  if s.slot.mated ≠ .all then .high
  else if !s.cfg.rxLosImpl || s.cfg.passiveCable then .low
  else if !s.slot.powered then .high
  else if !s.rcv.known then Config.freeLevel s.clk.drawn 1
  else Level.ofBool s.rcv.los

/-- Mod_ABS at the host: high through the pull-up, if there is one (10_state.md R27; 60_exceptions.md R632). (DEDUCED:
log 47.) -/
def modAbsWire (s : State) : Level :=
  if s.slot.mated = .all then .low
  else if s.cfg.modAbsPullUp then .high
  else Config.freeLevel s.clk.drawn 2

/-- SDA as every driver on the wire leaves it (10_state.md R22, R29). -/
def sdaLine (h : Level) (s : State) : Level :=
  if s.out.sdaHeld then .low
  else h.meet (if s.slot.mated = .all then s.bus.sda else .high)

/-- Whether the module holds SCL low: it must be mated and powered (10_state.md R22; 40_low_speed_control.md R166). -/
def moduleHolds (s : State) : Bool := s.bus.stretching && decide (s.slot.mated = .all) && s.slot.powered

/-- Whether SCL is held low, by the module or by another device on the wire (60_exceptions.md R620 HungBus). -/
def sclHeld (s : State) : Bool := moduleHolds s || s.out.sclHeld

/-- SCL as every driver on the wire leaves it (10_state.md R22, R29). -/
def sclLine (h : Level) (s : State) : Level := h.meet (if sclHeld s then .low else .high)

/-- SCL as the host leaves it between two symbols: low inside a transaction, where data may change, released outside
(30_encoding.md R120; 10_state.md R29 "idle level H"). -/
def hostScl (s : State) : Level := if s.host.inFrame then .low else .high

/-- What a contact carries (10_state.md R21). -/
inductive ContactView where
  /-- a ground: the reference, once mated -/
  | ground (mated : Bool)
  /-- a supply: in specification at the module -/
  | rail (inSpec : Bool)
  /-- a logic level -/
  | logic (l : Level)
  /-- a half of a differential pair: data present -/
  | pair (dataThere : Bool)
  /-- the module case: touching the cage -/
  | shell (touching : Bool)
  /-- no such contact -/
  | none
deriving DecidableEq, Repr, Inhabited

/-- Whether power contacts have mated (10_state.md R23). -/
def powerMated (m : Mated) : Bool := decide (m = .power) || decide (m = .all)

/-- Whether ground contacts have mated (10_state.md R23). -/
def groundMated (m : Mated) : Bool := decide (m = .grounds) || powerMated m

/-- RD+/RD- as the module drives them: no data without a powered module (10_state.md R22, R31). A passive cable end is
copper and drives nothing (46 R544), so that it passes the signal without power. (DESIGN CHOICE: log 58.) While a rate
change settles the output is not guaranteed stable (40_low_speed_control.md R172), and not said otherwise: here it carries
what the far end sends all the time. (DESIGN CHOICE: log 59.) So it does in the start-up interval, from the instant of power:
70_reset_and_hazards.md R671 has the module fully operational only after it and does not say what that is. (DESIGN CHOICE:
log 58.) -/
def rdData (s : State) : Bool :=
  s.out.rxData && (s.slot.powered || s.cfg.passiveCable) && decide (s.slot.mated = .all)

/-- Every contact by number, the case as number 0 (10_state.md R20 (a), R21 to R31); SDA and SCL as they stand between two
symbols, SDA released by the host. -/
def contactView (s : State) (n : Nat) : ContactView :=
  match n with
  | 0 => .shell (decide (s.slot.mated ≠ .absent))
  | 1 | 10 | 11 | 14 | 17 | 20 => .ground (groundMated s.slot.mated)
  | 2 => .logic (txFaultWire s)
  | 3 => .logic (txDisableIn s)
  | 4 => .logic (sdaLine .high s)
  | 5 => .logic (sclLine (hostScl s) s)
  | 6 => .logic (modAbsWire s)
  | 7 => .logic (rs0In s)
  | 8 => .logic (rxLosWire s)
  | 9 => .logic (rs1In s)
  | 12 | 13 => .pair (rdData s)
  | 15 => .rail (s.host.vccR && powerMated s.slot.mated)
  | 16 => .rail (s.host.vccT && powerMated s.slot.mated)
  | 18 | 19 => .pair s.host.txData
  | _ => .none

/-- The host looks at the three status wires; levels that are open are open at every look (93 U1). -/
def sampleWires (s : State) : State :=
  spend 1 { s with seen := { s.seen with wires := some (txFaultWire s, rxLosWire s, modAbsWire s) } }

end Sys2Proof.Machine
end

