-- ==== Sys2Proof/Machine/Transmitter.lean ====
section
/-! DEFINITION. What the edges of Tx_Disable, of the fault condition, of the received signal and of the rate select
inputs start in a powered module (40_low_speed_control.md R162 to R176; 60_exceptions.md R622 to R630). -/

namespace Sys2Proof.Machine

/-- Whether light is on its way back after a negation: t_on has begun and not ended (40_low_speed_control.md R163). -/
def returning (t : TxUnit) : Bool := decide (t.state = .disabled) && t.due.isSome

/-- Tx_Disable asserted (40_low_speed_control.md R162): the output, or what of it is on its way back, falls within t_off; a
latched fault stays latched, armed for its reset. (DEDUCED: log 10.) -/
def txRise (s : State) : State :=
  spend 1
    { s with tx := { s.tx with
        state := match s.tx.state with
          | .operating => .disabled
          | .initializing => .disabled
          | .disabled => .disabled
          | .faultLatched => .disabled
          | .offUnpowered => .offUnpowered
        outputOn := false
        due := none
        offDue := if s.tx.outputOn || returning s.tx then some (drawDue s 0 Config.tOff) else s.tx.offDue
        riseAt := s.clk.now } }

/-- Whether the pulse that ends now resets the fault: at least t_reset does, for a shorter one it is open (93 U6).
(DEDUCED: log 11.) -/
def resetTaken (s : State) : Bool :=
  decide (s.tx.riseAt + Config.tReset ≤ s.clk.now) || drawBool s 0

/-- A fault present while the transmitter was disabled, seen only at the negation (the other choice of 93 U11); one already
detected keeps its bound. (DESIGN CHOICE: log 12.) -/
def lateFault (s : State) : State :=
  if s.out.faultCond && s.cfg.txFaultImpl && !s.cfg.latchWhenDisabled && s.tx.faultDue.isNone then
    spend 1 { s with tx := { s.tx with faultDue := some (drawDue s 0 (tFaultOn s.cfg)) } }
  else s

/-- The negation in normal operation: back on within t_on (40_low_speed_control.md R163). Light that has not fallen
yet may last until its instant, so after a pulse shorter than t_off the output dips or not (93 U6). (DEDUCED: log 10,
11.) -/
def txReturn (s : State) : State :=
  lateFault (spend 1 { s with tx := { s.tx with due := some (drawDue s 0 Config.tOn) } })

/-- A detection that is pending stands as it did where `f` is no reset (60_exceptions.md R622). -/
def keepPending (f : State → State) (s : State) : State :=
  if s.tx.faultDue.isSome then { f s with tx := { (f s).tx with faultDue := s.tx.faultDue } } else f s

/-- Tx_Disable negated (40_low_speed_control.md R163; 60_exceptions.md R626, R646 item 4): the return from a latched
or pending fault, the first start-up, or t_on. A fault whose reset was not taken, latched or pending, stands as it did.
(DEDUCED: log 39.) -/
def txFall (s : State) : State :=
  let t := spend 1 { s with tx := { s.tx with fallAt := s.clk.now } }
  if (s.tx.latch || s.tx.faultDue.isSome) && resetTaken s then beginInit t
  else
    match s.tx.state with
    | .disabled =>
      if s.tx.latch then { t with tx := { t.tx with state := .faultLatched } }
      else if s.tx.initDone then txReturn t
      else keepPending beginInit t
    | .faultLatched => t
    | .initializing => t
    | .operating => t
    | .offUnpowered => t

/-- What a change of "told to be off" does: a passive cable has no transmitter (93 U12), an unpowered module no state.
(DEDUCED: log 38.) With contact and software combined, the edges and so t_reset are those of the combined signal: a contact
pulse under an asserted Software Tx disable is no edge and clears no latch, which 40_low_speed_control.md R163 does not say.
(DESIGN CHOICE: log 55.) -/
def reTx (before : Bool) (s : State) : State :=
  if s.cfg.passiveCable || !s.slot.powered then s
  else if !before && txOff s then txRise s
  else if before && !txOff s then txFall s
  else s

/-- Whether a fault condition that arises now will be detected (60_exceptions.md R622; 93 U11). In the t_on window after a
negation Tx_Disable is low, so the transmitter counts as operating. (DESIGN CHOICE: log 12, 44.) -/
def faultSeen (s : State) : Bool :=
  s.slot.powered && s.cfg.txFaultImpl && !s.tx.latch &&
    match s.tx.state with
    | .operating => true
    | .initializing => true
    | .disabled => returning s.tx || s.tx.initDone && s.cfg.latchWhenDisabled
    | .faultLatched => false
    | .offUnpowered => false

/-- `fault_condition` changes (60_exceptions.md R622): Tx_Fault_on runs from the occurrence, and an occurrence already
detected keeps its bound where the condition goes and comes again before the latch. -/
def faultEvent (present : Bool) (s : State) : State :=
  if present && !s.out.faultCond then
    let t := { s with out := { s.out with faultCond := true }, tx := { s.tx with faultAt := s.clk.now } }
    if faultSeen s && s.tx.faultDue.isNone then
      spend 1 { t with tx := { t.tx with faultDue := some (drawDue s 0 (tFaultOn s.cfg)) } }
    else t
  else { s with out := { s.out with faultCond := present } }

/-- `signal_present` changes (60_exceptions.md R630). A change before the last one has been shown takes its place, so a loss
that ends before its delay need not be shown. (DESIGN CHOICE: log 50.) So does a change in the start-up interval, for which
10_state.md R47 states no Rx_LOS: the start-up's instant is dropped, and Rx_LOS is stated from within t_los_on or t_los_off
of the change. (DESIGN CHOICE: log 14.) -/
def signalEvent (present : Bool) (s : State) : State :=
  let t := { s with out := { s.out with signal := present } }
  if present ≠ s.out.signal ∧ s.slot.powered = true then
    spend 1
      { t with rcv := { s.rcv with
          due := some (drawDue s 0 (if present then Config.tLosOff else Config.tLosOn))
          changeAt := s.clk.now } }
  else t

/-- A change of the receive rate asked for (40_low_speed_control.md R172, R175): stable within t_RS0. A change asked for
before the last one is stable takes its place, which then never takes effect; R172 does not say. (DESIGN CHOICE: log 59.) -/
def reRx (before : Bool) (s : State) : State :=
  if s.cfg.rs0Used && !s.cfg.asMode && s.slot.powered && (before != rxWanted s) then
    spend 1 { s with rate := { s.rate with due0 := some (drawDue s 0 (tRate s.cfg)), changeAt := s.clk.now } }
  else s

/-- A change of the transmit rate asked for (40_low_speed_control.md R173, R175): stable within t_RS1, and in place of one
that is not stable yet. (DESIGN CHOICE: log 59.) -/
def reTxRate (before : Bool) (s : State) : State :=
  if s.cfg.rs1Used && !s.cfg.asMode && s.slot.powered && (before != txWanted s) then
    spend 1 { s with rate := { s.rate with due1 := some (drawDue s 0 (tRate s.cfg)), changeAt := s.clk.now } }
  else s

/-- The host drives Tx_Disable. -/
def driveTxDisable (x : Level) (s : State) : State :=
  reTx (txOff s) { s with host := { s.host with txDisable := x } }

/-- The host drives RS0. -/
def driveRs0 (x : Level) (s : State) : State :=
  reRx (rxWanted s) { s with host := { s.host with rs0 := x } }

/-- The host drives RS1. -/
def driveRs1 (x : Level) (s : State) : State :=
  reTxRate (txWanted s) { s with host := { s.host with rs1 := x } }

/-- The Software Tx disable takes a value (60_exceptions.md R626). -/
def setSoftTx (v : Bool) (s : State) : State := reTx (txOff s) { s with tx := { s.tx with soft := v } }

/-- The software rate selects take values (40_low_speed_control.md R175). -/
def setSoftRs0 (v : Bool) (s : State) : State :=
  reRx (rxWanted s) { s with rate := { s.rate with soft0 := Level.ofBool v } }

/-- The same for RS1. -/
def setSoftRs1 (v : Bool) (s : State) : State :=
  reTxRate (txWanted s) { s with rate := { s.rate with soft1 := Level.ofBool v } }

/-- Whether light may still leave the transmitter: on, not yet below 10%, or on its way back (40_low_speed_control.md R162,
R163). -/
def mayEmit (s : State) : Bool := s.tx.outputOn || s.tx.offDue.isSome || returning s.tx

end Sys2Proof.Machine
end

