-- ==== Sys2Proof/Machine/Supply.lean ====
section
/-! DEFINITION. Power levels, power-up and loss of power, rails and mating (10_state.md R23, R50; 41_power_and_esd.md
R231 to R243; 40_low_speed_control.md R165, R166; 70_reset_and_hazards.md R670 to R674). -/

namespace Sys2Proof.Machine

/-- The time from enabling a level to full operation (41_power_and_esd.md R240, R243). (DESIGN CHOICE: log 19.) -/
def tEnable (c : Params) (l : PowerLevel) : Nat :=
  match l with
  | .three => c.tPowerLevel3
  | .two => if c.cooled then Config.tStartUpCooled else Config.tPowerLevel2
  | .one => 0

/-- The time from disabling a level to Level I (41_power_and_esd.md R241, R243). -/
def tDisable (c : Params) (l : PowerLevel) : Nat :=
  match l with
  | .three => c.tPowerDown3
  | .two => Config.tPowerDown
  | .one => 0

/-- `POWER_LEVEL_ENABLE l` at the STOP (41_power_and_esd.md R240; 92 D19: the smaller of l and `P_POWER_LEVEL`, nothing
on a Level I module). Written while a disable still runs, of which R240 and R241 do not speak, it drops the pending fall to
Level I, which then never comes. (DESIGN CHOICE: log 20.) -/
def enableLevel (l : PowerLevel) (s : State) : State :=
  if s.cfg.powerLevel = .one then s
  else
    let m := levelMin l s.cfg.powerLevel
    spend 1
      { s with lvl :=
        { level := m, next := m, settled := false, due := some (drawDue s 0 (tEnable s.cfg m))
          writeAt := some s.clk.now } }

/-- `POWER_LEVEL_DISABLE` at the STOP (41_power_and_esd.md R241): nothing at Level I; where a disable runs already its bound
stands. (DEDUCED: log 20.) -/
def disableLevel (s : State) : State :=
  if s.lvl.level = .one then s
  else if s.lvl.next = .one && s.lvl.due.isSome then { s with lvl := { s.lvl with writeAt := some s.clk.now } }
  else
    spend 1
      { s with lvl := { s.lvl with
          next := .one, settled := false, due := some (drawDue s 0 (tDisable s.cfg s.lvl.level))
          writeAt := some s.clk.now } }

/-- A power level write. -/
def setLevel (l : PowerLevel) (s : State) : State :=
  match l with
  | .one => disableLevel s
  | .two => enableLevel .two s
  | .three => enableLevel .three s

/-- The power bound of a level, in mW (41_power_and_esd.md R231). -/
def levelPower (l : PowerLevel) : Nat :=
  match l with
  | .one => 1000
  | .two => 1500
  | .three => 2000

/-- Whether the 500 ms allowance runs: after power-up, hot insertion or a level write (41_power_and_esd.md R234). A disable
inside the allowance of an enable ends it at its STOP, which R234 does not say. (DESIGN CHOICE: log 57.) -/
def inAllowance (s : State) : Bool :=
  decide (s.clk.now < s.slot.powerAt + Config.tAllowance) ||
    (match s.lvl.writeAt with
     | some t => decide (t ≤ s.clk.now) && decide (s.clk.now < t + Config.tAllowance) && decide (s.lvl.next ≠ .one)
     | none => false)

/-- The power the module may draw now, in mW, where the classified level binds (41_power_and_esd.md R231, R234). -/
def powerCeiling (s : State) : Option Nat :=
  if !s.slot.powered then none else if inAllowance s then none else some (levelPower s.lvl.level)

/-- Instantaneous and sustained peak current of a rail, in mA (41_power_and_esd.md R236, R237). -/
def peakCurrents (l : PowerLevel) : Nat × Nat :=
  match l with
  | .one => (400, 330)
  | .two => (600, 500)
  | .three => (800, 660)

/-- The bus and its engine as power-up leaves them, with the drawn counters (10_state.md R50; 92 D6). -/
def freshBus (s : State) (c0 c2 : Byte) : Bus :=
  { s.bus with
    state := .idle, phase := .off, sel := .a0, shift := 0, nbits := 0, sda := .high, willAck := false
    hostAck := false, wbuf := [], loaded := 0, ctrA0 := c0, ctrA2 := c2, stretching := false
    heldAt := 0, hold := 0, deafTill := some (s.clk.now + Config.t2wStartUp), deafWrite := false }

/-- The instant a used rate select input is first taken over. -/
def rateDue (s : State) (k : Nat) (used : Bool) : Option Nat :=
  if used && !s.cfg.asMode then some (drawDue s k (tRate s.cfg)) else none

/-- The end of the start-up: within `t_init` of VccT, not of the later rail (70_reset_and_hazards.md R671); of the return of
power where VccT was there all along (40_low_speed_control.md R201). -/
def startDue (s : State) (k : Nat) : Nat :=
  max s.clk.now (min (s.slot.vccTAt.getD s.clk.now) s.clk.now + drawNat s k (tInit s.cfg))

/-- The transmitter as power-up leaves it: initialising, or disabled where Tx_Disable is high (70_reset_and_hazards.md
R671, R672); the software control first takes its power-up value (10_state.md R50). -/
def freshTx (s : State) : TxUnit :=
  let starts := s.cfg.passiveCable || !txOff { s with tx := { s.tx with soft := s.cfg.softTxInit } }
  { s.tx with
    state := if starts then .initializing else .disabled
    latch := false, outputOn := false, soft := s.cfg.softTxInit, initDone := false
    due := if starts then some (startDue s 1) else none
    faultDue := none, offDue := none }

/-- `powered` becomes true (41_power_and_esd.md R238; 70_reset_and_hazards.md R671 to R674). (DESIGN CHOICE: log 14,
15.) A Level II or III module not yet enabled operates at Level I, which it has reached, where 41_power_and_esd.md R240 says
only that it may not be fully operational. (DESIGN CHOICE: log 56.) -/
def powerUp (s : State) : State :=
  spend 7
    { s with
      slot := { s.slot with
        powered := true, powerAt := s.clk.now, ready := false, readyDue := drawDue s 0 Config.t2wStartUp
        stuck := false, vccTAt := none }
      tx := freshTx s
      rcv := { s.rcv with los := false, known := false, due := some (drawDue s 2 Config.tStartUp) }
      rate := { s.rate with
        rxHigh := false, txHigh := false, soft0 := s.cfg.softRs0Init, soft1 := s.cfg.softRs1Init
        due0 := rateDue s 3 s.cfg.rs0Used, due1 := rateDue s 4 s.cfg.rs1Used }
      lvl := { level := .one, next := .one, settled := true, due := none, writeAt := none }
      bus := freshBus s (drawByte s 5) (drawByte s 6)
      wr := { s.wr with busy := false } }

/-- A write cycle cut off by the loss of power (93 U8). (DEDUCED: log 23.) -/
def spoilWrite (s : State) : State :=
  if s.wr.busy then
    spend s.bus.wbuf.length
      { s with mem := Memory.spoilAll s.cfg s.wr.space s.clk.drawn s.bus.wbuf s.mem }
  else s

/-- `powered` becomes false: everything volatile is lost (40_low_speed_control.md R166; 41_power_and_esd.md R239). What is
lost stands at 0, false, low or none until power returns. (DESIGN CHOICE: log 53.) -/
def powerDown (s : State) : State :=
  let t := spoilWrite s
  { t with
    slot := { t.slot with powered := false, ready := false, stuck := false }
    tx := { t.tx with
      state := .offUnpowered, latch := false, outputOn := false, soft := false, initDone := false
      due := none, faultDue := none, offDue := none }
    rcv := { t.rcv with los := false, known := false, due := none }
    rate := { t.rate with rxHigh := false, txHigh := false, soft0 := .low, soft1 := .low, due0 := none, due1 := none }
    lvl := { level := .one, next := .one, settled := true, due := none, writeAt := none }
    bus := { freshBus t 0 0 with deafTill := none }
    wr := { t.wr with busy := false } }

/-- Whether the module has its supply: both rails in specification and the power contacts mated (10_state.md R30). -/
def supplied (s : State) : Bool := s.host.vccT && s.host.vccR && powerMated s.slot.mated

/-- VccT in range at the module (10_state.md R30). -/
def vccTIn (s : State) : Bool := s.host.vccT && powerMated s.slot.mated

/-- VccR in range at the module (10_state.md R30). -/
def vccRIn (s : State) : Bool := s.host.vccR && powerMated s.slot.mated

/-- The instant VccT comes to a module without power is kept until its start-up: it is the time reference of it
(70_reset_and_hazards.md R671). -/
def noteVccT (before : Bool) (s : State) : State :=
  if vccTIn s && !before && !s.slot.powered then { s with slot := { s.slot with vccTAt := some s.clk.now } } else s

/-- The instant from which one rail is alone at the module is kept (41_power_and_esd.md R233: "to the module"), given what
was in range there before. -/
def noteRails (t r : Bool) (s : State) : State :=
  { s with host := { s.host with
      railAt :=
        if vccTIn s == vccRIn s then none
        else if vccTIn s == t && vccRIn s == r then s.host.railAt
        else some s.clk.now } }

/-- `powered` follows the supply. -/
def followSupply (s : State) : State :=
  if supplied s && !s.slot.powered then powerUp s
  else if !supplied s && s.slot.powered then powerDown s
  else s

/-- The supply of the module after a change of rails or mating, given what was in range there before. -/
def feed (t r : Bool) (s : State) : State := followSupply (noteRails t r (noteVccT t s))

/-- Whether one rail has been alone at the module for longer than the other may lag behind it (41_power_and_esd.md
R233). -/
def railLate (s : State) : Bool :=
  powerMated s.slot.mated &&
    match s.host.railAt with
    | some t => decide (t + Config.tRailSkew < s.clk.now)
    | none => false

/-- One stage of mating or unmating (10_state.md R23); `ModAbsent` on the edge of contact 6 (60_exceptions.md R632). The
control contacts may change level with it. (DEDUCED: log 21.) What the bus engine of a module that keeps its power sees
while its signal contacts are open 10_state.md R42 does not say: here it sees no edge, and its transaction and the
buffered words stand and go on after re-mating. (DESIGN CHOICE: log 60.) -/
def mateStage (m : Mated) (s : State) : State :=
  let t := feed (vccTIn s) (vccRIn s) { s with slot := { s.slot with mated := m } }
  let u := if s.slot.mated = .all ∧ m ≠ .all then raise .modAbsent t else t
  if s.slot.powered && u.slot.powered then
    reTxRate (txWanted s) (reRx (rxWanted s) (reTx (txOff s) u))
  else u

/-- Both rails go to given levels. The second of two must come to the module within 100 ms of the first (41_power_and_esd.md
R233; 93 U10): `railAt` is the rise of the rail that is alone there, or the drop of the other one where both were. (DESIGN
CHOICE: log 22.) -/
def driveRails (vccT vccR : Bool) (s : State) : Host.Outcome State Fault Refusal :=
  if vccT && vccR && railLate s then .refused .railSkew
  else .next (feed (vccTIn s) (vccRIn s) { s with host := { s.host with vccT := vccT, vccR := vccR } })

end Sys2Proof.Machine
end

