-- ==== Sys2Proof/Machine/Interface.lean ====
section
/-! DEFINITION. The 2-wire interface's own times: readiness and the end of the write cycle (20_memory.md R93;
70_reset_and_hazards.md R674). They run wherever time passes, in the host's wait for tBUF too. -/

namespace Sys2Proof.Machine

/-- The 2-wire interface becomes ready (70_reset_and_hazards.md R674). -/
def settleReady (s : State) : State :=
  if s.slot.powered && !s.slot.ready && decide (s.slot.readyDue ≤ s.clk.now) then
    { s with
      slot := { s.slot with ready := true }
      bus := { s.bus with state := .idle, phase := .off, nbits := 0, sda := .high, wbuf := [] }
      wr := { s.wr with busy := false } }
  else s

/-- The software rate selects take effect at the end of the write cycle (40_low_speed_control.md R175). (DEDUCED: log
18.) -/
def softRates (b : Bus) (s : State) : State :=
  let t :=
    match controlFor b s.cfg.softRs0Field with
    | some v => setSoftRs0 v s
    | none => s
  match controlFor b s.cfg.softRs1Field with
  | some v => setSoftRs1 v t
  | none => t

/-- What was due at an earlier instant is done as of that instant. -/
def asOf (t : Nat) (f : State → State) (s : State) : State :=
  let u := f { s with clk := { s.clk with now := t } }
  { u with clk := { u.clk with now := s.clk.now } }

/-- The write cycle ends: the writable bytes reach memory together (20_memory.md R84, R93). -/
def commitWrite (s : State) : State :=
  asOf s.wr.due (softRates s.bus)
    { s with
      mem := Memory.writeAll s.cfg s.wr.space s.bus.wbuf s.mem
      bus := { s.bus with wbuf := [] }
      wr := { s.wr with busy := false } }

/-- The write cycle's end, if its time has come. -/
def settleWrite (s : State) : State :=
  if s.wr.busy && decide (s.wr.due ≤ s.clk.now) then commitWrite s else s

/-- The interface's times, if they have come. -/
def settleInterface (s : State) : State := settleWrite (settleReady s)

end Sys2Proof.Machine
end

