-- ==== Sys2Proof/Machine/Bus.lean ====
section
/-! DEFINITION. The module-side bus engine (43_two_wire_operations.md R365) at single SCL edges (30_encoding.md R120,
R121), and the host side that drives it (43 R366). -/

namespace Sys2Proof.Machine

/-! ### The module -/

/-- The precondition for any response (43_two_wire_operations.md R365; 60_exceptions.md R635, R646 item 2), and that the
module is not marked faulty (60_exceptions.md R641). (DEDUCED: log 33.) -/
def listening (s : State) : Bool :=
  decide (s.slot.mated = .all) && s.slot.powered && s.slot.ready && !s.slot.stuck && !s.wr.busy

/-- `P_MAY_NACK_BUSY` (20_memory.md R92 (b)): the module may be unable to take a word. (DESIGN CHOICE: log 28.) -/
def nackDrawn (s : State) : Bool := s.cfg.mayNackBusy && drawBool s 0

/-- `shift` after one more bit, bit 7 first (00_scope.md R13). -/
def shiftIn (v : Byte) (b : Bool) : Byte := (v <<< 1) ||| (if b then 1#8 else 0#8)

/-- A device address word has come in (30_encoding.md R122; 43 R365). (DEDUCED: log 30.) -/
def takeDeviceWord (s : State) : State :=
  match decodeDev s.bus.shift with
  | .error _ => { s with bus := { s.bus with state := .ignoring, willAck := false } }
  | .ok (sp, r) =>
    if nackDrawn s then { s with bus := { s.bus with state := .ignoring, willAck := false } }
    else
      { s with bus := { s.bus with
          sel := sp
          state := match r with
            | .write => .expectAddr
            | .read => .addressedRead
          willAck := true } }

/-- A data word address has come in: `ctr[sel] <- a` (20_memory.md R85). -/
def takeAddress (s : State) : State :=
  if nackDrawn s then { s with bus := { s.bus with willAck := false } }
  else
    { s with bus := { setCtr s.bus.sel s.bus.shift s.bus with
        state := .writeData, wbuf := [], loaded := s.bus.shift, willAck := true } }

/-- A data word has come in: kept at the counter, the counter goes on (20_memory.md R86). A ninth word is recorded, for
`clocked` to refuse it (60_exceptions.md R637). -/
def takeData (s : State) : State :=
  if Config.seqWriteMax ≤ s.bus.wbuf.length then raise .writeOverrun { s with bus := { s.bus with willAck := false } }
  else if nackDrawn s then { s with bus := { s.bus with willAck := false } }
  else
    { s with bus := { stepCtr s.bus.sel s.bus with
        wbuf := s.bus.wbuf ++ [(ctrOf s.bus s.bus.sel, s.bus.shift)], willAck := true } }

/-- Eight bits have come in. -/
def takeWord (s : State) : State :=
  spend 1
    (match s.bus.state with
     | .gotStart => takeDeviceWord s
     | .expectAddr => takeAddress s
     | .writeData => takeData s
     | .idle => s
     | .addressedRead => s
     | .ignoring => s
     | .idleUntilStop => s)

/-- Whether the engine counts another bit of the word slot. -/
def nextBit (b : Bus) : Bus := { b with nbits := b.nbits + 1 }

/-- SCL rises with SDA at `x`: data are clocked in (30_encoding.md R120). The counter goes on with the eighth bit of a
word, received (`takeWord`) or sent: with a whole word only (20_memory.md R86, R88, R98). (DESIGN CHOICE: log 7.) -/
def sclRise (x : Level) (s : State) : State :=
  match s.bus.phase with
  | .recv =>
    let t := { s with bus := { nextBit s.bus with shift := shiftIn s.bus.shift x.toBool } }
    if s.bus.nbits = 7 then takeWord t else t
  | .send =>
    { s with bus := nextBit (if s.bus.nbits = 7 then stepCtr s.bus.sel s.bus else s.bus) }
  | .ackIn => { s with bus := { s.bus with hostAck := decide (x = .low) } }
  | .ackOut => s
  | .off => s

/-- `send_next()` (43 R365): the byte is taken, bit 7 is put on SDA; the counter goes on when the word is out
(`sclRise`). -/
def sendNext (s : State) : State :=
  let v := sampleByte s s.bus.sel (ctrOf s.bus s.bus.sel)
  spend 1
    { s with bus := { s.bus with
        shift := v, nbits := 0, phase := .send, sda := Level.ofBool (v.getLsbD 7) } }

/-- SCL falls: data are clocked out (30_encoding.md R120, R121). -/
def sclFall (s : State) : State :=
  match s.bus.phase with
  | .recv =>
    if 8 ≤ s.bus.nbits then
      { s with bus := { s.bus with phase := .ackOut, sda := if s.bus.willAck then .low else .high } }
    else s
  | .ackOut =>
    let b := { s.bus with sda := .high, nbits := 0 }
    match s.bus.state with
    | .addressedRead => sendNext { s with bus := b }
    | .gotStart => { s with bus := { b with phase := .recv } }
    | .expectAddr => { s with bus := { b with phase := .recv } }
    | .writeData => { s with bus := { b with phase := .recv } }
    | .idle => { s with bus := { b with phase := .off } }
    | .ignoring => { s with bus := { b with phase := .off } }
    | .idleUntilStop => { s with bus := { b with phase := .off } }
  | .send =>
    if 8 ≤ s.bus.nbits then { s with bus := { s.bus with phase := .ackIn, sda := .high } }
    else
      { s with bus := { s.bus with
          shift := s.bus.shift <<< 1, sda := Level.ofBool (s.bus.shift.getLsbD 6) } }
  | .ackIn =>
    if s.bus.hostAck then sendNext s
    else { s with bus := { s.bus with phase := .off, state := .idleUntilStop, nbits := 0, sda := .high } }
  | .off => s

/-- A write that ends otherwise than by its proper STOP (60_exceptions.md R636): the data are dropped, and the counter
by `P_ABORT_CTR` (20_memory.md R89). (DEDUCED: log 29.) -/
def abortWrite (s : State) : State :=
  if s.bus.state = .writeData ∧ s.bus.wbuf ≠ [] then
    raise .abortedWrite
      { s with bus :=
        match s.cfg.abortCtr with
        | .keepIncremented => { s.bus with wbuf := [] }
        | .restoreLoaded => { setCtr s.bus.sel s.bus.loaded s.bus with wbuf := [] } }
  else s

/-- START puts the engine in `got_start` (43 R365, R377), whatever it was doing. -/
def gotStart (s : State) : State :=
  { s with bus := { s.bus with
      state := .gotStart, phase := .recv, nbits := 0, shift := 0, sda := .high, wbuf := [], willAck := false } }

/-- START as the module sees it (43 R365; 60_exceptions.md R646 item 3). -/
def seeStart (s : State) : State := gotStart (abortWrite s)

/-- The proper STOP: the write cycle begins, at most tWR long (20_memory.md R93; 43 R354). (DESIGN CHOICE: log 37.) -/
def beginWrite (s : State) : State :=
  spend 1
    { s with wr :=
      { busy := true, space := s.bus.sel
        due := drawDue s 0 (if s.bus.wbuf.length ≤ 4 then Config.tWr4 else Config.tWr8)
        startAt := s.clk.now, cycles := s.wr.cycles + 1 } }

/-- The Software Tx disable takes effect at the STOP (20_memory.md R97). (DEDUCED: log 18.) -/
def stopSoftTx (b : Bus) (s : State) : State :=
  match controlFor b s.cfg.softTxField with
  | some v => setSoftTx v s
  | none => s

/-- The power level takes effect at the STOP (41_power_and_esd.md R240, R241). (DEDUCED: log 18.) A code that is none of the
three levels changes no level, which 10_state.md R36 does not say. (DESIGN CHOICE: log 18.) -/
def stopLevel (b : Bus) (s : State) : State :=
  match (wordFor b s.cfg.powerField.space s.cfg.powerField.addr).bind (powerGet s.cfg.powerField) with
  | some l => setLevel l s
  | none => s

/-- A write of an address and no whole word of data: whether the module is then busy is open (93 U4; 95_test_vectors.md V31,
V40). (DEDUCED: log 26.) -/
def maybeBusy (s : State) : State :=
  spend 1
    { s with wr := { s.wr with
        busy := drawBool s 0, space := s.bus.sel, due := drawDue s 0 Config.tWr4, startAt := s.clk.now } }

/-- The engine goes idle; the words of a begun write stay until they are committed. -/
def goIdle (s : State) : State :=
  { s with bus := { s.bus with state := .idle, phase := .off, nbits := 0, sda := .high } }

/-- STOP as the module sees it (43 R365). Inside a word it is no proper STOP, and the words before it are dropped
(60_exceptions.md R636; 92 D16); inside the first, whether the module is busy is open as after an address alone (43 R365's
STOP arm; 95_test_vectors.md V40). (DEDUCED: log 26.) -/
def seeStop (s : State) : State :=
  goIdle
    (if s.bus.state = .writeData then
      if s.bus.wbuf = [] then maybeBusy s
      else if s.bus.nbits = 0 then stopLevel s.bus (stopSoftTx s.bus (beginWrite s))
      else abortWrite s
    else s)

/-- A change of SDA that is no host's START or STOP acts as one while SCL is high (30_encoding.md R128). -/
def sdaMoves (before : Level) (t : State) : State :=
  if listening t && decide (sclLine (hostScl t) t = .high) then
    match before, sdaLine .high t with
    | .high, .low => seeStart t
    | .low, .high => seeStop t
    | .high, .high => t
    | .low, .low => t
  else t

/-! ### The host -/

/-- Whether the engine only waits for START or STOP in a transaction: in `ignoring` and `idle_until_stop` the module drives
nothing, neither SDA nor SCL (10_state.md R42). -/
def drivesNothing (b : Bus) : Bool := decide (b.state = .ignoring) || decide (b.state = .idleUntilStop)

/-- Whether the engine is past its own device address word, in a transaction addressed to it in which it may still hold SCL
(43 R362): after the last word of a read it drives nothing (10_state.md R42), so it stretches no more before the STOP or the
repeated START. (DEDUCED: log 49.) -/
def engaged (b : Bus) : Bool :=
  match b.state with
  | .expectAddr => true
  | .writeData => true
  | .addressedRead => true
  | .idleUntilStop => false
  | .gotStart => false
  | .idle => false
  | .ignoring => false

/-- Whether the module may stretch SCL where it stands (43 R362, R353): only with `P_STRETCH`, above 100 kHz. That it never
stretches at or below 100 kHz, where R362 says it is not said, is the model's choice. (DESIGN CHOICE: log 49.) -/
def mayStretch (s : State) : Bool :=
  s.cfg.stretch && decide (s.host.sclPeriod < Config.sclPeriodNoStretch) && listening s

/-- The module begins to hold SCL low, if `b`. -/
def holdScl (b : Bool) (s : State) : State :=
  { s with bus := { s.bus with
      stretching := b || s.bus.stretching, heldAt := if b then s.clk.now else s.bus.heldAt } }

/-- The module releases SCL, if `b`. -/
def releaseScl (b : Bool) (s : State) : State :=
  { s with bus := { s.bus with stretching := !b && s.bus.stretching } }

/-- SCL is held low for a time, if any, and released (43 R362); the host that honours it waits. -/
def stretchFor (d : Nat) (s : State) : State :=
  releaseScl (decide (0 < d)) (advance (if s.host.honours then d else 0) (holdScl (decide (0 < d)) s))

/-- Bus time runs: n pulses, and what the module holds SCL low in m of their low periods, drawn once (43 R362; 93 U15).
(DESIGN CHOICE: log 6.) -/
def busTime (m n : Nat) (s : State) : State :=
  let d := if mayStretch s then drawNat s 0 (m * Config.tClockHold) else 0
  let t := stretchFor d s
  { t with
    clk := { now := t.clk.now + n * s.host.sclPeriod, drawn := s.clk.drawn + 1 }
    bus := { t.bus with hold := d } }

/-- n pulses, in each of which the module may stretch if the transaction is its own. -/
def clockTime (n : Nat) (s : State) : State := busTime (if engaged s.bus then n else 0) n s

/-- The low periods of a word slot in which the module may stretch: all nine of them in a transaction addressed to it, its
own device address word among them (43 R362). (DESIGN CHOICE: log 49.) -/
def stretchable (w : Byte) (s : State) : Nat :=
  if engaged s.bus || (decide (s.bus.state = .gotStart) && !s.out.sdaHeld && (decodeDev w).isOk) then 9 else 0

/-- The time of a word slot the host sends. -/
def wordTime (w : Byte) (s : State) : State := busTime (stretchable w s) 9 s

/-- Whether the word that comes in after a START may still become the module's own: its bits so far begin one. -/
def maybeOwn (b : Bus) : Bool :=
  decide (b.state = .gotStart) &&
    [devWord .a0 .write, devWord .a0 .read, devWord .a2 .write, devWord .a2 .read].any fun w =>
      decide (b.shift = w >>> (8 - b.nbits))

/-- The low period of a pulse on its own, in which the module may stretch if the transaction is its own or may still become
so. (DESIGN CHOICE: log 49.) -/
def pulseTime (s : State) : State := busTime (if engaged s.bus || maybeOwn s.bus then 1 else 0) 1 s

/-- The low period before a START or a STOP, in which the module may stretch if the transaction is its own. -/
def lowPeriod (s : State) : State := busTime (if engaged s.bus then 1 else 0) 0 s

/-- Whether what a host that does not wait for SCL sends is lost to the module, in a slot in which the module may stretch:
SCL was still held (70_reset_and_hazards.md R685 row 8). (DESIGN CHOICE: log 52.) -/
def lostIn (own : Bool) (s : State) : Bool := !s.host.honours && mayStretch s && own && drawBool s 0

/-- Whether a START or a STOP is lost. -/
def edgeLost (s : State) : Bool := lostIn (engaged s.bus) s

/-- Whether a pulse is lost, drawn a pulse. -/
def pulseLost (s : State) : Bool := lostIn (engaged s.bus || maybeOwn s.bus) s

/-- One SCL pulse with the host leaving SDA at `h`. -/
def pulse (h : Level) (s : State) : State :=
  if listening s then
    if s.host.honours then sclFall (sclRise (sdaLine h s) s)
    else
      let t := spend 1 s
      if pulseLost s then t else sclFall (sclRise (sdaLine h s) t)
  else s

/-- `n` bits of a word, bit n-1 first. -/
def sendBits (w : Byte) : Nat → State → State
  | 0, s => s
  | n + 1, s => sendBits w n (pulse (Level.ofBool (w.getLsbD n)) s)

/-- The acknowledge slot of a word the host sent: low is an acknowledge (30_encoding.md R121), which tells the host that no
write cycle runs (20_memory.md R94). -/
def hearAck (s : State) : State :=
  let ack := decide (sdaLine .high s = .low)
  let t := pulse .high s
  let u :=
    { t with
      seen := { t.seen with acks := t.seen.acks ++ [ack] }
      bus := { t.bus with
        freeAt := if ack then some t.clk.now else t.bus.freeAt
        deafTill := if ack then none else t.bus.deafTill } }
  if ack then u else raise .noAcknowledge u

/-- A word the host sends, and its acknowledge bit. -/
def sendWord (w : Byte) (s : State) : State := hearAck (sendBits w 8 (wordTime w s))

/-- `n` bits the host takes in with SDA released. -/
def readBits : Nat → Byte → State → Byte × State
  | 0, v, s => (v, s)
  | n + 1, v, s => readBits n (shiftIn v (sdaLine .high s).toBool) (pulse .high s)

/-- A word the module sends, and the host's acknowledge bit. -/
def readWord (ack : Bool) (s : State) : State :=
  let r := readBits 8 0 (clockTime 9 s)
  let t := pulse (if ack then .low else .high) r.2
  { t with
    seen := { t.seen with rx := t.seen.rx ++ [r.1], acks := t.seen.acks ++ [ack] }
    bus := { t.bus with freeAt := if ack then some t.clk.now else t.bus.freeAt } }

/-- Whether tBUF has run (43 R353, R366). -/
def busFree (s : State) : Bool :=
  match s.bus.freeAt with
  | some t => decide (t + Config.tBuf ≤ s.clk.now)
  | none => true

/-- The host waits for tBUF; the 2-wire interface's own times run in this wait, the other timers after it (DESIGN CHOICE:
log 6). -/
def awaitFree (s : State) : State :=
  match s.bus.freeAt with
  | some t => settleInterface { s with clk := { s.clk with now := max s.clk.now (t + Config.tBuf) } }
  | none => s

/-- The host opens a transaction: what it read before is old unless this is a repeated START. -/
def openFrame (s : State) : State :=
  { s with
    host := { s.host with inFrame := true }
    seen := if s.host.inFrame then s.seen else { s.seen with rx := [], acks := [] } }

/-- START: SDA cannot fall where it is low (60_exceptions.md R641). Inside tBUF the module need not see it
(70_reset_and_hazards.md R685 row 1), nor where a host does not wait for SCL (row 8). Its set-up and hold times run (R690).
(DEDUCED: log 31, 33.) -/
def hostStart (s : State) : State :=
  if sdaLine .high s = .low then raise .hungBus s
  else
    let u := lowPeriod s
    let t := openFrame (advance (Config.tSuSta + Config.tHdSta) u)
    if listening u && !edgeLost u && (busFree u || drawBool u 1) then spend 2 (seeStart t) else spend 2 t

/-- Whether a write cycle may run after a STOP, as far as the host knows: an address alone may start one too, a STOP inside
a word after the first none (43 R354, R366; 60_exceptions.md R636; 93 U4). -/
def mayWrite (s : State) : Bool :=
  listening s && decide (s.bus.state = .writeData) && (decide (s.bus.nbits = 0) || decide (s.bus.wbuf = []))

/-- Until when it may run: tWR of what the host sent (43 R354). -/
def writeBound (s : State) : Nat := s.clk.now + if s.bus.wbuf.length ≤ 4 then Config.tWr4 else Config.tWr8

/-- STOP: SDA cannot rise where another driver holds it low (60_exceptions.md R641 (c)). Its set-up time runs before it
(70_reset_and_hazards.md R690); a host that does not wait for SCL may lose it (R685 row 8). (DESIGN CHOICE: log 34.) -/
def hostStop (s : State) : State :=
  if sdaLine .high s = .low then raise .hungBus s
  else
    let v := lowPeriod s
    let u := spend 1 (advance Config.tSuSto v)
    let t := if listening u && !edgeLost v then seeStop u else u
    { t with
      host := { t.host with inFrame := false }
      bus := { t.bus with
        freeAt := some t.clk.now
        deafTill := if mayWrite u then some (writeBound u) else u.bus.deafTill
        deafWrite := mayWrite u || u.bus.deafWrite } }

/-- Whether the last acknowledge slot the host saw was an acknowledge. -/
def acked (s : State) : Bool := decide (s.seen.acks.getLast? = some true)

/-- A word the host sends, and what follows if it is acknowledged (60_exceptions.md R635: else nothing follows).
(DESIGN CHOICE: log 8.) -/
def sendThen (w : Byte) (k : State → State) (s : State) : State :=
  let t := sendWord w s
  if acked t then k t else t

/-- Data words, each sent only if the one before was acknowledged. -/
def sendAll : List Byte → State → State
  | [], s => s
  | d :: l, s => sendThen d (sendAll l) s

/-- n data words from the module, all acknowledged but the last (20_memory.md R91). -/
def readWords : Nat → State → State
  | 0, s => s
  | 1, s => readWord false s
  | n + 2, s => readWords (n + 1) (readWord true s)

/-- START (or repeated START) after tBUF, and what follows if SDA could fall. -/
def startThen (k : State → State) (s : State) : State :=
  let t := awaitFree s
  if sdaLine .high t = .low then raise .hungBus t else k (hostStart t)

/-- A whole frame: START, its words, STOP. -/
def frame (k : State → State) (s : State) : State := startThen (fun t => hostStop (k t)) s

/-- The words of a read from the current address (43 R370, R372). -/
def readBody (sp : Space) (n : Nat) : State → State := sendThen (devWord sp .read) (readWords n)

/-- The words of a read from a given address (43 R371, R373). -/
def randomBody (sp : Space) (a : Byte) (n : Nat) : State → State :=
  sendThen (devWord sp .write) (sendThen a (startThen (readBody sp n)))

/-- The words of a write (43 R374, R375). -/
def writeBody (sp : Space) (a : Byte) (ds : List Byte) : State → State :=
  sendThen (devWord sp .write) (sendThen a (sendAll ds))

/-- SCL stays low: `HungBus` (60_exceptions.md R620). Where the module holds it, T_clock_hold runs and the module is marked
faulty (R641 (b)); it stays so until it loses its power. (DEDUCED: log 33.) -/
def hang (s : State) : State :=
  raise .hungBus
    { s with
      clk := { s.clk with
        now := if moduleHolds s then max s.clk.now (s.bus.heldAt + Config.tClockHold) else s.clk.now }
      slot := { s.slot with stuck := moduleHolds s || s.slot.stuck } }

/-- Whether a ninth data word came to the module between two states (60_exceptions.md R637). -/
def overran (s t : State) : Bool := decide (s.raised.count .writeOverrun < t.raised.count .writeOverrun)

/-- Whatever needs SCL to rise gets nowhere while SCL is held low (60_exceptions.md R641 (b)). A host that does not wait for
SCL may lose the START of a frame, and its words then go on with the write the module still has open: a ninth word is
refused (R637; 93 U3). (DEDUCED: log 27.) -/
def clocked (f : State → State) (s : State) : Host.Outcome State Fault Refusal :=
  if sclHeld s then .next (hang s)
  else if !s.host.honours && overran s (f s) then .refused .writeOverrun
  else .next (f s)

/-- Eight data words are in and more bits would come (93 U3; 92 D14). (DEDUCED: log 27.) -/
def overrun (s : State) : Bool :=
  listening s && decide (s.bus.state = .writeData) && decide (Config.seqWriteMax ≤ s.bus.wbuf.length)

/-- A word slot on its own. -/
def wordSlot (f : State → State) (s : State) : Host.Outcome State Fault Refusal :=
  if sclHeld s then .next (hang s)
  else if overrun s then .refused .writeOverrun
  else .next (f s)

/-- Whether a pulse with SDA at `x` clocks an acknowledge: in the module's slot or in the host's (30_encoding.md R121). -/
def clocksAck (x : Level) (s : State) : Bool :=
  listening s && !pulseLost s && decide (x = .low) && (decide (s.bus.phase = .ackOut) || decide (s.bus.phase = .ackIn))

/-- What a pulse that clocks an acknowledge tells the host: tBUF runs from it, and the module's own says that no write cycle
runs (43 R353; 20_memory.md R94). -/
def notePulse (x : Level) (before t : State) : State :=
  if clocksAck x before then
    { t with bus := { t.bus with
        freeAt := some t.clk.now
        deafTill := if before.bus.phase = .ackOut then none else t.bus.deafTill } }
  else t

/-- One pulse on its own; the ninth word's eighth bit is refused (93 U3). A word clocked by single pulses leaves no mark in
`seen.acks`, and none in `raised` where it is not acknowledged (60_exceptions.md R635): the host looks at SDA itself
(`SAMPLE`). (DESIGN CHOICE: log 46.) -/
def onePulse (x : Level) (s : State) : Host.Outcome State Fault Refusal :=
  if sclHeld s then .next (hang s)
  else if overrun s && decide (s.bus.nbits = 7) then .refused .writeOverrun
  else
    let u := pulseTime s
    .next (notePulse (sdaLine x u) u (pulse x u))

/-- START as it ends a management reset (43 R377): what a write had brought is dropped, the counters stay (20_memory.md
R98). -/
def resetStart (s : State) : State :=
  gotStart (if s.bus.state = .writeData ∧ s.bus.wbuf ≠ [] then raise .abortedWrite s else s)

/-- The host makes START where SDA is high (43 R377 step 3). -/
def makeStart (s : State) : State :=
  let t := openFrame (advance Config.tHdSta s)
  if listening t then resetStart t else t

/-- The management reset's clocking (43 R377): SDA is looked at while SCL is high, and START made there if it is high.
After nine pulses START is still made if SDA has then been released; where it has not, the bus is marked stuck
(60_exceptions.md R641 (a)). The interface's own times run between the pulses, so a write cycle that ends among them does
not hide the START (20_memory.md R93). (DEDUCED: log 6, 35.) -/
def resetPulses : Nat → State → State
  | 0, s =>
    if sdaLine .high s = .high then makeStart (settleInterface (lowPeriod s))
    else raise .hungBus { s with slot := { s.slot with stuck := true } }
  | n + 1, s =>
    let t := settleInterface (pulseTime s)
    let x := sdaLine .high t
    let heard := listening t && !pulseLost t
    let u := if heard then sclRise x t else t
    if x = .high then makeStart u
    else resetPulses n (notePulse x t (if heard then sclFall u else u))

end Sys2Proof.Machine
end

