-- ==== Sys2Proof/Machine/Timers.lean ====
section
/-! DEFINITION. What the module does on its own when its times come (10_state.md R45; 20_memory.md R93;
40_low_speed_control.md R200; 70_reset_and_hazards.md R671 to R675). Every delay was drawn inside its bound when it
began. -/

namespace Sys2Proof.Machine

/-- Whether a time has come. -/
def isDue (d : Option Nat) (s : State) : Bool :=
  match d with
  | some t => decide (t ≤ s.clk.now)
  | none => false

/-- A detected fault reaches the latch (60_exceptions.md R622). -/
def settleFault (s : State) : State :=
  if s.slot.powered && isDue s.tx.faultDue s && !s.tx.latch then enterTxFault s else s

/-- The transmitter starts: operating, output on (60_exceptions.md R626; 40_low_speed_control.md R163). -/
def txOperate (s : State) : State :=
  { s with tx := { s.tx with state := .operating, outputOn := true, initDone := true, due := none, offDue := none } }

/-- The end of a start-up or of t_on: operating, or latched where the fault is there (70_reset_and_hazards.md R671).
(DEDUCED: log 39.) -/
def settleTx (s : State) : State :=
  if isDue s.tx.due s then
    match s.tx.state with
    | .initializing => if s.out.faultCond && s.cfg.txFaultImpl then enterTxFault s else txOperate s
    | .disabled => txOperate s
    | .operating => { s with tx := { s.tx with due := none } }
    | .faultLatched => { s with tx := { s.tx with due := none } }
    | .offUnpowered => { s with tx := { s.tx with due := none } }
  else s

/-- The output has fallen (40_low_speed_control.md R162, t_off). -/
def settleOff (s : State) : State :=
  if isDue s.tx.offDue s then { s with tx := { s.tx with offDue := none } } else s

/-- Rx_LOS follows the signal (60_exceptions.md R630); `RxLos` is raised where it is asserted and shown. -/
def settleLos (s : State) : State :=
  if isDue s.rcv.due s then
    let t := { s with rcv := { s.rcv with los := !s.out.signal, known := true, due := none } }
    if !s.out.signal && !s.rcv.los && s.cfg.rxLosImpl && !s.cfg.passiveCable then raise .rxLos t else t
  else s

/-- The receive rate is stable (40_low_speed_control.md R172); until this instant the module stands at the old one. (DESIGN
CHOICE: log 59.) -/
def settleRx (s : State) : State :=
  if isDue s.rate.due0 s then { s with rate := { s.rate with rxHigh := rxWanted s, due0 := none } } else s

/-- The transmit rate is stable (40_low_speed_control.md R173); until this instant the module stands at the old one. (DESIGN
CHOICE: log 59.) -/
def settleTxRate (s : State) : State :=
  if isDue s.rate.due1 s then { s with rate := { s.rate with txHigh := txWanted s, due1 := none } } else s

/-- The power level is reached (41_power_and_esd.md R240, R241). -/
def settleLevel (s : State) : State :=
  if s.slot.powered && isDue s.lvl.due s then
    { s with lvl := { s.lvl with level := s.lvl.next, settled := true, due := none } }
  else s

/-- Everything whose time has come. (DESIGN CHOICE: log 6.) -/
def settle (s : State) : State :=
  settleLevel (settleTxRate (settleRx (settleLos (settleOff (settleTx (settleFault (settleInterface s)))))))

/-- Time passes up to an instant, and the timers run. -/
def waitUntil (t : Nat) (s : State) : State :=
  settle { s with clk := { s.clk with now := max s.clk.now t } }

end Sys2Proof.Machine
end

