-- ==== Sys2Proof/Machine/Controls.lean ====
section
/-! DEFINITION. The operations that write a control of the SFF-8472 map: each is a BYTE_WRITE at a location that is a
parameter (30_encoding.md R129; 41_power_and_esd.md R240, R241; 60_exceptions.md R626; 40_low_speed_control.md R175).
The host reads the byte and writes it back with the control's bits changed, in two transactions (20_memory.md R99). -/

namespace Sys2Proof.Machine

/-- A read of the byte at a location, and a write that brings back what was read with some bits changed; no write where no
byte was read. A live byte may change between the two (20_memory.md R99). (DESIGN CHOICE: log 17.) -/
def rewriteByte (sp : Space) (a : Byte) (f : Byte → Byte) : State → State :=
  startThen fun t =>
    let u := randomBody sp a 1 t
    if t.seen.rx.length < u.seen.rx.length then
      frame (writeBody sp a [f (u.seen.rx.getLastD 0)]) (hostStop u)
    else hostStop u

/-- The host waits for a write cycle to end (20_memory.md R97). (DESIGN CHOICE: log 45.) -/
def awaitWrite (s : State) : State := if s.wr.busy then waitUntil s.wr.due s else s

/-- A write of the power level enable. -/
def writeLevel (l : PowerLevel) (s : State) : State :=
  rewriteByte s.cfg.powerField.space s.cfg.powerField.addr (powerPut s.cfg.powerField l) s

/-- A write of the Software Tx disable. -/
def writeSoftTx (v : Bool) (s : State) : State :=
  rewriteByte s.cfg.softTxField.space s.cfg.softTxField.addr (fieldPut s.cfg.softTxField v) s

/-- A write of the software rate selects (40_low_speed_control.md R175): one byte if both lie in it. Of two bytes RS0's is
written first and RS1's after the end of its write cycle; the source gives no order. (DESIGN CHOICE: log 45.) -/
def writeSoftRate (x y : Bool) (s : State) : State :=
  let f0 := s.cfg.softRs0Field
  let f1 := s.cfg.softRs1Field
  if memKey f0.space f0.addr = memKey f1.space f1.addr then
    rewriteByte f0.space f0.addr (fun v => fieldPut f1 y (fieldPut f0 x v)) s
  else
    rewriteByte f1.space f1.addr (fieldPut f1 y) (awaitWrite (rewriteByte f0.space f0.addr (fieldPut f0 x) s))

/-- POWER_LEVEL_ENABLE (41 R240). -/
def execPowerLevelEnable (l : PowerLevel) (s : State) : Host.Outcome State Fault Refusal := clocked (writeLevel l) s

/-- POWER_LEVEL_DISABLE (41 R241). -/
def execPowerLevelDisable (s : State) : Host.Outcome State Fault Refusal := clocked (writeLevel .one) s

/-- SOFT_TX_DISABLE (60 R626). -/
def execSoftTxDisable (v : Bool) (s : State) : Host.Outcome State Fault Refusal := clocked (writeSoftTx v) s

/-- SOFT_RATE_SELECT (40 R175). -/
def execSoftRateSelect (x y : Level) (s : State) : Host.Outcome State Fault Refusal :=
  clocked (writeSoftRate x.toBool y.toBool) s

/-- TX_FAULT_RESET (60 R626): the contact pulsed high for t_reset; or the Software Tx disable asserted and negated. -/
def execTxFaultReset (via : Via) (s : State) : Host.Outcome State Fault Refusal :=
  match via with
  | .contact =>
    let t := driveTxDisable .high s
    .next (driveTxDisable .low (waitUntil (t.clk.now + Config.tReset) t))
  | .software => clocked (fun t => writeSoftTx false (awaitWrite (writeSoftTx true t))) s

end Sys2Proof.Machine
end

