-- ==== Sys2Proof/Machine/LowSpeed.lean ====
section
/-! DEFINITION. The operations on the low speed control contacts (40_low_speed_control.md R162, R163, R172, R173). -/

namespace Sys2Proof.Machine

/-- TX_DISABLE_ASSERT (40 R162). -/
def execTxDisableAssert (s : State) : Host.Outcome State Fault Refusal := .next (driveTxDisable .high s)

/-- TX_DISABLE_NEGATE (40 R163). -/
def execTxDisableNegate (s : State) : Host.Outcome State Fault Refusal := .next (driveTxDisable .low s)

/-- RS0_SET (40 R172). -/
def execRs0Set (v : Level) (s : State) : Host.Outcome State Fault Refusal := .next (driveRs0 v s)

/-- RS1_SET (40 R173). -/
def execRs1Set (v : Level) (s : State) : Host.Outcome State Fault Refusal := .next (driveRs1 v s)

end Sys2Proof.Machine
end

