-- ==== Sys2Proof/Machine/Manage.lean ====
section
/-! DEFINITION. The management interface reset (43_two_wire_operations.md R377; 20_memory.md R98). -/

namespace Sys2Proof.Machine

/-- MGMT_RESET (43 R377): SDA released, at most nine pulses, START. Clocking a ninth data word into a write is refused
(93 U3). (DEDUCED: log 27, 35.) -/
def execMgmtReset (s : State) : Host.Outcome State Fault Refusal :=
  if !sclHeld s && overrun s && (s.out.sdaHeld || decide (s.bus.nbits = 7)) then .refused .writeOverrun
  else clocked (fun t => resetPulses 9 (awaitFree t)) s

end Sys2Proof.Machine
end

