-- ==== Sys2Proof/Machine/Power.lean ====
section
/-! DEFINITION. Power and mating (41_power_and_esd.md R238, R239; 40_low_speed_control.md R165, R166). -/

namespace Sys2Proof.Machine

/-- POWER_ON (41 R238). -/
def execPowerOn (s : State) : Host.Outcome State Fault Refusal := driveRails true true s

/-- POWER_OFF (41 R239). -/
def execPowerOff (s : State) : Host.Outcome State Fault Refusal := driveRails false false s

/-- INSERT (40 R165): the case and the contact groups not yet mated, in their order (10_state.md R23). (DEDUCED: log 21.) -/
def execInsert (s : State) : Host.Outcome State Fault Refusal :=
  .next
    (match s.slot.mated with
     | .absent => mateStage .all (mateStage .power (mateStage .grounds (mateStage .caseOnly s)))
     | .caseOnly => mateStage .all (mateStage .power (mateStage .grounds s))
     | .grounds => mateStage .all (mateStage .power s)
     | .power => mateStage .all s
     | .all => s)

/-- REMOVE (40 R166): one step, as 92 D4 allows. (DEDUCED: log 21.) -/
def execRemove (s : State) : Host.Outcome State Fault Refusal := .next (mateStage .absent s)

end Sys2Proof.Machine
end

