-- ==== Sys2Proof/Machine/Reads.lean ====
section
/-! DEFINITION. The read transactions and the poll (43_two_wire_operations.md R370 to R373, R376). -/

namespace Sys2Proof.Machine

/-- CURRENT_READ (43 R370). -/
def execCurrentRead (sp : Space) (s : State) : Host.Outcome State Fault Refusal :=
  clocked (frame (readBody sp 1)) s

/-- RANDOM_READ (43 R371). -/
def execRandomRead (sp : Space) (a : Byte) (s : State) : Host.Outcome State Fault Refusal :=
  clocked (frame (randomBody sp a 1)) s

/-- SEQ_READ_CURRENT (43 R372). -/
def execSeqReadCurrent (sp : Space) (n : Nat) (s : State) : Host.Outcome State Fault Refusal :=
  clocked (frame (readBody sp n)) s

/-- SEQ_READ_RANDOM (43 R373). -/
def execSeqReadRandom (sp : Space) (a : Byte) (n : Nat) (s : State) : Host.Outcome State Fault Refusal :=
  clocked (frame (randomBody sp a n)) s

/-- What follows the acknowledge of a poll: nothing after a write word, one data word not acknowledged after a read
word (43 R376). (DESIGN CHOICE: log 9.) -/
def pollTail (r : Dir) : State → State :=
  match r with
  | .write => id
  | .read => readWord false

/-- The end of a poll: STOP, or a repeated START after tBUF (43 R376; 30_encoding.md R126). -/
def pollEnd (e : PollEnd) : State → State :=
  match e with
  | .stop => hostStop
  | .repeatedStart => startThen id

/-- The poll's word: after an acknowledge what it begins, after none tBUF before the next poll, however this one ends
(43 R376). -/
def pollWord (sp : Space) (r : Dir) (s : State) : State :=
  let t := sendWord (devWord sp r) s
  if acked t then pollTail r t else { t with bus := { t.bus with freeAt := some t.clk.now } }

/-- ACK_POLL (43 R376). -/
def execAckPoll (sp : Space) (r : Poll) (s : State) : Host.Outcome State Fault Refusal :=
  clocked (startThen fun t => pollEnd r.fin (pollWord sp r.dir t)) s

end Sys2Proof.Machine
end

