-- ==== Sys2Proof/Machine/Words.lean ====
section
/-! DEFINITION. The three word operations (30_encoding.md R122, R123, R124): one word slot of nine pulses that the host
sends into whatever transaction is open. -/

namespace Sys2Proof.Machine

/-- DEVICE_ADDRESS_WORD (30_encoding.md R122). -/
def execDeviceAddressWord (sp : Space) (r : Dir) (s : State) : Host.Outcome State Fault Refusal :=
  wordSlot (sendWord (devWord sp r)) s

/-- DATA_WORD_ADDRESS (30_encoding.md R123). -/
def execDataWordAddress (a : Byte) (s : State) : Host.Outcome State Fault Refusal :=
  wordSlot (sendWord a) s

/-- DATA_WORD (30_encoding.md R124). -/
def execDataWord (d : Byte) (s : State) : Host.Outcome State Fault Refusal :=
  wordSlot (sendWord d) s

end Sys2Proof.Machine
end

