-- ==== Sys2Proof/Machine/Writes.lean ====
section
/-! DEFINITION. The write transactions (43_two_wire_operations.md R374, R375). -/

namespace Sys2Proof.Machine

/-- BYTE_WRITE (43 R374). -/
def execByteWrite (sp : Space) (a d : Byte) (s : State) : Host.Outcome State Fault Refusal :=
  clocked (frame (writeBody sp a [d])) s

/-- SEQ_WRITE (43 R375); a ninth data word is refused (93 U3). -/
def execSeqWrite (sp : Space) (a : Byte) (ds : List Byte) (s : State) : Host.Outcome State Fault Refusal :=
  if Config.seqWriteMax < ds.length then .refused .writeOverrun else clocked (frame (writeBody sp a ds)) s

end Sys2Proof.Machine
end

