-- ==== Sys2Proof/Machine/Dispatch.lean ====
section
/-! DEFINITION. One arm for each operation of spec/opcode_table.json. -/

namespace Sys2Proof.Machine

def exec (i : Instr) (s : State) : Host.Outcome State Fault Refusal :=
  match i with
  | .deviceAddressWord sp r => Sys2Proof.Machine.execDeviceAddressWord sp r s
  | .dataWordAddress a => Sys2Proof.Machine.execDataWordAddress a s
  | .dataWord d => Sys2Proof.Machine.execDataWord d s
  | .currentRead sp => Sys2Proof.Machine.execCurrentRead sp s
  | .randomRead sp a => Sys2Proof.Machine.execRandomRead sp a s
  | .seqReadCurrent sp n => Sys2Proof.Machine.execSeqReadCurrent sp n s
  | .seqReadRandom sp a n => Sys2Proof.Machine.execSeqReadRandom sp a n s
  | .byteWrite sp a d => Sys2Proof.Machine.execByteWrite sp a d s
  | .seqWrite sp a ds => Sys2Proof.Machine.execSeqWrite sp a ds s
  | .ackPoll sp r => Sys2Proof.Machine.execAckPoll sp r s
  | .mgmtReset => Sys2Proof.Machine.execMgmtReset s
  | .txDisableAssert => Sys2Proof.Machine.execTxDisableAssert s
  | .txDisableNegate => Sys2Proof.Machine.execTxDisableNegate s
  | .txFaultReset via => Sys2Proof.Machine.execTxFaultReset via s
  | .rs0Set v => Sys2Proof.Machine.execRs0Set v s
  | .rs1Set v => Sys2Proof.Machine.execRs1Set v s
  | .powerOn => Sys2Proof.Machine.execPowerOn s
  | .powerOff => Sys2Proof.Machine.execPowerOff s
  | .insert => Sys2Proof.Machine.execInsert s
  | .remove => Sys2Proof.Machine.execRemove s
  | .powerLevelEnable l => Sys2Proof.Machine.execPowerLevelEnable l s
  | .powerLevelDisable => Sys2Proof.Machine.execPowerLevelDisable s
  | .softTxDisable v => Sys2Proof.Machine.execSoftTxDisable v s
  | .softRateSelect x y => Sys2Proof.Machine.execSoftRateSelect x y s

end Sys2Proof.Machine
end

