-- ==== Sys2Proof/Machine/Script.lean ====
section
/-! DEFINITION. What the entries of a script do: symbols of the host that are no operation of the table, played one
after another, and events of the environment (30_encoding.md R128, R150; 00_scope.md R10). -/

namespace Sys2Proof.Machine

/-- A control named without a frame: the write that sets it. -/
def runControl (c : Control) (s : State) : Host.Outcome State Fault Refusal :=
  match c with
  | .power l => clocked (writeLevel l) s
  | .softTx v => clocked (writeSoftTx v) s
  | .softRate x y => clocked (writeSoftRate x.toBool y.toBool) s

/-- The host drives a contact. -/
def drivePin (p : HostPin) (x : Level) (s : State) : State :=
  match p with
  | .txDisable => driveTxDisable x s
  | .rs0 => driveRs0 x s
  | .rs1 => driveRs1 x s

/-- What an open contact reads as in the module (10_state.md R25, R26). -/
def openLevel (p : HostPin) : Level :=
  match p with
  | .txDisable => .high
  | .rs0 => .low
  | .rs1 => .low

/-- Whether a symbol uses the bus. -/
def usesBus (y : Sym) : Bool :=
  match y with
  | .start => true
  | .stop => true
  | .dev _ => true
  | .addr _ => true
  | .data _ => true
  | .read _ => true
  | .pulse _ => true
  | .mgmt => true
  | .control _ => true
  | .contact _ _ => false
  | .openPin _ => false
  | .rails _ _ => false
  | .mate _ => false
  | .wait _ => false
  | .sample => false
  | .clock _ => false
  | .txData _ => false
  | .honour _ => false

/-- The host's bus master state goes on (10_state.md R46): the bus symbols of the transaction it has open. The record is
of what the host attempted: a START, STOP, word or pulse that a hung bus kept from being made is in it, and `masterBit`
counts it, which the source does not say. (DESIGN CHOICE: log 7.) -/
def track (l : List Sym) (s : State) : State :=
  { s with host := { s.host with frame := if s.host.inFrame then s.host.frame ++ l.filter usesBus else [] } }

/-- Which bit of its word slot the host is at: the pulses since the last whole word (10_state.md R46). -/
def masterBit (s : State) : Nat :=
  (s.host.frame.reverse.takeWhile fun y => match y with | .pulse _ => true | _ => false).length % 9

/-- One symbol. (DESIGN CHOICE: log 1, 32.) -/
def runSym (y : Sym) (s : State) : Host.Outcome State Fault Refusal :=
  match y with
  | .start => clocked hostStart s
  | .stop => clocked hostStop s
  | .dev w => wordSlot (sendWord w) s
  | .addr a => wordSlot (sendWord a) s
  | .data d => wordSlot (sendWord d) s
  | .read ack => wordSlot (readWord ack) s
  | .pulse x => onePulse x s
  | .mgmt => execMgmtReset s
  | .contact p x => .next (drivePin p x s)
  | .openPin p => .next (drivePin p (openLevel p) s)
  | .rails vccT vccR => driveRails vccT vccR s
  | .mate m => .next (mateStage m s)
  | .control c => runControl c s
  | .wait t => .next (waitUntil (s.clk.now + t) s)
  | .sample => .next (sampleWires s)
  | .clock p =>
    if p < Config.sclPeriodMin then .refused .clockTooFast
    else .next { s with host := { s.host with sclPeriod := p } }
  | .txData b => .next { s with host := { s.host with txData := b } }
  | .honour b => .next { s with host := { s.host with honours := b } }

/-- A line of symbols, one after another; the module's timers run between two of them. -/
def runSyms : List Sym → State → Host.Outcome State Fault Refusal
  | [], s => .next s
  | y :: l, s => andThen (runSym y s) fun t => runSyms l (settle (track [y] t))

/-- A line of the host: the operation it is, or its symbols. (DESIGN CHOICE: log 1.) -/
def runLine (l : List Sym) (s : State) : Host.Outcome State Fault Refusal :=
  match decode l with
  | .ok i => andThen (exec i s) fun t => .next (track l t)
  | .error _ => runSyms l s

/-- A device on the wire takes SDA low or releases it: a START or a STOP to the module while SCL is high
(30_encoding.md R128). -/
def holdSdaEvent (b : Bool) (s : State) : State :=
  sdaMoves (sdaLine .high s) { s with out := { s.out with sdaHeld := b } }

/-- The module holds SCL low, which takes power, no write cycle (20_memory.md R93) and a state in which it may drive a wire
(10_state.md R42), or releases it; a hold longer than T_clock_hold has marked it faulty (60_exceptions.md R641 (b)). -/
def holdSclEvent (b : Bool) (s : State) : State :=
  if b then
    if decide (s.slot.mated = .all) && s.slot.powered && !s.wr.busy && !drivesNothing s.bus && !s.bus.stretching then
      holdScl true s
    else s
  else if moduleHolds s && !s.slot.stuck && decide (s.bus.heldAt + Config.tClockHold < s.clk.now) then releaseScl true (hang s)
  else releaseScl true s

/-- An event of the environment. (DESIGN CHOICE: log 33, 42.) -/
def runEvent (e : EnvEvent) (s : State) : State :=
  match e with
  | .signal b => signalEvent b s
  | .fault b => faultEvent b s
  | .rxData b => { s with out := { s.out with rxData := b } }
  | .holdSda b => holdSdaEvent b s
  | .holdScl b => holdSclEvent b s
  | .blockScl b => { s with out := { s.out with sclHeld := b } }

/-- An entry of the script. -/
def runEntry (e : Entry) (s : State) : Host.Outcome State Fault Refusal :=
  match e with
  | .host l => runLine l s
  | .env e => .next (runEvent e s)

/-- Nothing is asked of the module: time passes. -/
def idleTick (s : State) : State := advance 1 s

end Sys2Proof.Machine
end

