-- ==== Sys2Proof/Machine/Step.lean ====
section
/-! DEFINITION. One step: the next entry of the script, then what the module does on its own. -/

namespace Sys2Proof.Machine

/-- One step. With an empty script time passes (00_scope.md R10: the module acts on its own through its timers).
(DESIGN CHOICE: log 1.) -/
def step (s : State) : Host.Outcome State Fault Refusal :=
  match s.script with
  | [] => .next (settle (idleTick s))
  | e :: rest => andThen (runEntry e { s with script := rest }) fun t => .next (settle t)

/-- The same state with a table row's symbols as the next line of the script. (DESIGN CHOICE: log 36.) -/
def State.withFetchWord (s : State) (nbits w : Nat) : State :=
  { s with script := .host (layout nbits w) :: s.script }

end Sys2Proof.Machine
end

