-- ==== Sys2Proof/Machine/Limits.lean ====
section
/-! DEFINITION. Limits: what a table row demands, exact comparison with the curves the tables use, the contacts, the
logic levels, the supply and the timing tables (10_state.md R21, R23; 40_low_speed_control.md R180 to R182, R200;
41_power_and_esd.md R230 to R261; 43_two_wire_operations.md R351 to R354; 70_reset_and_hazards.md R690). Measured values
are integers in the unit a row names; frequencies are in MHz, S-parameters in mdB. -/

namespace Sys2Proof.Machine

/-- A row of a limit table: a minimum, a target, a maximum, each present or not. (DESIGN CHOICE: log 40.) -/
structure Row where
  name : String
  unit : String
  lo : Option Int
  target : Option Int
  hi : Option Int
deriving DecidableEq, Repr, Inhabited

/-- A row with a minimum. -/
def atLeast (name unit : String) (v : Int) : Row := ⟨name, unit, some v, none, none⟩

/-- A row with a maximum. -/
def atMost (name unit : String) (v : Int) : Row := ⟨name, unit, none, none, some v⟩

/-- A row with both. -/
def between (name unit : String) (a b : Int) : Row := ⟨name, unit, some a, none, some b⟩

/-- A row that sets a tester or a mask. -/
def aim (name unit : String) (v : Int) : Row := ⟨name, unit, none, some v, none⟩

/-- A row of which the source gives no value. -/
def unstated (name unit : String) : Row := ⟨name, unit, none, none, none⟩

/-- Whether a measured value meets a row; a target is a setting, not a bound. -/
def meets (r : Row) (v : Int) : Bool :=
  (match r.lo with
   | some a => decide (a ≤ v)
   | none => true) &&
  (match r.hi with
   | some b => decide (v ≤ b)
   | none => true)

/-- Whether a tester set to a row's target stands at it. -/
def onTarget (r : Row) (v : Int) : Bool := decide (r.target = some v)

/-- The row of a table by name. -/
def rowOf (t : List Row) (name : String) : Option Row := t.find? fun r => decide (r.name = name)

/-- `x ≤ b × sqrt(f/1000)`, exactly, for integers x and b and f in MHz. -/
def leRoot (x b : Int) (f : Nat) : Bool :=
  if 0 ≤ b then decide (x ≤ 0) || decide (1000 * (x * x) ≤ b * b * f)
  else decide (x ≤ 0) && decide (b * b * f ≤ 1000 * (x * x))

/-- `b × sqrt(f/1000) ≤ x`, exactly. -/
def rootLe (b x : Int) (f : Nat) : Bool := leRoot (-x) (-b) f

/-- `m mdB ≤ a + b × sqrt(f) + c × f` with a, b, c in µdB and f in GHz. -/
def underCurve (a b c m : Int) (f : Nat) : Bool := leRoot (1000000 * m - 1000 * a - c * f) (1000 * b) f

/-- `m mdB ≥ a + b × sqrt(f) + c × f`. -/
def overCurve (a b c m : Int) (f : Nat) : Bool := rootLe (1000 * b) (1000000 * m - 1000 * a - c * f) f

/-- `m mdB ≤ a + b × f` with a in mdB and b in mdB per GHz. -/
def underLine (a b m : Int) (f : Nat) : Bool := decide (1000 * m ≤ 1000 * a + b * f)

/-- `m mdB ≥ a + b × f`. -/
def overLine (a b m : Int) (f : Nat) : Bool := decide (1000 * a + b * f ≤ 1000 * m)

/-- `m ≤ a + b × log10(p/q)` in mdB, for b, p and q positive: `10^(m-a) × q^b ≤ p^b`. -/
def underLog (a : Int) (b : Nat) (m : Int) (p q : Nat) : Bool :=
  if 0 ≤ m - a then decide (10 ^ (m - a).toNat * q ^ b ≤ p ^ b)
  else decide (q ^ b ≤ p ^ b * 10 ^ (a - m).toNat)

/-- `m < a + b × log10(p/q)`. -/
def belowLog (a : Int) (b : Nat) (m : Int) (p q : Nat) : Bool :=
  if 0 ≤ m - a then decide (10 ^ (m - a).toNat * q ^ b < p ^ b)
  else decide (q ^ b < p ^ b * 10 ^ (a - m).toNat)

/-- `m mdB < a + b × f`. -/
def belowLine (a b m : Int) (f : Nat) : Bool := decide (1000 * m < 1000 * a + b * f)

/-! ### Contacts (10_state.md R21, R23) -/

/-- The electrical kinds of Table 3; `shell` is the case. -/
inductive ContactKind where
  | shell
  | ground
  | power
  | lvttlIn
  | lvttlOut
  | lvttlInOut
  | cmlIn
  | cmlOut
  | strap
deriving DecidableEq, Repr, Inhabited

/-- A contact of Table 3: number, symbol, kind, power sequence order. The case is number 0 and order 0. -/
structure Contact where
  number : Nat
  symbol : String
  kind : ContactKind
  order : Nat
deriving DecidableEq, Repr, Inhabited

/-- Table 3. -/
def contactTable : List Contact :=
  [⟨0, "case", .shell, 0⟩, ⟨1, "VeeT", .ground, 1⟩, ⟨2, "Tx_Fault", .lvttlOut, 3⟩, ⟨3, "Tx_Disable", .lvttlIn, 3⟩, ⟨4, "SDA", .lvttlInOut, 3⟩,
   ⟨5, "SCL", .lvttlInOut, 3⟩, ⟨6, "Mod_ABS", .strap, 3⟩, ⟨7, "RS0", .lvttlIn, 3⟩, ⟨8, "Rx_LOS", .lvttlOut, 3⟩,
   ⟨9, "RS1", .lvttlIn, 3⟩, ⟨10, "VeeR", .ground, 1⟩, ⟨11, "VeeR", .ground, 1⟩, ⟨12, "RD-", .cmlOut, 3⟩,
   ⟨13, "RD+", .cmlOut, 3⟩, ⟨14, "VeeR", .ground, 1⟩, ⟨15, "VccR", .power, 2⟩, ⟨16, "VccT", .power, 2⟩,
   ⟨17, "VeeT", .ground, 1⟩, ⟨18, "TD+", .cmlIn, 3⟩, ⟨19, "TD-", .cmlIn, 3⟩, ⟨20, "VeeT", .ground, 1⟩]

/-- How many orders have mated, the case's order 0 being the first (10_state.md R21 note 2, R23). -/
def matedOrders (m : Mated) : Nat :=
  match m with
  | .absent => 0
  | .caseOnly => 1
  | .grounds => 2
  | .power => 3
  | .all => 4

/-- Whether a contact, or the case, has mated (10_state.md R23). -/
def contactMated (m : Mated) (c : Contact) : Bool := decide (c.order < matedOrders m)

/-! ### Logic levels (40_low_speed_control.md R180 to R182; 43 R351) -/

/-- What an input reads: low at or below VIL max, high at or above VIH min, open between (93 U7). -/
def readInput (vilMax vihMin mv : Int) : Option Level :=
  if mv ≤ vilMax then some .low else if vihMin ≤ mv then some .high else none

/-- The same with the open level free. -/
def readInputFree (vilMax vihMin mv : Int) (k : Nat) : Level :=
  (readInput vilMax vihMin mv).getD (Config.freeLevel k 3)

/-- Tx_Disable, RS0, RS1 at the module: 0.8 V and 2.0 V (Table 5). -/
def readControl (mv : Int) : Option Level := readInput 800 2000 mv

/-- SCL and SDA: 0.3 and 0.7 of VccT (Table 21). -/
def readBusLine (vccT mv : Int) : Option Level :=
  if 10 * mv ≤ 3 * vccT then some .low else if 7 * vccT ≤ 10 * mv then some .high else none

/-- What hangs on an output while it is measured (Tables 5 and 6, Conditions). -/
inductive OutputLoad where
  /-- no load -/
  | open
  /-- a resistor in Ω to a supply in mV -/
  | pullUp (ohm supply : Nat)
  /-- a resistor in Ω to VeeR -/
  | pullDown (ohm : Nat)
  /-- a current in µA into the output -/
  | sink (ua : Nat)
deriving DecidableEq, Repr, Inhabited

/-- The output rows of Tables 5 and 6. -/
inductive OutputRow where
  | statusLow
  | statusLeakage
  | txDisableLow
  | txDisableHigh
  | rateLow
  | rateHigh
deriving DecidableEq, Repr, Inhabited

/-- The limits of an output row, for a VccT in mV. -/
def outputLimits (r : OutputRow) (vccT : Int) : Row :=
  match r with
  | .statusLow => between "Tx_Fault, Rx_LOS VOL" "mV" (-300) 400
  | .statusLeakage => between "Tx_Fault, Rx_LOS IOH" "nA" (-50000) 37500
  | .txDisableLow => between "Tx_Disable VOL" "mV" (-300) 400
  | .txDisableHigh => between "Tx_Disable VOH" "mV" (vccT - 500) (vccT + 300)
  | .rateLow => between "RS0, RS1 VOL" "mV" (-300) 400
  | .rateHigh => between "RS0, RS1 VOH" "mV" 2200 (vccT + 300)

/-- The load an output row is measured with (40 R180, R181): 0.7 mA; 4.7 kΩ to a Vcc_Host within its limits; 4.7 kΩ to 10 kΩ
to VccT max; 10 kΩ to VccT min; none; 30 kΩ to VeeR. -/
def outputLoadOk (r : OutputRow) (l : OutputLoad) : Bool :=
  match r, l with
  | .statusLow, .sink ua => decide (ua = 700)
  | .statusLeakage, .pullUp ohm supply => decide (ohm = 4700) && decide (2380 < supply) && decide (supply < 3460)
  | .txDisableLow, .pullUp ohm supply => decide (4700 ≤ ohm) && decide (ohm ≤ 10000) && decide (supply = 3460)
  | .txDisableHigh, .pullUp ohm supply => decide (ohm = 10000) && decide (supply = 3140)
  | .rateLow, .open => true
  | .rateHigh, .pullDown ohm => decide (ohm = 30000)
  | .statusLow, _ | .statusLeakage, _ | .txDisableLow, _ | .txDisableHigh, _ | .rateLow, _ | .rateHigh, _ => false

/-- An output measured with the load its row names and found within its limits. -/
def outputOk (r : OutputRow) (vccT : Int) (l : OutputLoad) (v : Int) : Bool :=
  outputLoadOk r l && meets (outputLimits r vccT) v

/-- Table 5, module, for a VccT in mV. -/
def moduleLowSpeed (vccT : Int) : List Row :=
  [between "Module Vcc" "mV" 3140 3460,
   outputLimits .statusLow vccT, outputLimits .statusLeakage vccT,
   between "Tx_Disable, RS0, RS1 VIL" "mV" (-300) 800,
   between "Tx_Disable, RS0, RS1 VIH" "mV" 2000 (vccT + 300)]

/-- Table 6, host; VIL is the host design's, with no value (note 1). -/
def hostLowSpeed (vccT : Int) : List Row :=
  [between "Host Vcc pull-up" "mV" 2380 3460,
   unstated "Tx_Fault, Rx_LOS VIL" "mV",
   atLeast "Tx_Fault, Rx_LOS VIH, host design, more than" "mV" 2101,
   outputLimits .txDisableLow vccT, outputLimits .txDisableHigh vccT, outputLimits .rateLow vccT,
   outputLimits .rateHigh vccT]

/-- Table 6 note 1 for a resistive pull-up: a released Tx_Fault or Rx_LOS stands above 2.1 V even where the module draws
37.5 µA, the largest IOH of Table 5. -/
def hostHighOk (vccHost ohm : Nat) : Bool := decide (2100 * 10000 + 375 * ohm < vccHost * 10000)

/-- Pull resistors (40 R182; 10_state.md R28), in Ω. The rules name the nominal supplies 2.5 V and 3.3 V only; that a
Vcc_Host below 2.9 V counts as the first is the model's choice. (DESIGN CHOICE: log 54.) -/
def pullTable (vccHost : Nat) : List Row :=
  [between "Tx_Fault to Vcc_Host" "ohm" 4700 10000,
   between "Rx_LOS to Vcc_Host" "ohm" 4700 (if vccHost < 2900 then 7200 else 10000),
   between "Mod_ABS to Vcc_Host" "ohm" 4700 10000,
   between "Tx_Disable to VccT" "ohm" 4700 10000,
   atLeast "RS0, RS1 to VeeT, more than" "ohm" 30001]

/-- How a host terminates Tx_Fault or Rx_LOS (40 R182; 10_state.md R28): by a resistor in Ω to Vcc_Host, or actively, by the
level in mV it gives the released line at a current IOH in nA. -/
inductive Termination where
  | resistor (ohm : Nat)
  | active (level : Int → Int)

/-- A resistor within its row of the pull resistors, or an active termination per Table 6 (40 R181 note 1, R182): above
2.1 V over the whole range of IOH in Table 5. -/
def TerminationOk (pull : Row) (t : Termination) : Prop :=
  match t with
  | .resistor ohm => meets pull ohm = true
  | .active level => ∀ i, meets (outputLimits .statusLeakage 0) i = true → 2100 < level i

/-- Both status lines of a host with a Vcc_Host in mV (40 R182). -/
def StatusTerminated (vccHost : Nat) (txFault rxLos : Termination) : Prop :=
  (∀ r, rowOf (pullTable vccHost) "Tx_Fault to Vcc_Host" = some r → TerminationOk r txFault) ∧
    ∀ r, rowOf (pullTable vccHost) "Rx_LOS to Vcc_Host" = some r → TerminationOk r rxLos

/-- The host's own supplies (10_state.md R46): Vcc_Host and Vcc_Host_2w. -/
def hostSupplyOk (c : Params) : Bool :=
  decide (2380 ≤ c.vccHost) && decide (c.vccHost ≤ 3460) && decide (3140 ≤ c.vccHost2w) && decide (c.vccHost2w ≤ 3460)

/-- No module contact above VccT/R + 0.5 V (10_state.md R21 note 4). -/
def contactVoltageOk (vcc mv : Int) : Bool := decide (mv ≤ vcc + 500)

/-- The contacts a host pulls up: Tx_Fault, SDA, SCL, Mod_ABS and Rx_LOS (40 R182; 10_state.md R21 note 4). -/
def hostPulledUp : List Nat := [2, 4, 5, 6, 8]

/-- A host keeps the bound, by the highest voltage in mV its board puts on each contact (10_state.md R21 note 4; 40 R182; 43
R351 note 2). The source says "no module contact" in what it says of pull-ups, while Table 11 allows TD+ and TD- 4.0 V, and
"VccT/R": the contacts bound are those a host pulls up, each by both supplies. (DESIGN CHOICE: log 54.) -/
def hostVoltagesOk (vccT vccR : Int) (voltage : Nat → Int) : Bool :=
  hostPulledUp.all fun n => contactVoltageOk vccT (voltage n) && contactVoltageOk vccR (voltage n)

/-- The levels of SCL and SDA in Table 21: two of an output, two of an input. -/
inductive BusLevel where
  | vol
  | voh
  | vil
  | vih
deriving DecidableEq, Repr, Inhabited

/-- Their rows, for VccT and Vcc_Host_2w in mV. -/
def busLimits (l : BusLevel) (vccT vccHost2w : Int) : Row :=
  match l with
  | .vol => between "SCL and SDA VOL" "mV" 0 400
  | .voh => between "SCL and SDA VOH" "mV" (vccHost2w - 500) (vccHost2w + 300)
  | .vil => between "SCL and SDA VIL, times 10" "mV" (-3000) (3 * vccT)
  | .vih => between "SCL and SDA VIH, times 10" "mV" (7 * vccT) (10 * vccT + 5000)

/-- Table 21, for VccT and Vcc_Host_2w in mV. -/
def busElectrical (vccT vccHost2w : Int) : List Row :=
  [between "Host 2-wire Vcc" "mV" 3140 3460, busLimits .vol vccT vccHost2w, busLimits .voh vccT vccHost2w,
   busLimits .vil vccT vccHost2w, busLimits .vih vccT vccHost2w, between "Il" "uA" (-10) 10, atMost "Ci" "pF" 14]

/-- Table 21: the bus capacitance allowed with a pull-up, in pF, at 400 kHz or at 100 kHz. -/
def busCapacitance (fast : Bool) (ohm : Nat) : Option Nat :=
  if ohm ≤ (if fast then 1100 else 2750) then some 290
  else if ohm ≤ (if fast then 3000 else 8000) then some 100
  else none

/-- The pull-up bound (43 R352): the module sinks at most 3.0 mA at VOL 0.40 V. -/
def pullUpOk (vccHost2w ohm : Nat) : Bool := decide ((vccHost2w - 400) * 1000 ≤ 3000 * ohm)

/-- What pulls SCL and SDA up (43 R351 note 2): Rp2w in Ω, to Vcc_Host_2w; or active termination in its place, by the current
in µA it feeds into a line that is held at a level in mV. -/
inductive BusPull where
  | resistor (ohm : Nat)
  | active (current : Int → Int)

/-- Neither requires the module to sink more than 3.0 mA (43 R351 note 2, R352). Active termination is held to that at VOL's
0.40 V and at every level above it, through which the module pulls the line down. (DESIGN CHOICE: log 54.) -/
def BusPull.SinkOk (vccHost2w : Nat) (p : BusPull) : Prop :=
  match p with
  | .resistor ohm => pullUpOk vccHost2w ohm = true
  | .active current => ∀ mv, 400 ≤ mv → current mv ≤ 3000

/-- A bus as a host wires it: its pull-up, whether it runs at 400 kHz or at 100 kHz, its total capacitance Cb in pF. -/
structure HostBus where
  pull : BusPull
  fast : Bool
  pf : Nat

/-- A bus within Table 21: the sink limit, and the capacitance allowed with its resistor. The source gives no limit on the
capacitance of an actively terminated one. -/
def HostBus.Ok (vccHost2w : Nat) (b : HostBus) : Prop :=
  b.pull.SinkOk vccHost2w ∧ ∀ ohm, b.pull = .resistor ohm → (busCapacitance b.fast ohm).any (fun pf => decide (b.pf ≤ pf)) = true

/-- The two sides of the connector. -/
inductive ConnectorSide where
  | host
  | module
deriving DecidableEq, Repr, Inhabited

/-- The other side. -/
def ConnectorSide.other (x : ConnectorSide) : ConnectorSide :=
  match x with
  | .host => .module
  | .module => .host

/-- How a level of SCL or SDA is measured: on which side of the connector, and on which bus. -/
structure BusLevelSetup where
  side : ConnectorSide
  bus : HostBus

/-- Whether that is as Table 21 says: on the other side of the connector to the device under test (note 3); an output pulled
to Vcc_Host_2w by Rp2w, or by active termination in its place (note 2). -/
def BusLevelSetup.Ok (dut : ConnectorSide) (vccHost2w : Nat) (l : BusLevel) (x : BusLevelSetup) : Prop :=
  x.side = dut.other ∧ (l = .vol ∨ l = .voh → x.bus.Ok vccHost2w)

/-! ### Timing tables -/

/-- Table 7 (40 R200), in 100 ns: every value a maximum but t_reset. -/
def table7 : List Row :=
  [atMost "t_off" "100ns" Config.tOff, atMost "t_on" "100ns" Config.tOn,
   atMost "t_2w_start_up" "100ns" Config.t2wStartUp, atMost "t_start_up" "100ns" Config.tStartUp,
   atMost "t_start_up_cooled" "100ns" Config.tStartUpCooled, atMost "t_power_level2" "100ns" Config.tPowerLevel2,
   atMost "t_power_down" "100ns" Config.tPowerDown, atMost "Tx_Fault_on" "100ns" Config.txFaultOn,
   atMost "Tx_Fault_on_cooled" "100ns" Config.txFaultOnCooled, atLeast "t_reset" "100ns" Config.tReset,
   atMost "t_RS0_FC, t_RS1_FC" "100ns" Config.tRsFc, atMost "t_RS0, t_RS1" "100ns" Config.tRs,
   atMost "t_los_on" "100ns" Config.tLosOn, atMost "t_los_off" "100ns" Config.tLosOff]

/-- Table 22 (43 R353). -/
def table22 : List Row :=
  [between "fSCL" "kHz" 0 400, atLeast "tLOW" "ns" 1300, atLeast "tHIGH" "ns" 600, atLeast "tBUF" "ns" 20000,
   atLeast "tHD,STA" "ns" 600, atLeast "tSU,STA" "ns" 600, atLeast "tHD,DAT" "ns" 0, atLeast "tSU,DAT" "ns" 100,
   atMost "tR,100" "ns" 1000, atMost "tR,400" "ns" 300, atMost "tF,100" "ns" 300, atMost "tF,400" "ns" 300,
   atLeast "tSU,STO" "ns" 600]

/-- The two levels between which tR and tF run, in 0.1 mV for a VccT in mV: VIL max - 0.15 V and VIH min + 0.15 V (Table 22,
Conditions; 43 R351). -/
def busEdgeLevels (vccT : Int) : Int × Int := (3 * vccT - 1500, 7 * vccT + 1500)

/-- The rise time of a line in ns, from samples in mV, one a ns: from the first at or above the lower level to the first at
or above the upper one. (DESIGN CHOICE: log 54.) -/
def busRiseTime (vccT : Int) (w : List Int) : Option Nat :=
  match w.findIdx? fun v => decide ((busEdgeLevels vccT).1 ≤ 10 * v),
        w.findIdx? fun v => decide ((busEdgeLevels vccT).2 ≤ 10 * v) with
  | some a, some b => some (b - a)
  | _, _ => none

/-- The fall time: the same run backwards. -/
def busFallTime (vccT : Int) (w : List Int) : Option Nat := busRiseTime vccT w.reverse

/-- A rising and a falling edge of SCL or SDA within Table 22, at 400 kHz or at 100 kHz (43 R353). -/
def busEdgesOk (fast : Bool) (vccT : Int) (rising falling : List Int) : Bool :=
  (match busRiseTime vccT rising with
   | some t => decide (t ≤ if fast then 300 else 1000)
   | none => false) &&
  (match busFallTime vccT falling with
   | some t => decide (t ≤ 300)
   | none => false)

/-- The lines of the bus. -/
inductive BusLine where
  | scl
  | sda
deriving DecidableEq, Repr, Inhabited

/-- A rising and a falling edge of a line as measured: the bus, and the samples in mV. -/
structure BusEdges where
  bus : HostBus
  rising : List Int
  falling : List Int

/-- Edges within Table 22, on a bus within Table 21 (43 R351, R353). -/
def BusEdges.Ok (vccT : Int) (vccHost2w : Nat) (x : BusEdges) : Prop :=
  x.bus.Ok vccHost2w ∧ busEdgesOk x.bus.fast vccT x.rising x.falling = true

/-- Table 23 (43 R354). -/
def table23 : List Row :=
  [atMost "T_clock_hold" "100ns" Config.tClockHold, atMost "tWR up to 4 byte" "100ns" Config.tWr4,
   atMost "tWR 5-8 byte" "100ns" Config.tWr8, atLeast "Endurance" "cycles" 10000]

/-- The endurance rating of Table 23 has been passed (10_state.md R44; 93 U9). -/
def enduranceUsedUp (s : State) : Bool := decide (10000 < s.wr.cycles)

/-- The shortest bus time of n words, in 100 ns (70 R690). -/
def slotTime (words period : Nat) : Nat := 9 * words * period

/-! ### Supply (41 R230 to R237) -/

/-- Each supply contact carries at most 500 mA (41 R230). -/
def contactCurrent : Row := atMost "current of a supply contact" "mA" 500

/-- Table 8, common block and levels (41 R236). Its noise tolerance is the amplitude of the tone a module must withstand
(`toneInRange`). -/
def supplyTable : List Row :=
  [aim "noise tolerance, peak to peak" "mV" 66, between "VccT, VccR" "mV" 3140 3460,
   atMost "instantaneous peak current at hot plug" "mA" 400, atMost "sustained peak current at hot plug" "mA" 330,
   atMost "Level I power" "mW" 1000,
   atMost "instantaneous peak current on enabling Level II" "mA" 600,
   atMost "sustained peak current on enabling Level II" "mA" 500,
   atMost "Level II power at power up" "mW" 1000, atMost "Level II power" "mW" 1500,
   atMost "instantaneous peak current on enabling Level III" "mA" 800,
   atMost "sustained peak current on enabling Level III" "mA" 660,
   atMost "Level III power at power up" "mW" 1000, atMost "Level III power" "mW" 2000]

/-- The longest time, in samples, that a current stays above a bound. -/
def longestAbove (bound : Nat) : Nat → List Nat → Nat
  | run, [] => run
  | run, i :: l => if bound < i then longestAbove bound (run + 1) l else max run (longestAbove bound 0 l)

/-- Figure 11 as a predicate (41 R237): samples of one rail's current in mA and of the module's total power in mW, one
every µs from hot plug (`l = .one`) or from the STOP that enables `l`. In the first 500 ms the current is never above the
instantaneous limit and above the sustained limit no longer than 50 µs; after them the total power is at most the level's.
R237 is about i(t) at every time and names no sampling: one sample a µs, nothing seen between two, and at most 50
consecutive samples counted as no longer than 50 µs, are the model's choice. (DESIGN CHOICE: log 54.) -/
def currentProfileOk (l : PowerLevel) (current power : List Nat) : Bool :=
  (current.take 500001).all (fun i => decide (i ≤ (peakCurrents l).1)) &&
    decide (longestAbove (peakCurrents l).2 0 (current.take 500001) ≤ 50) &&
    (power.drop 500001).all fun p => decide (p ≤ levelPower l)

/-- Host and module noise (41 R245, R246): RMS below 25 mV and below 15 mV. -/
def hostNoiseOk (uv : Nat) : Bool := decide (uv < 25000)

/-- Module noise at point X (41 R246). -/
def moduleNoiseOk (uv : Nat) : Bool := decide (uv < 15000)

/-- The module's noise at point X in mV, from the noise power spectrum there in mV²/Hz: integrated from 10 Hz to 10 MHz,
as a voltage (41 R260). -/
def ModuleNoise (spectrum : ℝ → ℝ) (mv : ℝ) : Prop :=
  0 ≤ mv ∧ IntervalIntegrable spectrum MeasureTheory.volume 10 (10 ^ 7) ∧ mv ^ 2 = ∫ f in (10 : ℝ)..10 ^ 7, spectrum f

/-- The module noise test (41 R246, R260): passed in every one of the module's operating modes, by its spectrum in each. -/
def ModuleNoiseOk {mode : Type} (spectrum : mode → ℝ → ℝ) : Prop :=
  ∀ m, ∃ mv, ModuleNoise (spectrum m) mv ∧ mv < 15

/-- The tolerance tone (41 R247): 66 mV peak to peak, 10 Hz to 10 MHz. -/
def toneInRange (hz mvpp : Nat) : Bool := decide (10 ≤ hz) && decide (hz ≤ 10000000) && decide (mvpp = 66)

/-- Where the tone is applied: to both supplies, or to one with the other's filter straight at the power supply (41 R261).
-/
inductive ToneTarget where
  | both
  | vccT
  | vccR
deriving DecidableEq, Repr, Inhabited

/-- A supply contact of the module in a run: its DC set point, and the peak of what stands on it, in mV. -/
structure ToneRail where
  setPoint : Nat
  peak : Nat
deriving DecidableEq, Repr, Inhabited

/-- The DC voltage specification with the tone on it, at the connector (41 R261; Table 8). -/
def ToneRail.inRange (x : ToneRail) : Bool := decide (3140 + x.peak ≤ x.setPoint) && decide (x.setPoint + x.peak ≤ 3460)

/-- At the lowest or at the highest set point: the limit inset by the tone's peak (41 R261). -/
def ToneRail.at' (highest : Bool) (x : ToneRail) : Bool :=
  if highest then decide (x.setPoint + x.peak = 3460) else decide (x.setPoint = 3140 + x.peak)

/-- A run of the tolerance test (41 R261): the tone, calibrated at point X, and where it is applied; the impedance of supply
and generator in mΩ; the load of the calibration in Ω; the two rails at the module's input. -/
structure ToneRun where
  target : ToneTarget
  hz : Nat
  mvpp : Nat
  sourceMilliohm : Nat
  loadOhm : Nat
  vccT : ToneRail
  vccR : ToneRail
deriving DecidableEq, Repr, Inhabited

/-- Whether a run is set up as D.17.3 says: the DC voltage specification is met at both VccT and VccR (41 R261). -/
def toneRunOk (r : ToneRun) : Bool :=
  toneInRange r.hz r.mvpp && decide (r.sourceMilliohm < 500) && decide (r.loadOhm = 12) && r.vccT.inRange && r.vccR.inRange

/-- Whether the rails the tone is on stand at the lowest or at the highest set point (41 R261). -/
def toneRunAt (highest : Bool) (r : ToneRun) : Bool :=
  match r.target with
  | .both => r.vccT.at' highest && r.vccR.at' highest
  | .vccT => r.vccT.at' highest
  | .vccR => r.vccR.at' highest

/-- Runs that test one frequency: well set up, and at both set points (41 R261). -/
def toneTested (hz : Nat) (runs : List ToneRun) : Bool :=
  [false, true].all fun high => runs.any fun r => decide (r.hz = hz) && toneRunOk r && toneRunAt high r

/-- The parameters D.17.3 names (41 R261). -/
inductive ToneParameter where
  | uj
  | qsq
  | tdp
  | stressedSensitivity
  | overload
  | rn
  | rxLos
deriving DecidableEq, Repr, Inhabited

/-- What a run finds beside the electrical requirements: whether the module stayed fully operational, and the parameters
that passed their optical standard. -/
structure ToneOutcome where
  operational : Bool
  passed : List ToneParameter
deriving DecidableEq, Repr, Inhabited

/-- Whether a module stayed operational in a run and every parameter asked for passed (41 R247, R261). -/
def tonePassed (asked : List ToneParameter) (o : ToneOutcome) : Bool :=
  o.operational && asked.all fun p => o.passed.contains p

/-- Every run at every frequency of the sweep and at both set points passes, the tone where `targets` says, and `met` holds
in it. -/
def SweepPasses (targets : List ToneTarget) (asked : List ToneParameter) (outcome : ToneRun → ToneOutcome)
    (met : ToneRun → Prop) : Prop :=
  ∀ r high, r.target ∈ targets → toneRunOk r = true → toneRunAt high r = true → tonePassed asked (outcome r) = true ∧ met r

/-- The noise tolerance of a module (41 R247, R261): shown with the tone on both supplies, or on each alone; not both
ways. Which parameters are asked for is the optical standard's; `met` says that every electrical requirement is met in a run
(`ModuleToneTolerant`). -/
def ToneTolerant (asked : List ToneParameter) (outcome : ToneRun → ToneOutcome) (met : ToneRun → Prop) : Prop :=
  SweepPasses [.both] asked outcome met ∨ SweepPasses [.vccT, .vccR] asked outcome met

/-- The load of the host noise test (41 R257): 8 Ω for a host that supports Level II, else 12 Ω; none is given for
Level III. -/
def noiseLoad (supports : PowerLevel) : Option Nat :=
  match supports with
  | .one => some 12
  | .two => some 8
  | .three => none

/-- A part of the reference filter: µH times 10, µF times 10, mΩ. -/
inductive FilterPart where
  | inductor (uh10 : Nat)
  | capacitor (uf10 : Nat)
  | resistor (mohm : Nat)
deriving DecidableEq, Repr, Inhabited

/-- A node of the two filters: the common point X on the host side, and for each rail (true: VccT) the connector side and
the middle of the damped capacitor. -/
inductive FilterNode where
  | pointX
  | vee
  | connector (vccT : Bool)
  | damped (vccT : Bool)
deriving DecidableEq, Repr, Inhabited

/-- The filter of one rail: each part between two nodes (41 R255, R256). The resistance stands for the series resistances of
inductor, capacitor and damping resistor together. -/
def referenceFilter (vccT : Bool) : List (FilterPart × FilterNode × FilterNode) :=
  [(.inductor 47, .pointX, .connector vccT), (.capacitor 220, .connector vccT, .damped vccT),
   (.resistor 500, .damped vccT, .vee), (.capacitor 1, .connector vccT, .vee), (.capacitor 1, .pointX, .vee)]

/-- Both filters, from one point X (41 R256). -/
def referenceFilters : List (FilterPart × FilterNode × FilterNode) := referenceFilter true ++ referenceFilter false

/-- Table 32: coefficients a to e times 10^6 of the band f Hz lies in (41 R258). The table's bands are open: an edge shared
by two is given to the lower one, and 10 Hz and 10 MHz to the bands that end there. (DESIGN CHOICE: log 54.) -/
def filterCoefficients (f : Nat) : Option (Int × Int × Int × Int × Int) :=
  if f < 10 then none
  else if f ≤ 100 then some (0, 0, 0, 0, -100000)
  else if f ≤ 10000 then some (378400, -3604500, 12694000, -19556000, 11002000)
  else if f ≤ 150000 then some (-22670380, 430392000, -3053779000, 9574260000, -11175980000)
  else if f ≤ 5243000 then some (3692166, -91467000, 838800000, -3400380000, 5139285000)
  else if f ≤ 10000000 then some (0, 0, 0, 0, -60000000)
  else none

/-- H(f) in units of 10^-18 dB, from `l` = 1000 × log10 f (41 R258). -/
def filterResponse (f : Nat) (l : Int) : Option Int :=
  (filterCoefficients f).map fun (a, b, c, d, e) =>
    a * l ^ 4 + b * l ^ 3 * 10 ^ 3 + c * l ^ 2 * 10 ^ 6 + d * l * 10 ^ 9 + e * 10 ^ 12

/-- H at f Hz in dB, over the real numbers: the polynomial of Table 32 at log10 f, from 10 Hz to 10 MHz and nowhere else
(41 R258). -/
def FilterDb (f h : ℝ) : Prop :=
  10 ≤ f ∧ f ≤ 10 ^ 7 ∧ ∃ a b c d e : Int, filterCoefficients ⌈f⌉₊ = some (a, b, c, d, e) ∧
    10 ^ 6 * h = a * Real.logb 10 f ^ 4 + b * Real.logb 10 f ^ 3 + c * Real.logb 10 f ^ 2 + d * Real.logb 10 f + e

/-- The host's noise in mV from the noise power spectrum in mV²/Hz (41 R257): the spectrum divided by the filter's response,
integrated from 10 Hz to 10 MHz, as a voltage. -/
def HostNoise (spectrum : ℝ → ℝ) (mv : ℝ) : Prop :=
  0 ≤ mv ∧ ∃ h : ℝ → ℝ, (∀ f, 10 ≤ f → f ≤ 10 ^ 7 → FilterDb f (h f)) ∧
    IntervalIntegrable (fun f => spectrum f / (10 : ℝ) ^ (h f / 10)) MeasureTheory.volume 10 (10 ^ 7) ∧
    mv ^ 2 = ∫ f in (10 : ℝ)..10 ^ 7, spectrum f / (10 : ℝ) ^ (h f / 10)

/-- The host noise bound on a spectrum (41 R245, R257). -/
def HostNoiseOk (spectrum : ℝ → ℝ) : Prop := ∃ mv, HostNoise spectrum mv ∧ mv < 25

/-- The load of a Level III host in Ω, which the source does not give (41 R257). (DESIGN CHOICE: log 40.) -/
opaque Config.noiseLoadThree : Nat

/-- A run of the host noise test (41 R257): the port, which of its Vcc contacts is loaded (true: VccT) in place of the
module, the load in Ω, whether the other Vcc contact is open circuit, whether the rest of the host is active, and which
other ports hold an active module. -/
structure HostNoiseSetup where
  port : Nat
  vccT : Bool
  loadOhm : Nat
  otherOpen : Bool
  hostActive : Bool
  activePorts : List Nat
deriving DecidableEq, Repr, Inhabited

/-- Whether a run is made as 41 R257 says, in a host of `ports` ports. -/
def hostNoiseSetupOk (supports : PowerLevel) (ports : Nat) (x : HostNoiseSetup) : Bool :=
  decide (x.port < ports) && decide (x.loadOhm = (noiseLoad supports).getD Config.noiseLoadThree) && x.otherOpen &&
    x.hostActive && (List.range ports).all fun p => x.activePorts.contains p != decide (p = x.port)

/-- The noise output of a host (41 R245, R257): within its bound at every port, on each rail in turn, from the spectrum a
run finds at the module side of the connector. -/
def HostNoiseCompliant (supports : PowerLevel) (ports : Nat) (spectrum : HostNoiseSetup → ℝ → ℝ) : Prop :=
  ∀ x, hostNoiseSetupOk supports ports x = true → HostNoiseOk (spectrum x)

/-- ESD withstand, in V (41 R250). -/
def esdTable : List Row :=
  [atLeast "SFI contacts, HBM" "V" 1000, atLeast "other contacts, HBM" "V" 2000,
   atLeast "air discharge" "V" 15000, atLeast "contact discharge to case" "V" 8000]

/-- Damage threshold of the host input at C, peak to peak differential (00_scope.md R7). -/
def damageThreshold : Row := atLeast "damage threshold at C" "mV" 2000

end Sys2Proof.Machine
end

