-- ==== Sys2Proof/Machine/OneGig.lean ====
section
/-! DEFINITION. Operation at 1.25 GBd (47_1g25_support.md R590 to R597). -/

namespace Sys2Proof.Machine

/-- Table 38, INF-8074i levels (47 R591). -/
def table38 : List Row :=
  [between "module input at B'" "mV" 500 2400, between "module output at C'" "mV" 370 2000]

/-- Table 39, host transmitter (47 R595), and the TP1 jitter of R593 at B, whose numbers the source does not give. -/
def table39 : List Row :=
  [atLeast "host output VMA" "mV" 500, aim "Y1" "mV" 150, aim "Y2" "mV" 500,
   unstated "TP1 jitter at B, clauses 38.5 and 59.6" "mUI"]

/-- Table 40, host receiver (47 R596), and the TP4 jitter of R593 at C. -/
def table40 : List Row :=
  [atLeast "host input VMA" "mV" 370, aim "Y1" "mV" 125, aim "Y2" "mV" 600,
   unstated "TP4 jitter at C, clauses 38.5 and 59.6" "mUI"]

/-- The clauses of IEEE 802.3 with the jitter of 1.25 GBd (47 R593). -/
inductive JitterClause where
  | cl38_5
  | cl59_6
deriving DecidableEq, Repr, Inhabited

/-- Whether the crossing times of a signal at B meet a clause's TP1 jitter: its numbers are not in the source (47 R593; 91
N14), so it is uninterpreted. (DESIGN CHOICE: log 40.) -/
opaque Config.tp1Jitter : JitterClause → List Int → Bool

/-- Whether those of a signal at C stay within a clause's TP4 jitter. (DESIGN CHOICE: log 40.) -/
opaque Config.tp4Jitter : JitterClause → List Int → Bool

/-- The output of a host that supports 1.25 GBd (47 R593): at a level its pre-emphasis can be set to, the output at B meets
the TP1 jitter of both clauses. R593 says only that the level may need adjusting: that one level serves both clauses, and
that it need not be the one at which Table 39's VMA and mask were measured, is the model's choice. (DESIGN CHOICE: log 54.)
-/
def OneGigOutputOk (output : Nat → List Int) : Prop := ∃ level, ∀ k, Config.tp1Jitter k (output level) = true

/-- Table 41, what an SFP+ host can support (47 R597). -/
def table41 : List Row :=
  [between "module input at B'" "mV" 500 2400, between "module output at C'" "mV" 370 1200]

/-- The masks without time coordinates: |v| < Y1 or |v| > Y2 (47 R595, R596). -/
def bandHit (y1 y2 v : Int) : Bool := decide ((v.natAbs : Int) < y1) || decide (y2 < (v.natAbs : Int))

/-- Which limits a lane is held to (47_1g25_support.md, first paragraph): `P_RATE` is in kBd. -/
def usesOneGig (c : Params) : Bool := c.oneGig && decide (c.rate = 1250000)

end Sys2Proof.Machine
end

