-- ==== Sys2Proof/Machine/Sfi.lean ====
section
/-! DEFINITION. The high speed interface SFI: rates, test points, tables and masks (00_scope.md R6; 42_sfi_high_speed.md
R270 to R315). Times in mUI, voltages in mV, other units as a row names them. -/

namespace Sys2Proof.Machine

/-- The documents of Table 1's columns for the high speed interface and its test method. -/
inductive Document where
  | chapter3
  | appendixD
  | appendixE
  | appendixF
  | clause38or59
  | fcPh
  | fcPi
  | fcPi2
  | fcPi5
  | fcPi6
deriving DecidableEq, Repr, Inhabited

/-- A row of Table 1: its rate in kBd, the documents of its interface and of its test method. -/
structure Application where
  name : String
  rate : Nat
  interface : List Document
  testMethod : List Document
deriving DecidableEq, Repr, Inhabited

/-- Table 1 (00_scope.md R6, the revised edition). -/
def applications : List Application :=
  [⟨"1 Gb/s Ethernet", 1250000, [.clause38or59, .appendixF], [.appendixF]⟩,
   ⟨"1 GFC", 1062500, [.fcPh], [.fcPh]⟩, ⟨"2 GFC", 2125000, [.fcPi], [.fcPi]⟩, ⟨"4 GFC", 4250000, [.fcPi2], [.fcPi2]⟩,
   ⟨"8 GFC", 8500000, [.fcPi5], [.fcPi5]⟩, ⟨"16 GFC", 14025000, [.fcPi5], [.fcPi5]⟩,
   ⟨"32 GFC", 28050000, [.fcPi6], [.fcPi6]⟩,
   ⟨"10GSFP+Cu", 10312500, [.chapter3, .appendixE], [.appendixD, .appendixE]⟩,
   ⟨"10GBASE-R LAN PHY", 10312500, [.chapter3], [.appendixD]⟩,
   ⟨"10GBASE-W WAN PHY", 9953280, [.chapter3], [.appendixD]⟩, ⟨"LRM", 10312500, [.chapter3], [.appendixD]⟩,
   ⟨"10 GFC", 10518750, [.chapter3], [.appendixD]⟩, ⟨"G.709 ODU-2 with FEC", 11100000, [.chapter3], [.appendixD]⟩]

/-- The four columns of Table 1 that are one for every row: low speed electrical, low speed test methods, management,
mechanical (00_scope.md R6). -/
def commonColumns : List (List String) :=
  [["Chapter 2"], ["Appendix D"], ["Chapter 4", "SFF-8472", "SFF-8079", "SFF-8089"], ["SFF-8432", "SFF-8083"]]

/-- Table 9 (42 R271), in kBd. -/
def sfiRates : List Nat := [9953280, 10312500, 10518750, 11100000]

/-- Where SFI operates: 9.95 to 11.1 GBd (42 R271). -/
def sfiOperates (kbd : Nat) : Bool := decide (9950000 ≤ kbd) && decide (kbd ≤ 11100000)

/-- Whether this source states electrical requirements for a rate: a row of Table 1 sends it to Chapter 3, inside SFI's
range, or to Appendix F (00_scope.md R6, R11; 42 R271). Fibre Channel documents are not among the sources. -/
def rateCovered (kbd : Nat) : Bool :=
  applications.any fun a =>
    decide (a.rate = kbd) && ((a.interface.contains .chapter3 && sfiOperates kbd) || a.interface.contains .appendixF)

/-- Whether `P_RATE` has a value of 00_scope.md R11: a rate of R6. -/
def rateListed (c : Params) : Bool := applications.any fun a => decide (a.rate = c.rate)

/-- Whether the SFI requirements of 42_sfi_high_speed.md bind a lane: its rate is in Table 9 (R271). -/
def usesSfi (c : Params) : Bool := rateCovered c.rate && sfiRates.contains c.rate

/-- Table 4: what a rate select level covers, rates in kBd (40_low_speed_control.md R174). -/
def rateSelectCovers (high : Bool) (kbd : Nat) : Bool := if high then decide (4250000 < kbd) else decide (kbd ≤ 4250000)

/-- Table 10 (42 R272): the reference points. -/
inductive TestPoint where
  | a
  | b
  | c
  | d
  | b'
  | c'
  | b''
  | c''
deriving DecidableEq, Repr, Inhabited

/-- Which compliance board stands between a point and what is tested (42 R274 to R278). -/
inductive Board where
  | host
  | module
  | asic
deriving DecidableEq, Repr, Inhabited

/-- The board a point is measured through: the last one before the instrument. -/
def boardOf (p : TestPoint) : Board :=
  match p with
  | .a => .asic
  | .d => .asic
  | .b => .host
  | .c => .host
  | .b' => .module
  | .c' => .module
  | .b'' => .host
  | .c'' => .module

/-- The boards on the way to a point, in order. The calibration points lie past a mated pair: C'' at the output of the
Module Compliance Board, driven through the Host Compliance Board; B'' the other way round (42 R274 to R278). That is the
order of the texts of R277 and R278; what they say of Figures 16 and 17 has it reversed: for C'' the generator into the
Module Compliance Board and the Host Compliance Board past it, for B'' the generator into the Host Compliance Board and B'' on
the Module Compliance Board. (DESIGN CHOICE: log 54.) -/
def pathOf (p : TestPoint) : List Board :=
  match p with
  | .a | .d | .b | .c | .b' | .c' => [boardOf p]
  | .b'' => [.module, .host]
  | .c'' => [.host, .module]

/-- The point at the other direction of the mated pair, where the crosstalk source is calibrated: B'' for C'', and C'' for
B'' (42 R277, R278). -/
def otherPoint (p : TestPoint) : Option TestPoint :=
  match p with
  | .c'' => some .b''
  | .b'' => some .c''
  | .a | .b | .c | .d | .b' | .c' => none

/-- What a measurement at a test point is taken with: the single ended impedance of the instrument's ports, the reference
impedances of differential and of common mode measurements and S-parameters, in Ω; whether it is AC coupled; its bandwidth
in MHz. The response of the reference test card may be in the measurement or calibrated out of it (42 R273). -/
structure Instrument where
  portOhm : Nat
  differentialOhm : Nat
  commonOhm : Nat
  acCoupled : Bool
  mhz : Nat
deriving DecidableEq, Repr, Inhabited

/-- Points A, B, C and D require AC coupled equipment (42 R273). -/
def needsCoupling (p : TestPoint) : Bool :=
  match p with
  | .a | .b | .c | .d => true
  | .b' | .c' | .b'' | .c'' => false

/-- The ports and references of every SFI measurement: 50 Ω ports, 100 Ω differential and 25 Ω common mode reference, AC
coupling where the point asks for it (42 R273; 46 R540). -/
def instrumentFits (p : TestPoint) (i : Instrument) : Bool :=
  decide (i.portOhm = 50) && decide (i.differentialOhm = 100) && decide (i.commonOhm = 25) &&
    (!needsCoupling p || i.acCoupled)

/-- An instrument fit for a measurement: 12 GHz unless the measurement specifies another bandwidth (42 R273). -/
def instrumentOk (p : TestPoint) (specified : Option Nat) (i : Instrument) : Bool :=
  instrumentFits p i && decide (i.mhz = specified.getD 12000)

/-- Percent coupling of a differential pair, as a fraction (42 R281). -/
def coupling (zcm zdiff : Int) : Int × Int := ((4 * zcm - zdiff) * 100, 4 * zcm + zdiff)

/-! ### S-parameter limits, frequencies in MHz, values in mdB -/

/-- SDD22 at B and SDD11 at C (Tables 11, 13). -/
def hostDifferential (f : Nat) (m : Int) : Bool :=
  (!(decide (10 ≤ f) && decide (f ≤ 2000)) || decide (m ≤ -12000)) &&
    (!(decide (2000 ≤ f) && decide (f ≤ 11100)) || underLog (-6680) 12100 m f 5500)

/-- SCC22 at B and at C', SCCxx of a cable (Tables 11, 18, 37). -/
def commonMode (f : Nat) (m : Int) : Bool :=
  (!(decide (10 ≤ f) && decide (f ≤ 2500)) || underLine (-7000) 1600 m f) &&
    (!(decide (2500 ≤ f) && decide (f ≤ 11100)) || decide (m ≤ -3000))

/-- SDD11 at B', SDD22 at C', SDDxx of a cable (Tables 16, 18, 37). -/
def moduleDifferential (f : Nat) (m : Int) : Bool :=
  (!(decide (10 ≤ f) && decide (f ≤ 4100)) || underCurve (-12000000) 2000000 0 m f) &&
    (!(decide (4100 ≤ f) && decide (f ≤ 11100)) || underLog (-6300) 13000 m f 5500)

/-- SCD11 at C (Table 13): from 100 MHz. -/
def hostConversion (f : Nat) (m : Int) : Bool :=
  !(decide (100 ≤ f) && decide (f ≤ 11100)) || decide (m ≤ -10000)

/-- SCD11 at B' (Table 16): from 10 MHz. -/
def moduleConversion (f : Nat) (m : Int) : Bool :=
  !(decide (10 ≤ f) && decide (f ≤ 11100)) || decide (m ≤ -10000)

/-! ### Tables -/

/-- Table 11 (42 R285), the rows that are not curves. -/
def table11 : List Row :=
  [atMost "termination mismatch at 1 MHz" "percent" 5, between "single ended output voltage" "mV" (-300) 4000,
   atMost "output AC common mode voltage" "uV RMS" 15000]

/-- Table 12 (42 R286). -/
def table12 : List Row :=
  [aim "crosstalk source rise/fall time" "ps" 34, aim "crosstalk source amplitude" "mV" 1000,
   atLeast "signal rise/fall time" "ps" 34, atMost "TJ" "mUI" 280, atMost "DDJ" "mUI" 100, atMost "DDPWS" "mUI" 55,
   atMost "UJ" "mUI RMS" 23, atLeast "Qsq" "0.1" 500, aim "X1" "mUI" 120, aim "X2" "mUI" 330, aim "Y1" "mV" 95,
   aim "Y2" "mV" 350]

/-- Table 13 (42 R290). -/
def table13 : List Row :=
  [between "single ended input voltage" "mV" (-300) 4000, atLeast "AC common mode tolerance" "uV RMS" 7500,
   atLeast "damage threshold" "mV" 2000]

/-- Table 14 (42 R292). -/
def table14 : List Row :=
  [aim "crosstalk source rise/fall time" "ps" 34, aim "crosstalk source amplitude" "mV" 700,
   atMost "AC common mode voltage" "uV RMS" 7500, aim "J2" "mUI" 420, aim "DDPWS" "mUI" 300, aim "TJ" "mUI" 700,
   aim "X1" "mUI" 350, aim "Y1" "mV" 150, aim "Y2" "mV" 425]

/-- The applications of a linear receiver (Tables 15, 20). -/
inductive LinearApp where
  | sr
  | lr
  | lrm
deriving DecidableEq, Repr, Inhabited

/-- Table 15, first part (42 R296). -/
def table15 (app : LinearApp) : List Row :=
  [aim "crosstalk source rise/fall time" "ps" 34, aim "crosstalk source amplitude" "mV" 700,
   atMost "AC common mode voltage" "uV RMS" 7500,
   between "VMA" "mV" (match app with | .sr => 150 | .lr => 150 | .lrm => 180) 600]

/-- The stressors of 10GBASE-LRM. -/
inductive Stressor where
  | pre
  | split
  | post
deriving DecidableEq, Repr, Inhabited

/-- The stress conditions of Table 15. -/
inductive StressTest where
  | lrm (highWdp : Bool) (k : Stressor)
  | lr
deriving DecidableEq, Repr, Inhabited

/-- Table 15, second part (42 R296): target WDP in 0.1 dBo, m and b times 10^4, WDPi in 0.1 dBo. One WDPi cell printed "42"
and is read 4.2: 90_conflicts.md C17 (b) names it as the high-WDP pre-cursor row's, R296 as the low-WDP post-cursor row's.
Here the pre-cursor rows have R296's 4.1. (DESIGN CHOICE: log 54.) -/
def stressTest (t : StressTest) : Int × Int × Int × Int :=
  match t with
  | .lrm true .pre => (51, -148, 477, 41)
  | .lrm true .split => (54, -148, 477, 39)
  | .lrm true .post => (52, -148, 477, 42)
  | .lrm false .pre => (47, -148, 477, 41)
  | .lrm false .split => (47, -148, 477, 39)
  | .lrm false .post => (48, -148, 477, 42)
  | .lr => (26, -200, 960, 19)

/-- The target RN of a stress test in 10^-7, for an actual WDP in mdBo: `m × (WDP - WDPi) + b` (42 R296 note 7, R315). -/
def targetRN (t : StressTest) (wdp : Int) : Int :=
  let (_, m, b, wdpi) := stressTest t
  m * (wdp - 100 * wdpi) + 1000 * b

/-- Table 16 (42 R300). -/
def table16 : List Row :=
  [between "single ended input voltage tolerance" "mV" (-300) 4000, atLeast "AC common mode tolerance" "uV RMS" 15000]

/-- Table 17 (42 R301): the test signal of a module's input. TJ stands in its target column and is "the maximum TJ allowed"
of 45 R493: both. -/
def table17 : List Row :=
  [aim "crosstalk source rise/fall time" "ps" 34, aim "crosstalk source amplitude" "mV" 1000,
   atMost "AC common mode voltage" "uV RMS" 15000, ⟨"TJ", "mUI", none, some 280, some 280⟩, aim "DDJ" "mUI" 100, aim "DDPWS" "mUI" 55,
   aim "UJ" "mUI RMS" 23, aim "X1" "mUI" 120, aim "X2" "mUI" 330, aim "Y1" "mV" 95, aim "Y2" "mV" 350]

/-- Table 18 (42 R310). -/
def table18 : List Row :=
  [aim "crosstalk source rise/fall time" "ps" 34, aim "crosstalk source amplitude" "mV" 700,
   atMost "termination mismatch at 1 MHz" "percent" 5, between "single ended output voltage tolerance" "mV" (-300) 4000,
   atMost "output AC common mode voltage" "uV RMS" 7500]

/-- Table 19 (42 R311). -/
def table19 : List Row :=
  [atLeast "output rise and fall time" "ps" 28, atMost "TJ" "mUI" 700, atMost "J2" "mUI" 420, aim "X1" "mUI" 350,
   aim "Y1" "mV" 150, aim "Y2" "mV" 425]

/-- Table 20 (42 R313), the rows that are not RN. -/
def table20 (app : LinearApp) : List Row :=
  match app with
  | .lrm => [atMost "dWDP" "mdBo" 1500, between "VMA" "mV" 180 600, atMost "Vpk-pk" "mV" 600]
  | .sr => [atMost "dWDP" "mdBo" 2700, between "VMA" "mV" 150 600, atMost "Vpk-pk" "mV" 600]
  | .lr => [atMost "dWDP" "mdBo" 2700, between "VMA" "mV" 150 600, atMost "Vpk-pk" "mV" 600]

/-- The RN lines of Table 20. -/
inductive RnCase where
  | sr
  | lr
  | lrm (k : Stressor)
deriving DecidableEq, Repr, Inhabited

/-- The TP3 conditions of IEEE Std 802.3 68.6.9 that 42 R314 names. -/
inductive Tp3Condition where
  | sensitivity
  | overload
deriving DecidableEq, Repr, Inhabited

/-- m1, b1, m2, b2, RNmax times 10^4 (42 R313). -/
def rnLine (c : RnCase) : Int × Int × Int × Int × Int :=
  match c with
  | .sr => (-200, 780, -200, 780, 780)
  | .lr => (-200, 830, -200, 830, 830)
  | .lrm .pre => (-153, 475, -92, 457, 475)
  | .lrm .split => (-170, 475, -100, 455, 475)
  | .lrm .post => (-153, 475, -92, 457, 475)

/-- The RN limit in 10^-7 for a dWDP in mdBo (42 R314). -/
def rnLimit (c : RnCase) (dwdp : Int) : Int :=
  let (m1, b1, m2, b2, top) := rnLine c
  min (min (m1 * dwdp + 1000 * b1) (m2 * dwdp + 1000 * b2)) (1000 * top)

/-- The largest dWDP, in mdBo (Table 20). -/
def dwdpMax (c : RnCase) : Int :=
  match c with
  | .sr => 2700
  | .lr => 2700
  | .lrm _ => 1500

/-- Passing: RN, in 10^-7, below the line and dWDP within its own bound (42 R314). -/
def rnPasses (c : RnCase) (dwdp rn : Int) : Bool := decide (rn < rnLimit c dwdp) && decide (dwdp ≤ dwdpMax c)

/-- A TP3 test of a linear module: its case, the condition it was taken under, WDPi and WDPo in mdBo and RN in 10^-7. -/
structure Tp3Test where
  case : RnCase
  condition : Tp3Condition
  wdpi : Int
  wdpo : Int
  rn : Int
deriving DecidableEq, Repr, Inhabited

/-- dWDP = WDPo - WDPi (45 R512; 46 R562). -/
def dwdp (wdpo wdpi : Int) : Int := wdpo - wdpi

/-- dWDP of a test, in mdBo (45 R512). -/
def Tp3Test.dwdp (t : Tp3Test) : Int := Sys2Proof.Machine.dwdp t.wdpo t.wdpi

/-- The tests LRM requires: all three stressors, each under the sensitivity and the overload conditions (42 R314). -/
def lrmRequired : List (RnCase × Tp3Condition) :=
  [(.lrm .pre, .sensitivity), (.lrm .pre, .overload), (.lrm .split, .sensitivity), (.lrm .split, .overload),
   (.lrm .post, .sensitivity), (.lrm .post, .overload)]

/-- A module passes where each test condition for which compliance is required was tested, and every test of it lies below
its line (42 R314). -/
def linearPasses (required : List (RnCase × Tp3Condition)) (tests : List Tp3Test) : Bool :=
  required.all fun q =>
    let own := tests.filter fun t => decide ((t.case, t.condition) = q)
    !own.isEmpty && own.all fun t => rnPasses t.case t.dwdp t.rn

/-- Table 37, cable assembly at C' (46_direct_attach_copper.md R560); its S-parameters are `moduleDifferential` and
`cableCommonMode`. -/
def table37 : List Row :=
  [between "single ended voltage tolerance" "mV" (-300) 4000, atMost "Vcm" "uV RMS" 13500, atMost "dWDPc" "mdBe" 6750,
   atMost "VMA loss" "mdBe" 4400, atLeast "VCR" "mdB" 32500]

/-- The rows a module's receiver output is held to, by the rate and `P_RX_KIND` (42 R311, R313; 47 R592, R597), a passive
cable's by Table 37 (46_direct_attach_copper.md R560); none where the source states none for the rate. -/
def receiverRows (c : Params) (app : LinearApp) : List Row :=
  if usesOneGig c then table41.drop 1
  else if usesSfi c then
    if c.passiveCable then table37
    else
      table18 ++ match c.rxKind with
        | .limiting => table19
        | .linear => table20 app
  else []

/-- Whether a host supports a module's receiver (00_scope.md R9; `P_HOST_SUPPORTS`). -/
def hostTakes (c : Params) : Bool :=
  match c.hostSupports, c.rxKind with
  | .both, _ => true
  | .linear, .linear => true
  | .limiting, .limiting => true
  | .linear, .limiting => false
  | .limiting, .linear => false

/-- The rows a host's output at B is held to (42 R285, R286; 47 R592, R595). -/
def hostOutputRows (c : Params) : List Row :=
  if usesOneGig c then table39 else if usesSfi c then table11 ++ table12 else []

/-- The input rows a host is tested with (42 R290, R291, R295; 47 R592, R596). -/
def hostInputRows (c : Params) (app : LinearApp) : List Row :=
  if usesOneGig c then table40
  else if usesSfi c then
    table13 ++ match c.hostSupports with
      | .limiting => table14
      | .linear => table15 app
      | .both => table14 ++ table15 app
  else []

/-! ### Masks: t in mUI in 0..1000, v in mV -/

/-- The hexagon of Figures 19 and 22 (42 R287; the joining of its vertices is PRESUMED by the spec). -/
def inHexagon (x1 x2 y1 : Int) (t v : Int) : Bool :=
  let a := min t (1000 - t)
  decide (x1 < a) && (if x2 ≤ a then decide ((v.natAbs : Int) < y1) else decide ((v.natAbs : Int) * (x2 - x1) < y1 * (a - x1)))

/-- A hit: inside the keep-out polygon or beyond ±Y2 (42 R287). -/
def hexagonHit (x1 x2 y1 y2 : Int) (t v : Int) : Bool := inHexagon x1 x2 y1 t v || decide (y2 < (v.natAbs : Int))

/-- The mask at B and B'' (Tables 12, 17). -/
def transmitterHit (t v : Int) : Bool := hexagonHit 120 330 95 350 t v

/-- The diamond of Figure 23, and of the lost Figure 20 (42 R293, R312). -/
def diamondHit (x1 y1 y2 : Int) (t v : Int) : Bool := hexagonHit x1 500 y1 y2 t v

/-- The mask at C' and C'' of a limiting module (Tables 14, 19). -/
def limitingHit (t v : Int) : Bool := diamondHit 350 150 425 t v

/-- The mask of a host's output at B, by the rate (42 R287; 47 R595). -/
def hostOutputHit (c : Params) (t v : Int) : Bool := if usesOneGig c then bandHit 150 500 v else transmitterHit t v

/-- The mask of a host's input at 1.25 GBd, at C (47 R596). -/
def oneGigInputHit (_ v : Int) : Bool := bandHit 125 600 v

end Sys2Proof.Machine
end

