-- ==== Sys2Proof/Machine/Channel.lean ====
section
/-! DEFINITION. The recommended channel, the ASIC/SerDes tables and the compliance boards (00_scope.md R8;
44_channel_and_boards.md R420 to R448). -/

namespace Sys2Proof.Machine

/-- Table 2: trace lengths reached, in mm (00_scope.md R8, informative). -/
def traceLengths : List (String × String × Nat) :=
  [("microstrip", "FR4-6/8", 200), ("microstrip", "Nelco 4000-13", 300), ("stripline", "FR4-6/8", 150),
   ("stripline", "Nelco 4000-13", 200)]

/-- The recommended traces of host and module (44 R420; 42 R281). -/
def traceTable : List Row := [between "differential impedance" "mohm" 90000 110000, aim "differential coupling" "percent" 7]

/-- Whether traces are as recommended, by their common mode and differential impedances in mΩ: 100 ±10 Ω, and a coupling
(`coupling`, 42 R281) of nominal 7% (44 R420). "Nominal" is taken as 7 to the nearest whole percent. (DESIGN CHOICE: log 54.)
-/
def tracesOk (zcm zdiff : Int) : Bool :=
  (rowOf traceTable "differential impedance").any (fun r => meets r zdiff) &&
    (rowOf traceTable "differential coupling").any fun r => r.target.any fun t =>
      let (p, q) := coupling zcm zdiff
      decide (0 < q) && decide ((2 * (p - t * q)).natAbs ≤ q)

/-- Table 25 (44 R421). -/
def table25 : List Row :=
  [between "channel transfer SDD21 at 5.5 GHz" "mdB" (-6500) (-2250), atLeast "penalty for reflections" "mdB" (-2500),
   between "total channel link budget" "mdB" (-9000) (-2250)]

/-- Whether a piece of a limit applies at f. -/
def onBand (f lo hi : Nat) (b : Bool) : Bool := !(decide (lo ≤ f) && decide (f ≤ hi)) || b

/-- The minimum channel transfer (44 R422); at a shared end point both pieces bind (90_conflicts.md C16). -/
def channelMinimum (f : Nat) (m : Int) : Bool :=
  onBand f 10 250 (decide (-730 ≤ m)) && onBand f 250 7000 (overCurve (-108000) (-845000) (-802000) m f) &&
    onBand f 7000 8000 (overLine 20000 (-4000) m f) && onBand f 8000 11100 (decide (-16000 ≤ m))

/-- The maximum channel transfer (44 R422). -/
def channelMaximum (f : Nat) (m : Int) : Bool :=
  onBand f 250 1000 (decide (m ≤ 0)) && onBand f 1000 7000 (underLine 500 (-500) m f) &&
    onBand f 7000 11100 (decide (m ≤ -3000))

/-- SDD11 and SDD22 of the channel (44 R423). -/
def channelReflection (f : Nat) (m : Int) : Bool :=
  onBand f 10 5000 (decide (m ≤ -14500)) && onBand f 5000 11100 (underLine (-23250) 1750 m f)

/-- The ripple bound at one frequency (44 R424). -/
def rippleOk (f : Nat) (measured fitted : Int) : Bool :=
  onBand f 250 5500 (decide (1000 * ((measured - fitted).natAbs : Int) ≤ 150000 + 100 * f))

/-- A measured point of the channel: f in MHz, SDD21 in mdB. -/
structure FitSample where
  freq : Nat
  gain : Int
deriving DecidableEq, Repr, Inhabited

/-- The fit's frequencies: steps of equal size, at most 50 MHz, over 250 MHz to 5.5 GHz (44 R424). -/
def fitGridOk (first step count : Nat) : Bool :=
  decide (first = 250) && decide (step ≤ 50) && decide (first + step * (count - 1) = 5500)

/-- Whether the measured points are such a sweep. -/
def fitSweepOk (xs : List FitSample) : Bool :=
  let step := (xs.getD 1 default).freq - 250
  fitGridOk 250 step xs.length && decide (xs.map (·.freq) = (List.range xs.length).map fun k => 250 + step * k)

/-- SDD21f at f MHz, in mdB, from the coefficients of the fit (44 R424): `a = -c0`, `b = -c1`, `c = -c2`. -/
def FittedGain (c0 c1 c2 : ℝ) (f : Nat) (g : ℝ) : Prop := g = c0 + c1 * Real.sqrt (f / 1000) + c2 * (f / 1000)

/-- The coefficients of the least squares fit `C = (X^T X)^-1 X^T G`, by its normal equations (44 R424). -/
def LeastSquares (c0 c1 c2 : ℝ) (xs : List FitSample) : Prop :=
  (xs.map fun x => (x.gain : ℝ) - (c0 + c1 * Real.sqrt (x.freq / 1000) + c2 * (x.freq / 1000))).sum = 0 ∧
  (xs.map fun x => Real.sqrt (x.freq / 1000) *
    ((x.gain : ℝ) - (c0 + c1 * Real.sqrt (x.freq / 1000) + c2 * (x.freq / 1000)))).sum = 0 ∧
  (xs.map fun x => (x.freq / 1000 : ℝ) *
    ((x.gain : ℝ) - (c0 + c1 * Real.sqrt (x.freq / 1000) + c2 * (x.freq / 1000)))).sum = 0

/-- The ripple of a measured transfer, in mdB over f in MHz, against the fit of a sweep of it: at most `0.15 + 0.1 f` dB
from 0.25 to 5.5 GHz, between the steps of the fit too (44 R424). The transfer is known at whole MHz, so the bound is checked
at each of them and at nothing between. (DESIGN CHOICE: log 54.) -/
def RippleOk (transfer : Nat → Int) (xs : List FitSample) : Prop :=
  fitSweepOk xs = true ∧ (∀ x ∈ xs, x.gain = transfer x.freq) ∧ ∃ c0 c1 c2 : ℝ, LeastSquares c0 c1 c2 xs ∧
    ∀ f : Nat, 250 ≤ f → f ≤ 5500 → ∃ g, FittedGain c0 c1 c2 f g ∧ |(transfer f : ℝ) - g| ≤ 150 + 100 * (f / 1000)

/-- Table 26 (44 R432). -/
def table26 : List Row :=
  [unstated "differential output voltage" "mV", atMost "termination mismatch at 1 MHz" "percent" 5,
   between "single ended output voltage" "mV" (-300) 4000, atLeast "output rise and fall time" "ps" 24,
   atMost "output AC common mode voltage" "uV RMS" 12000]

/-- SDD22 at A and SDD11 at D (Tables 26, 27). -/
def asicDifferential (f : Nat) (m : Int) : Bool :=
  onBand f 10 2800 (decide (m ≤ -12000)) && onBand f 2800 11100 (underLog (-8150) 13330 m f 5500)

/-- SCC22 at A (Table 26). -/
def asicCommonMode (f : Nat) (m : Int) : Bool :=
  onBand f 10 4740 (decide (m ≤ -9000)) && onBand f 4740 11100 (underLog (-8150) 13330 m f 5500)

/-- SCD11 at D (Table 27). -/
def asicConversion (f : Nat) (m : Int) : Bool := onBand f 10 11100 (decide (m ≤ -15000))

/-- Table 27 (44 R433). The largest swing and VMA are levels the receiver is to tolerate (its note 1), so what a receiver
is measured to tolerate is at least that: of the kind of module it supports. -/
def table27 (h : HostSupports) : List Row :=
  (if h = .linear then [] else [atLeast "differential input swing tolerated, limiting" "mV" 850]) ++
    (if h = .limiting then [] else [atLeast "VMA tolerated, linear" "mV" 600]) ++
    [atLeast "AC common mode tolerance" "uV RMS" 15000]

/-- A discrepancy of at most p% of the loss `-(a + b sqrt f + c f)` (coefficients in µdB, all negative), the measured
value m in mdB. The percentage is taken of the specified response, where 44 R441 says "of the transfer response in dB" and
not whether of the specified or of the measured one. (DESIGN CHOICE: log 54.) -/
def nearCurve (a b c : Int) (p : Int) (m : Int) (f : Nat) : Bool :=
  underCurve (a * (100 - p)) (b * (100 - p)) (c * (100 - p)) (100 * m) f &&
    overCurve (a * (100 + p)) (b * (100 + p)) (c * (100 + p)) (100 * m) f

/-- A discrepancy of at most 0.1 dB. -/
def nearTenth (a b c : Int) (m : Int) (f : Nat) : Bool :=
  underCurve (a + 100000) b c m f && overCurve (a - 100000) b c m f

/-- A board's transfer against its nominal curve: 15% or 0.1 dB, whichever is larger, to 11.1 GHz; 25% to 15 GHz. -/
def boardTransfer (a b c : Int) (f : Nat) (m : Int) : Bool :=
  onBand f 10 11100 (nearCurve a b c 15 m f || nearTenth a b c m f) &&
    (!(decide (11100 < f) && decide (f ≤ 15000)) || nearCurve a b c 25 m f)

/-- Host Compliance Board (44 R441). -/
def hcbTransfer (f : Nat) (m : Int) : Bool := boardTransfer (-10000) (-250000) (-91600) f m

/-- Module Compliance Board and ASIC/SerDes test board (44 R442, R443). -/
def mcbTransfer (f : Nat) (m : Int) : Bool := boardTransfer (-450) (-113500) (-41610) f m

/-- The transfer a board is held to (44 R441 to R443). -/
def Board.transfer (b : Board) (f : Nat) (m : Int) : Bool :=
  match b with
  | .host => hcbTransfer f m
  | .module => mcbTransfer f m
  | .asic => mcbTransfer f m

/-- Whether frequencies rise. -/
def rising : List Nat → Bool
  | a :: b :: l => decide (a < b) && rising (b :: l)
  | _ => true

/-- A sweep over 10 MHz to 15 GHz, every point of it within a limit. How fine it is the source does not say. (DESIGN CHOICE:
log 54.) -/
def sweepWithin (limit : Nat → Int → Bool) (xs : List FitSample) : Bool :=
  rising (xs.map (·.freq)) && decide ((xs.map (·.freq)).head? = some 10) &&
    decide ((xs.map (·.freq)).getLast? = some 15000) && xs.all fun x => limit x.freq x.gain

/-- A compliant board, by its measured transfer (44 R440 to R443). -/
def boardCompliant (b : Board) (xs : List FitSample) : Bool := sweepWithin b.transfer xs

/-! ### The mated pair (44 R445 to R448) -/

/-- Mated boards, reflection looking into the Module Compliance Board (44 R445); all strict. -/
def matedMcbReflection (f : Nat) (m : Int) : Bool :=
  onBand f 10 2000 (belowLine (-20000) 2750 m f) && onBand f 2000 5000 (decide (m < -14500)) &&
    onBand f 5000 11100 (belowLine (-23250) 1750 m f)

/-- Mated boards, reflection looking into the Host Compliance Board (44 R445). -/
def matedHcbReflection (f : Nat) (m : Int) : Bool :=
  onBand f 10 2500 (belowLine (-20000) 2000 m f) && onBand f 2500 5000 (decide (m < -15000)) &&
    onBand f 5000 11100 (belowLog (-13800) 28850 m f 5500)

/-- Mated boards, through response (44 R446). -/
def matedThrough (f : Nat) (m : Int) : Bool :=
  onBand f 10 5500 (overCurve (-12000) (-694000) (-127000) m f) && onBand f 5500 11100 (overLine 750 (-650) m f) &&
    onBand f 10 11100 (underCurve 91500 (-549000) (-101000) m f)

/-- Mated boards, common mode (44 R447). -/
def matedCommonMode (f : Nat) (m : Int) : Bool :=
  onBand f 10 2500 (belowLine (-12000) 2800 m f) && onBand f 2500 15000 (belowLine (-5200) 80 m f)

/-- Mated boards, mode conversion (44 R447). -/
def matedConversion (f : Nat) (m : Int) : Bool :=
  onBand f 10 5500 (belowLine (-30000) 2910 m f) && onBand f 5500 15000 (decide (m < -14000))

/-- Mated boards, NEXT (44 R448): less than 1 mV RMS, and the recommended curve. -/
def matedNextVoltage (uv : Nat) : Bool := decide (uv < 1000)

/-- The recommended NEXT curve (44 R448). -/
def matedNextCurve (f : Nat) (m : Int) : Bool :=
  onBand f 10 4000 (decide (m ≤ -50000)) && onBand f 4000 8000 (underLine (-70000) 5000 m f) &&
    onBand f 8000 15000 (decide (m ≤ -30000))

/-- One direction of a mated pair, by its sweeps in mdB: the differential and common mode reflections looking into the Module
Compliance Board and into the Host Compliance Board, the through responses, and the mode conversion (44 R445). -/
structure MatedPath where
  sddMcb : List FitSample
  sddHcb : List FitSample
  sccMcb : List FitSample
  sccHcb : List FitSample
  sdd21 : List FitSample
  sdd12 : List FitSample
  scd21 : List FitSample
  scd12 : List FitSample
deriving DecidableEq, Repr, Inhabited

/-- A direction within the limits of a mated pair (44 R445 to R447). -/
def matedPathOk (x : MatedPath) : Bool :=
  sweepWithin matedMcbReflection x.sddMcb && sweepWithin matedHcbReflection x.sddHcb &&
    [x.sccMcb, x.sccHcb].all (sweepWithin matedCommonMode) && [x.sdd21, x.sdd12].all (sweepWithin matedThrough) &&
    [x.scd21, x.scd12].all (sweepWithin matedConversion)

/-- The ports of a mated pair of compliance boards (44 R448). -/
inductive MatedPort where
  | mcb1
  | mcb2
  | hcb1
  | hcb2
deriving DecidableEq, Repr, Inhabited

/-- A measurement of the NEXT voltage of mated boards (44 R448): amplitude in mV and edges in ps of the crosstalk source, and
where it excites; where the differential voltage is measured, the bandwidth in MHz, the RMS voltage in µV. -/
structure MatedNext where
  mv : Int
  ps : Int
  excited : MatedPort
  measured : MatedPort
  mhz : Nat
  uv : Nat
deriving DecidableEq, Repr, Inhabited

/-- The NEXT voltage requirement (44 R448): MCB Port 1 excited by Table 12's crosstalk source, less than 1 mV at MCB Port
2 in a 12 GHz bandwidth. -/
def matedNextOk (x : MatedNext) : Bool :=
  (rowOf table12 "crosstalk source amplitude").any (fun r => onTarget r x.mv) &&
    (rowOf table12 "crosstalk source rise/fall time").any (fun r => onTarget r x.ps) && decide (x.excited = .mcb1) &&
    decide (x.measured = .mcb2) && decide (x.mhz = 12000) && matedNextVoltage x.uv

/-- A Module Compliance Board mated with a Host Compliance Board, as measured: from module to host (MCB Port 2 to HCB Port 1),
from host to module (HCB Port 2 to MCB Port 1), and the NEXT voltage (44 R445, Figure 40). -/
structure MatedPair where
  toHost : MatedPath
  toModule : MatedPath
  next : MatedNext
deriving DecidableEq, Repr, Inhabited

/-- A mated pair within its specifications (44 R440, R445 to R448); the NEXT curve of R448 is recommended and not demanded. -/
def matedPairOk (x : MatedPair) : Bool := matedPathOk x.toHost && matedPathOk x.toModule && matedNextOk x.next

/-- The boards a measurement was made through: each with its measured transfer, and what two of them are when mated. -/
structure Boards where
  chain : List (Board × List FitSample)
  pair : Option MatedPair
deriving DecidableEq, Repr, Inhabited

/-- Whether a point lies past a mated pair of boards: B'' and C'' (42_sfi_high_speed.md R277, R278). -/
def needsPair (p : TestPoint) : Bool := decide ((pathOf p).length = 2)

/-- Measurements made using non-compliant test boards are invalid (44 R440): those on the way to a point, each compliant, and
where two are mated there, their pair too (44 R445 to R448). -/
def boardsOk (p : TestPoint) (bs : Boards) : Bool :=
  decide (bs.chain.map (·.1) = pathOf p) && bs.chain.all (fun b => boardCompliant b.1 b.2) &&
    (!needsPair p || bs.pair.any matedPairOk)

/-! ### The recommended channel (44 R421 to R424) -/

/-- Where a port of the network analyzer stands: at the ASIC's pads, or at the SMA connectors of a board. -/
inductive AnalyzerPort where
  | asicPads
  | sma (b : Board)
deriving DecidableEq, Repr, Inhabited

/-- How a channel is measured (44 R421): the compliance point it ends at, whether the ASIC is removed, how many ports the
network analyzer has and between what it stands, its impedances, and the boards. -/
structure ChannelSetup where
  point : TestPoint
  asicRemoved : Bool
  ports : Nat
  near : AnalyzerPort
  far : AnalyzerPort
  instrument : Instrument
  boards : Boards
deriving DecidableEq, Repr, Inhabited

/-- Whether that is as 44 R421 says: from the chip's pads to B or C, the ASIC removed, a 4-port network analyzer at the
ASIC's pads and at the SMA connectors of a compliant Host Compliance Board, with the impedances and the 12 GHz of every SFI
measurement (42 R273). -/
def channelSetupOk (x : ChannelSetup) : Bool :=
  [TestPoint.b, .c].contains x.point && x.asicRemoved && decide (x.ports = 4) && decide (x.near = .asicPads) &&
    decide (x.far = .sma .host) && instrumentOk x.point none x.instrument && boardsOk x.point x.boards

/-- A measured channel: the common mode and differential impedances of its traces in mΩ; the set-up; SDD21, SDD11 and SDD22
in mdB over f in MHz; the step of the ripple fit in MHz; the penalty for reflections and other impairments in mdB. -/
structure ChannelMeasured where
  zcm : Int
  zdiff : Int
  setup : ChannelSetup
  transfer : Nat → Int
  near : Nat → Int
  far : Nat → Int
  step : Nat
  penalty : Int

/-- The sweep of the ripple fit: 250 MHz to 5.5 GHz in its steps (44 R424). -/
def ChannelMeasured.fit (x : ChannelMeasured) : List FitSample :=
  (List.range ((5500 - 250) / x.step + 1)).map fun k => ⟨250 + x.step * k, x.transfer (250 + x.step * k)⟩

/-- What a row of Table 25 is measured as: the budget is the transfer and the penalty together (44 R421). -/
def ChannelMeasured.value (x : ChannelMeasured) (r : Row) : Int :=
  if r.name = "channel transfer SDD21 at 5.5 GHz" then x.transfer 5500
  else if r.name = "penalty for reflections" then x.penalty
  else x.transfer 5500 + x.penalty

/-- A channel within the recommendation (44 R420 to R424): its traces as recommended, set up so, the response including its
ripple within the mask, the reflections and the ripple within theirs, Table 25's budget kept. -/
structure ChannelOk (x : ChannelMeasured) : Prop where
  traces : tracesOk x.zcm x.zdiff = true
  setup : channelSetupOk x.setup = true
  mask : ∀ f, channelMinimum f (x.transfer f) = true ∧ channelMaximum f (x.transfer f) = true
  reflection : ∀ f, channelReflection f (x.near f) = true ∧ channelReflection f (x.far f) = true
  ripple : RippleOk x.transfer x.fit
  budget : ∀ r ∈ table25, meets r (x.value r) = true

end Sys2Proof.Machine
end

