-- ==== Sys2Proof/Machine/Methods.lean ====
section
/-! DEFINITION. Test patterns and the metrics the SFI tables are stated in (45_test_methods.md R470 to R518). Waveforms
and crossing times are lists of integers in the unit the tester chose; fractions are compared by cross-multiplication. -/

namespace Sys2Proof.Machine

/-- Test patterns (45 R471); `ofStandard a` is the OMA pattern that the standards of a row of Table 1 outside IEEE 802.3
define, which is not in the source (45 R483, R484). -/
inductive Pattern where
  | squareWave
  | prbs9
  | pattern1
  | pattern2
  | prbs31
  | valid64b66b
  | ofStandard (a : Application)
deriving DecidableEq, Repr, Inhabited

/-- Lengths the source gives: the 8+8 square wave, PRBS9 (45 R471). -/
def patternLength (p : Pattern) : Option Nat :=
  match p with
  | .squareWave => some 16
  | .prbs9 => some 511
  | .pattern1 => none
  | .pattern2 => none
  | .prbs31 => none
  | .valid64b66b => none
  | .ofStandard _ => none

/-- PRBS9's positive-going and negative-going transitions (45 R471). -/
def prbs9Transitions : Nat × Nat := (128, 128)

/-- The square wave: eight ones, eight zeros (45 R471). -/
def squareWave : List Bool := List.replicate 8 false ++ List.replicate 8 true

/-- What may run in the opposing direction (45 R473). -/
def crosstalkPatternOk (p : Pattern) (asynchronous : Bool) : Bool :=
  asynchronous && (decide (p = .prbs31) || decide (p = .valid64b66b))

/-- A crosstalk source as set through the compliance boards: the point it was calibrated at, the instrument there and the
boards to it, peak to peak amplitude in mV, 20% to 80% edges in ps, and what it sends (45 R473). -/
structure Crosstalk where
  point : TestPoint
  instrument : Instrument
  boards : Boards
  mv : Int
  ps : Int
  pattern : Pattern
  asynchronous : Bool
deriving DecidableEq, Repr, Inhabited

/-- Whether a crosstalk source stands at the targets of a table, calibrated at `p`: C'' for Tables 12 and 17, B'' for Tables
14, 15 and 18, with the pair of compliance boards (42 R286, R292, R296, R301, R310), compliant ones (44 R440), by an
instrument with the ports and the 12 GHz of every SFI measurement (42 R273). -/
def crosstalkTargets (p : TestPoint) (t : List Row) (x : Crosstalk) : Bool :=
  decide (x.point = p) && instrumentOk p none x.instrument && boardsOk p x.boards &&
    (rowOf t "crosstalk source amplitude").any (fun r => onTarget r x.mv) &&
    (rowOf t "crosstalk source rise/fall time").any (fun r => onTarget r x.ps)

/-- Whether it stands so and sends what it may. -/
def crosstalkOk (p : TestPoint) (t : List Row) (x : Crosstalk) : Bool :=
  crosstalkTargets p t x && crosstalkPatternOk x.pattern x.asynchronous

/-- What stands at the other point of the mated pair: the crosstalk source, a load in Ω on each of the two contacts, or a
scope (42 R277, R278). -/
inductive OtherEnd where
  | crosstalk (x : Crosstalk)
  | load (ohm : Nat)
  | scope
deriving DecidableEq, Repr, Inhabited

/-- How a test signal was calibrated: the instrument, the boards it went through, DC blocks before them, and the other
point. -/
structure CalibrationPath where
  instrument : Instrument
  boards : Boards
  dcBlocks : Bool
  other : OtherEnd
deriving DecidableEq, Repr, Inhabited

/-- Whether a signal was calibrated at B'' or C'' as 42 R277 and R278 say: through both boards, with the ports and the 12 GHz
of every SFI measurement (42 R273); the crosstalk source at the other point of the pair at the targets of `t`, or 50 Ω on
each contact there, or a scope. -/
def calibrationPathOk (p : TestPoint) (t : List Row) (c : CalibrationPath) : Bool :=
  match otherPoint p with
  | none => false
  | some q =>
    instrumentOk p none c.instrument && boardsOk p c.boards && c.dcBlocks &&
      (match c.other with
       | .crosstalk x => crosstalkOk q t x
       | .load ohm => decide (ohm = 50)
       | .scope => true)

/-- A calibration during which the crosstalk source ran. -/
def calibratedWith (p : TestPoint) (t : List Row) (x : Crosstalk) (c : CalibrationPath) : Bool :=
  calibrationPathOk p t c && decide (c.other = .crosstalk x)

/-- The quantities of Appendix D and E that are measured on a captured signal. -/
inductive Metric where
  | ddj
  | ddpws
  | dcd
  | uj
  | j2
  | tj
  | riseFall
  | vma
  | rn
  | wdp
  | peakToPeak
  | commonMode
  | next
deriving DecidableEq, Repr, Inhabited

/-- The rows of Table 1 that are no IEEE 802.3 applications. 45 R483 does not say which rows it means: 10GBASE-R encapsulated
in G.709 is taken as one that is outside IEEE 802.3, the direct attach cable as one inside. (DESIGN CHOICE: log 54.) -/
def nonIeee (a : Application) : Bool :=
  ["1 GFC", "2 GFC", "4 GFC", "8 GFC", "16 GFC", "32 GFC", "10 GFC", "G.709 ODU-2 with FEC"].contains a.name

/-- The rows of Table 1 that are IEEE 802.3 Clause 52 (00_scope.md R6). -/
def clause52 (a : Application) : Bool := ["10GBASE-R LAN PHY", "10GBASE-W WAN PHY"].contains a.name

/-- The OMA patterns of an application: the square wave, or, outside IEEE 802.3, the pattern its standards define (45 R483,
R484). -/
def omaPatterns (a : Application) : List Pattern := .squareWave :: if nonIeee a then [.ofStandard a] else []

/-- The patterns the standards of a row of Table 1 specify for UJ in place of PRBS9, if they do, which is not in the source
(45 R480). (DESIGN CHOICE: log 40.) -/
opaque Config.ujPatterns : Application → Option (List Pattern)

/-- The bandwidth in MHz they specify for electrical UJ in place of 12 GHz, if they do (45 R480). (DESIGN CHOICE: log 40.) -/
opaque Config.ujBandwidth : Application → Option Nat

/-- The patterns a metric is measured with (45 R477 to R485, R513, R515; 46 R563): UJ with PRBS9 unless specified otherwise
(45 R480). -/
def metricPatterns (m : Metric) (a : Application) : List Pattern :=
  match m with
  | .uj => (Config.ujPatterns a).getD [.prbs9]
  | .ddj | .ddpws | .dcd | .wdp => [.prbs9]
  | .j2 | .tj => [.prbs31, .valid64b66b]
  | .riseFall => [.squareWave, .prbs9]
  | .vma | .rn | .peakToPeak => omaPatterns a
  | .commonMode => [.pattern1, .prbs31]
  | .next => [.prbs31]

/-- Whether a metric is taken of an averaged signal, where the source says (45 R477, R479, R481, R485, R513). -/
def metricAveraged (m : Metric) : Option Bool :=
  match m with
  | .ddj | .ddpws | .dcd | .wdp | .peakToPeak => some true
  | .j2 | .tj => some false
  | .uj | .riseFall | .vma | .rn | .commonMode | .next => none

/-- The bandwidth of a VMA measurement: at least 3/T with T eight symbol periods (45 R483); MHz and kBd. -/
def vmaBandwidthOk (mhz kbd : Nat) : Bool := decide (3 * kbd ≤ 8000 * mhz)

/-- The bandwidth of an electrical measurement: 12 GHz (42 R273; 45 R477, R482, R484, R485, R513; 46 R563), for UJ unless the
application standard specifies another (45 R480), for VMA at least 3/T. -/
def metricBandwidthOk (m : Metric) (a : Application) (mhz : Nat) : Bool :=
  match m with
  | .vma => vmaBandwidthOk mhz a.rate
  | .uj => decide (mhz = (Config.ujBandwidth a).getD 12000)
  | .ddj | .ddpws | .dcd | .j2 | .tj | .riseFall | .rn | .wdp | .peakToPeak | .commonMode | .next => decide (mhz = 12000)

/-- The metrics the source also defines on an optical signal (45 R480, R482, R484, R485). -/
def opticalMetric (m : Metric) : Bool :=
  match m with
  | .uj | .rn | .wdp | .riseFall => true
  | .ddj | .ddpws | .dcd | .j2 | .tj | .vma | .peakToPeak | .commonMode | .next => false

/-- The metrics whose result may be corrected for another bandwidth (45 R477, R485). -/
def bandwidthCorrectable (m : Metric) : Bool :=
  match m with
  | .ddj | .ddpws | .wdp => true
  | .dcd | .uj | .j2 | .tj | .riseFall | .vma | .rn | .peakToPeak | .commonMode | .next => false

/-- Where a signal is captured: electrically at a test point, or optically through an O/E converter. -/
inductive Place where
  | electrical (p : TestPoint)
  | optical
deriving DecidableEq, Repr, Inhabited

/-- The response in front of the instrument: none but its bandwidth, or the 4th-order Bessel-Thomson filter of a bandwidth in
MHz. -/
inductive Response where
  | plain
  | besselThomson4 (mhz : Nat)
deriving DecidableEq, Repr, Inhabited

/-- The reference clock recovery (45 R475): corner 4 MHz, slope 20 dB per decade, peaking at most 0.1 dB. -/
def referenceCru : List Row :=
  [aim "corner" "kHz" 4000, aim "slope" "dB/decade" (-20), atMost "peaking" "mdB" 100]

/-- A clock recovery unit as measured: corner in kHz, slope in dB a decade, peaking in mdB. -/
structure ClockRecovery where
  corner : Int
  slope : Int
  peaking : Int
deriving DecidableEq, Repr, Inhabited

/-- Whether it is the reference clock recovery. -/
def cruOk (x : ClockRecovery) : Bool := decide (x.corner = 4000) && decide (x.slope = -20) && decide (x.peaking ≤ 100)

/-- What finds the times of edges (45 R481): an oscilloscope, or the bathtub of a bit error tester, corrected or not for the
instrument's setup-and-hold time and for its noise. -/
inductive EdgeFinder where
  | scope
  | bathtub (setupHoldCorrected noiseCorrected : Bool)
deriving DecidableEq, Repr, Inhabited

/-- A bathtub counts corrected only (45 R481). -/
def EdgeFinder.ok (x : EdgeFinder) : Bool :=
  match x with
  | .scope => true
  | .bathtub setupHold noise => setupHold && noise

/-- How a signal was captured: the row of Table 1; where, with what, through which boards, and whether corrected for another
bandwidth; the clock recovery that triggers and what finds the edges; for optical rise and fall times the response their case
specifies; whether sinusoidal interference and jitter are off. -/
structure Capture where
  application : Application
  place : Place
  instrument : Instrument
  response : Response
  specified : Response
  boards : Boards
  pattern : Pattern
  averaged : Bool
  corrected : Bool
  cru : ClockRecovery
  finder : EdgeFinder
  sinesOff : Bool
  kbd : Nat
deriving DecidableEq, Repr, Inhabited

/-- Whether the response is the metric's for an optical signal: a 4th-order Bessel-Thomson (45 R480, R484, R485); for rise
and fall times none or the standard one of 7.5 GHz, as their case specifies (45 R482). -/
def opticalResponseOk (m : Metric) (c : Capture) : Bool :=
  if m = .riseFall then
    [Response.plain, .besselThomson4 7500].contains c.response && decide (c.response = c.specified)
  else
    match c.response with
    | .besselThomson4 _ => true
    | .plain => false

/-- Whether a capture was taken as its place asks: electrically through compliant boards in the metric's bandwidth, the
Bessel-Thomson response being for optical measurements only; optically through the metric's response (44 R440; 45 R480, R482,
R484, R485). Of VMA 45 R483 says only that it does not require such a filter: the model takes no electrical VMA through one.
(DESIGN CHOICE: log 54.) -/
def placeOk (m : Metric) (c : Capture) : Bool :=
  match c.place with
  | .electrical p =>
    instrumentFits p c.instrument && boardsOk p c.boards && decide (c.response = .plain) &&
      (metricBandwidthOk m c.application c.instrument.mhz || (c.corrected && bandwidthCorrectable m))
  | .optical => opticalMetric m && opticalResponseOk m c

/-- Whether a clock recovery is the one that IEEE 802.3 clause 68.6.8 or the standard of a row of Table 1 defines for UJ,
neither of which is in the source (45 R480). (DESIGN CHOICE: log 40.) -/
opaque Config.ujRecovery : Application → ClockRecovery → Bool

/-- The clock recovery of a metric: J2 and TJ are defined using that of D.2 (45 R481), UJ its own (45 R480). -/
def metricCruOk (m : Metric) (a : Application) (x : ClockRecovery) : Bool :=
  match m with
  | .j2 | .tj => cruOk x
  | .uj => Config.ujRecovery a x
  | .ddj | .ddpws | .dcd | .riseFall | .vma | .rn | .wdp | .peakToPeak | .commonMode | .next => true

/-- The metrics of which a bathtub must be corrected (45 R481). -/
def needsFinder (m : Metric) : Bool := decide (m = .j2) || decide (m = .tj)

/-- Whether a capture is one its metric is defined on: J2, TJ and UJ use their clock recovery (45 R480, R481), J2 and TJ a
corrected bathtub, if any (45 R481), and a WDP of a row of clause 52 has sinusoidal interference and jitter off (45
R485). -/
def captureOk (m : Metric) (c : Capture) : Bool :=
  applications.contains c.application && decide (c.application.rate = c.kbd) &&
    (metricPatterns m c.application).contains c.pattern && placeOk m c &&
    (match metricAveraged m with
     | some a => decide (c.averaged = a)
     | none => true) &&
    metricCruOk m c.application c.cru && (!needsFinder m || c.finder.ok) &&
    (decide (m ≠ .wdp) || !clause52 c.application || c.sinesOff)

/-- Whether a capture was taken electrically at a point. -/
def takenAt (p : TestPoint) (c : Capture) : Bool := decide (c.place = .electrical p)

/-- Common mode times 2 (45 R515). -/
def commonModeTwice (p n : Int) : Int := p + n

/-- `RMS AC common mode voltage ≤ bound` over the samples of one UI, the mean taken off (45 R515): with c twice the common
mode, `m × Σc² - (Σc)² ≤ 4 × bound² × m²`. -/
def commonModeAtMost (p n : List Int) (bound : Int) : Bool :=
  let c := List.zipWith commonModeTwice p n
  decide (0 ≤ bound) &&
    decide (c.length * (c.map fun v => v * v).sum - c.sum * c.sum ≤ 4 * (bound * bound) * (c.length * c.length))

/-- An AC common mode voltage as measured (45 R515): the capture, and the samples of signal+ and signal- over one UI in µV. -/
structure CommonModeTest where
  capture : Capture
  plus : List Int
  minus : List Int
deriving DecidableEq, Repr, Inhabited

/-- The AC common mode voltage at a point, on a capture it is defined on, does not exceed the maximum of a table's row (45
R515). -/
def commonModeOk (p : TestPoint) (t : List Row) (name : String) (x : CommonModeTest) : Bool :=
  takenAt p x.capture && captureOk .commonMode x.capture && decide (x.plus ≠ []) &&
    decide (x.plus.length = x.minus.length) && (rowOf t name).any fun r => r.hi.any (commonModeAtMost x.plus x.minus)

/-- The set-up of every differential measurement (45 R473). -/
def measurementSetup : List Row := [aim "differential load" "ohm" 100, aim "AC coupling corner, about" "kHz" 20]

/-- The average of a list as a fraction. -/
def average (l : List Int) : Int × Int := (l.sum, l.length)

/-- The place of a time on the mask's axis, in mUI as a fraction: 0 and 1 UI are the means of the two eye crossings, taken
at the average value of the signal (45 R473). -/
def maskTime (left right : List Int) (t : Int) : Int × Int :=
  let (a, m) := average left
  let (b, n) := average right
  (1000 * (t * m - a) * n, b * m - a * n)

/-- A sample placed on the mask's axis, the time rounded down to a whole mUI. (DESIGN CHOICE: log 54.) -/
def maskSample (left right : List Int) (t v : Int) : Int × Int :=
  let (p, q) := maskTime left right t
  (p / q, v)

/-- Hits over samples in one UI, compared with a ratio `n/d`: `hits / (waveforms × samples × uiPart) ≤ n/d`, where the
screen is `screen` mUI wide (45 R474). 42 R287 divides by the samples in the window 1 UI wide and 2×Y2 high, R474 by all of
the UI: the model counts as R474, so samples beyond Y2 are in the denominator. (DESIGN CHOICE: log 54.) -/
def hitRatioOk (hits waveforms samples screen n d : Nat) : Bool :=
  decide (hits * screen * d ≤ n * waveforms * samples * 1000)

/-- The hit ratio limits: 5×10^-5 at B and B'', 1×10^-12 at C' and C'' (45 R474). -/
def hitLimit (p : TestPoint) : Option (Nat × Nat) :=
  match p with
  | .b => some (5, 100000)
  | .b'' => some (5, 100000)
  | .c' => some (1, 10 ^ 12)
  | .c'' => some (1, 10 ^ 12)
  | .a => none
  | .c => none
  | .d => none
  | .b' => none

/-- The patterns eye masks are tested with: those of the standards of a row of Table 1, which are not in the source (45
R473). (DESIGN CHOICE: log 40.) -/
opaque Config.maskPatterns : Application → List Pattern

/-- The hit ratio of the masks of 1.25 GBd, which Tables 39 and 40 do not give (47 R595, R596). (DESIGN CHOICE: log 40.) -/
opaque Config.oneGigHitRatio : Nat × Nat

/-- The mask at a point, by the rate: a host's input has its mask at C'' (42 R293), at 1.25 GBd at C (47 R596). -/
def maskAt (c : Params) (p : TestPoint) : Option (Int → Int → Bool) :=
  match p with
  | .b => some (hostOutputHit c)
  | .b'' => some transmitterHit
  | .c' => some limitingHit
  | .c'' => if usesOneGig c then none else some limitingHit
  | .c => if usesOneGig c then some oneGigInputHit else none
  | .a | .d | .b' => none

/-- The crosstalk that runs in the opposing direction while a point is tested, and where it was calibrated: Table 12 for a
host's output, 17 for a module's input signal, 14 for a host's input signal, 18 for a module's output (45 R473). -/
def opposingOk (p : TestPoint) (x : Crosstalk) : Bool :=
  match p with
  | .b => crosstalkOk .c'' table12 x
  | .b'' => crosstalkOk .c'' table17 x
  | .c'' | .c => crosstalkOk .b'' table14 x
  | .c' => crosstalkOk .b'' table18 x
  | .a | .d | .b' => false

/-- An eye mask test (45 R473 to R475): the row of Table 1, the point, the instrument, the boards, the clock recovery; the
differential load in Ω and the AC coupling corner in kHz; what the tested and the opposing direction send; the crossing
times at either side of the eye, and samples as (time, mV), so many a screen, `screen` mUI wide. -/
structure EyeMaskTest where
  application : Application
  point : TestPoint
  instrument : Instrument
  boards : Boards
  cru : ClockRecovery
  loadOhm : Int
  cornerKhz : Int
  pattern : Pattern
  opposing : Crosstalk
  left : List Int
  right : List Int
  samples : List (Int × Int)
  waveforms : Nat
  perScreen : Nat
  screen : Nat
deriving DecidableEq, Repr, Inhabited

/-- The samples of an eye mask test in the UI of its time axis, as (mUI, mV) (45 R473, R474). -/
def samplesInUi (x : EyeMaskTest) : List (Int × Int) :=
  (x.samples.map fun p => maskSample x.left x.right p.1 p.2).filter fun p => decide (0 ≤ p.1) && decide (p.1 ≤ 1000)

/-- Whether it is made as 45 R473 to R475 say: a pattern of the row's standards, the opposing direction running at its
targets; the two crossing means lie one after the other, samples were taken, and those in the 1 UI between the crossings are
its share of them, less at most one a waveform, on a screen that shows it. That samples lie so evenly is the model's. (DESIGN
CHOICE: log 54.) Of the AC coupling corner R473 says that 20 kHz "is expected to be adequate" and not which others are: the
model accepts 20 kHz and no other. (DESIGN CHOICE: log 54.) -/
def eyeMaskConditions (x : EyeMaskTest) : Bool :=
  applications.contains x.application &&
    (Config.maskPatterns x.application).contains x.pattern && opposingOk x.point x.opposing &&
    instrumentOk x.point none x.instrument && boardsOk x.point x.boards && cruOk x.cru &&
    (rowOf measurementSetup "differential load").any (fun r => onTarget r x.loadOhm) &&
    (rowOf measurementSetup "AC coupling corner, about").any (fun r => onTarget r x.cornerKhz) &&
    decide (x.samples.length = x.waveforms * x.perScreen) && decide (0 < (maskTime x.left x.right 0).2) &&
    decide (0 < x.waveforms) && decide (0 < x.perScreen) && decide (1000 ≤ x.screen) && decide (0 < (samplesInUi x).length) &&
    decide (x.waveforms * (x.perScreen * 1000) ≤ ((samplesInUi x).length + x.waveforms) * x.screen)

/-- An eye mask test made so at the rate of a device, one the source has masks for. -/
def eyeMaskSetup (c : Params) (x : EyeMaskTest) : Bool :=
  eyeMaskConditions x && decide (x.application.rate = c.rate) && (usesSfi c || usesOneGig c)

/-- The hits of a mask in the UI of its time axis. -/
def maskHits (hit : Int → Int → Bool) (x : EyeMaskTest) : Nat :=
  ((samplesInUi x).filter fun p => hit p.1 p.2).length

/-- Whether the hits of a mask stay within a hit ratio (45 R474). -/
def maskWithin (limit : Option (Nat × Nat)) (hit : Int → Int → Bool) (x : EyeMaskTest) : Bool :=
  limit.any fun r => hitRatioOk (maskHits hit x) x.waveforms x.perScreen x.screen r.1 r.2

/-- Whether they stay within the hit ratio of the point (45 R474). -/
def maskPasses (c : Params) (hit : Int → Int → Bool) (x : EyeMaskTest) : Bool :=
  maskWithin (if usesOneGig c then some Config.oneGigHitRatio else hitLimit x.point) hit x

/-- An eye mask test that is set up so and passes. -/
def eyeMaskOk (c : Params) (x : EyeMaskTest) : Bool :=
  eyeMaskSetup c x && (maskAt c x.point).any fun hit => maskPasses c hit x

/-- Eye mask compliance over the range of operating conditions (45 R473). -/
def EyeMaskComplies {condition : Type} (c : Params) (run : condition → EyeMaskTest) : Prop :=
  ∀ k, eyeMaskOk c (run k) = true

/-- The largest of a list. -/
def largest (l : List Int) : Int := l.foldl max (l.headD 0)

/-- The smallest of a list. -/
def smallest (l : List Int) : Int := l.foldl min (l.headD 0)

/-- The crossing level of a waveform is its average (45 R477, R479, R481). The indices at which one complete repetition of
it crosses: sample i on one side or at the level, the sample after it on the other, the first sample standing after the
last. -/
def crossingIndices (w : List Int) : List Nat :=
  let up (i : Nat) : Bool := decide (w.sum < w.getD (i % w.length) 0 * w.length)
  (List.range w.length).filter fun i => up i != up (i + 1)

/-- The crossing time after sample i in sample intervals, as a fraction, on a straight line between the two samples.
(DESIGN CHOICE: log 54.) -/
def crossingTime (w : List Int) (i : Nat) : Int × Int :=
  let a := w.getD i 0
  let b := w.getD ((i + 1) % w.length) 0
  ((w.sum - a * w.length) + i * (b - a) * w.length, (b - a) * w.length)

/-- The timing variations: mean crossing times less the expected ones (45 R477). -/
def timingVariations (measured expected : List Int) : List Int := List.zipWith (· - ·) measured expected

/-- DDJ: the range of the timing variations of all edges (45 R477). -/
def ddj (variations : List Int) : Int := largest variations - smallest variations

/-- DDJ of a PRBS9 waveform: all 256 edges of one repetition (45 R477). -/
def ddjPrbs9 (measured expected : List Int) : Option Int :=
  if measured.length = prbs9Transitions.1 + prbs9Transitions.2 ∧ expected.length = measured.length then
    some (ddj (timingVariations measured expected))
  else none

/-- DDJ within a bound, of a capture it is defined on (45 R477). -/
def ddjAtMost (c : Capture) (measured expected : List Int) (bound : Int) : Bool :=
  captureOk .ddj c && (ddjPrbs9 measured expected).any fun v => decide (v ≤ bound)

/-- Differences of neighbours. -/
def gaps : List Int → List Int
  | a :: b :: l => (b - a) :: gaps (b :: l)
  | _ => []

/-- DDPWS: one symbol period less the shortest gap between neighbouring edges, the edge after the last included
(45 R478). -/
def ddpws (period : Int) (edges : List Int) (edgeAfter : Int) : Int := period - smallest (gaps (edges ++ [edgeAfter]))

/-- DCD as a fraction: the mean falling edge less the mean rising edge (45 R479). -/
def dcd (falling rising : List Int) : Int × Int :=
  (falling.sum * rising.length - rising.sum * falling.length, falling.length * rising.length)

/-- UJ of the crossing times of a signal, in mUI RMS: its procedure is clause 68.6.8's, which is not in the source (45
R480), so the function is uninterpreted. (DESIGN CHOICE: log 40.) -/
opaque Config.uncorrelatedJitter : List Int → Int

/-- What surrounds the UJ test of a host transmitter (45 R480): the signal its receiver operates with, and whether all other
ports operate as in normal operation and are properly terminated. -/
structure UjSetup where
  receiving : Crosstalk
  othersNormal : Bool
  othersTerminated : Bool
deriving DecidableEq, Repr, Inhabited

/-- Whether that is as 45 R480 says: the receiver running on asynchronous PRBS31 or 64B/66B at Table 12's amplitude and rise
time at C''. -/
def ujSetupOk (x : UjSetup) : Bool := crosstalkOk .c'' table12 x.receiving && x.othersNormal && x.othersTerminated

/-- UJ within a bound, of edges of a capture it is defined on; a host transmitter's, at B, in its set-up (45 R480). -/
def ujAtMost (c : Capture) (x : UjSetup) (edges : List Int) (bound : Int) : Bool :=
  captureOk .uj c && decide (edges ≠ []) && (!takenAt .b c || ujSetupOk x) && decide (Config.uncorrelatedJitter edges ≤ bound)

/-- The width left of a distribution when `off` edges at either side are taken off. -/
def keptWidth (off : Nat) (edges : List Int) : Int :=
  let kept := (edges.mergeSort.drop off).take (edges.length - 2 * off)
  largest kept - smallest kept

/-- J2: the width left when 0.5% of the edges at either side are taken off (45 R481). How a percentile is taken of a finite
set the source does not say; the model takes off the whole part of a two-hundredth. (DESIGN CHOICE: log 54.) -/
def j2 (edges : List Int) : Int := keptWidth (edges.length / 200) edges

/-- The crossing width at 10^-12, side to side: the late time at which the cumulative count of edges over the symbols sent
is 10^-12 less the early one (45 R481). Counts are rounded down. (DESIGN CHOICE: log 54.) -/
def crossingWidth (symbols : Nat) (edges : List Int) : Int := keptWidth (symbols / 10 ^ 12) edges

/-- The jitter eye opening t1 at CDF = 10^-12 (45 R481). -/
def eyeOpening (period : Int) (symbols : Nat) (edges : List Int) : Int := period - crossingWidth symbols edges

/-- TJ: one symbol period less the jitter eye opening at 10^-12 (45 R481). -/
def tj (period opening : Int) : Int := period - opening

/-- J2 within a bound, of edges of a capture it is defined on (45 R481). -/
def j2AtMost (c : Capture) (edges : List Int) (bound : Int) : Bool :=
  captureOk .j2 c && decide (edges ≠ []) && decide (j2 edges ≤ bound)

/-- How far, in thousandths of the symbols, a transition density may be from 50% and be close to it: the source gives no
number (45 R481). (DESIGN CHOICE: log 54.) -/
opaque Config.closeDensity : Nat

/-- Whether edges can be those of so many symbols (45 R481): at most one a symbol, a density close to 50%, so that the CDF
ends close to 0.5, and more of them than lie beyond 10^-12 at both sides. -/
def edgesOf (symbols : Nat) (edges : List Int) : Bool :=
  decide (edges ≠ []) && decide (edges.length ≤ symbols) &&
    decide (1000 * (2 * edges.length) ≤ (1000 + 2 * Config.closeDensity) * symbols) &&
    decide (1000 * symbols ≤ 1000 * (2 * edges.length) + 2 * Config.closeDensity * symbols) &&
    decide (2 * (symbols / 10 ^ 12) < edges.length)

/-- TJ within a bound, of the edges of the symbols of a capture it is defined on (45 R481). -/
def tjAtMost (c : Capture) (period : Int) (symbols : Nat) (edges : List Int) (bound : Int) : Bool :=
  captureOk .tj c && edgesOf symbols edges && decide (tj period (eyeOpening period symbols edges) ≤ bound)

/-- TJ compliance by pattern (45 R481): a 10GBASE-W instance with PRBS31, a 10GBASE-R instance with PRBS31 or with a 64B/66B
signal. -/
def tjComplies (wanPhy : Bool) (tj31 tj64 : Option Int) (bound : Int) : Bool :=
  let ok (t : Option Int) : Bool :=
    match t with
    | some v => decide (v ≤ bound)
    | none => false
  if wanPhy then ok tj31 else ok tj31 || ok tj64

/-- The 20% and 80% levels of an edge, times 5 (45 R482). -/
def edgeLevels (zero one : Int) : Int × Int := (4 * zero + one, zero + 4 * one)

/-- The first time, in sample intervals as a fraction, at which a waveform reaches `level/5` going up, on a straight line
between two samples. (DESIGN CHOICE: log 54.) -/
def reaches (w : List Int) (level : Int) : Option (Int × Int) :=
  ((List.range (w.length - 1)).find? fun i => decide (5 * w.getD i 0 < level) && decide (level ≤ 5 * w.getD (i + 1) 0)).map
    fun i => (level - 5 * w.getD i 0 + 5 * i * (w.getD (i + 1) 0 - w.getD i 0), 5 * (w.getD (i + 1) 0 - w.getD i 0))

/-- The rise time of an isolated edge, in sample intervals as a fraction: from 20% to 80% (45 R482). -/
def riseTime (w : List Int) (zero one : Int) : Option (Int × Int) :=
  match reaches w (edgeLevels zero one).1, reaches w (edgeLevels zero one).2 with
  | some (a, m), some (b, n) => some (b * m - a * n, m * n)
  | _, _ => none

/-- The fall time: from 80% to 20%, the rise time of the waveform turned over (45 R482). -/
def fallTime (w : List Int) (zero one : Int) : Option (Int × Int) := riseTime (w.map (- ·)) (-one) (-zero)

/-- The isolated edges of PRBS9, by the bits they lie in: a rise after five zeros before four ones, a fall after nine ones
before five zeros (45 R482). -/
def prbs9Edges : List (Nat × Nat) := [(10, 18), (1, 14)]

/-- The two levels at an edge of a PRBS9 waveform of `perUi` samples a UI: averages over the windows -3 to -2 UI and 2 to 3
UI from the edge at sample `e` (45 R482). -/
def edgeWindows (perUi e : Nat) (w : List Int) : (Int × Int) × (Int × Int) :=
  (average ((w.drop (e - 3 * perUi)).take perUi), average ((w.drop (e + 2 * perUi)).take perUi))

/-- The PRBS9 methods are accurate for times up to 1.5 UI; the time a fraction of sample intervals (45 R482). -/
def prbs9EdgeOk (perUi : Nat) (t : Int × Int) : Bool := decide (2 * t.1 ≤ 3 * perUi * t.2)

/-- The central 20% of a run of samples (45 R483). Of a run whose length is no multiple of 5 the source does not say which
samples; start and count are rounded down. (DESIGN CHOICE: log 54.) -/
def centralFifth (l : List Int) : List Int := (l.drop (2 * l.length / 5)).take (l.length / 5)

/-- VMA as a fraction: the average of the middle of the ones less that of the zeros (45 R483). -/
def vma (ones zeros : List Int) : Int × Int :=
  let a := average (centralFifth ones)
  let b := average (centralFifth zeros)
  (a.1 * b.2 - b.1 * a.2, a.2 * b.2)

/-- One period of a captured square wave cut into its ones and its zeros: two intervals of 8 UI aligned to the average time
of both edges, which are the crossings of the average level (45 R483); to whole samples. (DESIGN CHOICE: log 54.) -/
def squareHalves (w : List Int) : List Int × List Int :=
  let up (i : Nat) : Bool := decide (w.sum < w.getD (i % w.length) 0 * w.length)
  let rise := ((List.range w.length).find? fun i => !up i && up (i + 1)).getD 0
  let high := ((List.range w.length).find? fun k => up (rise + k) && !up (rise + k + 1)).getD 0
  let start := (rise + 1 + w.length + ((high : Int) - (w.length / 2 : Nat)) / 2).toNat % w.length
  let turned := w.drop start ++ w.take start
  (turned.take (w.length / 2), turned.drop (w.length / 2))

/-- VMA of one period of a captured square wave (45 R483). -/
def vmaOf (w : List Int) : Int × Int := vma (squareHalves w).1 (squareHalves w).2

/-- Whether a value is the VMA of a period, a positive voltage (45 R483), in `unit` of the samples' units, rounded down. (DESIGN
CHOICE: log 54.) -/
def vmaReads (w : List Int) (unit v : Int) : Bool :=
  decide (0 < (vmaOf w).1) && decide (unit * v * (vmaOf w).2 ≤ (vmaOf w).1) && decide ((vmaOf w).1 < unit * (v + 1) * (vmaOf w).2)

/-- A VMA as measured (45 R483): the capture, and the samples of one period of its square wave in µV. -/
structure VmaMeasured where
  capture : Capture
  samples : List Int
deriving DecidableEq, Repr, Inhabited

/-- Whether a value in `unit` µV is the VMA measured at a point, on a capture of the square wave it is defined on (45 R483). -/
def vmaMeasuredOk (p : TestPoint) (unit v : Int) (x : VmaMeasured) : Bool :=
  takenAt p x.capture && captureOk .vma x.capture && decide (x.capture.pattern = .squareWave) && vmaReads x.samples unit v

/-- noise(RMS)² times 2 (45 R484). -/
def noiseSquaredTwice (one zero : Int) : Int := one * one + zero * zero

/-- `RN ≤ n/d`, with RN = 2 × noise(RMS) / xMA, xMA and d positive (45 R484): n is not negative and
`2 × (one² + zero²) × d² ≤ n² × xMA²`. -/
def rnAtMost (one zero xma n d : Int) : Bool :=
  decide (0 ≤ n) && decide (0 < d) && decide (0 < xma) && decide (2 * noiseSquaredTwice one zero * (d * d) ≤ n * n * (xma * xma))

/-- `Qsq ≥ q/10`, with Qsq = 1/RN for equal noises (45 R484; 42 R286 note 4). -/
def qsqAtLeast (noise xma q : Int) : Bool := rnAtMost noise noise xma 10 q

/-- The four conditions of the module transmitter test (45 R491). -/
inductive TxCondition where
  | overLarge
  | overSmall
  | underLarge
  | underSmall
deriving DecidableEq, Repr, Inhabited

/-- The compliance signal at B'' as calibrated: jitter in mUI, Total Jitter among it, UJ also with SJ off, the amplitude and
the frequency in Hz of SJ, whether there is any deliberate Gaussian or random impairment; its AC common mode voltage; and
what an eye mask measurement at a hit ratio of 5×10^-5 finds: the earliest X1 and X2 in mUI and the largest Y1 and smallest
Y2 in mV that it meets. -/
structure TxSignal where
  tj : Int
  ddj : Int
  ddpws : Int
  uj : Int
  bareUj : Int
  sj : Nat
  sjHz : Nat
  kbd : Nat
  deliberateRandom : Bool
  commonMode : CommonModeTest
  x1 : Int
  x2 : Int
  inner : Int
  peak : Int
deriving DecidableEq, Repr, Inhabited

/-- How near Y1 or Y2 is "closely", in mV: the source gives no number (45 R491). (DESIGN CHOICE: log 54.) -/
opaque Config.closely : Int

/-- DDJ and DDPWS of the compliance signal: over-compensated, DDJ on target and DDPWS from 45 to 55 mUI; under-compensated,
DDPWS on target and DDJ from 75 to 100 (45 R491). -/
def compensationOk (c : TxCondition) (ddjMui ddpwsMui : Int) : Bool :=
  match c with
  | .overLarge | .overSmall => decide (ddjMui = 100) && decide (45 ≤ ddpwsMui) && decide (ddpwsMui ≤ 55)
  | .underLarge | .underSmall => decide (ddpwsMui = 55) && decide (75 ≤ ddjMui) && decide (ddjMui ≤ 100)

/-- Its amplitude: large, it approaches Y2 closely and has margin to Y1; small, the reverse (45 R491). -/
def amplitudeOk (c : TxCondition) (x : TxSignal) : Bool :=
  match c with
  | .overLarge | .underLarge =>
    decide (350 - Config.closely ≤ x.peak) && decide (x.peak ≤ 350) && decide (95 < x.inner)
  | .overSmall | .underSmall =>
    decide (95 ≤ x.inner) && decide (x.inner ≤ 95 + Config.closely) && decide (x.peak < 350)

/-- Single ended reflections of the test set-up (45 R492). -/
def setupReflection (f : Nat) (m : Int) : Bool :=
  onBand f 10 5500 (decide (m < -20000)) && onBand f 5500 15000 (belowLine (-25800) 1053 m f)

/-- Table 30: for further study but for the delay (45 R493; 93 U18). -/
def table30 : List Row :=
  [aim "delay" "mUI" 1000, unstated "filter bandwidth" "GHz", unstated "VMA min at B''" "mV",
   unstated "VMA max at B''" "mV", unstated "rise times at B''" "ps"]

/-- How far above the clock recovery's 4 MHz a frequency is "significantly higher" or "well above", in Hz: the source
gives no number (45 R493, R498). (DESIGN CHOICE: log 54.) -/
opaque Config.cruMargin : Nat

/-- Whether an SJ frequency in Hz is significantly higher than the bandwidth of the clock recovery (45 R493, R498). -/
def aboveCru (hz : Nat) : Bool := decide (4000000 + Config.cruMargin < hz)

/-- A harmonic relationship: one frequency a whole multiple of the other. (DESIGN CHOICE: log 54.) -/
def harmonic (a b : Nat) : Bool := decide (a % b = 0) || decide (b % a = 0)

/-- The frequency of the deliberate SJ of the module transmitter test in Hz, at a rate in kBd (45 R493): significantly above
the clock recovery, and in no harmonic relationship to the repetition frequency of "the pattern". R493 does not say which:
that of the calibration pattern of D.3, PRBS9, is taken, `rate / 511`. (DESIGN CHOICE: log 54.) -/
def sjFrequencyOk (hz kbd : Nat) : Bool := aboveCru hz && !harmonic (hz * 511) (kbd * 1000)

/-- How much UJ a clean and low noise signal may have apart from SJ, in mUI RMS: the source gives no number, but "much less"
than the maximum (45 R491, R493). (DESIGN CHOICE: log 54.) -/
opaque Config.cleanUj : Int

/-- UJ on Table 17's target, made by SJ: the signal is clean otherwise, with no deliberate Gaussian or random impairment (45
R491, R493). -/
def ujBySj (x : TxSignal) : Bool :=
  decide (x.uj = 23) && decide (0 < x.sj) && sjFrequencyOk x.sjHz x.kbd && decide (x.bareUj ≤ Config.cleanUj) &&
    decide (x.bareUj < x.uj) && !x.deliberateRandom

/-- The compliance signal in one condition: Total Jitter at most Table 17's, "the maximum TJ allowed" (42 R301; 45 R493);
compensation, amplitude, UJ on Table 17's target by SJ, margin to X1 and X2 (45 R490, R491); its AC common mode voltage must
not exceed Table 17's (42 R301 note 3). -/
def txConditionOk (c : TxCondition) (x : TxSignal) : Bool :=
  (rowOf table17 "TJ").any (fun r => meets r x.tj) && compensationOk c x.ddj x.ddpws && amplitudeOk c x && ujBySj x &&
    decide (x.x1 < 120) && decide (x.x2 < 330) && commonModeOk .b'' table17 "AC common mode voltage" x.commonMode &&
    decide (x.commonMode.capture.kbd = x.kbd)

/-- The four conditions of the transmitter test, each with its signal, calibrated at B'' through the mated boards, and the
crosstalk source that runs the other way, at Table 17's targets (45 R490; 42 R278). -/
def txTestOk (signal : TxCondition → TxSignal) (path : CalibrationPath) (opposing : Crosstalk) : Bool :=
  [TxCondition.overLarge, .overSmall, .underLarge, .underSmall].all (fun c => txConditionOk c (signal c)) &&
    calibratedWith .b'' table17 opposing path

/-- The patterns a module is to send and to receive by the standards of a row of Table 1, which are not in the source (45
R493). (DESIGN CHOICE: log 40.) -/
opaque Config.transmissionPatterns : Application → List Pattern

/-- Whether a transmitted signal, by its samples, is as the transmission standard of a row of Table 1 specifies, which is not
in the source (45 R490). (DESIGN CHOICE: log 40.) -/
opaque Config.transmitsWell : Application → List Int → Bool

/-- A run of the module transmitter test (45 R490 to R493): the row of Table 1; the condition, the compliance signal and the
crosstalk source, calibrated with the Host Compliance Board; then whether the module stands in that board's place in the
Module Compliance Board, and whether its receive side is active; the patterns sent and received, and whether the received
one is asynchronous; the single ended reflections to the right of the one board and to the left of the other, in mdB over f
in MHz. -/
structure ModuleTransmitterTest where
  application : Application
  condition : TxCondition
  signal : TxSignal
  path : CalibrationPath
  opposing : Crosstalk
  boards : Boards
  inPlace : Bool
  receiveActive : Bool
  sent : Pattern
  received : Pattern
  asynchronous : Bool
  right : Nat → Int
  left : Nat → Int

/-- Whether a run is made so (45 R490 to R493). -/
def TransmitterTestOk (x : ModuleTransmitterTest) : Prop :=
  applications.contains x.application = true ∧ x.application.rate = x.signal.kbd ∧
    x.signal.commonMode.capture.application = x.application ∧ txConditionOk x.condition x.signal = true ∧
    calibratedWith .b'' table17 x.opposing x.path = true ∧ boardsOk .b' x.boards = true ∧ x.inPlace = true ∧
    x.receiveActive = true ∧ x.sent ∈ Config.transmissionPatterns x.application ∧
    x.received ∈ Config.transmissionPatterns x.application ∧ crosstalkPatternOk x.received x.asynchronous = true ∧
    ∀ f, setupReflection f (x.right f) = true ∧ setupReflection f (x.left f) = true

/-- A module transmitter complies: in each of the four conditions what it transmits is as each standard it supports specifies
(45 R490). -/
def ModuleTransmitterOk (supported : List Application) (transmitted : ModuleTransmitterTest → List Int) : Prop :=
  ∀ x, x.application ∈ supported → TransmitterTestOk x → Config.transmitsWell x.application (transmitted x) = true

/-- The frequency of the SJ of the limiting host test (45 R498 step 3): well above the clock recovery, and asynchronous to
the characteristic frequency of the signal. That frequency is taken to be the symbol rate, and asynchronous to be in no
harmonic relationship to it. (DESIGN CHOICE: log 54.) -/
def sjAsynchronous (hz kbd : Nat) : Bool := aboveCru hz && !harmonic hz (kbd * 1000)

/-- Return loss of the test source looking into the low pass filter at C: better than 20 dB at every frequency up to 12 GHz
(45 R496). -/
def sourceReflection (f : Nat) (m : Int) : Bool := !decide (f ≤ 12000) || decide (m < -20000)

/-- Return loss of the test system at C'' with the Module Compliance Board: 2 dB better than Table 18 up to 8 GHz, 1 dB
better up to 11 GHz (45 R496, R506); SDD22 and SCC22 in mdB. -/
def testSystemReflection (f : Nat) (sdd scc : Int) : Bool :=
  (!decide (f ≤ 8000) || (moduleDifferential f (sdd + 2000) && commonMode f (scc + 2000))) &&
    (!(decide (8000 < f) && decide (f ≤ 11000)) || (moduleDifferential f (sdd + 1000) && commonMode f (scc + 1000)))

/-- The source of the limiting host test before any stress (45 R498 step 2). -/
def intrinsicJitterOk (j2Mui tjMui : Int) : Bool := decide (j2Mui < 150) && decide (tjMui < 250)

/-- Composition of J2 in the stressed eye, in mUI (45 R497, R498): 50 from SJ, at least 80% before the sine interferer, at
most 20% from it, DCD of a magnitude of at most 20. -/
def stressedEyeOk (total beforeSine sine sj dcdMui : Int) : Bool :=
  decide (sj = 50) && decide (4 * total ≤ 5 * beforeSine) && decide (5 * sine ≤ total) && decide (dcdMui.natAbs ≤ 20)

/-- The interferers of the stressed eye (45 R497). -/
def interferers : List Row :=
  [between "sine interferer" "MHz" 100 2000, atLeast "random interference, -3 dB" "MHz" 6000,
   atLeast "random interference, crest factor" "1" 7]

/-- The blocks of the stressed eye generator. -/
inductive StressBlock where
  | isiGenerator
  | sineInterferer
  | randomInterferer
  | limiter
  | lowPassFilter
  | attenuator
deriving DecidableEq, Repr, Inhabited

/-- Their order: the voltage stress before the limiter, after it the filter and the attenuator that sets the amplitude
(45 R497). -/
def stressChain : List StressBlock :=
  [.isiGenerator, .sineInterferer, .randomInterferer, .limiter, .lowPassFilter, .attenuator]

/-- Whether a generator has the limiter that is required, and ISI and voltage stress before it (45 R497); what realises the
limiter and what follows it is free. -/
def stressChainOk (l : List StressBlock) : Bool :=
  l.contains .limiter &&
    [StressBlock.isiGenerator, .sineInterferer, .randomInterferer].all (l.takeWhile fun b => decide (b ≠ .limiter)).contains

/-- The two interferers as set: frequency of the sine and -3 dB bandwidth of the noise in MHz, crest factor. -/
structure Interference where
  sineMhz : Int
  noiseMhz : Int
  crest : Int
deriving DecidableEq, Repr, Inhabited

/-- Whether they are as `interferers` has them (45 R497). -/
def interferenceOk (x : Interference) : Bool :=
  [("sine interferer", x.sineMhz), ("random interference, -3 dB", x.noiseMhz), ("random interference, crest factor", x.crest)].all
    fun p => (rowOf interferers p.1).any fun r => meets r p.2

/-- The steps of the calibration (45 R498). -/
inductive CalibrationStep where
  | eyeLevels
  | intrinsicJitter
  | sinusoidalJitter
  | isiThenSine
  | pulseShrinkage
  | crosstalkThenRandom
deriving DecidableEq, Repr, Inhabited

/-- Their order (45 R498). -/
def calibrationOrder : List CalibrationStep :=
  [.eyeLevels, .intrinsicJitter, .sinusoidalJitter, .isiThenSine, .pulseShrinkage, .crosstalkThenRandom]

/-- How near a level is "approximately", in mV: the source gives no number (45 R498 step 1). (DESIGN CHOICE: log 54.) -/
opaque Config.approximately : Int

/-- A level set approximately. -/
def near (target v : Int) : Bool := decide (target - Config.approximately ≤ v) && decide (v ≤ target + Config.approximately)

/-- What the calibration measures, in mUI, mV and Hz, instrument noise taken off (`rssCorrected`): vertical eye opening
and peak level as set first; J2 and TJ of the bare source, J2 with SJ, J2 before the sine interferer, and the stressed
signal's J2, DDPWS (noise and clock jitter off), TJ at 10^-12, DCD; the SJ frequency; the blocks of the generator and its
interferers; its AC common mode voltage; the crosstalk source at the Host Compliance Board; the boards up to C''. -/
structure Calibration where
  eyeOpening : Int
  peakLevel : Int
  bareJ2 : Int
  bareTj : Int
  sjJ2 : Int
  beforeSine : Int
  j2 : Int
  ddpws : Int
  tj : Int
  dcd : Int
  sjHz : Nat
  kbd : Nat
  chain : List StressBlock
  interference : Interference
  commonMode : CommonModeTest
  crosstalk : Crosstalk
  path : CalibrationPath
deriving DecidableEq, Repr, Inhabited

/-- A finished calibration (45 R497 to R499): each step's bound is met, the generator has its limiter and its interferers,
J2, DDPWS and TJ stand at Table 14's values, and the AC common mode voltage does not exceed Table 14's (42 R292 note 2). Note
4 lets the implementer trade DDPWS with other pulse width shrinkage from the sinusoidal interferer and does not say how much:
none is traded, DDPWS is 0.300 UI. (DESIGN CHOICE: log 54.) -/
def calibrationOk (k : Calibration) : Bool :=
  near 150 k.eyeOpening && near 425 k.peakLevel && intrinsicJitterOk k.bareJ2 k.bareTj && sjAsynchronous k.sjHz k.kbd &&
    stressedEyeOk k.j2 k.beforeSine (k.j2 - k.beforeSine) (k.sjJ2 - k.bareJ2) k.dcd &&
    stressChainOk k.chain && interferenceOk k.interference && decide (k.j2 = 420) && decide (k.ddpws = 300) &&
    decide (k.tj = 700) && commonModeOk .c'' table14 "AC common mode voltage" k.commonMode &&
    calibratedWith .c'' table14 k.crosstalk k.path

/-- Gaussian instrument noise taken off by squares: the square of the corrected value (45 R499, R511; 46 R563). -/
def rssCorrected (measured instrument : Int) : Int := measured * measured - instrument * instrument

/-- The adapter of the linear host test (45 R506). -/
def adapterTable : List Row :=
  [atLeast "noise bandwidth" "MHz" 10000, atLeast "noise crest factor" "1" 6, aim "low WDP filter" "MHz" 7500,
   aim "high WDP filter, expected about" "MHz" 4500, aim "WDP at C'' that sets the high WDP filter" "mdBo" 5400,
   aim "AC coupling corner, about" "kHz" 20, between "DCD" "mUI" (-20) 20]

/-- The shape of a filter's response. -/
inductive FilterShape where
  | besselThomson
  | other
deriving DecidableEq, Repr, Inhabited

/-- Whether noise is white up to its 3 dB frequency in MHz (45 R506): its spectral density, swept from 10 MHz or below to
that frequency or beyond, stays up to it within 3 dB of where it starts. The source gives no other number. (DESIGN CHOICE: log
54.) -/
def whiteNoise (mhz : Int) (density : List FitSample) : Bool :=
  match density with
  | [] => false
  | first :: _ =>
    rising (density.map (·.freq)) && decide (first.freq ≤ 10) &&
      (density.map (·.freq)).getLast?.any (fun f => decide (mhz ≤ f)) &&
      density.all fun x => decide (mhz < x.freq) || decide ((x.gain - first.gain).natAbs ≤ 3000)

/-- An adapter as measured: MHz, mUI, mdBo, kHz; the density of its noise at the summing point in mdB; its filters, with the
capture of the split-symmetrical stressor that set the high WDP one; its overall response; its AC common mode voltage; its
crosstalk source; the boards up to C''. -/
structure Adapter where
  noiseMhz : Int
  noiseDensity : List FitSample
  crest : Int
  lowMhz : Int
  splitWdp : Int
  dcd : Int
  cornerKhz : Int
  splitCapture : Capture
  splitSamples : List Int
  shape : FilterShape
  commonMode : CommonModeTest
  crosstalk : Crosstalk
  path : CalibrationPath
deriving DecidableEq, Repr, Inhabited

/-- Whether an adapter has the properties of 45 R506: the noise is white with a 3 dB frequency of at least 10 GHz; the high
WDP filter is set by the WDP the split-symmetrical stressor reaches at C''; the output is AC coupled with a corner of 20 kHz,
and no other is accepted (DESIGN CHOICE: log 54); its AC common mode voltage does not exceed Table 15's (42 R296 note 2); the
crosstalk source stands at Table 15's targets while the signal is calibrated (45 R507). -/
def adapterOk (a : Adapter) : Bool :=
  decide (10000 ≤ a.noiseMhz) && whiteNoise a.noiseMhz a.noiseDensity && decide (6 ≤ a.crest) && decide (a.lowMhz = 7500) &&
    decide (a.splitWdp = 5400) &&
    decide (a.dcd.natAbs ≤ 20) && decide (a.cornerKhz = 20) && decide (a.shape = .besselThomson) &&
    commonModeOk .c'' (table15 .lrm) "AC common mode voltage" a.commonMode &&
    calibratedWith .c'' (table15 .lrm) a.crosstalk a.path

/-- Errors over bits below `n/d` (45 R495: the rate the optical standard sets). -/
def berBelow (n d errors bits : Nat) : Bool := decide (errors * d < n * bits)

/-- BER of the host tests (45 R499, R506): errors over bits below 10^-12. -/
def berOk (errors bits : Nat) : Bool := decide (errors * 10 ^ 12 < bits)

/-- Figure 21's mask: SJ amplitude in mUI by frequency in kHz. Its numbers are lost (42 R294), so it is uninterpreted.
(DESIGN CHOICE: log 40.) -/
opaque Config.sjMask : Nat → Nat

/-- The sinusoidal jitter of IEEE 802.3 clause 68, not in the source (42 R295). -/
opaque Config.sjClause68 : Nat → Nat

/-- A signal at C'' of the limiting host test: the eye opening and the peak in mV, the earliest X1 in mUI that an eye mask
measurement at a hit ratio of 10^-12 finds, and SJ by frequency in kHz. -/
structure LimitingSignal where
  x1 : Int
  inner : Int
  peak : Int
  sjKhz : Nat
  sjMui : Nat
deriving DecidableEq, Repr, Inhabited

/-- The signals a limiting host operates with: at and between the sensitivity limit Y1 and the overload limit Y2 of Table
14, X1 on its target, with the SJ of Figure 21 (42 R291, R292). -/
def limitingSignalOk (x : LimitingSignal) : Bool :=
  (rowOf table14 "X1").any (fun r => onTarget r x.x1) && decide (150 ≤ x.inner) && decide (x.inner ≤ x.peak) &&
    decide (x.peak ≤ 425) &&
    decide (x.sjMui ≤ Config.sjMask x.sjKhz)

/-- The two conditions of its test: sensitivity at Y1, overload at Y2, SJ stepped over the mask (45 R495, R499). -/
def limitingCondition (c : Tp3Condition) (x : LimitingSignal) : Bool :=
  limitingSignalOk x && decide (x.sjMui = Config.sjMask x.sjKhz) &&
    (match c with
     | .sensitivity => decide (x.inner = 150)
     | .overload => decide (x.peak = 425))

/-- The applications of the limiting host test (45 R499). -/
inductive HostApplication where
  | ethernet
  | fibreChannel
  | ethernetFec
deriving DecidableEq, Repr, Inhabited

/-- The compliance test patterns of an application: its standard's, not in the source (45 R499). (DESIGN CHOICE: log 40.) -/
opaque Config.compliancePatterns : HostApplication → List Pattern

/-- A run of the limiting host test, made differentially through a Host Compliance Board (45 R495, R499): the signal with its
eye mask test at C'', the calibration of its source, the boards at C, the pattern the system operates with, what the other
signal path of the duplex pair carries, and whether all signals and reference clocks of normal operation are active. -/
structure LimitingTest where
  signal : LimitingSignal
  eye : EyeMaskTest
  calibration : Calibration
  boards : Boards
  pattern : Pattern
  opposing : Pattern
  asynchronous : Bool
  allActive : Bool
deriving DecidableEq, Repr, Inhabited

/-- Whether an eye mask test at C'' shows a signal as it stands (42 R292, R293; 45 R473, R474): within the hit ratio of 10^-12
of the diamond of its X1, eye opening and peak, and not of Table 14's diamond with X1 one mUI earlier, which makes that X1
the earliest in whole mUI. (DESIGN CHOICE for the last: log 54.) -/
def limitingEyeOk (k : Calibration) (s : LimitingSignal) (x : EyeMaskTest) : Bool :=
  eyeMaskConditions x && decide (x.point = .c'') && decide (x.application.rate = k.kbd) && decide (x.opposing = k.crosstalk) &&
    maskWithin (hitLimit .c'') (diamondHit s.x1 s.inner s.peak) x &&
    !maskWithin (hitLimit .c'') (diamondHit (s.x1 - 1) 150 425) x

/-- Whether a run is made as 45 R495 to R499 say: the signal on Table 14's eye mask, J2, TJ, DDPWS and crosstalk calibrated,
the application's pattern, the other path running and asynchronous. -/
def limitingTestOk (app : HostApplication) (x : LimitingTest) : Bool :=
  limitingSignalOk x.signal && limitingEyeOk x.calibration x.signal x.eye && calibrationOk x.calibration &&
    (Config.compliancePatterns app).contains x.pattern &&
    crosstalkPatternOk x.opposing x.asynchronous && x.allActive && boardsOk .c x.boards

/-- A test system by its return losses in mdB over f in MHz: of the source looking into the low pass filter at C, and
SDD22 and SCC22 at C'' with the Module Compliance Board (45 R496, R506); and the instrument and the boards at C''. -/
structure TestSystem where
  instrument : Instrument
  boards : Boards
  source : Nat → Int
  differential : Nat → Int
  common : Nat → Int

/-- The return loss at C'' of a test system of either host test, through compliant boards, to the references of every SFI
measurement (42 R273; 44 R440; 45 R496, R506). -/
def TestSystem.Reflects (t : TestSystem) : Prop :=
  instrumentOk .c'' none t.instrument = true ∧ boardsOk .c'' t.boards = true ∧
    ∀ f, testSystemReflection f (t.differential f) (t.common f) = true

/-- The error ratio the optical standard of an application sets, which is not in the source (45 R495). (DESIGN CHOICE: log
40.) -/
opaque Config.standardBer : HostApplication → Nat × Nat

/-- A limiting host tolerates them with any test system that is well matched, `ber` being its errors and bits: an error
ratio below its optical standard's and below 10^-12 (42 R291; 45 R495, R496, R499). -/
def LimitingHostOk (app : HostApplication) (ber : TestSystem → LimitingTest → Nat × Nat) : Prop :=
  ∀ t x, t.Reflects → (∀ f, sourceReflection f (t.source f) = true) → limitingTestOk app x = true →
    berBelow (Config.standardBer app).1 (Config.standardBer app).2 (ber t x).1 (ber t x).2 = true ∧
      berOk (ber t x).1 (ber t x).2 = true

/-- A signal at C'' of the linear host test: stressor, VMA in mV, whether stressors and noises are on, SJ if any by
frequency in kHz and amplitude in mUI. -/
structure LinearSignal where
  test : StressTest
  vma : Int
  stressed : Bool
  sj : Option (Nat × Nat)
deriving DecidableEq, Repr, Inhabited

/-- Table 15's VMA range of a stressor. -/
def vmaInRange (t : StressTest) (vma : Int) : Bool :=
  match t with
  | .lr => decide (150 ≤ vma) && decide (vma ≤ 600)
  | .lrm _ _ => decide (180 ≤ vma) && decide (vma ≤ 600)

/-- The signals a linear host must pass with (42 R295; 45 R505): each LRM pulse shape at both conditions and the LR signal,
over the VMA range. For LR the SJ of Figure 21 comes with the stress; for LRM that of clause 68 comes with stressors and
noises off. -/
def linearSignalOk (x : LinearSignal) : Bool :=
  vmaInRange x.test x.vma &&
    (match x.test, x.sj with
     | .lr, none => x.stressed
     | .lr, some (f, a) => x.stressed && decide (a = Config.sjMask f)
     | .lrm _ _, none => x.stressed
     | .lrm _ _, some (f, a) => !x.stressed && decide (a = Config.sjClause68 f))

/-- Overstress: the sensitivity corrected by the excess VECP, in mdB (45 R500). -/
def compensatedSrs (srsMax vecpMeasured vecpMin : Int) : Int := srsMax + (vecpMeasured - vecpMin)

/-- An optical test signal into a module's receiver: its power in mdBm and its VECP in mdBo (45 R500). -/
structure OpticalSignal where
  power : Int
  vecp : Int
deriving DecidableEq, Repr, Inhabited

/-- SRS[max] in mdBm of the standards of a row of Table 1, which are not in the source (45 R500). (DESIGN CHOICE: log 40.)
-/
opaque Config.srsMax : Application → Int

/-- VECP[min] in mdBo of those standards. (DESIGN CHOICE: log 40.) -/
opaque Config.vecpMin : Application → Int

/-- The range of input optical signals of those standards. (DESIGN CHOICE: log 40.) -/
opaque Config.opticalInputs : Application → OpticalSignal → Bool

/-- The signals a module's receiver is tested with: of the standards' range, at or above the stressed sensitivity,
which an overstressed signal's excess VECP raises (45 R500). -/
def opticalInputOk (app : Application) (x : OpticalSignal) : Bool :=
  Config.opticalInputs app x && decide (Config.vecpMin app ≤ x.vecp) &&
    decide (compensatedSrs (Config.srsMax app) x.vecp (Config.vecpMin app) ≤ x.power)

/-- The jitter of a test source beyond its standard, in mUI at 10^-12: its random part, and whether the composition is known
or can be measured. Excess deterministic jitter has no compensation (45 R500). -/
structure ExcessJitter where
  random : Int
  known : Bool
deriving DecidableEq, Repr, Inhabited

/-- What of it may be backed out of a measured result (45 R500). -/
def backedOut (e : ExcessJitter) : Int := if e.known then max 0 e.random else 0

/-- Table 19's rows and the X1 of its mask, adjusted for excess random jitter: added to Total Jitter in full, to X1 by
half, its share at one crossing, rounded down (45 R500). How it is added the source does not say. (DESIGN CHOICE: log 54.)
-/
def adjustedTable19 (e : ExcessJitter) : List Row × Int :=
  (table19.map fun r => if r.name = "TJ" then { r with hi := r.hi.map (· + backedOut e) } else r, 350 + backedOut e / 2)

/-- A run of the limiting module receiver test (45 R500): the optical signal and its excess jitter, the crosstalk source
into the transmit path, whether that path operates, and where the output was measured, with what, through which boards. -/
structure ModuleReceiverTest where
  application : Application
  input : OpticalSignal
  excess : ExcessJitter
  crosstalk : Crosstalk
  txRuns : Bool
  point : TestPoint
  instrument : Instrument
  boards : Boards
deriving DecidableEq, Repr, Inhabited

/-- Whether a run is made as 45 R500 says: the crosstalk source at Table 18's amplitude and rise and fall times, calibrated
through a Host Compliance Board, asynchronous PRBS31 or 64B/66B; measured at C'. -/
def moduleReceiverTestOk (x : ModuleReceiverTest) : Bool :=
  applications.contains x.application && opticalInputOk x.application x.input && crosstalkOk .b'' table18 x.crosstalk &&
    x.txRuns && decide (x.point = .c') && instrumentOk .c' none x.instrument && boardsOk .c' x.boards

/-- What a run finds at C': the rows as measured, the return losses in mdB over f in MHz, and the eye mask test. -/
structure ModuleReceiverResult where
  measured : List (Row × Int)
  differential : Nat → Int
  common : Nat → Int
  eye : EyeMaskTest

/-- Whether what it finds complies with Tables 18 and 19, the eye mask being that of the run's own standard (45 R473, R500; 42
R310, R311). -/
def ModuleReceiverPasses (c : Params) (x : ModuleReceiverTest) (r : ModuleReceiverResult) : Prop :=
  (∀ row ∈ table18 ++ (adjustedTable19 x.excess).1, row.target = none → ∃ v, (row, v) ∈ r.measured ∧ meets row v = true) ∧
    (∀ f, moduleDifferential f (r.differential f) = true ∧ commonMode f (r.common f) = true) ∧
    eyeMaskSetup c r.eye = true ∧ r.eye.application = x.application ∧ r.eye.point = .c' ∧ r.eye.opposing = x.crosstalk ∧
    maskPasses c (diamondHit (adjustedTable19 x.excess).2 150 425) r.eye = true

/-- A limiting module receiver complies: over the range of input optical signals of the standards it supports at the rate of
the lane (45 R500). -/
def LimitingModuleOk (c : Params) (supported : List Application) (run : ModuleReceiverTest → ModuleReceiverResult) : Prop :=
  ∀ x, x.application ∈ supported → x.application.rate = c.rate → moduleReceiverTestOk x = true → ModuleReceiverPasses c x (run x)

/-- Table 31: target RNi times 10^4 (45 R510). -/
def targetRNi (c : RnCase) : Int :=
  match c with
  | .lrm .pre => 219
  | .lrm .split => 269
  | .lrm .post => 213
  | .lr => 140
  | .sr => 200

/-- Whether the tester's RNi in 10^-7 is usable (45 R510): for LRM within 1 dBo of the target, for LR and SR no more than 1
dBo above it; 1 dBo is a ratio of 10^(1/10). -/
def rniOk (c : RnCase) (rni : Int) : Bool :=
  let t := 1000 * targetRNi c
  decide (0 ≤ rni) && decide (rni ^ 10 ≤ 10 * t ^ 10) &&
    (match c with
     | .lrm _ => decide (t ^ 10 ≤ 10 * rni ^ 10)
     | .lr | .sr => true)

/-- How the TP3 tester stands for the noise test (45 R510): the OMA/VMA pattern, waveform shaping on, SJ and sinusoidal
interference off or very low, RNi in 10^-7; and the crosstalk source into the board. -/
structure NoiseSetup where
  application : Application
  pattern : Pattern
  shaping : Bool
  sinesOff : Bool
  rni : Int
  crosstalk : Crosstalk
deriving DecidableEq, Repr, Inhabited

/-- Whether that is the set-up of the noise test of a case: the crosstalk source at Table 18's targets. -/
def noiseSetupOk (c : RnCase) (x : NoiseSetup) : Bool :=
  (omaPatterns x.application).contains x.pattern && x.shaping && x.sinesOff && rniOk c x.rni &&
    crosstalkOk .b'' table18 x.crosstalk

/-- A measurement of RN (45 R484, R511): the capture; the noises of the two levels and xMA, in one unit; RN and the scope's
own noise over the same xMA, in 10^-7; for the latter, the termination of the scope's inputs in Ω and the light into it. -/
structure RnMeasured where
  capture : Capture
  one : Int
  zero : Int
  xma : Int
  rn : Int
  scope : Int
  scopeOhm : Nat
  scopeLight : Int
deriving DecidableEq, Repr, Inhabited

/-- Whether a value in 10^-7 is `RN = 2 × noise(RMS) / xMA`, rounded down (45 R484). (DESIGN CHOICE: log 54.) -/
def rnIs (one zero xma v : Int) : Bool :=
  let squares := noiseSquaredTwice one zero * 2 * 10 ^ 14
  decide (0 ≤ v) && decide (0 < xma) && decide (v * v * (xma * xma) ≤ squares) &&
    decide (squares < (v + 1) * (v + 1) * (xma * xma))

/-- Whether RN was measured so at a place: the scope's noise with 50 Ω at its inputs, of an optical scope with zero light (45
R484, R511). -/
def rnMeasuredOk (p : Place) (x : RnMeasured) : Bool :=
  captureOk .rn x.capture && decide (x.capture.place = p) && rnIs x.one x.zero x.xma x.rn && decide (0 ≤ x.scope) &&
    (match p with
     | .electrical _ => decide (x.scopeOhm = 50)
     | .optical => decide (x.scopeLight = 0))

/-- Whether a value is the root of a square, rounded down. (DESIGN CHOICE: log 54.) -/
def rootIs (square v : Int) : Bool := decide (0 ≤ v) && decide (v * v ≤ square) && decide (square < (v + 1) * (v + 1))

/-- A run of the noise test (45 R510): the optical power in mdBm; the tester, its RNi measured through the O/E converter and
the Bessel-Thomson filter, and RN of the module at C' on the Module Compliance Board. -/
structure NoiseRun where
  power : Int
  setup : NoiseSetup
  input : RnMeasured
  output : RnMeasured
deriving DecidableEq, Repr, Inhabited

/-- Whether a run is made as 45 R510 says; RNi is the measured one with the scope's noise taken off (R511). -/
def noiseRunOk (c : RnCase) (x : NoiseRun) : Bool :=
  noiseSetupOk c x.setup && rnMeasuredOk .optical x.input && decide (x.input.capture.application = x.setup.application) &&
    decide (x.input.capture.pattern = x.setup.pattern) && rootIs (rssCorrected x.input.rn x.input.scope) x.setup.rni &&
    rnMeasuredOk (.electrical .c') x.output && decide (x.output.capture.application = x.setup.application) &&
    decide (x.output.capture.pattern = x.setup.pattern)

/-- RN², corrected for the scope's noise and for the tester's, times 100, in the square of the unit of RN (45 R511, the
spec's reconstruction). -/
def correctedRnSquared (measured scope target rni : Int) : Int :=
  100 * rssCorrected measured scope - 124 * target * (rni - target)

/-- The corrected RN against Table 20 (45 R511; 42 R314): measured RN, scope noise and RNi in 10^-7, dWDP in mdBo. A
corrected RN² below zero, of which the equation gives no RN, counts as passing, which the source does not say. (DESIGN
CHOICE: log 54.) -/
def correctedRnPasses (c : RnCase) (dwdp measured scope rni : Int) : Bool :=
  let top := rnLimit c dwdp
  decide (0 < top) && decide (correctedRnSquared measured scope (1000 * targetRNi c) rni < 100 * (top * top)) &&
    decide (dwdp ≤ dwdpMax c)

/-- Whether a value in 10^-7 is the corrected RN of a run, rounded down, 0 where the equation gives none (45 R511). The
correction is always made, also where the tester's noise is below its target. (DESIGN CHOICE: log 54.) -/
def correctedRnIs (c : RnCase) (x : NoiseRun) (v : Int) : Bool :=
  let square := correctedRnSquared x.output.rn x.output.scope (1000 * targetRNi c) x.setup.rni
  if square < 0 then decide (v = 0) else rootIs (square / 100) v

/-- Peak to peak swing (45 R513). -/
def peakToPeak (l : List Int) : Int := largest l - smallest l

/-- The input of the peak to peak test (45 R513): rise and fall time in ps, every stress off, no overshoot or ripple seen
through a 7.5 GHz O/E converter. -/
structure PeakSetup where
  edgePs : Int
  stressOff : Bool
  clean : Bool
deriving DecidableEq, Repr, Inhabited

/-- The peak to peak test of a linear module: set up so, captured so through a Module Compliance Board, at C', within
Table 20; of samples that were taken (45 R513). -/
def peakTestOk (x : PeakSetup) (c : Capture) (w : List Int) : Bool :=
  takenAt .c' c && decide (x.edgePs = 47) && x.stressOff && x.clean && captureOk .peakToPeak c && decide (w ≠ []) &&
    decide (peakToPeak w ≤ 600)

/-- Termination mismatch in percent as a fraction: `2 × |Zp - Zn| / (Zp + Zn) × 100` (45 R518). -/
def terminationMismatch (zp zn : Int) : Int × Int := (200 * ((zp - zn).natAbs : Int), zp + zn)

/-- The same from the currents of a test tone, in percent: `2 × (Ip - In)/(Ip + In) × (Zdiff + 100)/100 × 100` (45 R518,
the spec's uncertain reconstruction). -/
def terminationMismatchLow (ip im zdiff : Int) : Int × Int := (2 * (ip - im) * (zdiff + 100), ip + im)

/-- A termination mismatch as measured: the boards, the frequency in Hz, and the mismatch in percent as a fraction, from the
resistors (`terminationMismatch`) or from the currents of the tone (`terminationMismatchLow`). -/
structure MismatchTest where
  boards : Boards
  hz : Nat
  percent : Int × Int
deriving DecidableEq, Repr, Inhabited

/-- The mismatch at 1 MHz within a bound in percent (Tables 11, 18 and 26; 44 R432; 45 R518); of the currents' difference
the magnitude counts. (DESIGN CHOICE: log 54.) -/
def mismatchAtMost (x : MismatchTest) (bound : Int) : Bool :=
  decide (x.hz = 1000000) && decide (0 < x.percent.2) && decide ((x.percent.1.natAbs : Int) ≤ bound * x.percent.2)

/-- The mismatch row of a table, at its point through compliant boards: Table 11 at B, 18 at C', 26 at A (44 R440). -/
def mismatchOk (p : TestPoint) (t : List Row) (x : MismatchTest) : Bool :=
  boardsOk p x.boards && (rowOf t "termination mismatch at 1 MHz").any fun r => r.hi.any (mismatchAtMost x)

end Sys2Proof.Machine
end

