-- ==== Sys2Proof/Machine/Copper.lean ====
section
/-! DEFINITION. The direct attach cable (46_direct_attach_copper.md R540 to R564). -/

namespace Sys2Proof.Machine

/-- Table 33, host output (46 R550). -/
def table33 : List Row :=
  [atLeast "VMA" "mV" 300, atLeast "Qsq" "0.1" 631, atMost "output AC common mode voltage" "uV RMS" 12000,
   atMost "TWDPc" "mdBe" 10700]

/-- Whether a row of Table 1 is 10GSFP+Cu, the one that Appendix E is for (00_scope.md R6). -/
def forCopper (a : Application) : Bool := a.interface.contains .appendixE

/-- Table 34: amplitudes times 10^4 at 0, 0.5, … 8.0 UI (46 R551). -/
def copperStressor : List Int :=
  [175, 1360, 2695, 1649, 917, 717, 498, 383, 315, 270, 216, 202, 174, 146, 123, 94, 66]

/-- Delays of Table 34 in 10 fs (46 R551). -/
def copperDelays : List Nat :=
  [0, 4849, 9697, 14546, 19394, 24243, 29091, 33940, 38788, 43637, 48485, 53334, 58182, 63031, 67879, 72728, 77576]

/-- What Table 34's stressor makes of a waveform, times 10^4: delayed copies added (46 R551). -/
def stressed (halfUi : Nat) (w : List Int) : List Int :=
  (List.range w.length).map fun i =>
    ((List.range 17).map fun k =>
      copperStressor.getD k 0 * w.getD ((i + w.length * 17 - k * halfUi) % (max 1 w.length)) 0).sum

/-- Table 35, the receiver's stress generator (46 R556). -/
def table35 : List Row :=
  [aim "WDPc of the ISI generator" "mdBe" 9300, aim "Qsq" "0.1" 631, aim "No" "uV RMS" 2140, atLeast "VMA" "mV" 180,
   atMost "peak-peak overload" "mV" 700, aim "input AC common mode voltage" "uV RMS" 13500]

/-- Table 36: the 1 UI pulse response, 8 samples a UI, times 10^4 (46 R557). -/
def pulseResponseA : List Int :=
  [4, 11, 26, 51, 94, 158, 246, 360, 496, 650, 811, 962, 1088, 1176, 1218, 1213,
   1169, 1093, 1000, 899, 810, 732, 670, 620, 583, 549, 519, 486, 455, 423, 394, 367,
   345, 324, 307, 291, 280, 270, 263, 256, 249, 242, 233, 222, 212, 204, 194, 187]

/-- Table 36, UI 6 to 13. -/
def pulseResponseB : List Int :=
  [180, 174, 169, 165, 161, 157, 155, 154, 153, 153, 153, 153, 150, 146, 141, 134,
   128, 121, 115, 110, 106, 101, 99, 97, 95, 94, 93, 92, 89, 87, 84, 82,
   79, 76, 73, 70, 68, 66, 65, 63, 62, 61, 59, 58, 55, 52, 49, 46,
   44, 41, 39, 37, 34, 30, 28, 26, 22, 20, 18, 16, 14, 12, 9, 8]

/-- Table 36. -/
def pulseResponse : List Int := pulseResponseA ++ pulseResponseB

/-- The delay of sample k of Table 36, in fs: k × 0.012121 ns, an eighth of a UI each (46 R557). -/
def pulseDelay (k : Nat) : Nat := 12121 * k

/-- Table 36 as (delay in fs, amplitude times 10^4). -/
def pulseTable : List (Nat × Int) := (List.range pulseResponse.length).map fun k => (pulseDelay k, pulseResponse.getD k 0)

/-- The squared distance of a measured isolated pulse from Table 36, which the fit makes small (46 R557). -/
def pulseMisfit (measured : List Int) : Int :=
  ((List.range pulseResponse.length).map fun k => (measured.getD k 0 - pulseResponse.getD k 0) ^ 2).sum

/-- Of two generators the better fit (46 R557). -/
def betterFit (a b : List Int) : Bool := decide (pulseMisfit a ≤ pulseMisfit b)

/-- The channel of the stress generator on one level a symbol, 8 samples a UI, times 10^4: every symbol's pulse added
(46 R557). -/
def pulseChannel (symbols : List Int) : List Int :=
  (List.range (8 * symbols.length)).map fun i =>
    ((List.range (i / 8 + 1)).map fun k => symbols.getD k 0 * pulseResponse.getD (i - 8 * k) 0).sum

/-- Figure 61 (46 R556): the noise relative to the transmitter's level is added before the channel and shaped by it, the
fixed noise after it. The channel may be Table 36's or a length of cable. -/
def stressedRx {α : Type} [Add α] (channel : List α → List α) (tx qsqNoise fixedNoise : List α) : List α :=
  List.zipWith (· + ·) (channel (List.zipWith (· + ·) tx qsqNoise)) fixedNoise

/-- How a noise of the generator was calibrated (46 R556 notes 3 to 5): the point, the boards, the instrument and the
pattern; which of the two noise sources and whether the channel's ISI was on; the samples in µV. -/
structure NoiseCapture where
  point : TestPoint
  boards : Boards
  instrument : Instrument
  pattern : Pattern
  qsqSource : Bool
  fixedSource : Bool
  isi : Bool
  samples : List Int
deriving DecidableEq, Repr, Inhabited

/-- At C'', the output of the Module Compliance Board (42 R277), through compliant boards, with 50 Ω ports and in 12 GHz (44
R440; 46 R540, R556 notes 3 and 5). -/
def atModuleBoard (c : NoiseCapture) : Bool :=
  decide (c.point = .c'') && boardsOk c.point c.boards && instrumentOk c.point none c.instrument

/-- The RMS of samples as a whole number of their unit, rounded down. (DESIGN CHOICE: log 54.) -/
def rmsIs (samples : List Int) (v : Int) : Bool :=
  let squares := (samples.map fun x => x * x).sum
  decide (0 ≤ v) && decide (v * v * samples.length ≤ squares) && decide (squares < (v + 1) * (v + 1) * samples.length)

/-- A capture that gives No: the samples of one symbol period, the Qsq source off (46 R556 note 3). -/
def fixedNoiseIs (c : NoiseCapture) (uv : Int) : Bool :=
  atModuleBoard c && !c.qsqSource && c.fixedSource && rmsIs c.samples uv

/-- A capture that gives Qsq of a signal of `vma` µV, in 0.1, rounded down: `VMA / (2 × noise)`, of the 8+8 square wave, the
No source and the ISI off (46 R556 notes 4 and 5; 45 R484). -/
def qsqIs (c : NoiseCapture) (vma q : Int) : Bool :=
  let squares := 4 * (c.samples.map fun x => x * x).sum
  atModuleBoard c && decide (c.pattern = .squareWave) && c.qsqSource && !c.fixedSource && !c.isi && decide (0 < squares) &&
    decide (0 < vma) && decide (0 ≤ q) &&
    decide (q * q * squares ≤ 100 * (vma * vma) * c.samples.length) &&
    decide (100 * (vma * vma) * c.samples.length < (q + 1) * (q + 1) * squares)

/-- The stress generator as calibrated (46 R556): WDPc in mdBe and the tap counts of its reference receiver; Qsq in 0.1,
No and common mode in µV RMS (the last set by the relative delay of P and N), with the captures of the two noises and the
VMA in µV that Qsq was taken at, which is the transmitter's level. -/
structure CopperGenerator where
  wdpc : Int
  taps : Nat × Nat
  qsq : Int
  fixedNoise : Int
  commonMode : Int
  qsqVma : Int
  qsqCapture : NoiseCapture
  fixedCapture : NoiseCapture
deriving DecidableEq, Repr, Inhabited

/-- Whether it stands at Table 35's targets, calibrated as its notes 1, 3 and 5 say. -/
def copperGeneratorOk (g : CopperGenerator) : Bool :=
  decide (g.wdpc = 9300) && decide (g.taps = (14, 5)) && decide (g.qsq = 631) && decide (g.fixedNoise = 2140) &&
    decide (g.commonMode = 13500) && qsqIs g.qsqCapture g.qsqVma g.qsq &&
    fixedNoiseIs g.fixedCapture g.fixedNoise

/-- White Gaussian noise of an RMS value, sample by sample: every sample normal with mean zero and that standard
deviation, the samples independent (46 R556). The RMS value is that of the 12 GHz the source is calibrated in. (DESIGN
CHOICE: log 54.) -/
def WhiteGaussian {Ω : Type} [MeasurableSpace Ω] (P : MeasureTheory.Measure Ω) (noise : ℕ → Ω → ℝ) (rms : ℝ) : Prop :=
  0 ≤ rms ∧ ProbabilityTheory.iIndepFun noise P ∧
    ∀ k, Measurable (noise k) ∧ P.map (noise k) = ProbabilityTheory.gaussianReal 0 (Real.toNNReal (rms ^ 2))

/-- A signal of the copper receiver test: VMA and peak to peak voltage in mV (46 R556). -/
structure CopperSignal where
  vma : Int
  peakToPeak : Int
deriving DecidableEq, Repr, Inhabited

/-- The two tests: sensitivity with the smallest VMA, overload with the largest peak to peak voltage (46 R556). -/
def copperCondition (c : Tp3Condition) (x : CopperSignal) : Bool :=
  match c with
  | .sensitivity => decide (x.vma = 180) && decide (x.peakToPeak ≤ 700)
  | .overload => decide (x.peakToPeak = 700) && decide (180 ≤ x.vma)

/-- The input rows of a host with the copper option (46 R555): beside Table 35 those of a linear host. R555 does not say which
application's rows of Table 15 these are: LRM's, with its VMA of at least 180 mV, are taken whatever the application of the
host. (DESIGN CHOICE: log 54.) -/
def copperHostRows (c : Params) : List Row := table35 ++ hostInputRows { c with hostSupports := .linear } .lrm

/-- The output rows of such a host (46 R550). -/
def copperOutputRows (c : Params) : List Row := hostOutputRows c ++ table33

/-- SCCxx of a cable (46 R560): note 10 bounds it strictly up to 2.5 GHz. -/
def cableCommonMode (f : Nat) (m : Int) : Bool :=
  onBand f 10 2500 (belowLine (-7000) 1600 m f) && onBand f 2500 11100 (decide (m ≤ -3000))

/-- Table 37, input test conditions at B''. -/
def table37Input : List Row :=
  [aim "Vcm" "uV RMS" 12000, aim "rise and fall time" "ps" 34, aim "crosstalk rise/fall time" "ps" 34,
   aim "crosstalk amplitude" "mV" 700, aim "WDPi" "mdBe" 2400]

/-- The blocking capacitors of a cable (46 R544). -/
def cableBlocking : List Row := [atLeast "rating" "mV" 4300, between "high pass pole" "kHz" 20 100]

/-- `L = 20 log10(VMAi/VMAo) ≤ bound` in mdB, both VMAs positive voltages (46 R564; 45 R483). -/
def vmaLossAtMost (vmaIn vmaOut : Nat) (bound : Int) : Bool :=
  decide (0 < vmaIn) && decide (0 < vmaOut) && !belowLog 0 20000 bound vmaIn vmaOut

/-- `VCR = 20 log10(VMAmin/(2 × NEXT × (1 + C))) - L ≥ bound`, L and bound in mdB, NEXT in µV, C in thousandths
(46 R564, the footnote form; `P_VCR_C` from 0 to 300). -/
def vcrAtLeast (vmaMinMv nextUv c : Nat) (loss bound : Int) : Bool :=
  decide (c ≤ 300) && underLog (-loss) 20000 bound (vmaMinMv * 1000000) (2 * nextUv * (1000 + c))

/-- NEXT² as a fraction (46 R563): the mean square of the samples of a free running oscilloscope less the square of its own
noise. -/
def nextSquared (samples : List Int) (scope : Int) : Int × Int :=
  ((samples.map fun v => v * v).sum - samples.length * (scope * scope), samples.length)

/-- `NEXT ≤ bound`, of samples that were taken. -/
def nextAtMost (samples : List Int) (scope bound : Int) : Bool :=
  decide (samples ≠ []) && decide (0 ≤ bound) &&
    decide ((nextSquared samples scope).1 ≤ bound * bound * (nextSquared samples scope).2)

/-- The two ends of a cable. -/
inductive CableEnd where
  | a
  | b
deriving DecidableEq, Repr, Inhabited

/-- The other end. -/
def CableEnd.far (e : CableEnd) : CableEnd :=
  match e with
  | .a => .b
  | .b => .a

/-- The two paths (46 R561): path 1 from the A end's input to the B end's output, path 2 the reverse. -/
inductive CablePath where
  | one
  | two
deriving DecidableEq, Repr, Inhabited

/-- The end a path starts from. -/
def CablePath.start (p : CablePath) : CableEnd :=
  match p with
  | .one => .a
  | .two => .b

/-- A point of the test set-up of a cable: at the Module Compliance Board of an end. -/
abbrev CablePoint := TestPoint × CableEnd

/-- A test set-up of a cable (46 R561): where the compliance signal generator and the two oscilloscopes stand, and what is
terminated, in Ω on each contact. -/
structure CableSetup where
  generator : CablePoint
  scopeA : CablePoint
  scopeB : Option CablePoint
  terminated : List CablePoint
  ohm : Nat
deriving DecidableEq, Repr, Inhabited

/-- Figure 63 for a path (46 R561): MCB 1 at its start, with the generator at B'' and Oscilloscope A at C'; MCB 2 at the
other end, with Oscilloscope B at C' and 2×50 Ω at B''. For path 2 the ends are reversed. -/
def pathSetup (p : CablePath) : CableSetup :=
  let near := p.start
  { generator := (.b'', near), scopeA := (.c', near), scopeB := some (.c', near.far), terminated := [(.b'', near.far)]
    ohm := 50 }

/-- The same for NEXT of an end (46 R563): inputs and outputs of the far board are terminated, and Oscilloscope A
measures. -/
def nextSetup (near : CableEnd) : CableSetup :=
  { generator := (.b'', near), scopeA := (.c', near), scopeB := none, terminated := [(.b'', near.far), (.c', near.far)]
    ohm := 50 }

/-- A NEXT measurement of a cable end (46 R563): the set-up; the generator's amplitude in mV, edges in ps, DDJ and DDPWS in
mUI at B'', and the instrument and the boards it was calibrated with; the capture of Oscilloscope A, whether it runs free,
its samples and its own noise in µV. -/
structure NextTest where
  setup : CableSetup
  mv : Int
  ps : Int
  ddj : Int
  ddpws : Int
  instrument : Instrument
  calibration : Boards
  capture : Capture
  freeRunning : Bool
  samples : List Int
  scope : Int
deriving DecidableEq, Repr, Inhabited

/-- Whether it is made as 46 R563 says: amplitude and edges at Table 37's crosstalk targets and DDJ and DDPWS at most Table
17's, calibrated at B'' through the mated boards with 50 Ω ports in 12 GHz (42 R273; 46 R540); the far board terminated;
Oscilloscope A at C' of the near end, free running, on a capture NEXT is defined on. -/
def nextSetupOk (near : CableEnd) (x : NextTest) : Bool :=
  decide (x.setup = nextSetup near) && (rowOf table37Input "crosstalk amplitude").any (fun r => onTarget r x.mv) &&
    (rowOf table37Input "crosstalk rise/fall time").any (fun r => onTarget r x.ps) && decide (x.ddj ≤ 100) &&
    decide (x.ddpws ≤ 55) && instrumentOk .b'' none x.instrument && boardsOk .b'' x.calibration && takenAt .c' x.capture &&
    x.freeRunning && captureOk .next x.capture

/-- NEXT of an end is at most a bound in µV. -/
def nextWithin (near : CableEnd) (x : NextTest) (uv : Nat) : Bool := nextSetupOk near x && nextAtMost x.samples x.scope uv

/-- The signal into a cable at B'': common mode in µV RMS, edges in ps, amplitude in mV, WDPi in mdBe, set by
pre-emphasis; and the crosstalk source; the instrument at and the boards to B''. -/
structure CableInput where
  commonMode : Int
  ps : Int
  mv : Int
  wdpi : Int
  crosstalkMv : Int
  crosstalkPs : Int
  instrument : Instrument
  boards : Boards
deriving DecidableEq, Repr, Inhabited

/-- The signal was calibrated at B'' through compliant boards with 50 Ω ports in 12 GHz (42 R273; 44 R440; 46 R540). -/
def CableInput.calibrated (x : CableInput) : Bool := instrumentOk .b'' none x.instrument && boardsOk .b'' x.boards

/-- Note 1 of Table 37, for Vcm and VCR: 12.0 mV RMS of common mode, 34 ps edges, and the largest amplitude Table 12 allows,
twice its Y2 peak to peak (46 R560). -/
def noteOneInput (x : CableInput) : Bool :=
  x.calibrated && decide (x.commonMode = 12000) && decide (x.ps = 34) &&
    (rowOf table12 "Y2").any fun r => r.target.any fun v => decide (x.mv = 2 * v)

/-- Note 9 of Table 37, for dWDPc and VMA loss: every condition the table names at B'' (46 R560). -/
def noteNineInput (x : CableInput) : Bool :=
  x.calibrated && [("Vcm", x.commonMode), ("rise and fall time", x.ps), ("crosstalk rise/fall time", x.crosstalkPs),
    ("crosstalk amplitude", x.crosstalkMv), ("WDPi", x.wdpi)].all fun p =>
      (rowOf table37Input p.1).any fun r => onTarget r p.2

/-- The conductor from a contact of one end to a contact of the other: the transmit pair of each end to the receive pair of
the other, through the blocking capacitors at the receive side, and the case to the case through the shield (46 R544). -/
def cableWire (n : Nat) : Option Nat :=
  match n with
  | 18 => some 13
  | 19 => some 12
  | 13 => some 18
  | 12 => some 19
  | 0 => some 0
  | _ => none

/-- The contacts of an end the drain wire joins: VeeT and VeeR (46 R544). -/
def drainWire : List Nat :=
  (contactTable.filter fun c => decide (c.symbol = "VeeT") || decide (c.symbol = "VeeR")).map (·.number)

/-- A cable joins the grounds of its two ends (46 R543): safe only where they are common. -/
def cableGroundOk (commonGround : Bool) : Bool := commonGround

/-- What a passive cable end makes of the transmitter: the signal passes whatever Tx_Disable says (46 R541), and without
power, as `rdData` has it. (DESIGN CHOICE: log 58.) -/
def cablePasses (s : State) : Bool := s.cfg.passiveCable && decide (s.slot.mated = .all)

/-- Data on RD+/RD- of the near end: what the host of the far end drives on its TD+/TD-, through both ends (46 R541,
R544). -/
def cableData (near far : State) : Bool := cablePasses near && cablePasses far && far.host.txData

end Sys2Proof.Machine
end

