-- ==== Sys2Proof/Machine/Xwdp.lean ====
section
/-! DEFINITION. The xWDP computation of Appendix G (48_xwdp_code.md R610 to R615): its interface, its constants, its last
step as an exact comparison, and what the listing of Listing.lean is called with. -/

namespace Sys2Proof.Machine

/-- The usages (48 R611). -/
inductive Usage where
  | opticalWdp
  | copperWdp
  | copperTwdp
deriving DecidableEq, Repr, Inhabited

/-- A call: samples in the tester's unit, tap counts, rate in kBd, usage (48 R611). -/
structure XwdpCall where
  samples : List Int
  eqNf : Nat
  eqNb : Nat
  rate : Nat
  usage : Usage
deriving DecidableEq, Repr, Inhabited

/-- Samples a UI (48 R612). -/
def overSampleRate : Nat := 16

/-- The pattern's length, and what the waveform file holds (48 R611). -/
def waveformLength : Nat := 511 * overSampleRate

/-- The tap counts the tables use: 14 feed-forward taps of T/2, 5 feedback taps of T (48 R615). -/
def standardTaps : Nat × Nat := (14, 5)

/-- Whether a call has the form the listing asks for, but for the alignment of its waveform, which is `Aligned` (48 R611). -/
def callOk (x : XwdpCall) : Bool := decide (x.samples.length = waveformLength) && decide (0 < x.rate)

/-- What an xWDP is measured for (48 R611's table). -/
inductive WdpMeasurement where
  /-- WDPi at the output of an optical TP3 tester -/
  | opticalInput
  /-- WDPo at C' of a linear module -/
  | linearModuleOutput
  /-- WDP at C'' for a host of linear modules -/
  | linearHostSignal
  /-- WDPi at B'' for a cable -/
  | cableInput
  /-- WDPo at C' of a cable -/
  | cableOutput
  /-- WDP at C'' for a host of cables -/
  | copperHostSignal
  /-- TWDP at B of a host of cables -/
  | copperHostOutput
deriving DecidableEq, Repr, Inhabited

/-- The usage each is computed with (48 R611). -/
def usageOf (m : WdpMeasurement) : Usage :=
  match m with
  | .opticalInput | .linearModuleOutput | .linearHostSignal => .opticalWdp
  | .cableInput | .cableOutput | .copperHostSignal => .copperWdp
  | .copperHostOutput => .copperTwdp

/-- Where each is measured (45 R512; 46 R550, R561; 48 R611): WDPi of an optical tester through an O/E converter. -/
def placeOf (m : WdpMeasurement) : Place :=
  match m with
  | .opticalInput => .optical
  | .linearModuleOutput => .electrical .c'
  | .linearHostSignal => .electrical .c''
  | .cableInput => .electrical .b''
  | .cableOutput => .electrical .c'
  | .copperHostSignal => .electrical .c''
  | .copperHostOutput => .electrical .b

/-- The call a table's limit asks for: the standard taps and the usage of the measurement (48 R611, R615). -/
def tableCall (m : WdpMeasurement) (samples : List Int) (kbd : Nat) : XwdpCall :=
  ⟨samples, standardTaps.1, standardTaps.2, kbd, usageOf m⟩

/-- Q0 times 100 (48 R612). -/
def q0 : Nat := 703

/-- `P_PALLOC_OPT_WDP` and `P_PALLOC_CU_WDP`, in mdB: not known (48 R614). -/
opaque Config.pallocOptical : Int

/-- The copper WDP allocation. -/
opaque Config.pallocCopper : Int

/-- PAlloc in mdB (48 R612, R614). -/
def palloc (u : Usage) : Int :=
  match u with
  | .opticalWdp => Config.pallocOptical
  | .copperWdp => Config.pallocCopper
  | .copperTwdp => 14000

/-- dBscale (48 R614). -/
def dbScale (u : Usage) : Nat :=
  match u with
  | .opticalWdp => 10
  | .copperWdp => 20
  | .copperTwdp => 20

/-- The channel's delays in 10 fs: none for the identity channels (48 R613), Table 34's for the stressor. -/
def usageDelays (u : Usage) : List Nat :=
  match u with
  | .opticalWdp => [0]
  | .copperWdp => [0]
  | .copperTwdp => copperDelays

/-- EqDelMin and EqDelMax in symbol periods (48 R612), at a rate in kBd: a symbol period is 10^11/rate in 10 fs. -/
def eqDelays (u : Usage) (nf rate : Nat) : Nat × Nat :=
  let lo := ((usageDelays u).foldl min (usageDelays u |>.headD 0)) * rate / 10 ^ 11
  let hi := (usageDelays u).foldl max 0
  (lo, (nf * 10 ^ 11 + 2 * hi * rate + (2 * 10 ^ 11 - 1)) / (2 * 10 ^ 11))

/-- The filter of the listing: denominator times 10^4, and numerator (48 R612). -/
def butterworth : List Int × Int := ([10000, 1231407, 75818110, 2734537000, 49313350000], 4931335)

/-- Anticipation and memory of the linear fit, period of the synthesised square wave (48 R612). -/
def fitShape : Nat × Nat × Nat := (4, 40, 16)

/-- `xWDP ≤ bound` in mdB for a given Q times 10^6: `dBscale × log10(Q0/Q) + PAlloc ≤ bound` (48 R615 step 8). -/
def penaltyAtMost (u : Usage) (q : Option Nat) (bound : Int) : Bool :=
  match q with
  | none => true
  | some n => !belowLog (palloc u) (dbScale u * 1000) bound (q0 * 10000) n

/-- Which formula turns BER, as 10^-e with e in thousandths, into Q (48 R615 step 7). -/
inductive QFormula where
  | erfinv
  | power
  | infinite
deriving DecidableEq, Repr, Inhabited

/-- The listing's two thresholds. -/
def qFormula (e : Nat) : QFormula := if e < 12000 then .erfinv else if e < 323000 then .power else .infinite

end Sys2Proof.Machine
end

