-- ==== Sys2Proof/Machine/Listing.lean ====
section
/-! DEFINITION. The listing of Appendix G (48_xwdp_code.md R612, as repaired in R613; R615 step by step), over any ring
with division and the functions Matlab supplies; `Exact` says what they are over the real numbers. Indices count from 0. -/

namespace Sys2Proof.Machine

/-- The functions the listing takes from Matlab. -/
structure Analysis (α : Type) where
  sqrt : α → α
  exp : α → α
  log : α → α
  cos : α → α
  sin : α → α
  erfc : α → α
  erfinv : α → α
  pow : α → α → α
  pi : α
  less : α → α → Bool

/-- The functions of the real numbers they stand for. -/
def Analysis.Exact (an : Analysis ℝ) : Prop :=
  an.sqrt = Real.sqrt ∧ an.exp = Real.exp ∧ an.log = Real.log ∧ an.cos = Real.cos ∧ an.sin = Real.sin ∧ an.pi = Real.pi ∧
    (∀ x y, an.pow x y = x ^ y) ∧ (∀ x y, an.less x y = true ↔ x < y) ∧
    (∀ x, an.erfc x = 2 / Real.sqrt Real.pi * ∫ t in Set.Ioi x, Real.exp (-t ^ 2)) ∧
    ∀ y, -1 < y → y < 1 → an.erfc (an.erfinv y) = 1 - y

/-- The content of `prbs9_950.txt`, which is not in the source (48 R611; 91 N14). (DESIGN CHOICE: log 40.) -/
opaque Config.prbs9 : Fin 511 → Bool

variable {α : Type} [CommRing α] [Div α] [Inv α]

/-- The bit sent in symbol k of the repeating pattern. -/
def xmit (k : Int) : α := if Config.prbs9 (Fin.ofNat 511 (k % 511).toNat) then 1 else 0

/-- Sample k of a repeating waveform. -/
def sampleAt (w : List α) (k : Int) : α := w.getD (k % w.length).toNat 0

/-- The mean. -/
def mean (w : List α) : α := w.sum / w.length

/-- The inverse of a square matrix. Of a singular one, and of a division by a zero xMA or a zero noise variance, the listing
says nothing: the run goes on with what inversion and division give in the ring, over the real numbers 0.
(DESIGN CHOICE: log 40.) -/
def inverse {n : Nat} (m : Matrix (Fin n) (Fin n) α) : Matrix (Fin n) (Fin n) α := fun i j => m.det⁻¹ * m.adjugate i j

/-- SymbolPeriod in ns. -/
def symbolPeriod (x : XwdpCall) : α := 10 ^ 6 / x.rate

/-- `log10`. -/
def Analysis.log10 (an : Analysis α) (v : α) : α := an.log v / an.log 10

/-- `N0 = SymbolPeriod/2 / (Q0 * 10^(PAlloc/dBscale))^2` (48 R613, R615 step 4). -/
def noiseDensity (an : Analysis α) (x : XwdpCall) : α :=
  symbolPeriod x / 2 / (q0 / 100 * an.pow 10 ((palloc x.usage : α) / 1000 / dbScale x.usage)) ^ 2

/-- The frequency of bin k in GHz, the grid shifted to start at zero. -/
def gridFrequency (x : XwdpCall) (k : Nat) : α :=
  (if 2 * k < waveformLength then (k : α) else k - waveformLength) / (511 * symbolPeriod x)

/-- H_r at f GHz: numerator over the polynomial at `j 2π f`, as real and imaginary part (48 R612). -/
def filterAt (an : Analysis α) (f : α) : α × α :=
  let c (k : Nat) : α := ((butterworth.1.getD k 0 : Int) : α) / 10 ^ 4
  let w := 2 * an.pi * f
  let re := c 0 * w ^ 4 - c 2 * w ^ 2 + c 4
  let im := c 3 * w - c 1 * w ^ 3
  ((butterworth.2 : α) * re / (re ^ 2 + im ^ 2), -((butterworth.2 : α) * im) / (re ^ 2 + im ^ 2))

/-- H_chan at f GHz: one for the identity usages (48 R613, 92 D21), for the stressor its taps normalised to unit sum. -/
def channelAt (an : Analysis α) (u : Usage) (f : α) : α × α :=
  match u with
  | .opticalWdp | .copperWdp => (1, 0)
  | .copperTwdp =>
    let total : α := ((copperStressor.sum : Int) : α)
    let taps := List.zip copperDelays copperStressor
    let angle (d : Nat) : α := 2 * an.pi * f * ((d : α) / 10 ^ 5)
    ((taps.map fun t => (t.2 : α) * an.cos (angle t.1)).sum / total,
     -((taps.map fun t => (t.2 : α) * an.sin (angle t.1)).sum) / total)

/-- The real part of the inverse transform of a spectrum of n bins, at sample i. -/
def inverseDft (an : Analysis α) (n : Nat) (spectrum : Nat → α × α) (i : Nat) : α :=
  ((List.range n).map fun k =>
    let angle : α := 2 * an.pi * ((k * i % n : Nat) : α) / n
    (spectrum k).1 * an.cos angle - (spectrum k).2 * an.sin angle).sum / n

/-- Bin k of the transform of a waveform. -/
def dft (an : Analysis α) (w : List α) (k : Nat) : α × α :=
  let angle (i : Nat) : α := 2 * an.pi * ((k * i % w.length : Nat) : α) / w.length
  (((List.range w.length).map fun i => w.getD i 0 * an.cos (angle i)).sum,
   -((List.range w.length).map fun i => w.getD i 0 * an.sin (angle i)).sum)

/-- `real(ifft(fft(y) .* H))`. -/
def through (an : Analysis α) (x : XwdpCall) (h : α → α × α) (w : List α) : List α :=
  (List.range w.length).map <| inverseDft an w.length fun k =>
    let a := dft an w k
    let b := h (gridFrequency x k)
    (a.1 * b.1 - a.2 * b.2, a.1 * b.2 + a.2 * b.1)

/-- The linear fit (48 R615 step 1): row s is sample s of a symbol, column r the response to the symbol `r - 4` before, the
last column the bias. -/
def linearFit (w : List α) : Matrix (Fin 16) (Fin 46) α :=
  let data : Matrix (Fin 46) (Fin 511) α := fun r i => if r.val < 45 then xmit (i.val - (r.val - 4)) else 1
  let seen : Matrix (Fin 16) (Fin 511) α := fun s i => sampleAt w (i.val * 16 + s.val)
  seen * data.transpose * inverse (data * data.transpose)

/-- The square wave synthesised from the fit: eight zeros, eight ones, 16 samples each. -/
def synthesised (w : List α) : List α :=
  let drive : Matrix (Fin 46) (Fin 16) α := fun r i =>
    if r.val < 45 then (if ((i.val : Int) - (r.val - 4)) % 16 < 8 then 0 else 1) else 1
  let y := linearFit w * drive
  (List.range 256).map fun k => y (Fin.ofNat 16 (k % 16)) (Fin.ofNat 16 (k / 16))

/-- The sign of a value. -/
def Analysis.sign (an : Analysis α) (v : α) : Int := if an.less 0 v then 1 else if an.less v 0 then -1 else 0

/-- `interp1(X, Y, X + d, 'spline')` on unit spaced points: the cubic spline, its end conditions Matlab's "not a knot".
(PRESUMED: log 40.) -/
def splineShift (d : α) (w : List α) : List α :=
  let n := w.length
  let y (k : Nat) : α := w.getD k 0
  let coefficients : Matrix (Fin n) (Fin n) α := fun i j =>
    if i.val = 0 then (if j.val = 0 then 1 else if j.val = 1 then -2 else if j.val = 2 then 1 else 0)
    else if i.val = n - 1 then (if j.val = n - 1 then 1 else if j.val = n - 2 then -2 else if j.val = n - 3 then 1 else 0)
    else if j.val = i.val then 4 else if j.val + 1 = i.val || i.val + 1 = j.val then 1 else 0
  let sides : Fin n → α := fun i =>
    if i.val = 0 || i.val = n - 1 then 0 else 6 * (y (i.val - 1) - 2 * y i.val + y (i.val + 1))
  let bends := inverse coefficients |>.mulVec sides
  let bend (k : Nat) : α := if h : k < n then bends ⟨k, h⟩ else 0
  (List.range n).map fun i =>
    let k := min i (n - 2)
    let t : α := d + ((i - k : Nat) : α)
    (1 - t) * y k + t * y (k + 1) + ((1 - t) ^ 3 - (1 - t)) * bend k / 6 + (t ^ 3 - t) * bend (k + 1) / 6

/-- `AlignY` (48 R612): the middle crossing of the square wave moved to its ideal place, by whole samples and then by the
rest. Where no two neighbours differ in sign the listing's `find` finds nothing and the source says nothing: the crossing is
then taken to lie after sample 31. (DESIGN CHOICE: log 40.) -/
def alignY (an : Analysis α) (y0 : List α) : List α :=
  let y := y0.map (· - mean y0)
  let at' (k : Nat) : α := y.getD k 0
  let x := ((List.range 224).find? fun k => an.sign (at' (31 + k)) != an.sign (at' (32 + k))).getD 0 + 31
  let rest := at' x / (at' x - at' (x + 1))
  splineShift rest ((List.range 256).map fun i => sampleAt y0 ((i : Int) - (127 - x)))

/-- ZeroLevel and MeasuredxMA (48 R615 step 1): means over the middle 20% of the two runs, samples 51 to 76 and 179 to 204
counted from 1. -/
def measuredLevels (an : Analysis α) (w : List α) : α × α :=
  let y := alignY an (synthesised w)
  let zero := mean ((y.drop 50).take 26)
  (zero, mean ((y.drop 178).take 26) - zero)

/-- The captured samples. -/
def captured (x : XwdpCall) : List α := x.samples.map fun v => (v : α)

/-- MeasuredxMA of a call. -/
def measuredXma (an : Analysis α) (x : XwdpCall) : α := (measuredLevels an (captured x)).2

/-- The waveform normalised, through the channel and through the front end filter (48 R615 steps 2 and 3). -/
def filtered (an : Analysis α) (x : XwdpCall) : List α :=
  let w : List α := captured x
  let l := measuredLevels an w
  through an x (filterAt an) (through an x (channelAt an x.usage) (w.map fun v => (v - l.1) / l.2))

/-- The noise autocorrelation at the sampler, at lag m of half a symbol (48 R615 step 4). -/
def noiseCorrelation (an : Analysis α) (x : XwdpCall) (m : Nat) : α :=
  inverseDft an waveformLength
    (fun k =>
      let h := filterAt an (gridFrequency x k)
      (noiseDensity an x / 2 * (h.1 ^ 2 + h.2 ^ 2) / symbolPeriod x * overSampleRate, 0))
    (m * 8)

/-- C with a zero row and column for the offset tap. -/
def noiseMatrix (an : Analysis α) (x : XwdpCall) : Matrix (Fin (x.eqNf + 1)) (Fin (x.eqNf + 1)) α := fun i j =>
  if i.val < x.eqNf && j.val < x.eqNf then noiseCorrelation an x (max i.val j.val - min i.val j.val) else 0

/-- R of a sampling phase: two samples a symbol into the feed-forward taps, and the column of ones. -/
def sampled (x : XwdpCall) (y : List α) (phase : Int) : Matrix (Fin 511) (Fin (x.eqNf + 1)) α := fun i k =>
  if k.val < x.eqNf then sampleAt y (8 * (2 * (i.val : Int) - k.val) + phase) else 1

/-- XSel of an equalizer delay: the symbols that stand in the feedback filter. -/
def selected (x : XwdpCall) (delay : Nat) : Matrix (Fin 511) (Fin (x.eqNb + 1)) α := fun i c =>
  xmit ((i.val : Int) - c.val - delay)

/-- The filters of one phase and delay: the mean square error, the feed-forward and the feedback coefficients (48 R615
step 5). -/
def equalize (an : Analysis α) (x : XwdpCall) (y : List α) (phase : Int) (delay : Nat) :
    α × (Fin (x.eqNf + 1) → α) × (Fin x.eqNb → α) :=
  let r := sampled x y phase
  let rinv := inverse (r.transpose * r + (511 : α) • noiseMatrix an x)
  let x0 : Matrix (Fin 511) (Fin (x.eqNb + 1)) α := selected x 0
  let sel : Matrix (Fin 511) (Fin (x.eqNb + 1)) α := selected x delay
  let p := x0.transpose * x0 - sel.transpose * r * rinv * (r.transpose * sel)
  let p11 : Matrix (Fin x.eqNb) (Fin x.eqNb) α := fun i j => p i.succ j.succ
  let p01 : Fin x.eqNb → α := fun j => p 0 j.succ
  let b : Fin x.eqNb → α := fun i => -((inverse p11).mulVec p01 i)
  let w := (rinv * (r.transpose * sel)).mulVec (Fin.cons 1 b)
  (p 0 0 - dotProduct p01 ((inverse p11).mulVec p01), w, b)

/-- The phases and delays in the listing's order: sixteen phases, and for each the delays from EqDelMin to EqDelMax. -/
def searchSpace (x : XwdpCall) : List (Int × Nat) :=
  let d := eqDelays x.usage x.eqNf x.rate
  (List.range overSampleRate).flatMap fun j =>
    (List.range (d.2 - d.1 + 1)).map fun k => ((j : Int) - 8, d.1 + k)

/-- The first phase and delay with the least error. -/
def bestPoint (an : Analysis α) (x : XwdpCall) (y : List α) : Option (Int × Nat) :=
  (searchSpace x).foldl
    (fun best c =>
      match best with
      | none => some c
      | some b => if an.less (equalize an x y c.1 c.2).1 (equalize an x y b.1 b.2).1 then some c else some b)
    none

/-- The semi-analytic bit error ratio at a point (48 R615 step 6). -/
def berAt (an : Analysis α) (x : XwdpCall) (y : List α) (phase : Int) (delay : Nat) : α :=
  let e := equalize an x y phase delay
  let z := (sampled x y phase).mulVec e.2.1 - (selected x delay).mulVec (Fin.cons 0 e.2.2)
  let sigma := an.sqrt (dotProduct e.2.1 ((noiseMatrix an x).mulVec e.2.1))
  let size (v : α) : α := if an.less v 0 then -v else v
  (∑ i, an.erfc (size (z i - 1 / 2) / sigma / an.sqrt 2) / 2) / 511

/-- Q of a bit error ratio, `none` where it is infinite (48 R615 step 7). -/
def qOfBer (an : Analysis α) (ber : α) : Option α :=
  if an.less (1 / 10 ^ 12) ber then some (an.sqrt 2 * an.erfinv (1 - 2 * ber))
  else if an.less (1 / 10 ^ 323) ber then
    some (21143 / 10000 * an.pow (-10658 / 10000 - an.log10 ber) (5024 / 10000))
  else none

/-- xWDP in dB, `none` where Q is infinite and xWDP without lower bound (48 R615 step 8). Where the bit error ratio is 1/2,
Q is 0 and has no logarithm: the listing then says nothing, over the real numbers `log 0 = 0` gives a finite xWDP, and
`penaltyAtMost` fails Q = 0 against every bound. (DESIGN CHOICE: log 40.) -/
def xwdp (an : Analysis α) (x : XwdpCall) : Option α :=
  let y := filtered an x
  ((bestPoint an x y).bind fun c => qOfBer an (berAt an x y c.1 c.2)).map fun q =>
    (dbScale x.usage : α) * an.log10 ((q0 : α) / 100) + (palloc x.usage : α) / 1000 - dbScale x.usage * an.log10 q

/-- How well a waveform, circularly shifted by k samples, goes with the data sequence: each sample counted with the sign of
its bit. -/
def alignment (samples : List Int) (k : Nat) : Int :=
  ((List.range waveformLength).map fun i =>
    let v := samples.getD ((i + k) % waveformLength) 0
    if Config.prbs9 (Fin.ofNat 511 (i / overSampleRate)) then v else -v).sum

/-- "The waveform must be circularly shifted to align with the data sequence" (48 R611): no shift of it goes better with the
data, which is the model's reading of "align". (DESIGN CHOICE: log 54.) -/
def Aligned (x : XwdpCall) : Prop := ∀ k, k < waveformLength → alignment x.samples k ≤ alignment x.samples 0

/-- `xWDP ≤ bound` in mdB, of a capture xWDP is defined on and an aligned call of the form the listing asks for (45 R485; 48
R611). -/
def xwdpAtMost (c : Capture) (x : XwdpCall) (bound : Int) : Prop :=
  captureOk .wdp c = true ∧ c.kbd = x.rate ∧ callOk x = true ∧ Aligned x ∧
    ∃ an : Analysis ℝ, an.Exact ∧
      match xwdp an x with
      | none => True
      | some v => 1000 * v ≤ bound

/-- xWDP of an aligned call in whole mdB, rounded down. (DESIGN CHOICE: log 54.) -/
def XwdpIs (x : XwdpCall) (w : Int) : Prop :=
  callOk x = true ∧ Aligned x ∧ ∃ an : Analysis ℝ, an.Exact ∧ ∃ v, xwdp an x = some v ∧ ⌊1000 * v⌋ = w

/-- A WDP as its table's limit has it: of a capture WDP is defined on, taken where the measurement has its place (45 R485;
48 R611). -/
def WdpIs (m : WdpMeasurement) (c : Capture) (samples : List Int) (w : Int) : Prop :=
  captureOk .wdp c = true ∧ c.place = placeOf m ∧ XwdpIs (tableCall m samples c.kbd) w

/-- A WDP as its table's limit has it, taken where it has its place, is at most a bound in mdB (45 R485; 48 R611). -/
def WdpAtMost (m : WdpMeasurement) (c : Capture) (samples : List Int) (bound : Int) : Prop :=
  c.place = placeOf m ∧ xwdpAtMost c (tableCall m samples c.kbd) bound

end Sys2Proof.Machine
end

