-- ==== Sys2Proof/Machine/Compliance.lean ====
section
/-! DEFINITION. What a whole device is held to: a linear module (45_test_methods.md R510 to R513), a linear host (45 R505 to
R507), a host with the copper option (46_direct_attach_copper.md R555 to R557), a host at 1.25 GBd (47_1g25_support.md R592 to
R596), a cable (46 R560 to R564); a module and a host over the range of supplies
(00_scope.md R9) and a module under the tolerance tone (41_power_and_esd.md R247), with all their electrical specifications. -/

namespace Sys2Proof.Machine

/-! ### Over the range of supplies -/

/-- What is measured of a port at one pair of supplies: each row (a row of a test signal as that signal stood), how each
level of SCL and SDA was measured and the edges of the lines at 400 kHz (true) and at 100 kHz, the load each low speed output
was measured with, the instrument at each point, for what specifies no bandwidth of its own, and the boards on the way to it,
and the S-parameters in mdB over f in MHz: SDD and SCC of input and output, SCD of the input; its eye mask test. -/
structure PortMeasured where
  value : Row → Int
  level : BusLevel → BusLevelSetup
  edges : Bool → BusLine → BusEdges
  load : OutputRow → OutputLoad
  output : OutputRow → Int
  instrument : TestPoint → Instrument
  boards : TestPoint → Boards
  inputDifferential : Nat → Int
  outputDifferential : Nat → Int
  inputCommon : Nat → Int
  outputCommon : Nat → Int
  conversion : Nat → Int
  eye : EyeMaskTest

/-- "All electrical specifications shall be met over the entire specified range of power supplies" (00_scope.md R9): of VccT
and VccR in mV (Table 8). -/
def OverSupply (met : Int → Int → Prop) : Prop :=
  ∀ vccT vccR, (3140 ≤ vccT ∧ vccT ≤ 3460) → (3140 ≤ vccR ∧ vccR ≤ 3460) → met vccT vccR

/-- The rows a module is held to at a VccT in mV: low speed, bus, ESD (41 R250), SFI input, receiver output. A passive cable's
input is held to the rows of Table 16 as well as to Table 37, the one table 46_direct_attach_copper.md R560 names for it, and
not to Table 16's SCD11. (DESIGN CHOICE: log 54.) -/
def moduleRows (c : Params) (app : LinearApp) (vccT : Int) : List Row :=
  moduleLowSpeed vccT ++ busElectrical vccT c.vccHost2w ++ esdTable
    ++ (if usesOneGig c then table41.take 1 else if usesSfi c then table16 else []) ++ receiverRows c app

/-- The rows a host port is held to: low speed, bus, the two ESD rows of its contacts (41 R250), the damage threshold at C of
every host (00_scope.md R7), SFI output and input. -/
def hostRows (c : Params) (app : LinearApp) (vccT : Int) : List Row :=
  hostLowSpeed vccT ++ busElectrical vccT c.vccHost2w ++ esdTable.take 2 ++ [damageThreshold] ++ hostOutputRows c ++
    hostInputRows c app

/-- Measured at a point with the ports, references and 12 GHz of every SFI measurement, through compliant boards
(42_sfi_high_speed.md R273; 44_channel_and_boards.md R440). -/
def PortMeasured.MeasuredAt (m : PortMeasured) (p : TestPoint) : Prop :=
  instrumentOk p none (m.instrument p) = true ∧ boardsOk p (m.boards p) = true

/-- The levels of SCL and SDA of a device measured as Table 21 says, and edges of both lines within Table 22, at `speeds`
(43_two_wire_operations.md R351, R353). -/
def PortMeasured.BusOk (dut : ConnectorSide) (vccT : Int) (vccHost2w : Nat) (speeds : List Bool) (m : PortMeasured) : Prop :=
  (∀ l, (m.level l).Ok dut vccHost2w l) ∧
    ∀ fast ∈ speeds, ∀ line, (m.edges fast line).bus.fast = fast ∧ (m.edges fast line).Ok vccT vccHost2w

/-- A module's electrical specifications at one VccT: its rows, its bus at both speeds, its low speed outputs with their
loads, and at B' and C' through compliant boards its S-parameters and the eye mask of a limiting receiver, its AC common mode
tolerance at B'' through the mated pair (Table 16 note 1); a linear receiver and a cable have no eye mask (Tables 5, 16, 18,
19, 21, 22, 37; 44_channel_and_boards.md R440). -/
def ModuleElectrical (c : Params) (app : LinearApp) (vccT : Int) (m : PortMeasured) : Prop :=
  (∀ r ∈ moduleRows c app vccT, meets r (m.value r) = true) ∧ m.BusOk .module vccT c.vccHost2w [true, false] ∧
    (∀ o ∈ [OutputRow.statusLow, .statusLeakage], outputOk o vccT (m.load o) (m.output o) = true) ∧
    (usesOneGig c = true → ∀ p ∈ [TestPoint.b', .c'], boardsOk p (m.boards p) = true) ∧
    (usesSfi c = true → ∀ p ∈ [TestPoint.b', .c', .b''], m.MeasuredAt p) ∧
    (usesSfi c = true → ∀ f,
      moduleDifferential f (m.inputDifferential f) = true ∧ moduleDifferential f (m.outputDifferential f) = true ∧
      (if c.passiveCable then cableCommonMode f (m.inputCommon f) && cableCommonMode f (m.outputCommon f)
        else commonMode f (m.outputCommon f)) = true ∧
      (c.passiveCable = false → moduleConversion f (m.conversion f) = true)) ∧
    (usesSfi c = true → c.rxKind = .limiting → c.passiveCable = false → m.eye.point = .c' ∧ eyeMaskOk c m.eye = true)

/-- A host's electrical specifications at one VccT: the same at B and C, with what is measured at C'' (Table 13 note 1), its
own bus at the speed it runs at, and the eye mask of its output (Tables 6, 11, 12, 13, 21, 22, 39, 40;
44_channel_and_boards.md R440). -/
def HostElectrical (c : Params) (app : LinearApp) (vccT : Int) (bus : HostBus) (m : PortMeasured) : Prop :=
  (∀ r ∈ hostRows c app vccT, meets r (m.value r) = true) ∧
    m.BusOk .host vccT c.vccHost2w [bus.fast] ∧ (∀ l, (m.level l).bus = bus) ∧
    (∀ fast line, (m.edges fast line).bus = bus) ∧
    (∀ o ∈ [OutputRow.txDisableLow, .txDisableHigh, .rateLow, .rateHigh], outputOk o vccT (m.load o) (m.output o) = true) ∧
    (usesOneGig c = true → ∀ p ∈ [TestPoint.b, .c], boardsOk p (m.boards p) = true) ∧
    (usesSfi c = true → ∀ p ∈ [TestPoint.b, .c, .c''], m.MeasuredAt p) ∧
    ((usesSfi c || usesOneGig c) = true → m.eye.point = .b ∧ eyeMaskOk c m.eye = true) ∧
    (usesSfi c = true → ∀ f,
      hostDifferential f (m.inputDifferential f) = true ∧ hostDifferential f (m.outputDifferential f) = true ∧
      commonMode f (m.outputCommon f) = true ∧ hostConversion f (m.conversion f) = true)

/-- What is measured of an ASIC/SerDes: the kinds of module it supports; the rows and the S-parameters in mdB over f in MHz,
and the instruments at and the boards to A and D. -/
structure AsicMeasured where
  supports : HostSupports
  value : Row → Int
  instrument : TestPoint → Instrument
  boards : TestPoint → Boards
  outputDifferential : Nat → Int
  outputCommon : Nat → Int
  inputDifferential : Nat → Int
  conversion : Nat → Int

/-- An ASIC/SerDes within its recommendations at A and D, to references of 100 Ω differential and 25 Ω common mode, on
compliant test boards (44_channel_and_boards.md R432 and R433 with their notes 2 and 4, R440). -/
def AsicRecommended (m : AsicMeasured) : Prop :=
  (∀ p ∈ [TestPoint.a, .d], instrumentOk p none (m.instrument p) = true ∧ boardsOk p (m.boards p) = true) ∧
    (∀ r ∈ table26 ++ table27 m.supports, meets r (m.value r) = true) ∧
    ∀ f, asicDifferential f (m.outputDifferential f) = true ∧ asicCommonMode f (m.outputCommon f) = true ∧
      asicDifferential f (m.inputDifferential f) = true ∧ asicConversion f (m.conversion f) = true

/-! ### The linear module -/

/-- The captures of a TP3 test (45_test_methods.md R512): of the tester through the O/E converter and a 4th-order
Bessel-Thomson filter, and of the module's output on the Module Compliance Board. -/
structure DwdpCaptures where
  input : Capture
  inputSamples : List Int
  output : Capture
  outputSamples : List Int

/-- WDPi and WDPo of a test are those of its captures. -/
def DwdpMeasured (t : Tp3Test) (k : DwdpCaptures) : Prop :=
  WdpIs .opticalInput k.input k.inputSamples t.wdpi ∧ WdpIs .linearModuleOutput k.output k.outputSamples t.wdpo

/-- RN of a test is the corrected RN of a run of the noise test, made so for a row of Table 1 (45_test_methods.md R510,
R511). -/
def RnMeasuredBy (a : Application) (t : Tp3Test) (k : NoiseRun) : Prop :=
  noiseRunOk t.case k = true ∧ k.setup.application = a ∧ correctedRnIs t.case k t.rn = true

/-- A test of a linear module, the captures of its dWDP, the noise run of its RN, and its peak to peak test
(45_test_methods.md R510 to R513). -/
structure LinearRun where
  test : Tp3Test
  captures : DwdpCaptures
  noise : NoiseRun
  peakSetup : PeakSetup
  peakCapture : Capture
  peakSamples : List Int

/-- The range of optical power in mdBm of the standards of a row of Table 1, which is not in the source (45 R511). (DESIGN
CHOICE: log 40.) -/
opaque Config.opticalPower : Application → Int → Bool

/-- The tests the standards of a row of Table 1 other than LRM require of a linear receiver, which are not in the source (42
R314). (DESIGN CHOICE: log 40.) -/
opaque Config.requiredTests : Application → List (RnCase × Tp3Condition)

/-- The tests a row of Table 1 requires of a linear receiver: for LRM all three stressors under both conditions (42 R314). -/
def requiredTests (a : Application) : List (RnCase × Tp3Condition) :=
  if a.name = "LRM" then lrmRequired else Config.requiredTests a

/-- Whether a list of tests has all that a row of Table 1 requires, and, for a row whose interface is Chapter 3, any at all.
The last R314 does not say. (DESIGN CHOICE: log 54.) -/
def testsRequired (a : Application) (required : List (RnCase × Tp3Condition)) : Bool :=
  (requiredTests a).all required.contains && (!a.interface.contains .chapter3 || !required.isEmpty)

/-- A linear module complies: over the range of optical power of every standard it supports, each test that standard
requires is made so, every capture of it with that standard's patterns and rate, and lies below its line (45 R510 to R513; 42
R313, R314). -/
def LinearModuleOk (supported : List Application) (required : Application → List (RnCase × Tp3Condition))
    (tests : Application → Int → List LinearRun) : Prop :=
  ∀ a ∈ supported, testsRequired a (required a) = true ∧ ∀ p, Config.opticalPower a p = true →
    linearPasses (required a) ((tests a p).map (·.test)) = true ∧
      ∀ t ∈ tests a p, DwdpMeasured t.test t.captures ∧ RnMeasuredBy a t.test t.noise ∧ t.noise.power = p ∧
        peakTestOk t.peakSetup t.peakCapture t.peakSamples = true ∧ t.peakCapture.application = a ∧
        t.captures.input.application = a ∧ t.captures.output.application = a

/-! ### The linear host -/

/-- A run of the linear host test (45_test_methods.md R506, R507): the signal; the adapter; the boards at C; at C'' WDP in
mdBo, with its capture, and RN as measured; how each Tx contact of the port under test is terminated through the Host
Compliance Board; whether it and all other ports operate as in normal operation. -/
structure LinearTest where
  signal : LinearSignal
  adapter : Adapter
  boards : Boards
  wdp : Int
  capture : Capture
  samples : List Int
  noise : RnMeasured
  dcBlock : Bool
  txOhm : Nat
  normal : Bool

/-- The WDP a run must stand at: 5.4 dBo for the high WDP split-symmetrical stressor, which sets the filter; the others are
measured, their values in Table 15 being for guidance (42_sfi_high_speed.md R296 notes 5 to 7; 45 R506). -/
def wdpStands (x : LinearTest) : Bool :=
  decide (x.signal.test ≠ .lrm true .split) || decide (x.wdp = 5400 ∧ x.wdp = x.adapter.splitWdp)

/-- Whether a run is made as 45 R506 and R507 say: with the stressors on, the noise calibrated so that RN, measured at C'' as
D.8 says, stands at Table 15's target for the measured WDP; the transmitter running into a DC block and 50 Ω. No scope noise
is taken off that RN. (DESIGN CHOICE: log 54.) -/
def linearTestOk (x : LinearTest) : Bool :=
  linearSignalOk x.signal && adapterOk x.adapter && boardsOk .c x.boards &&
    (!x.signal.stressed ||
      (wdpStands x && rnMeasuredOk (.electrical .c'') x.noise && decide (x.noise.rn = targetRN x.signal.test x.wdp))) &&
    x.dcBlock && decide (x.txOhm = 50) && x.normal

/-- The WDP of a run and the one that set the adapter's filter are those of their captures at C'', by the reference receiver
of 14 T/2 spaced FFE taps and 5 T spaced DFE taps (42 R296 notes 4 and 5); that capture and the one of RN are of one row of
Table 1. -/
def LinearTest.WdpMeasured (x : LinearTest) : Prop :=
  WdpIs .linearHostSignal x.adapter.splitCapture x.adapter.splitSamples x.adapter.splitWdp ∧
    (x.signal.stressed = true →
      WdpIs .linearHostSignal x.capture x.samples x.wdp ∧ x.noise.capture.application = x.capture.application)

/-- A linear host complies: with any test system that is well matched a BER better than 10^-12 in every such run (45 R505 to
R507). -/
def LinearHostOk (ber : TestSystem → LinearTest → Nat × Nat) : Prop :=
  ∀ t x, t.Reflects → linearTestOk x = true → x.WdpMeasured → berOk (ber t x).1 (ber t x).2 = true

/-! ### The host at 1.25 GBd -/

/-- A signal at C at 1.25 GBd: its eye mask test, VMA in mV, and its crossing times. -/
structure OneGigInput where
  mask : EyeMaskTest
  vma : Int
  crossings : List Int

/-- A signal a host is to take: within the mask of Table 40 at C, of at least its VMA, its jitter within a clause's TP4
(47_1g25_support.md R592, R593, R596). -/
def OneGigInput.Ok (c : Params) (x : OneGigInput) : Prop :=
  x.mask.point = .c ∧ eyeMaskOk c x.mask = true ∧
    (rowOf table40 "host input VMA").any (fun r => meets r x.vma) = true ∧ ∃ k, Config.tp4Jitter k x.crossings = true

/-- A host that supports 1.25 GBd: its output meets the TP1 jitter, and its input takes every such signal (47 R592, R593,
R596). -/
def OneGigHostOk (c : Params) (output : Nat → List Int) (takes : OneGigInput → Bool) : Prop :=
  OneGigOutputOk output ∧ ∀ x, x.Ok c → takes x = true

/-! ### The host with the copper option -/

/-- A channel on samples, 16 a UI, by its impulse response. -/
def convolve (h : ℕ → ℝ) (w : List ℝ) : List ℝ :=
  (List.range w.length).map fun i => ((List.range (i + 1)).map fun k => h k * w.getD (i - k) 0).sum

/-- What a channel makes of an isolated 1 UI pulse. -/
def isolatedPulse (h : ℕ → ℝ) (i : ℕ) : ℝ := ((List.range (min 16 (i + 1))).map fun k => h (i - k)).sum

/-- How close the measured pulse must be to Table 36, as the sum of squares of `pulseMisfit`: "minimized", with no number
(46_direct_attach_copper.md R557). (DESIGN CHOICE: log 54.) -/
opaque Config.pulseFit : Nat

/-- The stressor of Table 36, at two samples for each of its: its isolated pulse fits the table (46 R556 note 1, R557). R557
does not say how the two are laid over each other: they are compared at zero delay and without scaling, sample k of the table
with sample 2k of the pulse. (DESIGN CHOICE: log 54.) -/
def FitsTable36 (h : ℕ → ℝ) : Prop :=
  ((List.range pulseResponse.length).map fun k =>
    ((10 : ℝ) ^ 4 * isolatedPulse h (2 * k) - (pulseResponse.getD k 0 : Int)) ^ 2).sum ≤ (Config.pulseFit : ℝ)

/-- The channels of the stress generator: Table 36's, or a suitable length of cable (46 R557). -/
inductive CopperChannel where
  | table36
  | cable
deriving DecidableEq, Repr, Inhabited

/-- One period of a repeating pattern in µV, as it stands once what sends it has settled. -/
def Settled (send : List Bool → List ℝ) (pattern : List Bool) (w : List Int) : Prop :=
  ∃ n0, ∀ n, n0 ≤ n →
    ((send (List.replicate n pattern).flatten).drop ((n - 1) * 16 * pattern.length)).map (fun v => ⌊1000 * v⌋) = w

/-- The VMA of what is sent, in units of `unit` µV, rounded down (45_test_methods.md R483). (DESIGN CHOICE: log 54.) -/
def VmaIs (send : List Bool → List ℝ) (unit v : Int) : Prop :=
  ∃ w, Settled send squareWave w ∧ vmaReads w unit v = true

/-- The bits of PRBS9. -/
def prbs9Bits : List Bool := List.ofFn Config.prbs9

/-- The level the transmitter holds for each bit, 16 samples a UI. -/
def heldLevels (bits : List Bool) : List ℝ := bits.flatMap fun b => List.replicate 16 (if b then 1 else -1)

/-- Whether bits are those of a pattern: the content of PRBS31, of test patterns 1 and 2 and of a 64B/66B signal is not in the
source (45_test_methods.md R471; 91 N14). (DESIGN CHOICE: log 40.) -/
opaque Config.bitsOf : Pattern → List Bool → Bool

/-- A calibrated stress generator (46 R555 to R557): the transmitter's waveform of a bit sequence in mV, 16 samples a UI,
its VMA the level Qsq was taken at; the channel, Table 36's or a cable, in either case of WDPc 9.3 dBe; and the signal the
channel gives at C'', of the VMA and, without noise and of the data sent, the peak to peak voltage of `x`. The transmitter
makes of every bit the same pulse, by a response `p` of its own to the held levels; the data, ones and zeros among them, are
of a compliance pattern of 10G Ethernet (45_test_methods.md R499), since Appendix E names none. (DESIGN CHOICE for the last
three: log 54.) -/
structure CopperChain (g : CopperGenerator) (x : CopperSignal) (kind : CopperChannel) (h : ℕ → ℝ) (tx : List Bool → List ℝ)
    (data : List Bool) : Prop where
  pulse : ∃ p : ℕ → ℝ, ∀ bits, tx bits = convolve p (heldLevels bits)
  pattern : ∃ q ∈ Config.compliancePatterns .ethernet, Config.bitsOf q data = true
  alive : true ∈ data ∧ false ∈ data
  calibrated : copperGeneratorOk g = true
  level : VmaIs tx 1 g.qsqVma
  fits : kind = .table36 → FitsTable36 h
  wdpc : ∃ c w k, forCopper c.application = true ∧ Settled (fun bits => convolve h (tx bits)) prbs9Bits w ∧
    WdpIs .copperHostSignal c (w.rotate k) g.wdpc
  vma : VmaIs (fun bits => convolve h (tx bits)) 1000 x.vma
  swing : peakToPeak ((convolve h (tx data)).map fun v => ⌊v⌋) = x.peakToPeak

/-- The stressed signal at C'' in mV, over the outcomes of the two noises (46 R556, Figure 61; 45_test_methods.md R484):
the Qsq noise relative to the transmitter's level, `VMA / (2 × Qsq)`, before the channel; the fixed noise of No after it;
each white and Gaussian. That the two are independent of each other R556 does not say. (DESIGN CHOICE: log 54.) -/
def CopperStress {Ω : Type} [MeasurableSpace Ω] (P : MeasureTheory.Measure Ω) (g : CopperGenerator) (h : ℕ → ℝ) (tx : List ℝ)
    (out : Ω → List ℝ) : Prop :=
  ∃ q n : ℕ → Ω → ℝ,
    WhiteGaussian P q (g.qsqVma / 1000 / (2 * (g.qsq / 10))) ∧ WhiteGaussian P n (g.fixedNoise / 1000) ∧
    ProbabilityTheory.IndepFun (fun ω k => q k ω) (fun ω k => n k ω) P ∧
    ∀ ω, out ω = stressedRx (convolve h) tx ((List.range tx.length).map (q · ω)) ((List.range tx.length).map (n · ω))

/-- What a run of the copper host test is made with at C: the instrument, and the Host Compliance Board. -/
structure CopperBench where
  instrument : Instrument
  boards : Boards
deriving DecidableEq, Repr, Inhabited

/-- Whether it has the ports of all SFI test equipment and a compliant board (44 R440; 46 R540). -/
def CopperBench.ok (b : CopperBench) : Bool := instrumentFits .c b.instrument && boardsOk .c b.boards

/-- A host with the copper option (46 R555): BER below 10^-12, tested at C with equipment that is fit for it, under the stressed
signal of every calibrated generator at both conditions, in addition to the linear host's requirements. -/
def CopperHostOk {Ω : Type} [MeasurableSpace Ω] (P : MeasureTheory.Measure Ω) (linear : TestSystem → LinearTest → Nat × Nat)
    (copper : CopperBench → CopperSignal → (Ω → List ℝ) → Nat × Nat) : Prop :=
  LinearHostOk linear ∧
    ∀ b g x c kind h tx data out, b.ok = true → CopperChain g x kind h tx data → copperCondition c x = true →
      CopperStress P g h (tx data) out → berOk (copper b x out).1 (copper b x out).2 = true

/-- The output at B of a host with the copper option, as Table 33 has it measured (46 R550): the capture of TWDPc with its
samples, VMA, RN, from which Qsq comes, and the AC common mode voltage. -/
structure CopperOutput where
  twdp : Capture
  twdpSamples : List Int
  vma : VmaMeasured
  noise : RnMeasured
  commonMode : CommonModeTest

/-- The captures of that output, all of them of 10GSFP+Cu. -/
def CopperOutput.captures (x : CopperOutput) : List Capture := [x.twdp, x.vma.capture, x.noise.capture, x.commonMode.capture]

/-- Table 33 measured as its conditions say, and met (46 R550): TWDPc of a PRBS9 capture at B by the reference receiver of 14
FFE and 5 DFE taps with the stressor of Table 34 (notes 2 and 3; `tableCall`), VMA by D.7, Qsq as 1/RN by D.8 (note 1), the
common mode by D.15. `value` is each row as the port is said to have it. -/
structure CopperOutput.Ok (x : CopperOutput) (value : Row → Int) : Prop where
  application : ∀ c ∈ x.captures, forCopper c.application = true
  twdpc : ∀ r bound, rowOf table33 "TWDPc" = some r → r.hi = some bound →
    WdpAtMost .copperHostOutput x.twdp x.twdpSamples bound ∧ WdpIs .copperHostOutput x.twdp x.twdpSamples (value r)
  vma : ∀ r, rowOf table33 "VMA" = some r → meets r (value r) = true ∧ vmaMeasuredOk .b 1000 (value r) x.vma = true
  qsq : ∀ r, rowOf table33 "Qsq" = some r → meets r (value r) = true ∧ rnMeasuredOk (.electrical .b) x.noise = true ∧
    rnAtMost x.noise.one x.noise.zero x.noise.xma 10 (value r) = true
  commonMode : commonModeOk .b table33 "output AC common mode voltage" x.commonMode = true

/-! ### The cable -/

/-- What is measured of a path of a cable (46 R560 to R564): the set-up; the inputs at B'' of the two groups of rows; WDPi
with a Host Compliance Board in MCB 1 and WDPo at the far C', each with its capture; VMA at the same two places in µV, each
with its capture; the loss in mdBe and NEXT of the end the path arrives at in µV, both rounded up (DESIGN CHOICE: log 54);
the common mode at C'; the boards to the input at B' of the end the path starts from and to the output at C' of the other,
and the instruments there; of that input and of that output the single ended extremes in mV, and SDD and SCC in mdB over f in
MHz; of the blocking capacitors at that output each row of theirs. -/
structure CableMeasured where
  blocking : Row → Int
  setup : CableSetup
  noteOne : CableInput
  noteNine : CableInput
  wdpiCapture : Capture
  wdpiSamples : List Int
  wdpoCapture : Capture
  wdpoSamples : List Int
  wdpo : Int
  vmaIn : Nat
  vmaInMeasured : VmaMeasured
  vmaOut : Nat
  vmaOutMeasured : VmaMeasured
  loss : Int
  next : NextTest
  nextUv : Nat
  commonMode : CommonModeTest
  inputBoards : Boards
  outputBoards : Boards
  inputInstrument : Instrument
  outputInstrument : Instrument
  inputExtremes : Int × Int
  outputExtremes : Int × Int
  inputDifferential : Nat → Int
  inputCommon : Nat → Int
  outputDifferential : Nat → Int
  outputCommon : Nat → Int

/-- The captures of a path, of one signal of the generator in the patterns they ask for. -/
def CableMeasured.captures (x : CableMeasured) : List Capture :=
  [x.wdpiCapture, x.wdpoCapture, x.vmaInMeasured.capture, x.vmaOutMeasured.capture, x.next.capture, x.commonMode.capture]

/-- A path of a cable within Table 37, each row under the conditions its notes name, its input and its output (46 R560 to
R564), every capture of it of 10GSFP+Cu and so at its rate, and its blocking capacitors (46 R544): `vcrC` is `P_VCR_C`. VCR
takes with the loss of a path the NEXT of the end the path arrives at; R564 does not say which end's. (DESIGN CHOICE: log
54.) -/
structure CablePathOk (vcrC : Nat) (p : CablePath) (x : CableMeasured) : Prop where
  setup : x.setup = pathSetup p
  blocking : ∀ r ∈ cableBlocking, meets r (x.blocking r) = true
  noteOne : noteOneInput x.noteOne = true
  noteNine : noteNineInput x.noteNine = true
  application : ∀ c ∈ x.captures, forCopper c.application = true
  wdpi : WdpIs .cableInput x.wdpiCapture x.wdpiSamples x.noteNine.wdpi
  wdpo : WdpIs .cableOutput x.wdpoCapture x.wdpoSamples x.wdpo
  dwdp : dwdp x.wdpo x.noteNine.wdpi ≤ 6750
  vmaIn : vmaMeasuredOk .b'' 1 x.vmaIn x.vmaInMeasured = true
  vmaOut : vmaMeasuredOk .c' 1 x.vmaOut x.vmaOutMeasured = true
  loss : vmaLossAtMost x.vmaIn x.vmaOut x.loss = true ∧ x.loss ≤ 4400
  next : nextWithin p.start.far x.next x.nextUv = true
  vcr : vcrAtLeast 300 x.nextUv vcrC x.loss 32500 = true
  commonMode : commonModeOk .c' table37 "Vcm" x.commonMode = true
  boards : boardsOk .b' x.inputBoards = true ∧ boardsOk .c' x.outputBoards = true
  references : instrumentOk .b' none x.inputInstrument = true ∧ instrumentOk .c' none x.outputInstrument = true
  singleEnded : -300 ≤ x.inputExtremes.1 ∧ x.inputExtremes.2 ≤ 4000 ∧ -300 ≤ x.outputExtremes.1 ∧ x.outputExtremes.2 ≤ 4000
  reflection : ∀ f, moduleDifferential f (x.inputDifferential f) = true ∧ cableCommonMode f (x.inputCommon f) = true ∧
    moduleDifferential f (x.outputDifferential f) = true ∧ cableCommonMode f (x.outputCommon f) = true

/-- A cable complies on both paths, its ends reversed for the second (46 R560, R561, R563). -/
def CableOk (vcrC : Nat) (x : CablePath → CableMeasured) : Prop := ∀ p, CablePathOk vcrC p (x p)

/-! ### Supply currents, power and pull resistors -/

/-- What a module draws, sampled every µs from hot plug or from the STOP that enables a level: the current in mA through each
inductor of Figure 56, and the total power in mW (41_power_and_esd.md R235 to R237). -/
structure SupplyProfile where
  vccT : List Nat
  vccR : List Nat
  power : List Nat

/-- Table 8 and Figure 11 on both supplies, each allowed its current (41 R236 note 3), of a record that goes beyond the 500
ms. -/
def supplyProfileOk (l : PowerLevel) (x : SupplyProfile) : Bool :=
  decide (500001 < x.power.length) && decide (x.vccT.length = x.power.length) && decide (x.vccR.length = x.power.length) &&
    currentProfileOk l x.vccT x.power && currentProfileOk l x.vccR x.power

/-- A module within Table 8 (41 R231, R234 to R237): from hot plug, and then at Level I, and from the enabling of every level
it can use (`P_POWER_LEVEL`), and then at that level. -/
def supplyOk (c : Params) (x : PowerLevel → SupplyProfile) : Bool :=
  [PowerLevel.one, .two, .three].all fun l => !decide (levelMin l c.powerLevel = l) || supplyProfileOk l (x l)

/-- The pull resistors of a module in Ω, and whether contact 6 is tied to VeeT or VeeR (40_low_speed_control.md R182). -/
structure ModulePulls where
  txDisable : Nat
  rs0 : Nat
  rs1 : Nat
  modAbsTied : Bool
deriving DecidableEq, Repr, Inhabited

/-- A pull resistor within its row. -/
def pullOk (vccHost : Nat) (name : String) (ohm : Nat) : Bool := (rowOf (pullTable vccHost) name).any fun r => meets r ohm

/-- The module side of 40 R182. -/
def modulePullsOk (c : Params) (x : ModulePulls) : Bool :=
  pullOk c.vccHost "Tx_Disable to VccT" x.txDisable && pullOk c.vccHost "RS0, RS1 to VeeT, more than" x.rs0 &&
    pullOk c.vccHost "RS0, RS1 to VeeT, more than" x.rs1 && x.modAbsTied

/-- The pull-ups of a host: how Tx_Fault and Rx_LOS are terminated; the resistor on Mod_ABS in Ω, if there is one; the bus;
the highest voltage in mV its board puts on each contact by number. -/
structure HostPulls where
  txFault : Termination
  rxLos : Termination
  modAbs : Option Nat
  bus : HostBus
  voltage : Nat → Int

/-- The host side of 40 R182 and 43 R351, on supplies within their limits (10_state.md R46), with a module's VccT and VccR in
mV. -/
def HostPulls.Ok (c : Params) (vccT vccR : Int) (x : HostPulls) : Prop :=
  hostSupplyOk c = true ∧ StatusTerminated c.vccHost x.txFault x.rxLos ∧
    (∀ ohm, x.modAbs = some ohm → pullOk c.vccHost "Mod_ABS to Vcc_Host" ohm = true) ∧ x.bus.Ok c.vccHost2w ∧
    hostVoltagesOk vccT vccR x.voltage = true

/-! ### All electrical specifications (00_scope.md R9; 41_power_and_esd.md R247) -/

/-- What a module is made for: the linear application of its rows, the rows of Table 1 whose standards it supports, the tests
it is tested with for each of them, at least the required ones (`testsRequired`), and `P_VCR_C`. -/
structure ModuleKind where
  app : LinearApp
  supported : List Application
  required : Application → List (RnCase × Tp3Condition)
  vcrC : Nat

/-- The contacts of the SFI pairs of a module: RD-, RD+, TD+, TD- (10_state.md R31). -/
def sfiContacts : List Nat := [12, 13, 18, 19]

/-- Blocking capacitors or equivalent on all SFI inputs and outputs of a module (42_sfi_high_speed.md R280). Of a passive
cable's inputs the capacitors at the far end's outputs (46_direct_attach_copper.md R544) count as the equivalent. (DESIGN
CHOICE: log 54.) -/
def blockingOk (blocked : Nat → Bool) : Bool := sfiContacts.all blocked

/-- Everything that is measured of a module: its port, which of its contacts by number DC does not pass, its pull resistors,
what it draws from hot plug (Level I) and from the enabling of a level, its transmitter, its limiting or linear receiver, the
paths of a cable, its noise at point X in each operating mode. -/
structure ModuleMeasured where
  port : PortMeasured
  blocked : Nat → Bool
  pulls : ModulePulls
  supply : PowerLevel → SupplyProfile
  transmitted : ModuleTransmitterTest → List Int
  limiting : ModuleReceiverTest → ModuleReceiverResult
  linear : Application → Int → List LinearRun
  cable : CablePath → CableMeasured
  noise : Nat → ℝ → ℝ

/-- All electrical specifications of a module at one VccT in mV: Table 8's currents and power and the pull resistors among
them (41 R235 to R237; 40 R182), and the blocking of its SFI pairs (42 R280). It supports a
standard of the lane's rate. (DESIGN CHOICE: log 54.) -/
def ModuleMeets (c : Params) (k : ModuleKind) (vccT : Int) (m : ModuleMeasured) : Prop :=
  ModuleElectrical c k.app vccT m.port ∧ modulePullsOk c m.pulls = true ∧ supplyOk c m.supply = true ∧ ModuleNoiseOk m.noise ∧
    (usesSfi c = true → blockingOk m.blocked = true) ∧
    (usesSfi c = true → c.passiveCable = true → CableOk k.vcrC m.cable) ∧
    (usesSfi c = true → c.passiveCable = false →
      (∃ a ∈ k.supported, a.rate = c.rate) ∧ ModuleTransmitterOk k.supported m.transmitted ∧
        match c.rxKind with
        | .limiting => LimitingModuleOk c k.supported m.limiting
        | .linear => LinearModuleOk k.supported k.required m.linear)

/-- A module over the range of supplies (00_scope.md R9). -/
def ModuleOverSupply (c : Params) (k : ModuleKind) (m : Int → Int → ModuleMeasured) : Prop :=
  OverSupply fun vccT vccR => ModuleMeets c k vccT (m vccT vccR)

/-- The noise tolerance of a module: all of its electrical specifications are met in every run with the tone
(41_power_and_esd.md R247, R261). -/
def ModuleToneTolerant (c : Params) (k : ModuleKind) (asked : List ToneParameter) (outcome : ToneRun → ToneOutcome)
    (m : ToneRun → ModuleMeasured) : Prop :=
  ToneTolerant asked outcome fun r => ModuleMeets c k r.vccT.setPoint (m r)

/-- What a host is made for: the linear application of its rows, the applications of its limiting test, whether it supports
the direct attach copper option, its power level and the number of its ports. -/
structure HostKind where
  app : LinearApp
  applications : List HostApplication
  copper : Bool
  supports : PowerLevel
  ports : Nat

/-- Everything that is measured of a host: its port and its pull-ups; errors and bits of the receiver tests, the copper
option's over the outcomes of its noises, and its output for copper; its output's jitter and which signals its input takes at
1.25 GBd; its noise at the connector. -/
structure HostMeasured (Ω : Type) where
  port : PortMeasured
  pulls : HostPulls
  limiting : HostApplication → TestSystem → LimitingTest → Nat × Nat
  linear : TestSystem → LinearTest → Nat × Nat
  copperOutput : CopperOutput
  copper : CopperBench → CopperSignal → (Ω → List ℝ) → Nat × Nat
  oneGigOutput : Nat → List Int
  oneGigTakes : OneGigInput → Bool
  noise : HostNoiseSetup → ℝ → ℝ

/-- All electrical specifications of a host at one VccT and one VccR in mV: its receiver is tested for the modules it
supports, in one application at least (DESIGN CHOICE: log 54), at 1.25 GBd with signals within the mask at C (00_scope.md R9;
47 R596). -/
def HostMeets {Ω : Type} [MeasurableSpace Ω] (P : MeasureTheory.Measure Ω) (c : Params) (k : HostKind)
    (vccT vccR : Int) (m : HostMeasured Ω) : Prop :=
  HostElectrical c k.app vccT m.pulls.bus m.port ∧ m.pulls.Ok c vccT vccR ∧ HostNoiseCompliant k.supports k.ports m.noise ∧
    (usesOneGig c = true → OneGigHostOk c m.oneGigOutput m.oneGigTakes) ∧
    (usesSfi c = true →
      (c.hostSupports ≠ .linear → k.applications ≠ [] ∧ ∀ a ∈ k.applications, LimitingHostOk a (m.limiting a)) ∧
      (c.hostSupports ≠ .limiting → LinearHostOk m.linear) ∧
      (k.copper = true →
        CopperHostOk P m.linear m.copper ∧ m.copperOutput.Ok m.port.value ∧
          ∀ r ∈ copperOutputRows c ++ copperHostRows c, meets r (m.port.value r) = true))

/-- A host over the range of supplies (00_scope.md R9). -/
def HostOverSupply {Ω : Type} [MeasurableSpace Ω] (P : MeasureTheory.Measure Ω) (c : Params) (k : HostKind)
    (m : Int → Int → HostMeasured Ω) : Prop :=
  OverSupply fun vccT vccR => HostMeets P c k vccT vccR (m vccT vccR)

end Sys2Proof.Machine
end

