-- ==== Sys2Proof/Safety.lean ====
section
/-! DEFINITION. What counts as a safe run: the obligations of the host that the model can see broken
(70_reset_and_hazards.md R685), what a host may conclude from Tx_Fault (R671), and what holds in every state a run
reaches. -/

namespace Sys2Proof.Machine

/-- Obligations of R685 that a script can break, by row. -/
inductive Hazard where
  /-- row 1: START inside tBUF -/
  | busFreeTime
  /-- row 2: a transaction while a write cycle may be running -/
  | writeCycle
  /-- row 4: a write that ends in a START, or in a STOP inside a word -/
  | unterminatedWrite
  /-- row 5: more than eight data words -/
  | ninthWord
  /-- row 6: a read that ends otherwise than after a word answered by NACK -/
  | lastWordAcked
  /-- row 8: a host that does not wait while the module may hold SCL low -/
  | stretchIgnored
  /-- row 10: fSCL above 400 kHz -/
  | clockRate
  /-- row 11: bus access before the interface must be ready -/
  | notReady
  /-- row 13: Tx_Disable pulsed for less than t_reset -/
  | shortReset
  /-- row 20: the rails more than 100 ms apart -/
  | railSkew
  /-- 60_exceptions.md R641: clocking while SCL or SDA is held low -/
  | heldLine
deriving DecidableEq, Repr, Inhabited

/-- Whether an operation is the acknowledge poll (43_two_wire_operations.md R376). -/
def isPoll (i : Instr) : Bool :=
  match i with
  | .ackPoll _ _ => true
  | _ => false

/-- What a host breaks that goes on with the bus now, if the module may be starting up or in a write cycle as far as the
host knows: tWR of the write it ended last, or t_2w_start_up, has not passed and no word has been acknowledged since (43
R354, R366; 70_reset_and_hazards.md R674). -/
def deafHazard (s : State) : List Hazard :=
  match s.bus.deafTill with
  | some t =>
    if s.clk.now < t then
      (if s.bus.deafWrite then [.writeCycle] else [.notReady])
    else []
  | none => []

/-- Whether a symbol is a single SCL pulse. -/
def isPulse (y : Sym) : Bool :=
  match y with
  | .pulse _ => true
  | _ => false

/-- The words of the open transaction since its latest START, those clocked by single pulses among them. -/
def wordsSoFar (s : State) : Nat :=
  let l := s.host.frame.reverse.takeWhile fun y => decide (y ≠ .start)
  wordsOf l + (l.filter isPulse).length / 9

/-- A word, or a pulse of one, after the first word of a transaction is more than a poll. -/
def pastPoll (s : State) (l : List Sym) : Bool :=
  (decide (0 < wordsOf l) || l.any isPulse) && decide (0 < wordsSoFar s)

/-- Whether an outcome is a given refusal. -/
def refusedWith (r : Refusal) (o : Host.Outcome State Fault Refusal) : Bool :=
  match o with
  | .refused q => decide (q = r)
  | .next _ => false
  | .fault _ => false

/-- Whether a negation of Tx_Disable now would end a pulse shorter than t_reset over a latched fault. -/
def shortPulse (s : State) : Bool :=
  decide (s.host.txDisable = .high) && s.slot.powered && s.tx.latch && decide (s.clk.now < s.tx.riseAt + Config.tReset)

/-- Whether a START now would end a write, or a STOP now would not be its proper STOP, inside a word (row 4;
60_exceptions.md R636). -/
def openWrite (start : Bool) (s : State) : Bool :=
  decide (s.bus.state = .writeData) && (start && decide (s.bus.wbuf ≠ []) || decide (s.bus.nbits ≠ 0))

/-- Whether a read is broken off before a word of it was answered by NACK: the module sends, or awaits the acknowledge bit
(row 6). -/
def openRead (s : State) : Bool := decide (s.bus.phase = .send) || decide (s.bus.phase = .ackIn)

/-- What a START or STOP breaks where it cuts a transaction short: a write without its proper STOP (row 4), a read whose
last word was acknowledged, not clocked to its end, or not answered yet (row 6). The management reset is the remedy, not a
break (20_memory.md R98). -/
def cutShort (start : Bool) (s : State) : List Hazard :=
  (if openWrite start s then [.unterminatedWrite] else []) ++ (if openRead s then [.lastWordAcked] else [])

/-- Whether a line begins with a START: a frame, or a control, which is one. -/
def opensFrame (l : List Sym) : Bool :=
  match l with
  | .start :: _ => true
  | .control _ :: _ => true
  | _ => false

/-- Whether a symbol is a whole transaction. -/
def isWhole (y : Sym) : Bool :=
  match y with
  | .mgmt => true
  | .control _ => true
  | _ => false

/-- The obligations symbols that use the bus break from where they start: row 8 and 60_exceptions.md R641. -/
def busHazards (s : State) (l : List Sym) : List Hazard :=
  if l.any usesBus then
    (if sclHeld s || s.out.sdaHeld then [.heldLine] else [])
      ++ (if mayStretch s && !s.host.honours then [.stretchIgnored] else [])
  else []

/-- The obligations one symbol breaks where it is played. -/
def symHazards (s : State) (y : Sym) : List Hazard :=
  busHazards s [y]
    ++ (if pastPoll s [y] || isWhole y then deafHazard s else [])
    ++ (if decide (y = .start) && !busFree s then [.busFreeTime] else [])
    ++ (if opensFrame [y] then cutShort true s else if y = .stop then cutShort false s else [])
    ++ (if refusedWith .writeOverrun (runSym y s) then [.ninthWord] else [])
    ++ (if refusedWith .clockTooFast (runSym y s) then [.clockRate] else [])
    ++ (if decide (y = .contact .txDisable .low) && shortPulse s then [.shortReset] else [])
    ++ (if refusedWith .railSkew (runSym y s) || railLate s then [.railSkew] else [])

/-- The obligations a line breaks, symbol after symbol, as `runSyms` plays them. -/
def playHazards : List Sym → State → List Hazard
  | [], _ => []
  | y :: l, s =>
    symHazards s y ++
      match runSym y s with
      | .next t => playHazards l (settle (track [y] t))
      | .fault _ => []
      | .refused _ => []

/-- The obligations a line breaks in a state. A frame of the table keeps tBUF itself. -/
def hazards (s : State) (l : List Sym) : List Hazard :=
  match decode l with
  | .ok i =>
    busHazards s l
      ++ (if l.any usesBus && !isPoll i && (decide (wordsOf l ≠ 1) || pastPoll s l) then
          deafHazard (if opensFrame l || decide (i = .mgmtReset) then awaitFree s else s)
        else [])
      ++ (if opensFrame l then cutShort true s else [])
      ++ (if decide (i = .txDisableNegate) && shortPulse s then [.shortReset] else [])
      ++ (if refusedWith .writeOverrun (exec i s) then [.ninthWord] else [])
      ++ (if refusedWith .railSkew (exec i s) || railLate s then [.railSkew] else [])
  | .error _ => playHazards l s

/-- A host that keeps its obligations on a line. -/
def obeys (s : State) (l : List Sym) : Bool := decide (hazards s l = [])

/-- What a host may conclude about Tx_Fault (70_reset_and_hazards.md R671): a fault, once the level has stayed high
beyond the start-up time that applies. R671's words have "after t_start_up" and "beyond t_start_up_cooled", its pseudocode
"at" both; the model takes the instant t_start_up itself for a non-cooled module, and only instants beyond t_start_up_cooled
for a cooled one. (DESIGN CHOICE: log 61.) -/
def mayAssumeFault (cooled : Bool) (elapsed : Nat) (wire : Level) : Bool :=
  decide (wire = .high) &&
    (if cooled then decide (Config.tStartUpCooled < elapsed) else decide (Config.tStartUp ≤ elapsed))

/-- Whether one power level is within another. -/
def levelWithin (a b : PowerLevel) : Bool := decide (levelMin a b = a)

/-- What holds in every state a run from reset reaches, and is kept by every step: memory is canonical; at most eight
words are held; `fault_latched` has the latch set, and a set latch stands in `fault_latched` or, armed for its reset
(40_low_speed_control.md R162), in `disabled`, with no start-up or t_on running; the output is on only in `operating`; an
unpowered module has lost what is volatile; power is there only with both rails and the power contacts; the power level is
within the module's. -/
def Inv (s : State) : Prop :=
  Memory.wf s.cfg.init s.mem = true ∧
  s.bus.wbuf.length ≤ 8 ∧
  (s.tx.state = .faultLatched → s.tx.latch = true) ∧
  (s.tx.latch = true → (s.tx.state = .faultLatched ∨ s.tx.state = .disabled) ∧ s.tx.due = none) ∧
  (s.tx.outputOn = true → s.tx.state = .operating) ∧
  (s.slot.powered = false → s.tx.state = .offUnpowered ∧ s.slot.ready = false ∧ s.lvl.level = .one) ∧
  (s.slot.powered = true → supplied s = true ∧ s.tx.state ≠ .offUnpowered) ∧
  levelWithin s.lvl.level s.cfg.powerLevel = true ∧
  levelWithin s.lvl.next s.cfg.powerLevel = true

/-! ### The terms statements use -/

/-- The byte memory fixes at a key, if it fixes one: every statement about memory reads it here. -/
def readByte (s : State) (k : Nat) : Option Byte := Memory.read s.cfg.init s.mem k

/-- The module hears the bus and takes every word; nothing holds SDA or SCL low; the host waits for SCL, as it must
(43_two_wire_operations.md R366). -/
def calm (s : State) : Prop :=
  listening s = true ∧ s.out.sdaHeld = false ∧ s.cfg.mayNackBusy = false ∧ s.bus.stretching = false ∧
    s.host.honours = true ∧ s.out.sclHeld = false

/-- A frame can begin: the bus is calm, SDA is high, and no write is open that START would abort. -/
def frameReady (s : State) : Prop :=
  calm s ∧ s.bus.sda = .high ∧ (s.bus.state = .writeData → s.bus.wbuf = [])

/-- A word slot can begin, with the module about to take a word in state `st`. -/
def wordReady (s : State) (st : BusState) : Prop :=
  calm s ∧ s.bus.state = st ∧ s.bus.phase = .recv ∧ s.bus.nbits = 0 ∧ s.bus.sda = .high

/-- The module does not hear the bus, and SDA and SCL are free. -/
def deaf (s : State) : Prop :=
  listening s = false ∧ s.out.sdaHeld = false ∧ s.bus.stretching = false ∧
    (s.slot.mated = .all → s.bus.sda = .high) ∧ s.out.sclHeld = false

/-- Nothing but the bus engine, the write cycle, the clock and what the host has seen differs: parameters, environment,
presence and power, receiver, rate, every byte of memory, the levels the host drives, the pending script. -/
def sameAround (s t : State) : Prop :=
  t.cfg = s.cfg ∧ t.out = s.out ∧ t.slot = s.slot ∧ t.rcv = s.rcv ∧ t.rate = s.rate ∧ t.script = s.script ∧
  (∀ k, readByte t k = readByte s k) ∧ t.host = { s.host with inFrame := t.host.inFrame } ∧
  t.seen.wires = s.seen.wires ∧ t.bus.stretching = s.bus.stretching

/-- The transmitter and the power level are as before. -/
def sameControls (s t : State) : Prop := t.tx = s.tx ∧ t.lvl = s.lvl

/-- The fields a byte shows beside memory's bits: byte and bits of each (10_state.md R37, R48; 40_low_speed_control.md
R176). -/
def shownPlaces (c : Params) : List (Nat × Byte) :=
  ([asModeField, c.levelField, c.cooledField].map fun f => (memKey f.space f.addr, f.mask)) ++
    (memKey c.powerField.space c.powerField.addr, c.powerField.mask) ::
      (([c.softTxField, c.softRs0Field, c.softRs1Field] ++ c.losField.toList).map fun f => (memKey f.space f.addr, f.mask))

/-- No two of them share a bit: where two do, a byte cannot show both. -/
def placesApart (c : Params) : Prop := (shownPlaces c).Pairwise fun p q => p.1 = q.1 → p.2 &&& q.2 = 0

/-- The bits of a byte that are not memory's. -/
def shownMask (c : Params) (sp : Space) (a : Byte) : Byte :=
  ((shownPlaces c).filter fun p => decide (p.1 = memKey sp a)).foldr (fun p m => p.2 ||| m) 0

/-- The one-bit fields a byte shows, with the value of each: the fixed bits (notes/assumptions/25.md), the software controls
(17.md) and Rx_LOS where it is stated, never set in a passive cable (51.md). -/
def shownFields (s : State) : List (Field × Bool) :=
  [(asModeField, s.cfg.asMode), (s.cfg.levelField, decide (s.cfg.powerLevel ≠ .one)), (s.cfg.cooledField, s.cfg.cooled),
    (s.cfg.softTxField, s.tx.soft), (s.cfg.softRs0Field, s.rate.soft0.toBool), (s.cfg.softRs1Field, s.rate.soft1.toBool)] ++
    if s.cfg.passiveCable || s.rcv.known then
      s.cfg.losField.toList.map fun f => (f, !s.cfg.passiveCable && s.rcv.los)
    else []

/-- What a read takes from an address. A byte that is not live has memory's bits wherever no field lies, all of them where it
is memory and nothing else and memory fixes it. Where no two fields share a bit, each one-bit field of the byte says what the
machine holds of it, and so does the power level enable, live byte or not. -/
def shows (s : State) (sp : Space) (a v : Byte) : Prop :=
  (∀ w, isPlain s.cfg sp a = true → readByte s (memKey sp a) = some w → v = w) ∧
  (∀ w, s.cfg.volatile.contains (memKey sp a) = false → readByte s (memKey sp a) = some w →
    v &&& ~~~shownMask s.cfg sp a = w &&& ~~~shownMask s.cfg sp a) ∧
  (placesApart s.cfg →
    (∀ p ∈ shownFields s, memKey p.1.space p.1.addr = memKey sp a →
      v &&& p.1.mask = (if p.2 then p.1.on else ~~~p.1.on) &&& p.1.mask) ∧
    (memKey s.cfg.powerField.space s.cfg.powerField.addr = memKey sp a →
      v &&& s.cfg.powerField.mask =
        (match s.lvl.next with
         | .one => s.cfg.powerField.codeI
         | .two => s.cfg.powerField.codeII
         | .three => s.cfg.powerField.codeIII) &&& s.cfg.powerField.mask))

/-- What an assertion of Tx_Disable at `now` makes of a transmitter `x` (40_low_speed_control.md R162): disabled, from whatever
state it was in, with its light, on or on its way back, below 10% within t_off; what ran ends, and nothing else changes. -/
def asserted (now : Nat) (x y : TxUnit) : Prop :=
  y = { x with state := y.state, outputOn := false, due := none, offDue := y.offDue, riseAt := now } ∧
  (x.state ≠ .offUnpowered → y.state = .disabled) ∧
  (x.outputOn = true ∨ returning x = true → ∃ d, y.offDue = some d ∧ now ≤ d ∧ d ≤ now + Config.tOff) ∧
  (x.outputOn = false → returning x = false → y.offDue = x.offDue)

/-- Light comes back within t_on of `now` (40_low_speed_control.md R163). -/
def returnsBy (now : Nat) (y : TxUnit) : Prop :=
  y.state = .disabled ∧ ∃ d, y.due = some d ∧ now ≤ d ∧ d ≤ now + Config.tOn

/-- A start-up of at most t_init from `now` (70_reset_and_hazards.md R671, R672; 60_exceptions.md R626), in which a fault
present at `now` is latched within Tx_Fault_on of it (60_exceptions.md R646 item 4), or at the instant `f` it was to be latched
at before. -/
def startsBy (s : State) (now : Nat) (f : Option Nat) (y : TxUnit) : Prop :=
  y.state = .initializing ∧ y.latch = false ∧ y.outputOn = false ∧ y.initDone = false ∧
  (∃ d, y.due = some d ∧ now ≤ d ∧ d ≤ now + tInit s.cfg) ∧
  (s.out.faultCond = true → s.cfg.txFaultImpl = true →
    ∃ d, y.faultDue = some d ∧ (some d = f ∨ now ≤ d ∧ d ≤ now + if s.cfg.cooled then 500000 else 10000))

/-- What a negation of Tx_Disable at `now` makes of a transmitter `x` (40_low_speed_control.md R163; 60_exceptions.md R622,
R626, R646 item 4; 70_reset_and_hazards.md R672). With no fault latched or detected: t_on in normal operation, a fault left to
the negation (93_implementation_defined.md U11) latched within Tx_Fault_on, and the first start-up otherwise. A latched or a
detected fault: a start-up after a pulse of at least t_reset, after a shorter one that or the fault as it was (U6). -/
def negated (s : State) (now : Nat) (x y : TxUnit) : Prop :=
  (y.fallAt = now ∧ y.soft = x.soft ∧ y.riseAt = x.riseAt ∧ y.faultAt = x.faultAt) ∧
  (x.state = .disabled → x.latch = false → x.faultDue = none →
    (x.initDone = true →
      returnsBy now y ∧ y.latch = false ∧ y.initDone = true ∧ y.outputOn = x.outputOn ∧ y.offDue = x.offDue ∧
      if s.out.faultCond && s.cfg.txFaultImpl && !s.cfg.latchWhenDisabled then
        ∃ d, y.faultDue = some d ∧ now ≤ d ∧ d ≤ now + if s.cfg.cooled then 500000 else 10000
      else y.faultDue = none) ∧
    (x.initDone = false → startsBy s now none y)) ∧
  (x.state = .disabled → x.latch = false → ∀ f, x.faultDue = some f →
    (x.riseAt + Config.tReset ≤ now → startsBy s now none y) ∧
    (startsBy s now (some f) y ∨ x.initDone = true ∧ returnsBy now y ∧ y.faultDue = some f)) ∧
  (x.latch = true → x.riseAt + Config.tReset ≤ now → startsBy s now none y) ∧
  (x.latch = true → x.state = .faultLatched ∨ x.state = .disabled →
    startsBy s now none y ∨ y = { x with state := .faultLatched, fallAt := now }) ∧
  (x.latch = false → x.faultDue = none → x.state = .operating ∨ x.state = .initializing → y = { x with fallAt := now })

/-- The words a write of `ds` from address `a` brings (20_memory.md R86, R87). -/
def wordsAt : Byte → List Byte → List (Byte × Byte)
  | _, [] => []
  | a, d :: ds => (a, d) :: wordsAt (a + 1) ds

/-- No word of a write lands on the Software Tx disable or the power level enable. -/
def missesControls (c : Params) (sp : Space) (ws : List (Byte × Byte)) : Prop :=
  ∀ w ∈ ws, memKey sp w.1 ≠ memKey c.softTxField.space c.softTxField.addr ∧
    memKey sp w.1 ≠ memKey c.powerField.space c.powerField.addr

/-- The operations that are frames of words. -/
def isFrame (i : Instr) : Bool :=
  match i with
  | .currentRead _ | .randomRead _ _ | .seqReadCurrent _ _ | .seqReadRandom _ _ _ | .byteWrite _ _ _
  | .ackPoll _ _ => true
  | .seqWrite _ _ ds => decide (ds.length ≤ 8)
  | .deviceAddressWord _ _ | .dataWordAddress _ | .dataWord _ | .mgmtReset | .txDisableAssert | .txDisableNegate
  | .txFaultReset _ | .rs0Set _ | .rs1Set _ | .powerOn | .powerOff | .insert | .remove | .powerLevelEnable _
  | .powerLevelDisable | .softTxDisable _ | .softRateSelect _ _ => false

/-- Where the engine can stand between two steps (10_state.md R42): a module that neither acknowledges nor sends leaves
SDA high, and a word in flight has fewer than eight bits. -/
def EngineShape (s : State) : Prop :=
  (s.bus.phase = .off → s.bus.sda = .high) ∧
  (s.bus.phase = .recv → s.bus.sda = .high ∧ s.bus.nbits ≤ 7) ∧
  (s.bus.phase = .send → s.bus.nbits ≤ 7) ∧
  (s.bus.phase = .ackIn → s.bus.sda = .high)

/-- The Software Tx disable and the power level enable lie in different bytes, every one-bit control has a bit, two software
rate selects in one byte have different bits, and the three power level codes differ (10_state.md R37: places are
parameters). Other controls may share a byte. -/
def controlsApart (c : Params) : Prop :=
  memKey c.softTxField.space c.softTxField.addr ≠ memKey c.powerField.space c.powerField.addr ∧
  c.softTxField.mask ≠ 0 ∧ c.softRs0Field.mask ≠ 0 ∧ c.softRs1Field.mask ≠ 0 ∧
  (memKey c.softRs0Field.space c.softRs0Field.addr = memKey c.softRs1Field.space c.softRs1Field.addr →
    c.softRs0Field.mask &&& c.softRs1Field.mask = 0) ∧
  c.powerField.codeI &&& c.powerField.mask ≠ c.powerField.codeII &&& c.powerField.mask ∧
  c.powerField.codeI &&& c.powerField.mask ≠ c.powerField.codeIII &&& c.powerField.mask ∧
  c.powerField.codeII &&& c.powerField.mask ≠ c.powerField.codeIII &&& c.powerField.mask

/-- A step that ended without hanging the bus, dropping a write or overrunning one. -/
def cleanStep (s t : State) : Bool :=
  decide (t.raised = s.raised) ||
    (t.raised.drop s.raised.length).all fun c =>
      match c with
      | .hungBus => false
      | .abortedWrite => false
      | .writeOverrun => false
      | .txFault => true
      | .rxLos => true
      | .modAbsent => true
      | .noAcknowledge => true

end Sys2Proof.Machine
end

