-- ==== Sys2Proof/Certificates/Slice0/Obligations.lean ====
section
/-! DEFINITION. The statements about the model. Each docstring names the rules a statement formalises or rests on. Free
values are never relied on: a statement about one holds for every value of it. -/

section

open Sys2Proof Sys2Proof.Machine

/-! ### Decoding and the step -/

/-- A step runs the operation its line is, keeps the line in the host's record of an open transaction, then lets the
module's timers run; a table row's words placed by `withFetchWord` are that line. That a program is a list of lines is the
model's choice (notes/assumptions/1.md, 6.md, 36.md). -/
def Obligations.StepRunsDecoded : Prop :=
  (∀ (s : State) (l : List Sym) (rest : List Entry) (i : Instr), s.script = .host l :: rest → decode l = .ok i →
    step s = andThen (exec i { s with script := rest }) fun t => .next (settle (track l t))) ∧
  ∀ (s : State) (nbits w : Nat) (i : Instr), decodeTableWord nbits w = some i →
    step (s.withFetchWord nbits w) = andThen (exec i s) fun t => .next (settle (track (layout nbits w) t))

/-- Words written out from 30_encoding.md R122 to R126, and the operations they are. -/
def Obligations.DecodeSamples : Prop :=
  decode [.start, .dev 0b10100001#8, .read false, .stop] = .ok (.currentRead .a0) ∧
  decode [.start, .dev 0b10100010#8, .addr 0x60#8, .start, .dev 0b10100011#8, .read false, .stop]
    = .ok (.randomRead .a2 0x60#8) ∧
  decode [.start, .dev 0b10100011#8, .read true, .read true, .read false, .stop] = .ok (.seqReadCurrent .a2 3) ∧
  decode [.start, .dev 0b10100000#8, .addr 0xFF#8, .start, .dev 0b10100001#8, .read true, .read false, .stop]
    = .ok (.seqReadRandom .a0 0xFF#8 2) ∧
  decode [.start, .dev 0b10100010#8, .addr 0x80#8, .data 0x55#8, .stop] = .ok (.byteWrite .a2 0x80#8 0x55#8) ∧
  decode [.start, .dev 0b10100010#8, .addr 0x80#8, .data 1#8, .data 2#8, .stop]
    = .ok (.seqWrite .a2 0x80#8 [1#8, 2#8]) ∧
  decode [.start, .dev 0b10100000#8, .stop] = .ok (.ackPoll .a0 ⟨.write, .stop⟩) ∧
  decode [.start, .dev 0b10100010#8, .start] = .ok (.ackPoll .a2 ⟨.write, .repeatedStart⟩) ∧
  decode [.dev 0b10100011#8] = .ok (.deviceAddressWord .a2 .read) ∧
  decode [.start, .dev 0b10100100#8, .stop] = .error (.foreignAddress 0b10100100#8)

/-- Decoding the encoding of a well-formed operation gives it back (30_encoding.md R122 to R129). -/
def Obligations.DecodeEncode : Prop := ∀ i : Instr, i.wf = true → decode (encode i) = .ok i

/-- Whatever line of symbols the decoder reads as an operation has operands in the ranges of 30_encoding.md R126 and
41_power_and_esd.md R240. -/
def Obligations.DecodedIsWellFormed : Prop := ∀ (l : List Sym) (i : Instr), decode l = .ok i → i.wf = true

/-- A frame of the bus has one spelling: a line that begins with START and is read as an operation is that operation's
encoding (30_encoding.md R126, R127). -/
def Obligations.FrameHasOneSpelling : Prop :=
  ∀ (l : List Sym) (i : Instr), decode (.start :: l) = .ok i → encode i = .start :: l

/-! ### Reset and invariants -/

/-- What 10_state.md R50 states of the machine after power-up with Tx_Disable high or open (70_reset_and_hazards.md R672):
bus idle, nothing buffered, no write cycle, latch clear, transmitter disabled and its output off, Level I, interface not
ready, memory as the map gives it. That the machine's reset is this power-up, with Tx_Disable open and RS0 and RS1 low, is
the model's choice (notes/assumptions/2.md, 15.md). -/
def Obligations.ResetState : Prop :=
  State.reset.bus.state = .idle ∧ State.reset.bus.wbuf = [] ∧ State.reset.wr.busy = false ∧
  State.reset.tx.latch = false ∧ State.reset.tx.outputOn = false ∧ State.reset.lvl.level = .one ∧
  State.reset.slot.ready = false ∧ State.reset.slot.readyDue ≤ Config.t2wStartUp ∧
  modAbsWire State.reset = .low ∧ txDisableIn State.reset = .high ∧ rs0In State.reset = .low ∧
  rs1In State.reset = .low ∧ (State.reset.cfg.passiveCable = false → State.reset.tx.state = .disabled) ∧
  ∀ k, readByte State.reset k = Memory.unlisted State.reset.cfg.init k

/-- The invariant holds right after reset. -/
def Obligations.ResetInv : Prop := Inv State.reset

/-- Every step keeps the invariant: memory canonical, at most eight words held, the latch set in `fault_latched` and
otherwise only armed in `disabled` (40_low_speed_control.md R162), the output on only in `operating` (10_state.md R33),
volatile state lost without power (41_power_and_esd.md R239), power only with both rails and the power contacts (10_state.md
R30), the power level within the module's. -/
def Obligations.InvStep : Prop := ∀ s t : State, Inv s → step s = .next t → Inv t

/-- Every step keeps the shape of the bus engine: a module that neither acknowledges nor sends leaves SDA high
(10_state.md R22, R42). The engine's bit-level fields are the model's refinement (notes/assumptions/7.md). -/
def Obligations.EngineShapeStep : Prop := ∀ s t : State, EngineShape s → step s = .next t → EngineShape t

/-- The shape of the bus engine after reset (notes/assumptions/7.md). -/
def Obligations.ResetEngineShape : Prop := EngineShape State.reset

/-! ### Words -/

/-- DEVICE_ADDRESS_WORD after START (30_encoding.md R122): acknowledged, the space selected, a write word leads to the
data word address and a read word to the first data word; no counter moves (20_memory.md R88). What the byte of a read word
shows is as in CURRENT_READ (notes/assumptions/17.md, 25.md, 51.md). -/
def Obligations.DeviceAddressWord : Prop :=
  ∀ (s : State) (sp : Space) (r : Dir), wordReady s .gotStart →
    ∃ t, exec (.deviceAddressWord sp r) s = .next t ∧
      t.bus.sel = sp ∧
      t.bus.state = (match r with | .write => .expectAddr | .read => .addressedRead) ∧
      t.seen.acks = s.seen.acks ++ [true] ∧ t.seen.rx = s.seen.rx ∧
      (∀ q, ctrOf t.bus q = ctrOf s.bus q) ∧ t.bus.wbuf = s.bus.wbuf ∧
      (r = .write → wordReady t .expectAddr) ∧
      (r = .read → shows s sp (ctrOf s.bus sp) t.bus.shift) ∧
      s.clk.now + 9 * s.host.sclPeriod ≤ t.clk.now ∧
      sameAround s t ∧ sameControls s t ∧ t.wr = s.wr ∧ t.host = s.host ∧ t.raised = s.raised

/-- DATA_WORD_ADDRESS (30_encoding.md R123; 20_memory.md R85): acknowledged, `ctr[s]` takes the address itself, not one
more, and the other counter stays. -/
def Obligations.DataWordAddress : Prop :=
  ∀ (s : State) (a : Byte), wordReady s .expectAddr →
    ∃ t, exec (.dataWordAddress a) s = .next t ∧
      ctrOf t.bus s.bus.sel = a ∧ (∀ q, q ≠ s.bus.sel → ctrOf t.bus q = ctrOf s.bus q) ∧
      t.bus.sel = s.bus.sel ∧ t.bus.wbuf = [] ∧ wordReady t .writeData ∧
      t.seen.acks = s.seen.acks ++ [true] ∧ t.seen.rx = s.seen.rx ∧
      s.clk.now + 9 * s.host.sclPeriod ≤ t.clk.now ∧
      sameAround s t ∧ sameControls s t ∧ t.wr = s.wr ∧ t.host = s.host ∧ t.raised = s.raised

/-- DATA_WORD of a write (30_encoding.md R124; 20_memory.md R86): acknowledged, kept with the counter's address, the
counter goes on by one modulo 256; a ninth word is refused (60_exceptions.md R637). -/
def Obligations.DataWord : Prop :=
  ∀ (s : State) (d : Byte), wordReady s .writeData →
    (s.bus.wbuf.length < 8 →
      ∃ t, exec (.dataWord d) s = .next t ∧
        t.bus.wbuf = s.bus.wbuf ++ [(ctrOf s.bus s.bus.sel, d)] ∧
        ctrOf t.bus s.bus.sel = ctrOf s.bus s.bus.sel + 1 ∧
        (∀ q, q ≠ s.bus.sel → ctrOf t.bus q = ctrOf s.bus q) ∧
        t.bus.sel = s.bus.sel ∧ wordReady t .writeData ∧
        t.seen.acks = s.seen.acks ++ [true] ∧ t.seen.rx = s.seen.rx ∧
        s.clk.now + 9 * s.host.sclPeriod ≤ t.clk.now ∧
        sameAround s t ∧ sameControls s t ∧ t.wr = s.wr ∧ t.host = s.host ∧ t.raised = s.raised) ∧
    (8 ≤ s.bus.wbuf.length → exec (.dataWord d) s = .refused .writeOverrun)

/-- A device address word that is not the module's (30_encoding.md R128; 20_memory.md R102): not acknowledged, and nothing
but the engine's state changes; it waits for the next START. -/
def Obligations.ForeignWordIgnored : Prop :=
  ∀ (s : State) (w : Byte), wordReady s .gotStart → w &&& 0xFC#8 ≠ 0xA0#8 →
    ∃ t, runSym (.dev w) s = .next t ∧
      t.bus.state = .ignoring ∧ t.bus.phase = .off ∧ t.bus.sda = .high ∧
      t.seen.acks = s.seen.acks ++ [false] ∧ t.raised = s.raised ++ [.noAcknowledge] ∧
      (∀ q, ctrOf t.bus q = ctrOf s.bus q) ∧ t.bus.wbuf = s.bus.wbuf ∧
      sameAround s t ∧ sameControls s t ∧ t.wr = s.wr ∧ t.host = s.host

/-! ### Frames -/

/-- CURRENT_READ (43_two_wire_operations.md R370): one byte, from the counter; the counter goes on by one, the other stays;
nothing else of the module changes. A byte shows memory, and where a control or a fixed bit lies that (10_state.md R37, R48):
the controls as the machine holds them (notes/assumptions/17.md), cooled status, the power level declaration and the SFF-8079
declaration, A0h byte 93 bit 2, as the parameters say (notes/assumptions/25.md), Rx_LOS as it is stated
(notes/assumptions/51.md), which are the model's choices. -/
def Obligations.CurrentRead : Prop :=
  ∀ (s : State) (sp : Space), frameReady s →
    ∃ t v, exec (.currentRead sp) s = .next t ∧
      t.seen.rx = (openFrame s).seen.rx ++ [v] ∧ shows s sp (ctrOf s.bus sp) v ∧
      t.seen.acks = (openFrame s).seen.acks ++ [true, false] ∧
      ctrOf t.bus sp = ctrOf s.bus sp + 1 ∧ (∀ q, q ≠ sp → ctrOf t.bus q = ctrOf s.bus q) ∧
      t.bus.state = .idle ∧ t.bus.wbuf = [] ∧ t.host.inFrame = false ∧
      s.clk.now + 18 * s.host.sclPeriod ≤ t.clk.now ∧
      sameAround s t ∧ sameControls s t ∧ t.wr = s.wr ∧ t.raised = s.raised

/-- RANDOM_READ (43_two_wire_operations.md R371): one byte, from address a; afterwards `ctr[s]` is a + 1 and no write cycle
follows. What the byte shows is as in CURRENT_READ (notes/assumptions/17.md, 25.md, 51.md). -/
def Obligations.RandomRead : Prop :=
  ∀ (s : State) (sp : Space) (a : Byte), frameReady s →
    ∃ t v, exec (.randomRead sp a) s = .next t ∧
      t.seen.rx = (openFrame s).seen.rx ++ [v] ∧ shows s sp a v ∧
      t.seen.acks = (openFrame s).seen.acks ++ [true, true, true, false] ∧
      ctrOf t.bus sp = a + 1 ∧ (∀ q, q ≠ sp → ctrOf t.bus q = ctrOf s.bus q) ∧
      t.bus.state = .idle ∧ t.bus.wbuf = [] ∧ t.host.inFrame = false ∧
      s.clk.now + 36 * s.host.sclPeriod ≤ t.clk.now ∧
      sameAround s t ∧ sameControls s t ∧ t.wr = s.wr ∧ t.raised = s.raised

/-- SEQ_READ_CURRENT (43_two_wire_operations.md R372): n bytes from the counter on, rolling over at 256; the counter
advances by n modulo 256. What each byte shows is as in CURRENT_READ (notes/assumptions/17.md, 25.md, 51.md). -/
def Obligations.SequentialReadCurrent : Prop :=
  ∀ (s : State) (sp : Space) (n : Nat), frameReady s → 1 ≤ n →
    ∃ t vs, exec (.seqReadCurrent sp n) s = .next t ∧
      t.seen.rx = (openFrame s).seen.rx ++ vs ∧ vs.length = n ∧
      (∀ (i : Nat) (v : Byte), vs[i]? = some v → shows s sp (ctrOf s.bus sp + BitVec.ofNat 8 i) v) ∧
      t.seen.acks = (openFrame s).seen.acks ++ [true] ++ List.replicate (n - 1) true ++ [false] ∧
      ctrOf t.bus sp = ctrOf s.bus sp + BitVec.ofNat 8 n ∧ (∀ q, q ≠ sp → ctrOf t.bus q = ctrOf s.bus q) ∧
      t.bus.state = .idle ∧ t.bus.wbuf = [] ∧ t.host.inFrame = false ∧
      s.clk.now + (1 + n) * 9 * s.host.sclPeriod ≤ t.clk.now ∧
      sameAround s t ∧ sameControls s t ∧ t.wr = s.wr ∧ t.raised = s.raised

/-- SEQ_READ_RANDOM (43_two_wire_operations.md R373): n bytes from address a on; afterwards `ctr[s]` is (a + n) modulo
256. What each byte shows is as in CURRENT_READ (notes/assumptions/17.md, 25.md, 51.md). -/
def Obligations.SequentialReadRandom : Prop :=
  ∀ (s : State) (sp : Space) (a : Byte) (n : Nat), frameReady s → 1 ≤ n →
    ∃ t vs, exec (.seqReadRandom sp a n) s = .next t ∧
      t.seen.rx = (openFrame s).seen.rx ++ vs ∧ vs.length = n ∧
      (∀ (i : Nat) (v : Byte), vs[i]? = some v → shows s sp (a + BitVec.ofNat 8 i) v) ∧
      t.seen.acks = (openFrame s).seen.acks ++ [true, true, true] ++ List.replicate (n - 1) true ++ [false] ∧
      ctrOf t.bus sp = a + BitVec.ofNat 8 n ∧ (∀ q, q ≠ sp → ctrOf t.bus q = ctrOf s.bus q) ∧
      t.bus.state = .idle ∧ t.bus.wbuf = [] ∧ t.host.inFrame = false ∧
      s.clk.now + (3 + n) * 9 * s.host.sclPeriod ≤ t.clk.now ∧
      sameAround s t ∧ sameControls s t ∧ t.wr = s.wr ∧ t.raised = s.raised

/-- BYTE_WRITE (43_two_wire_operations.md R374): acknowledged, `ctr[s]` is a + 1, the write cycle begins and ends within
40 ms; memory does not change before that, nothing but a control the byte is has changed. -/
def Obligations.ByteWrite : Prop :=
  ∀ (s : State) (sp : Space) (a d : Byte), frameReady s →
    ∃ t, exec (.byteWrite sp a d) s = .next t ∧
      t.seen.acks = (openFrame s).seen.acks ++ [true, true, true] ∧ t.seen.rx = (openFrame s).seen.rx ∧
      ctrOf t.bus sp = a + 1 ∧ (∀ q, q ≠ sp → ctrOf t.bus q = ctrOf s.bus q) ∧
      t.bus.state = .idle ∧ t.bus.wbuf = [(a, d)] ∧ t.host.inFrame = false ∧
      t.wr.busy = true ∧ t.wr.space = sp ∧ t.wr.startAt ≤ t.wr.due ∧ t.wr.due ≤ t.wr.startAt + Config.tWr4 ∧
      t.wr.startAt = t.clk.now ∧ t.wr.cycles = s.wr.cycles + 1 ∧
      s.clk.now + 27 * s.host.sclPeriod ≤ t.clk.now ∧
      sameAround s t ∧ t.raised = s.raised ∧
      (missesControls s.cfg sp [(a, d)] → sameControls s t)

/-- SEQ_WRITE (43_two_wire_operations.md R375): two to eight words, each acknowledged and kept with its address, rolling
over at 256; the write cycle ends within 40 ms up to four words and 80 ms from five on; a ninth word is refused
(60_exceptions.md R637). -/
def Obligations.SequentialWrite : Prop :=
  (∀ (s : State) (sp : Space) (a : Byte) (ds : List Byte), frameReady s → ds ≠ [] → ds.length ≤ 8 →
    ∃ t, exec (.seqWrite sp a ds) s = .next t ∧
      t.seen.acks = (openFrame s).seen.acks ++ [true, true] ++ List.replicate ds.length true ∧
      t.seen.rx = (openFrame s).seen.rx ∧
      ctrOf t.bus sp = a + BitVec.ofNat 8 ds.length ∧ (∀ q, q ≠ sp → ctrOf t.bus q = ctrOf s.bus q) ∧
      t.bus.state = .idle ∧ t.bus.wbuf = wordsAt a ds ∧ t.host.inFrame = false ∧
      t.wr.busy = true ∧ t.wr.space = sp ∧ t.wr.startAt ≤ t.wr.due ∧
      t.wr.due ≤ t.wr.startAt + (if ds.length ≤ 4 then Config.tWr4 else Config.tWr8) ∧
      t.wr.startAt = t.clk.now ∧ t.wr.cycles = s.wr.cycles + 1 ∧
      s.clk.now + (2 + ds.length) * 9 * s.host.sclPeriod ≤ t.clk.now ∧
      sameAround s t ∧ t.raised = s.raised ∧
      (missesControls s.cfg sp (wordsAt a ds) → sameControls s t)) ∧
  ∀ (s : State) (sp : Space) (a : Byte) (ds : List Byte), 8 < ds.length →
    exec (.seqWrite sp a ds) s = .refused .writeOverrun

/-- ACK_POLL (43_two_wire_operations.md R376) of a ready module: acknowledged; after a write word nothing of the module
changes, after a read word one data word is clocked out and the counter goes on by one; the poll ends with STOP, the
engine idle, or with a repeated START, the engine awaiting a device address word (30_encoding.md R126). That the host
clocks exactly one word is the model's choice (notes/assumptions/9.md); what its byte shows is as in CURRENT_READ
(notes/assumptions/17.md, 25.md, 51.md). -/
def Obligations.AckPoll : Prop :=
  ∀ (s : State) (sp : Space) (r : Dir) (e : PollEnd), frameReady s →
    ∃ t, exec (.ackPoll sp ⟨r, e⟩) s = .next t ∧
      (r = .write → t.seen.acks = (openFrame s).seen.acks ++ [true] ∧ t.seen.rx = (openFrame s).seen.rx ∧
        ∀ q, ctrOf t.bus q = ctrOf s.bus q) ∧
      (r = .read → t.seen.acks = (openFrame s).seen.acks ++ [true, false] ∧ ctrOf t.bus sp = ctrOf s.bus sp + 1 ∧
        (∃ v, t.seen.rx = (openFrame s).seen.rx ++ [v] ∧ shows s sp (ctrOf s.bus sp) v) ∧
        ∀ q, q ≠ sp → ctrOf t.bus q = ctrOf s.bus q) ∧
      (e = .stop → t.bus.state = .idle ∧ t.host.inFrame = false) ∧
      (e = .repeatedStart → wordReady t .gotStart ∧ t.host.inFrame = true) ∧
      t.bus.wbuf = [] ∧ sameAround s t ∧ sameControls s t ∧ t.wr = s.wr ∧ t.raised = s.raised

/-- A word operation while the engine is in no transaction or waits for START or STOP (10_state.md R42), or while the module
does not hear the bus: not acknowledged, and nothing of the module changes. The record of conditions is the model's
(notes/assumptions/46.md). -/
def Obligations.WordNotTaken : Prop :=
  ∀ (s : State) (i : Instr),
    (match i with | .deviceAddressWord _ _ | .dataWordAddress _ | .dataWord _ => True | _ => False) →
    (deaf s ∨ calm s ∧ s.bus.phase = .off ∧ s.bus.sda = .high ∧ s.bus.state ≠ .writeData) →
    ∃ t, exec i s = .next t ∧
      t.seen.acks = s.seen.acks ++ [false] ∧ t.seen.rx = s.seen.rx ∧ t.raised = s.raised ++ [.noAcknowledge] ∧
      t.bus = { s.bus with hold := t.bus.hold, heldAt := t.bus.heldAt } ∧ t.host = s.host ∧
      sameAround s t ∧ sameControls s t ∧ t.wr = s.wr

/-- A frame to a module that is absent, unpowered, not ready or in its write cycle at its START (60_exceptions.md R635 (a)
to (c); 20_memory.md R93): the device address word is not acknowledged, the host ends the frame (a poll as it says), and
nothing of the module has changed: no counter, nothing buffered. A frame begins with the host's wait for tBUF: where
neither a write cycle ends nor the interface becomes ready in it, only time has passed, and where one does, the frame
meets the module as it then is. A poll that ends in a repeated START waits tBUF again, and the module must stay deaf until
then. That the host sends STOP at once, and that of the module's times only those of its 2-wire interface run in the
wait for tBUF, a fault, a rate, a level or an Rx_LOS due in it taking effect after the operation, are the model's choices
(notes/assumptions/8.md, 6.md). -/
def Obligations.DeafFrameHasNoEffect : Prop :=
  (∀ (s : State) (i : Instr), isFrame i = true → sclHeld s = false → exec i s = exec i (awaitFree s)) ∧
  (∀ s : State, (s.wr.busy = true → (awaitFree s).clk.now < s.wr.due) →
    (s.slot.powered = true → s.slot.ready = false → (awaitFree s).clk.now < s.slot.readyDue) →
    awaitFree s = { s with clk := { s.clk with now := (awaitFree s).clk.now } }) ∧
  ∀ (s w : State) (i : Instr), awaitFree s = w → deaf w → isFrame i = true →
    ((∃ sp r, i = .ackPoll sp ⟨r, .repeatedStart⟩) → ∀ d,
      d = w.clk.now + Config.tSuSta + Config.tHdSta + 9 * w.host.sclPeriod + Config.tBuf →
      (w.wr.busy = true → d < w.wr.due) ∧ (w.slot.powered = true → w.slot.ready = false → d < w.slot.readyDue)) →
    ∃ t, exec i s = .next t ∧
      t.seen.acks = (openFrame s).seen.acks ++ [false] ∧ t.seen.rx = (openFrame s).seen.rx ∧
      t.raised = s.raised ++ [.noAcknowledge] ∧
      t.host.inFrame = (match i with | .ackPoll _ ⟨_, .repeatedStart⟩ => true | _ => false) ∧
      t.bus = { w.bus with hold := t.bus.hold, freeAt := t.bus.freeAt } ∧
      sameAround w t ∧ sameControls w t ∧ t.wr = w.wr

/-! ### Broken transactions -/

/-- START before the STOP of a write (60_exceptions.md R636; 20_memory.md R89): the data are dropped, `AbortedWrite` is
raised, no write cycle begins, memory stays, the counter is as `P_ABORT_CTR` says, and the engine awaits a device address
word. -/
def Obligations.AbortedWrite : Prop :=
  ∀ s : State, calm s → s.bus.state = .writeData → s.bus.wbuf ≠ [] → s.bus.sda = .high → busFree s = true →
    ∃ t, runSym .start s = .next t ∧ wordReady t .gotStart ∧ t.bus.wbuf = [] ∧
      t.raised = s.raised ++ [.abortedWrite] ∧
      (s.cfg.abortCtr = .keepIncremented → ∀ q, ctrOf t.bus q = ctrOf s.bus q) ∧
      (s.cfg.abortCtr = .restoreLoaded →
        ctrOf t.bus s.bus.sel = s.bus.loaded ∧ ∀ q, q ≠ s.bus.sel → ctrOf t.bus q = ctrOf s.bus q) ∧
      sameAround s t ∧ sameControls s t ∧ t.wr = s.wr

/-- STOP inside a word of a write is no proper STOP (60_exceptions.md R636): the write is dropped the same way and the
engine goes idle. -/
def Obligations.StopInsideWordAborts : Prop :=
  ∀ s : State, calm s → s.bus.state = .writeData → s.bus.wbuf ≠ [] → s.bus.nbits ≠ 0 → s.bus.sda = .high →
    ∃ t, runSym .stop s = .next t ∧ t.bus.state = .idle ∧ t.bus.phase = .off ∧ t.bus.wbuf = [] ∧
      t.raised = s.raised ++ [.abortedWrite] ∧
      (s.cfg.abortCtr = .keepIncremented → ∀ q, ctrOf t.bus q = ctrOf s.bus q) ∧
      (s.cfg.abortCtr = .restoreLoaded →
        ctrOf t.bus s.bus.sel = s.bus.loaded ∧ ∀ q, q ≠ s.bus.sel → ctrOf t.bus q = ctrOf s.bus q) ∧
      sameAround s t ∧ sameControls s t ∧ t.wr = s.wr

/-- STOP after a data word address and no data word (30_encoding.md R128; 43_two_wire_operations.md R378): the counter
keeps the address, memory stays; whether the module is busy is open, and if it is, for at most 40 ms. Inside the first data
word the same holds: 95_test_vectors.md V40 makes the busy time a draw there too. That 60_exceptions.md R636 ("no write cycle
is started") does not bind that case, that no endurance cycle is counted although the module may be busy, and that bits of a
word not yet whole are dropped without `AbortedWrite` are the model's choices (notes/assumptions/26.md, 29.md). -/
def Obligations.AddressOnlyWrite : Prop :=
  ∀ s : State, calm s → s.bus.state = .writeData → s.bus.wbuf = [] → s.bus.sda = .high →
    ∃ t, runSym .stop s = .next t ∧ t.bus.state = .idle ∧ t.bus.wbuf = [] ∧
      (∀ q, ctrOf t.bus q = ctrOf s.bus q) ∧
      (t.wr.busy = true → t.clk.now ≤ t.wr.due ∧ t.wr.due ≤ t.clk.now + Config.tWr4) ∧
      t.wr.cycles = s.wr.cycles ∧ t.raised = s.raised ∧ sameAround s t ∧ sameControls s t

/-- SDA held low keeps the host from making START and STOP (60_exceptions.md R641): nothing but `HungBus` comes of
them. That it is raised at once and for whoever holds SDA is the model's reading (notes/assumptions/33.md); that a STOP the
module's own low bit makes impossible clocks no pulse, and leaves engine and clock where they are, its choice
(notes/assumptions/34.md). -/
def Obligations.HeldSdaHangsBus : Prop :=
  ∀ s : State, sclHeld s = false → sdaLine .high s = .low →
    runSym .start s = .next (raise .hungBus s) ∧ runSym .stop s = .next (raise .hungBus s)

/-- SCL held low (60_exceptions.md R620 HungBus, R641 (b)): every operation that needs an SCL pulse gets nowhere and raises
`HungBus`; where the module holds it, T_clock_hold has then run and the module is marked faulty, where another device does,
nothing else changes. A write of more than
eight words, or a management reset that would clock the last bit of a ninth, is no such operation: the first is refused
before, the second hangs too. That the host waits for T_clock_hold and then gives up is the model's reading
(notes/assumptions/33.md). -/
def Obligations.HeldClockSticks : Prop :=
  ∀ (s : State) (i : Instr), sclHeld s = true →
    (isFrame i = true ∨ (∃ sp r, i = .deviceAddressWord sp r) ∨ (∃ a, i = .dataWordAddress a) ∨ (∃ d, i = .dataWord d) ∨
      i = .mgmtReset ∨ (∃ l, i = .powerLevelEnable l) ∨ i = .powerLevelDisable ∨
      (∃ v, i = .softTxDisable v) ∨ (∃ x y, i = .softRateSelect x y) ∨ i = .txFaultReset .software) →
    (moduleHolds s = true →
      exec i s =
        .next
          { s with
            clk := { s.clk with now := max s.clk.now (s.bus.heldAt + Config.tClockHold) }
            slot := { s.slot with stuck := true }
            raised := s.raised ++ [.hungBus] }) ∧
    (moduleHolds s = false → exec i s = .next { s with raised := s.raised ++ [.hungBus] })

/-- MGMT_RESET (43_two_wire_operations.md R377; 20_memory.md R98): from wherever the engine stands, at most nine pulses and
START bring it to await a device address word, with nothing buffered; transmitter, rate, level, memory and write cycle are
untouched. From a word being sent or acknowledged the selected counter goes on by at most one; with no word in flight, or
one of which fewer than seven bits are in, no counter moves. Clocking the last bit of a ninth data word is refused. That the
counters are not restored where a write is dropped so, and where START falls, are the model's reading
(notes/assumptions/35.md). -/
def Obligations.ManagementReset : Prop :=
  ∀ s : State, calm s → EngineShape s →
    (overrun s = true ∧ s.bus.nbits = 7 → exec .mgmtReset s = .refused .writeOverrun) ∧
    (¬(overrun s = true ∧ s.bus.nbits = 7) →
      ∃ t, exec .mgmtReset s = .next t ∧ wordReady t .gotStart ∧ t.bus.wbuf = [] ∧ t.host.inFrame = true ∧
        ((s.bus.phase = .send ∨ s.bus.phase = .ackOut) →
          ∀ q, ctrOf t.bus q = ctrOf s.bus q ∨ q = s.bus.sel ∧ ctrOf t.bus q = ctrOf s.bus q + 1) ∧
        ((s.bus.phase = .off ∨ s.bus.phase = .ackIn ∨ (s.bus.phase = .recv ∧ s.bus.nbits < 7)) →
          ∀ q, ctrOf t.bus q = ctrOf s.bus q) ∧
        sameAround s t ∧ sameControls s t ∧ t.wr = s.wr)

/-! ### Memory and the write cycle -/

/-- A read after a write gives the byte written at its address, and what it gave before at every other
(20_memory.md R96). -/
def Obligations.MemoryReadWrite : Prop :=
  ∀ (init : List (Nat × Byte)) (m : List Host.Cell) (k j : Nat) (v : Byte),
    Memory.read init (Memory.write init k v m) j = if j = k then some v else Memory.read init m j

/-- A write keeps the canonical form of memory, so that equal memories are equal lists: a property of the model's own
representation (notes/assumptions/24.md) of the spaces of 10_state.md R41. -/
def Obligations.MemoryStaysCanonical : Prop :=
  ∀ (init : List (Nat × Byte)) (m : List Host.Cell) (k : Nat) (v : Byte), k < 512 → Memory.wf init m = true →
    Memory.wf init (Memory.write init k v m) = true

/-- The end of the write cycle (20_memory.md R93): the words reach the writable bytes of their space together, every other
byte stays, and the module, mated, powered and not marked faulty, answers again. That the bytes of the software controls are
writable whatever `P_WRITABLE` says is the model's reading of 10_state.md R48 (notes/assumptions/43.md), and which module is
marked faulty that of R641 (notes/assumptions/33.md). -/
def Obligations.WriteCommits : Prop :=
  ∀ s : State, s.slot.ready = true → s.wr.busy = true → s.wr.due ≤ s.clk.now →
    (settle s).wr.busy = false ∧ (settle s).bus.wbuf = [] ∧
    (s.slot.mated = .all → s.slot.powered = true → s.slot.stuck = false → listening (settle s) = true) ∧
    (∀ a v, isWritable s.cfg s.wr.space a = true → s.bus.wbuf.reverse.lookup a = some v →
      readByte (settle s) (memKey s.wr.space a) = some v) ∧
    ∀ (sp : Space) (a : Byte),
      (sp ≠ s.wr.space ∨ isWritable s.cfg sp a = false ∨ ∀ w ∈ s.bus.wbuf, w.1 ≠ a) →
      readByte (settle s) (memKey sp a) = readByte s (memKey sp a)

/-- Until the write cycle ends, time changes no byte, and the module stays deaf (20_memory.md R93, R96). -/
def Obligations.WriteCycleRuns : Prop :=
  ∀ s : State, s.slot.ready = true → s.wr.busy = true → s.clk.now < s.wr.due →
    (settle s).wr = s.wr ∧ (settle s).bus = s.bus ∧ listening (settle s) = false ∧
    ∀ k, readByte (settle s) k = readByte s k

/-- The roll-over is from the last byte of a space to its first, and never into the other space (20_memory.md R87). -/
def Obligations.CounterRollsOver : Prop :=
  ∀ (b : Bus) (sp : Space),
    (ctrOf (stepCtr sp b) sp).toNat = ((ctrOf b sp).toNat + 1) % 256 ∧
    ∀ q, q ≠ sp → ctrOf (stepCtr sp b) q = ctrOf b q

/-- A byte written, and read after its write cycle, is the byte written (20_memory.md R96, R97). -/
def Obligations.WriteThenRead : Prop :=
  ∀ (s : State) (sp : Space) (a d : Byte), frameReady s → isWritable s.cfg sp a = true →
    isPlain s.cfg sp a = true →
    ∃ t u, exec (.byteWrite sp a d) s = .next t ∧
      exec (.randomRead sp a) (waitUntil t.wr.due t) = .next u ∧ u.seen.rx = [d]

/-! ### The transmitter -/

/-- TX_DISABLE_ASSERT (40_low_speed_control.md R162): in a powered module that is not a passive cable the transmitter is
disabled, from whatever state it was in, and its light, on or on its way back, is below 10% within t_off; a latched fault
stays latched, armed for its reset; the start-up or t_on that ran ends; of the transmitter only `tx_state`, the output,
its two timers and the instant of the edge change; outside it only the contact. Asserting what is asserted changes nothing
in the module. That the state changes at the edge and the light within t_off, and that light on its way back has the whole
t_off, is the model's reading (notes/assumptions/10.md). That a contact that rises while the Software Tx disable is
asserted is no edge, so that t_since_txdis_rise stays, is the model's choice (notes/assumptions/55.md), and that a passive
cable has no transmitter to disable its reading (notes/assumptions/38.md). -/
def Obligations.TxDisableAssert : Prop :=
  ∀ s : State,
    (s.slot.powered = true → s.cfg.passiveCable = false → txOff s = false →
      ∃ t, exec .txDisableAssert s = .next t ∧
        t = { s with host := { s.host with txDisable := .high }, tx := t.tx, clk := { s.clk with drawn := t.clk.drawn } } ∧
        asserted s.clk.now s.tx t.tx) ∧
    ((s.cfg.passiveCable = true ∨ s.slot.powered = false ∨ txOff s = true) →
      exec .txDisableAssert s = .next { s with host := { s.host with txDisable := .high } })

/-- TX_DISABLE_NEGATE (40_low_speed_control.md R163; 60_exceptions.md R626): in normal operation light returns within
t_on; the first negation after power-on, and the end of a pulse of at least t_reset over a latched fault, start an
initialisation of at most t_init instead, and in either a fault present at the edge is latched within Tx_Fault_on of it (R646
item 4; notes/assumptions/39.md); a shorter pulse may leave the fault latched (93_implementation_defined.md U6). A fault left
to the negation in normal operation is latched within Tx_Fault_on of it too (U11; notes/assumptions/12.md). How
`tx_state` stands between an edge and its bound is the model's reading (notes/assumptions/10.md, 11.md). A fault detected
but not yet latched is answered as a latched one, and stays pending where the pulse is no reset (notes/assumptions/39.md).
Where the contact is low already, the software still says disable, or the module has no transmitter or no power, nothing
changes in the module: that the negation of one of two combined signals is no edge is the model's choice
(notes/assumptions/55.md), that a passive cable has no transmitter its reading (notes/assumptions/38.md). -/
def Obligations.TxDisableNegate : Prop :=
  ∀ s : State,
    (s.slot.mated = .all → s.slot.powered = true → s.cfg.passiveCable = false → s.host.txDisable = .high →
      (s.cfg.txDisCombine = .or → s.tx.soft = false) →
      ∃ t, exec .txDisableNegate s = .next t ∧
        t = { s with host := { s.host with txDisable := .low }, tx := t.tx, clk := { s.clk with drawn := t.clk.drawn } } ∧
        negated s s.clk.now s.tx t.tx) ∧
    ((s.cfg.passiveCable = true ∨ s.slot.powered = false ∨ txOff s = false ∨
        txOff { s with host := { s.host with txDisable := .low } } = true) →
      exec .txDisableNegate s = .next { s with host := { s.host with txDisable := .low } })

/-- The end of t_on or of an initialisation (70_reset_and_hazards.md R671; 60_exceptions.md R626, R627): operating, output
on, unless an implemented safety circuit still sees the fault at the end of an initialisation: then latched again. -/
def Obligations.TransmitterStarts : Prop :=
  ∀ (s : State) (d : Nat), s.tx.due = some d → d ≤ s.clk.now → s.tx.faultDue = none →
    ((s.tx.state = .disabled ∨ s.tx.state = .initializing ∧ (s.out.faultCond && s.cfg.txFaultImpl) = false) →
      (settle s).tx.state = .operating ∧ (settle s).tx.outputOn = true ∧ (settle s).tx.initDone = true ∧
      (settle s).tx.latch = s.tx.latch) ∧
    (s.tx.state = .initializing → s.out.faultCond = true → s.cfg.txFaultImpl = true →
      (settle s).tx.state = .faultLatched ∧ (settle s).tx.latch = true ∧ (settle s).tx.outputOn = false ∧
      ∃ l, (settle s).raised = s.raised ++ .txFault :: l)

/-- A fault condition that arises in a powered module with the safety circuit, operating or initialising, will reach the
latch within Tx_Fault_on, 1 ms or 50 ms cooled (60_exceptions.md R622); until then only the condition itself has changed,
and a condition that goes and comes again in that time keeps the first bound. The t_on window after a negation counts as
operating (notes/assumptions/12.md). While the transmitter is disabled after its start-up, whether the condition is
detected at once or only at the next negation, within the same time of it, is open (93_implementation_defined.md U11): a
parameter of the model, whose default is the first (notes/assumptions/12.md). -/
def Obligations.FaultDetected : Prop :=
  (∀ s : State, s.slot.powered = true → s.cfg.txFaultImpl = true → s.tx.latch = false → s.out.faultCond = false →
    (s.tx.faultDue = none →
      (s.tx.state = .operating ∨ s.tx.state = .initializing ∨
        s.tx.state = .disabled ∧ (returning s.tx = true ∨ s.tx.initDone = true ∧ s.cfg.latchWhenDisabled = true)) →
      ∃ d, runEvent (.fault true) s =
          { s with
            out := { s.out with faultCond := true }
            tx := { s.tx with faultAt := s.clk.now, faultDue := some d }
            clk := { s.clk with drawn := s.clk.drawn + 1 } } ∧
        s.clk.now ≤ d ∧ d ≤ s.clk.now + (if s.cfg.cooled then 500000 else 10000)) ∧
    (s.tx.faultDue ≠ none ∨ s.tx.state = .disabled ∧ returning s.tx = false ∧ s.cfg.latchWhenDisabled = false →
      runEvent (.fault true) s =
        { s with out := { s.out with faultCond := true }, tx := { s.tx with faultAt := s.clk.now } })) ∧
  ∀ s : State, s.slot.mated = .all → s.slot.powered = true → s.cfg.passiveCable = false → s.host.txDisable = .high →
    (s.cfg.txDisCombine = .or → s.tx.soft = false) → s.tx.state = .disabled → s.tx.initDone = true → s.tx.latch = false →
    s.tx.faultDue = none → s.cfg.txFaultImpl = true → s.cfg.latchWhenDisabled = false → s.out.faultCond = true →
    ∃ t d, exec .txDisableNegate s = .next t ∧ t.tx.faultDue = some d ∧ s.clk.now ≤ d ∧
      d ≤ s.clk.now + (if s.cfg.cooled then 500000 else 10000)

/-- Taking `TxFault` (60_exceptions.md R622, R647): the latch, the transmitter's state, its output and its timers change,
the condition is raised, the wire goes high, and nothing else of the machine changes. -/
def Obligations.FaultTaken : Prop :=
  ∀ (s : State) (d : Nat), s.slot.powered = true → s.tx.faultDue = some d → d ≤ s.clk.now → s.tx.latch = false →
    settleFault s =
      { s with
        tx := { s.tx with
          state := .faultLatched, latch := true, outputOn := false, due := none, faultDue := none, offDue := none }
        raised := s.raised ++ [.txFault] } ∧
    (s.cfg.txFaultImpl = true → txFaultWire (settleFault s) = .high) ∧
    (settle s).tx.latch = true ∧ (settle s).tx.state = .faultLatched ∧ (settle s).tx.outputOn = false

/-- The latch stays set, and `tx_state` as it is, while only time passes or the environment acts, the end of the fault
condition among it (60_exceptions.md R622). A device that moves SDA inside a write is left out: it can make the STOP at
which a Software Tx disable takes effect (30_encoding.md R128). -/
def Obligations.LatchHeld : Prop :=
  ∀ s t : State, Inv s → s.tx.latch = true →
    (s.script = [] ∨ ∃ e rest, s.script = .env e :: rest ∧ ((∃ b, e = .holdSda b) → s.bus.state ≠ .writeData)) →
    step s = .next t → t.tx.latch = true ∧ t.tx.state = s.tx.state

/-- TX_FAULT_RESET by the contact (60_exceptions.md R626): Tx_Disable high for t_reset and low again, in every state and
whatever stood on the contact before; a latched fault is cleared and an initialisation of at most t_init runs; with no fault
the pulse is an ordinary disable and enable, back within t_on. With no write cycle running, slot, receiver, rate, level, bus
and memory are what the same 10 µs leave without the pulse. That `tx_state` is still disabled after the pulse, with the light
back within t_on, is the model's reading (notes/assumptions/10.md); that the module's own timers run in the 10 µs of the
operation its choice (notes/assumptions/6.md). What the pulse does where Tx_Disable was high before, the Software Tx disable
is asserted, the module has no power or is a passive cable, only the first clause says: an assertion and a negation. -/
def Obligations.TxFaultResetByContact : Prop :=
  (∀ s : State, ∃ u, exec .txDisableAssert s = .next u ∧
    exec (.txFaultReset .contact) s = exec .txDisableNegate (waitUntil (s.clk.now + Config.tReset) u)) ∧
  ∀ s : State, s.slot.mated = .all → s.slot.powered = true → s.cfg.passiveCable = false → s.host.txDisable = .low →
    (s.cfg.txDisCombine = .or → s.tx.soft = false) →
    ∃ t, exec (.txFaultReset .contact) s = .next t ∧
      t.clk.now = s.clk.now + Config.tReset ∧ t.host = s.host ∧ t.cfg = s.cfg ∧ t.out = s.out ∧
      t.slot = (waitUntil (s.clk.now + Config.tReset) s).slot ∧
      (s.wr.busy = false →
        t.rcv = (waitUntil (s.clk.now + Config.tReset) s).rcv ∧
        t.rate = (waitUntil (s.clk.now + Config.tReset) s).rate ∧
        t.lvl = (waitUntil (s.clk.now + Config.tReset) s).lvl ∧
        t.bus = (waitUntil (s.clk.now + Config.tReset) s).bus ∧
        ∀ k, readByte t k = readByte s k) ∧
      (s.tx.latch = true → s.tx.state = .faultLatched →
        t.tx.latch = false ∧ t.tx.state = .initializing ∧ t.tx.outputOn = false ∧ t.tx.fallAt = t.clk.now ∧
        ∃ d, t.tx.due = some d ∧ t.clk.now ≤ d ∧ d ≤ t.clk.now + tInit s.cfg) ∧
      (s.tx.latch = false → s.tx.state = .operating → s.tx.initDone = true → s.tx.faultDue = none →
        t.tx.latch = false ∧ t.tx.state = .disabled ∧
        ∃ d, t.tx.due = some d ∧ t.clk.now ≤ d ∧ d ≤ t.clk.now + Config.tOn)

/-- TX_FAULT_RESET by the Software Tx disable (60_exceptions.md R626): the two writes of SOFT_TX_DISABLE, asserted and negated,
each of the byte read before it (20_memory.md R99; notes/assumptions/17.md); the latched fault is cleared and an
initialisation of at most t_init runs from the second STOP. The model takes the first write cycle to its end before the
second write (notes/assumptions/45.md). -/
def Obligations.TxFaultResetBySoftware : Prop :=
  ∀ s : State, frameReady s → controlsApart s.cfg → s.cfg.passiveCable = false → s.cfg.txDisCombine = .or →
    s.host.txDisable = .low → s.tx.soft = false → s.tx.latch = true → s.tx.state = .faultLatched →
    Config.sclPeriodMin ≤ s.host.sclPeriod →
    ∃ u t, exec (.softTxDisable true) s = .next u ∧ frameReady (awaitWrite u) ∧
      exec (.softTxDisable false) (awaitWrite u) = .next t ∧ exec (.txFaultReset .software) s = .next t ∧
      t.tx.latch = false ∧ t.tx.state = .initializing ∧ t.tx.soft = false ∧ t.tx.outputOn = false ∧
      (∃ d, t.tx.due = some d ∧ t.clk.now ≤ d ∧ d ≤ t.clk.now + tInit s.cfg) ∧
      t.wr.busy = true ∧ t.host.txDisable = .low ∧ t.slot.powered = true ∧ t.cfg = s.cfg

/-! ### Controls written over the bus -/

/-- SOFT_TX_DISABLE (60_exceptions.md R626; 40_low_speed_control.md R162, R163): a RANDOM_READ of the control's byte, and
a BYTE_WRITE of what was read with its bits set to say v (20_memory.md R99: two transactions); at its STOP the control
takes v. Where that turns the transmitter off or on (contact and software together, by `P_TXDIS_COMBINE`), it goes off within
t_off, or is negated as by the contact, from whatever state: back within t_on, or started within t_init at the first negation
and after a fault; else nothing but the control changes in it. The byte written back and the instant the control takes
effect are the model's choices (notes/assumptions/17.md, 18.md), and so is that an edge is one of contact and software
together (notes/assumptions/55.md); that `tx_state` is disabled at the STOP with the light falling within t_off, and until
t_on has ended, is its reading (notes/assumptions/10.md, 11.md), and so are what a fault detected or left does
(notes/assumptions/12.md, 39.md) and that a passive cable has no transmitter (notes/assumptions/38.md). -/
def Obligations.SoftTxDisable : Prop :=
  ∀ (s : State) (v : Bool), frameReady s → controlsApart s.cfg →
    ∃ u x t, exec (.randomRead s.cfg.softTxField.space s.cfg.softTxField.addr) s = .next u ∧
      u.seen.rx.getLast? = some x ∧
      exec (.byteWrite s.cfg.softTxField.space s.cfg.softTxField.addr (fieldPut s.cfg.softTxField v x)) u = .next t ∧
      exec (.softTxDisable v) s = .next t ∧
      t.bus.wbuf = [(s.cfg.softTxField.addr, fieldPut s.cfg.softTxField v x)] ∧
      t.wr.busy = true ∧ t.wr.space = s.cfg.softTxField.space ∧ t.wr.startAt = t.clk.now ∧
      t.wr.startAt ≤ t.wr.due ∧ t.wr.due ≤ t.wr.startAt + Config.tWr4 ∧
      t.tx.soft = v ∧ t.lvl = s.lvl ∧ sameAround s t ∧ t.raised = s.raised ∧
      (s.cfg.passiveCable = true ∨ txOff { s with tx := { s.tx with soft := v } } = txOff s →
        t.tx = { s.tx with soft := v }) ∧
      (s.cfg.passiveCable = false → txOff s = false → txOff { s with tx := { s.tx with soft := v } } = true →
        asserted t.clk.now { s.tx with soft := v } t.tx) ∧
      (s.cfg.passiveCable = false → txOff s = true → txOff { s with tx := { s.tx with soft := v } } = false →
        negated s t.clk.now { s.tx with soft := v } t.tx)

/-- SOFT_RATE_SELECT (40_low_speed_control.md R175): completes; at the end of the write cycle the software values take
effect as the contacts do: where the module uses the input and the rate asked for (contact and software combined by
`P_RS_COMBINE`) changes, the rate is stable within t_RS0 or t_RS1 of that instant (24 ms; 500 µs for FC), else no time
runs. With both selects in one byte that holds no other control, nothing but the write has happened before. In two bytes
RS0 took effect at the end of the first write cycle. Each byte is read before it is written back (20_memory.md R99). That
two bytes take two writes, RS0's byte first, the byte written back and the instant a value takes effect are the model's choices
(notes/assumptions/17.md, 18.md, 45.md); so are that a change still pending is replaced by the new instant and that the rates
stand at the old ones until their instant has come (notes/assumptions/59.md), which R172, R173 and R175 do not say. -/
def Obligations.SoftRateSelect : Prop :=
  ∀ (s : State) (x y : Level), frameReady s → controlsApart s.cfg →
    ∃ t, exec (.softRateSelect x y) s = .next t ∧ t.cfg = s.cfg ∧ t.wr.busy = true ∧ t.clk.now ≤ t.wr.due ∧
      t.wr.startAt ≤ t.wr.due ∧ t.wr.due ≤ t.wr.startAt + Config.tWr4 ∧
      (waitUntil t.wr.due t).wr.busy = false ∧
      (waitUntil t.wr.due t).rate.soft0 = x ∧ (waitUntil t.wr.due t).rate.soft1 = y ∧
      (∃ u, settleWrite { t with clk := { t.clk with now := t.wr.due } } = u ∧
        u.rate.soft0 = x ∧ u.rate.soft1 = y ∧ u.rate.rxHigh = t.rate.rxHigh ∧ u.rate.txHigh = t.rate.txHigh ∧
        (s.cfg.rs1Used = true → s.cfg.asMode = false → txWanted u ≠ txWanted t →
          u.rate.changeAt = t.wr.due ∧
          ∃ d, u.rate.due1 = some d ∧ t.wr.due ≤ d ∧ d ≤ t.wr.due + if s.cfg.fibreChannel then 5000 else 240000) ∧
        (s.cfg.rs1Used = false ∨ s.cfg.asMode = true ∨ txWanted u = txWanted t → u.rate.due1 = t.rate.due1) ∧
        (s.cfg.rs0Used = true → s.cfg.asMode = false → rxWanted u ≠ rxWanted t →
          u.rate.changeAt = t.wr.due ∧
          ∃ d, u.rate.due0 = some d ∧ t.wr.due ≤ d ∧ d ≤ t.wr.due + if s.cfg.fibreChannel then 5000 else 240000) ∧
        (s.cfg.rs0Used = false ∨ s.cfg.asMode = true ∨ rxWanted u = rxWanted t → u.rate.due0 = t.rate.due0)) ∧
      (memKey s.cfg.softRs0Field.space s.cfg.softRs0Field.addr
          = memKey s.cfg.softRs1Field.space s.cfg.softRs1Field.addr →
        t.rate = s.rate ∧
        ∃ u v, exec (.randomRead s.cfg.softRs0Field.space s.cfg.softRs0Field.addr) s = .next u ∧
          u.seen.rx.getLast? = some v ∧
          exec (.byteWrite s.cfg.softRs0Field.space s.cfg.softRs0Field.addr
            (fieldPut s.cfg.softRs1Field y.toBool (fieldPut s.cfg.softRs0Field x.toBool v))) u = .next t) ∧
      (memKey s.cfg.softRs0Field.space s.cfg.softRs0Field.addr
          ≠ memKey s.cfg.softRs1Field.space s.cfg.softRs1Field.addr →
        t.rate.soft0 = x ∧ t.rate.soft1 = s.rate.soft1 ∧
        (s.cfg.rs0Used = true → s.cfg.asMode = false → rxWanted t ≠ rxWanted s →
          s.clk.now ≤ t.rate.changeAt ∧ t.rate.changeAt ≤ t.wr.startAt ∧
          (t.rate.due0 = none ∧ t.rate.rxHigh = rxWanted t ∨
            ∃ d, t.rate.due0 = some d ∧ t.rate.changeAt ≤ d ∧
              d ≤ t.rate.changeAt + if s.cfg.fibreChannel then 5000 else 240000))) ∧
      (memKey s.cfg.softRs0Field.space s.cfg.softRs0Field.addr
          = memKey s.cfg.softRs1Field.space s.cfg.softRs1Field.addr →
        memKey s.cfg.softRs0Field.space s.cfg.softRs0Field.addr
          ≠ memKey s.cfg.softTxField.space s.cfg.softTxField.addr →
        memKey s.cfg.softRs0Field.space s.cfg.softRs0Field.addr
          ≠ memKey s.cfg.powerField.space s.cfg.powerField.addr →
        sameAround s t ∧ sameControls s t ∧ t.raised = s.raised)

/-- POWER_LEVEL_ENABLE (41_power_and_esd.md R240): a RANDOM_READ of the enable's byte, and a BYTE_WRITE of what was read
with the level's code (20_memory.md R99: two transactions); at its STOP the level becomes the smaller of the one asked for
and the module's own, full operation follows within the time of that level, and a Level I module does not change. That a
level above the module's own gives the module's own, where R240 says "no effect", is the choice of 92_eei_decisions.md
D19, which the model takes. The byte written back, the time of Level III, and that an enable written while a disable runs
ends it, are the model's choices (notes/assumptions/17.md, 19.md, 20.md). -/
def Obligations.PowerLevelEnable : Prop :=
  ∀ (s : State) (l : PowerLevel), l ≠ .one → frameReady s → controlsApart s.cfg →
    ∃ u x t, exec (.randomRead s.cfg.powerField.space s.cfg.powerField.addr) s = .next u ∧
      u.seen.rx.getLast? = some x ∧
      exec (.byteWrite s.cfg.powerField.space s.cfg.powerField.addr (powerPut s.cfg.powerField l x)) u = .next t ∧
      exec (.powerLevelEnable l) s = .next t ∧
      t.bus.wbuf = [(s.cfg.powerField.addr, powerPut s.cfg.powerField l x)] ∧
      t.wr.busy = true ∧ t.wr.space = s.cfg.powerField.space ∧ t.wr.startAt = t.clk.now ∧
      t.wr.startAt ≤ t.wr.due ∧ t.wr.due ≤ t.wr.startAt + Config.tWr4 ∧
      t.tx = s.tx ∧ sameAround s t ∧ t.raised = s.raised ∧
      (s.cfg.powerLevel = .one → t.lvl = s.lvl) ∧
      (s.cfg.powerLevel ≠ .one →
        t.lvl.level = levelMin l s.cfg.powerLevel ∧ t.lvl.next = levelMin l s.cfg.powerLevel ∧ t.lvl.settled = false ∧
        t.lvl.writeAt = some t.clk.now ∧
        ∃ d, t.lvl.due = some d ∧ t.clk.now ≤ d ∧ d ≤ t.clk.now + tEnable s.cfg (levelMin l s.cfg.powerLevel))

/-- POWER_LEVEL_DISABLE (41_power_and_esd.md R241): a RANDOM_READ of the enable's byte, and a BYTE_WRITE of what was read
with the code of Level I (20_memory.md R99: two transactions); from its STOP the module is within Level I after at most
the time of the level it had; where a disable runs already its bound stands; at Level I nothing changes. The byte written
back, and the times of Levels II and III, are as notes/assumptions/17.md, 19.md and 20.md say. -/
def Obligations.PowerLevelDisable : Prop :=
  ∀ s : State, frameReady s → controlsApart s.cfg →
    ∃ u x t, exec (.randomRead s.cfg.powerField.space s.cfg.powerField.addr) s = .next u ∧
      u.seen.rx.getLast? = some x ∧
      exec (.byteWrite s.cfg.powerField.space s.cfg.powerField.addr (powerPut s.cfg.powerField .one x)) u = .next t ∧
      exec .powerLevelDisable s = .next t ∧
      t.bus.wbuf = [(s.cfg.powerField.addr, powerPut s.cfg.powerField .one x)] ∧
      t.wr.busy = true ∧ t.wr.space = s.cfg.powerField.space ∧ t.wr.startAt = t.clk.now ∧
      t.wr.startAt ≤ t.wr.due ∧ t.wr.due ≤ t.wr.startAt + Config.tWr4 ∧
      t.tx = s.tx ∧ sameAround s t ∧ t.raised = s.raised ∧
      (s.lvl.level = .one → t.lvl = s.lvl) ∧
      (s.lvl.level ≠ .one → s.lvl.next = .one → s.lvl.due ≠ none → t.lvl = { s.lvl with writeAt := some t.clk.now }) ∧
      (s.lvl.level ≠ .one → s.lvl.next ≠ .one ∨ s.lvl.due = none →
        t.lvl.level = s.lvl.level ∧ t.lvl.next = .one ∧ t.lvl.settled = false ∧ t.lvl.writeAt = some t.clk.now ∧
        ∃ d, t.lvl.due = some d ∧ t.clk.now ≤ d ∧ d ≤ t.clk.now + tDisable s.cfg s.lvl.level)

/-- When the time of a level change has come, the level asked for is reached (41_power_and_esd.md R240, R241). -/
def Obligations.LevelReached : Prop :=
  ∀ (s : State) (d : Nat), s.slot.powered = true → s.lvl.due = some d → d ≤ s.clk.now →
    (settle s).lvl = { s.lvl with level := s.lvl.next, settled := true, due := none }

/-! ### Rate selection, signal, wires -/

/-- RS0_SET and RS1_SET (40_low_speed_control.md R172, R173): the contact takes the level; where the module uses it and the
rate asked for changes, the rate is stable within t_RS0 or t_RS1 (24 ms; 500 µs for FC); where it does not, nothing but
the contact changes. That the new instant replaces one still pending, and that the rates stand at the old ones until it has
come, are the model's choices (notes/assumptions/59.md), which R172 and R173 do not say. -/
def Obligations.RateSelectContacts : Prop :=
  ∀ (s : State) (v : Level),
    (∃ t, exec (.rs0Set v) s = .next t ∧
      t = { s with
        host := { s.host with rs0 := v }, rate := { s.rate with due0 := t.rate.due0, changeAt := t.rate.changeAt }
        clk := { s.clk with drawn := t.clk.drawn } } ∧
      (s.cfg.rs0Used = true ∧ s.cfg.asMode = false ∧ s.slot.powered = true ∧ rxWanted t ≠ rxWanted s →
        t.rate.changeAt = s.clk.now ∧
        ∃ d, t.rate.due0 = some d ∧ s.clk.now ≤ d ∧ d ≤ s.clk.now + if s.cfg.fibreChannel then 5000 else 240000) ∧
      (s.cfg.rs0Used = false ∨ s.cfg.asMode = true ∨ s.slot.powered = false ∨ rxWanted t = rxWanted s →
        t.rate = s.rate)) ∧
    ∃ t, exec (.rs1Set v) s = .next t ∧
      t = { s with
        host := { s.host with rs1 := v }, rate := { s.rate with due1 := t.rate.due1, changeAt := t.rate.changeAt }
        clk := { s.clk with drawn := t.clk.drawn } } ∧
      (s.cfg.rs1Used = true ∧ s.cfg.asMode = false ∧ s.slot.powered = true ∧ txWanted t ≠ txWanted s →
        t.rate.changeAt = s.clk.now ∧
        ∃ d, t.rate.due1 = some d ∧ s.clk.now ≤ d ∧ d ≤ s.clk.now + if s.cfg.fibreChannel then 5000 else 240000) ∧
      (s.cfg.rs1Used = false ∨ s.cfg.asMode = true ∨ s.slot.powered = false ∨ txWanted t = txWanted s →
        t.rate = s.rate)

/-- When its time has come, a rate is the one asked for (40_low_speed_control.md R172, R173). -/
def Obligations.RateReached : Prop :=
  ∀ (s : State) (d : Nat), s.wr.busy = false → d ≤ s.clk.now →
    (s.rate.due0 = some d → (settle s).rate.rxHigh = rxWanted s ∧ (settle s).rate.due0 = none) ∧
    (s.rate.due1 = some d → (settle s).rate.txHigh = txWanted s ∧ (settle s).rate.due1 = none)

/-- Loss and return of the received signal (60_exceptions.md R630, R646 item 5): the event changes the signal and starts
the receiver's time, and nothing else; Rx_LOS follows within 100 µs, and the contact shows it where it is implemented;
`RxLos` is raised where it goes from negated to asserted and is shown. That a change replaces one not yet shown is the
model's choice (notes/assumptions/50.md). The second clause also covers the end of the start-up window, where Rx_LOS becomes
known and `RxLos` is raised if there is no signal: that the window exists and ends so, and that a change inside it takes the
place of its end, is the model's choice (notes/assumptions/14.md). -/
def Obligations.LossOfSignal : Prop :=
  (∀ (s : State) (b : Bool), s.slot.powered = true → s.out.signal ≠ b →
    ∃ d, runEvent (.signal b) s =
        { s with
          out := { s.out with signal := b }, rcv := { s.rcv with due := some d, changeAt := s.clk.now }
          clk := { s.clk with drawn := s.clk.drawn + 1 } } ∧
      s.clk.now ≤ d ∧ d ≤ s.clk.now + 1000) ∧
  ∀ (s : State) (d : Nat), s.rcv.due = some d → d ≤ s.clk.now →
    (settle s).rcv = { s.rcv with los := !s.out.signal, known := true, due := none } ∧
    (s.slot.mated = .all → s.slot.powered = true → s.cfg.rxLosImpl = true → s.cfg.passiveCable = false →
      rxLosWire (settle s) = Level.ofBool (!s.out.signal)) ∧
    (s.out.signal = false → s.rcv.los = false → s.cfg.rxLosImpl = true → s.cfg.passiveCable = false →
      ∃ a b, (settle s).raised = s.raised ++ a ++ .rxLos :: b)

/-- The status wires (60_exceptions.md R621, R623, R630, R632): with no module the pull-ups show high; an unimplemented
contact is held low; Tx_Fault is high with the latch and low in normal operation; without power both are at their pulled
level (R646 item 1); Mod_ABS is low with a module in. -/
def Obligations.StatusWires : Prop :=
  ∀ s : State,
    (s.slot.mated ≠ .all → txFaultWire s = .high ∧ rxLosWire s = .high ∧
      (s.cfg.modAbsPullUp = true → modAbsWire s = .high)) ∧
    (s.slot.mated = .all → modAbsWire s = .low ∧
      (s.cfg.txFaultImpl = false → txFaultWire s = .low) ∧
      (s.cfg.txFaultImpl = true → s.slot.powered = true → s.tx.latch = true → txFaultWire s = .high) ∧
      (s.slot.powered = true → s.tx.latch = false → s.tx.state = .operating → txFaultWire s = .low) ∧
      (s.cfg.rxLosImpl = false ∨ s.cfg.passiveCable = true → rxLosWire s = .low) ∧
      (s.slot.powered = false → s.cfg.txFaultImpl = true → txFaultWire s = .high) ∧
      (s.slot.powered = false → s.cfg.rxLosImpl = true → s.cfg.passiveCable = false → rxLosWire s = .high))

/-! ### Power, mating, readiness -/

/-- POWER_ON (41_power_and_esd.md R238; 70_reset_and_hazards.md R671, R672, R674): a mated module without power gets it
now: interface ready within 300 ms, latch clear, output off, Level I, bus idle, nothing buffered, no write cycle, memory
kept; it starts to initialise with Tx_Disable low, within t_init of VccT (R671), and stays disabled with Tx_Disable high;
the software controls take their power-up parameters. Where VccT was there before and a start-up has used its rise, t_init
runs from now (40_low_speed_control.md R201). A powered module, and a slot whose power contacts are open, do not change.
Rails more than 100 ms apart at the module are refused (93_implementation_defined.md U10; notes/assumptions/22.md). -/
def Obligations.PowerOn : Prop :=
  ∀ s : State,
    (powerMated s.slot.mated = true → (∃ t0, s.host.railAt = some t0 ∧ t0 + Config.tRailSkew < s.clk.now) →
      exec .powerOn s = .refused .railSkew) ∧
    ((powerMated s.slot.mated = false ∨ ∀ t0, s.host.railAt = some t0 → s.clk.now ≤ t0 + Config.tRailSkew) →
      ∃ t, exec .powerOn s = .next t ∧ t.host = { s.host with vccT := true, vccR := true, railAt := none } ∧
        (s.slot.powered = powerMated s.slot.mated →
          t = { s with host := { s.host with vccT := true, vccR := true, railAt := none } }) ∧
        (s.slot.powered = false → powerMated s.slot.mated = true →
          t.slot.mated = s.slot.mated ∧ t.slot.powered = true ∧ t.slot.powerAt = s.clk.now ∧ t.slot.ready = false ∧
          s.clk.now ≤ t.slot.readyDue ∧ t.slot.readyDue ≤ s.clk.now + Config.t2wStartUp ∧
          t.slot.stuck = false ∧ t.tx.latch = false ∧ t.tx.outputOn = false ∧ t.tx.soft = s.cfg.softTxInit ∧
          t.rate.soft0 = s.cfg.softRs0Init ∧ t.rate.soft1 = s.cfg.softRs1Init ∧
          (s.cfg.passiveCable = false → txDisableIn s = .high → t.tx.state = .disabled) ∧
          (txDisableIn s = .low → (s.cfg.txDisCombine = .or → s.cfg.softTxInit = false) →
            t.tx.state = .initializing ∧
            ∃ d, t.tx.due = some d ∧ s.clk.now ≤ d ∧ d ≤ s.clk.now + tInit s.cfg ∧
              (s.host.vccT = true → ∀ t0, s.slot.vccTAt = some t0 → d ≤ max s.clk.now (t0 + tInit s.cfg))) ∧
          t.slot.vccTAt = none ∧
          t.lvl.level = .one ∧ t.bus.state = .idle ∧ t.bus.wbuf = [] ∧ t.bus.sda = .high ∧ t.wr.busy = false ∧
          t.wr.cycles = s.wr.cycles ∧ (∀ k, readByte t k = readByte s k) ∧ t.out = s.out ∧ t.cfg = s.cfg ∧
          t.raised = s.raised ∧ t.clk.now = s.clk.now))

/-- POWER_OFF (41_power_and_esd.md R239; 40_low_speed_control.md R166): everything volatile is lost: the software controls,
the counters, the transmitter, the receiver's and the rates' state, the power level, every timer, the bus engine and a stuck
mark; the module stays in its slot, memory keeps its bytes but for those of a write cycle cut off
(93_implementation_defined.md U8). That what is lost stands at 0, false or none until power returns is the model's choice
(notes/assumptions/53.md). -/
def Obligations.PowerOff : Prop :=
  ∀ s : State,
    ∃ t, exec .powerOff s = .next t ∧ t.host = { s.host with vccT := false, vccR := false, railAt := none } ∧
      (s.slot.powered = false → t = { s with host := { s.host with vccT := false, vccR := false, railAt := none } }) ∧
      (s.slot.powered = true →
        t.slot = { s.slot with powered := false, ready := false, stuck := false } ∧
        t.tx = { s.tx with
          state := .offUnpowered, latch := false, outputOn := false, soft := false, initDone := false
          due := none, faultDue := none, offDue := none } ∧
        t.rcv = { s.rcv with los := false, known := false, due := none } ∧
        t.rate = { s.rate with
          rxHigh := false, txHigh := false, soft0 := .low, soft1 := .low, due0 := none, due1 := none } ∧
        t.lvl = { level := .one, next := .one, settled := true, due := none, writeAt := none } ∧
        (∀ q, ctrOf t.bus q = 0) ∧ t.bus.stretching = false ∧
        t.bus.wbuf = [] ∧ t.bus.state = .idle ∧ t.bus.phase = .off ∧ t.bus.sda = .high ∧ t.wr.busy = false ∧
        t.wr.cycles = s.wr.cycles ∧ modAbsWire t = modAbsWire { s with clk := t.clk } ∧
        (s.wr.busy = false → ∀ k, readByte t k = readByte s k) ∧
        (∀ sp a, (sp ≠ s.wr.space ∨ isWritable s.cfg sp a = false ∨ ∀ w ∈ s.bus.wbuf, w.1 ≠ a) →
          readByte t (memKey sp a) = readByte s (memKey sp a)) ∧
        t.out = s.out ∧ t.cfg = s.cfg ∧ t.raised = s.raised ∧ t.clk.now = s.clk.now)

/-- INSERT (40_low_speed_control.md R165; 70_reset_and_hazards.md R673): the contacts not yet mated mate, Mod_ABS falls;
with the rails on the module is powered now and starts as after power-up, by the level on Tx_Disable, within t_init (R671)
and with the software controls at their power-up parameters; memory keeps its bytes. With one rail on, that rail is alone
at the module from the mating on, or, where the power contacts had mated before, as long as it was. A module that already
had its power keeps it and all it holds; its transmitter and its rates follow where what it reads on the control contacts
changes with their mating (R25, R26): a negation of Tx_Disable, a change of rate. Inserting what is mated changes nothing.
That the control contacts change level so is the model's reading (notes/assumptions/21.md); that its bus engine is unchanged
its choice (notes/assumptions/60.md), and so are that a lone rail counts at the module from the mating on
(notes/assumptions/22.md) and that a change of rate replaces one that is pending (notes/assumptions/59.md). -/
def Obligations.Insert : Prop :=
  ∀ s : State,
    (s.slot.mated = .all → exec .insert s = .next s) ∧
    (s.slot.mated = .power → s.slot.powered = true → s.host.vccT = true → s.host.vccR = true →
      ∃ t, exec .insert s = .next t ∧ modAbsWire t = .low ∧
        t = { s with
          slot := { s.slot with mated := .all }, host := { s.host with railAt := none }, tx := t.tx
          rate := { s.rate with due0 := t.rate.due0, due1 := t.rate.due1, changeAt := t.rate.changeAt }
          clk := { s.clk with drawn := t.clk.drawn } } ∧
        (s.cfg.passiveCable = true ∨ txOff t = true → t.tx = s.tx) ∧
        (s.cfg.passiveCable = false → txOff t = false → negated s s.clk.now s.tx t.tx) ∧
        (s.cfg.rs0Used = true ∧ s.cfg.asMode = false ∧ rxWanted t ≠ rxWanted s →
          t.rate.changeAt = s.clk.now ∧
          ∃ d, t.rate.due0 = some d ∧ s.clk.now ≤ d ∧ d ≤ s.clk.now + if s.cfg.fibreChannel then 5000 else 240000) ∧
        (s.cfg.rs0Used = false ∨ s.cfg.asMode = true ∨ rxWanted t = rxWanted s → t.rate.due0 = s.rate.due0) ∧
        (s.cfg.rs1Used = true ∧ s.cfg.asMode = false ∧ txWanted t ≠ txWanted s →
          t.rate.changeAt = s.clk.now ∧
          ∃ d, t.rate.due1 = some d ∧ s.clk.now ≤ d ∧ d ≤ s.clk.now + if s.cfg.fibreChannel then 5000 else 240000) ∧
        (s.cfg.rs1Used = false ∨ s.cfg.asMode = true ∨ txWanted t = txWanted s → t.rate.due1 = s.rate.due1)) ∧
    (s.slot.mated ≠ .all → s.slot.powered = false →
      ∃ t, exec .insert s = .next t ∧ t.slot.mated = .all ∧ modAbsWire t = .low ∧
        t.host = { s.host with railAt := t.host.railAt } ∧ (s.host.vccT = s.host.vccR → t.host.railAt = none) ∧
        (s.host.vccT ≠ s.host.vccR → s.slot.mated ≠ .power → t.host.railAt = some s.clk.now) ∧
        (s.host.vccT ≠ s.host.vccR → s.slot.mated = .power → t.host.railAt = s.host.railAt) ∧ t.out = s.out ∧
        t.cfg = s.cfg ∧ t.raised = s.raised ∧ t.clk.now = s.clk.now ∧ (∀ k, readByte t k = readByte s k) ∧
        t.wr.cycles = s.wr.cycles ∧
        ((s.host.vccT && s.host.vccR) = false →
          t = { s with
            host := { s.host with railAt := t.host.railAt }
            slot := { s.slot with mated := .all, vccTAt := t.slot.vccTAt } }) ∧
        ((s.host.vccT && s.host.vccR) = true →
          t.slot.powered = true ∧ t.slot.powerAt = s.clk.now ∧ t.slot.ready = false ∧
          t.slot.readyDue ≤ s.clk.now + Config.t2wStartUp ∧ t.tx.latch = false ∧ t.tx.outputOn = false ∧
          t.tx.soft = s.cfg.softTxInit ∧ t.rate.soft0 = s.cfg.softRs0Init ∧ t.rate.soft1 = s.cfg.softRs1Init ∧
          t.lvl.level = .one ∧ t.bus.state = .idle ∧ t.bus.wbuf = [] ∧ t.wr.busy = false ∧
          (s.cfg.passiveCable = false → s.host.txDisable = .high → t.tx.state = .disabled) ∧
          (s.host.txDisable = .low → (s.cfg.txDisCombine = .or → s.cfg.softTxInit = false) →
            t.tx.state = .initializing ∧
            ∃ d, t.tx.due = some d ∧ s.clk.now ≤ d ∧ d ≤ s.clk.now + tInit s.cfg)))

/-- REMOVE (40_low_speed_control.md R166; 60_exceptions.md R632): the module is gone with everything volatile, the
software controls among it, the wires go to their pulled levels, `ModAbsent` is raised where contact 6 opens; memory keeps
its bytes but for those of a write cycle cut off. That what is lost (the counters, the Software Tx disable, the software
rate selects) stands at 0, false and low is the model's choice (notes/assumptions/53.md), and that `ModAbsent` is recorded
also where the host fitted no pull-up, and sees no edge (notes/assumptions/46.md). -/
def Obligations.Remove : Prop :=
  ∀ s : State, ∃ t, exec .remove s = .next t ∧ t.slot.mated = .absent ∧ t.slot.powered = false ∧
    txFaultWire t = .high ∧ rxLosWire t = .high ∧ (s.cfg.modAbsPullUp = true → modAbsWire t = .high) ∧
    t.raised = s.raised ++ (if s.slot.mated = .all then [.modAbsent] else []) ∧
    (s.slot.mated = .absent → s.slot.powered = false → t = { s with host := { s.host with railAt := none } }) ∧
    (s.slot.powered = true →
      t.tx.state = .offUnpowered ∧ t.tx.latch = false ∧ t.tx.outputOn = false ∧ t.tx.soft = false ∧
      t.rate.soft0 = .low ∧ t.rate.soft1 = .low ∧ t.lvl.level = .one ∧ (∀ q, ctrOf t.bus q = 0) ∧
      t.bus.state = .idle ∧ t.bus.wbuf = [] ∧ t.bus.stretching = false ∧ t.wr.busy = false) ∧
    (s.wr.busy = false ∨ s.slot.powered = false → ∀ k, readByte t k = readByte s k) ∧
    (∀ sp a, (sp ≠ s.wr.space ∨ isWritable s.cfg sp a = false ∨ ∀ w ∈ s.bus.wbuf, w.1 ≠ a) →
      readByte t (memKey sp a) = readByte s (memKey sp a)) ∧
    t.host = { s.host with railAt := none } ∧ t.out = s.out ∧ t.cfg = s.cfg ∧ t.wr.cycles = s.wr.cycles ∧ t.clk.now = s.clk.now

/-- 2-wire readiness (70_reset_and_hazards.md R674): when its time has come the interface is ready, the bus idle, nothing
buffered and no write cycle running; before that it is not ready and answers nothing. That the counters do not change at
readiness is the model's choice: R674 lists their draw there, the model draws them at power-up (notes/assumptions/4.md,
53.md), and nothing can read them in between. -/
def Obligations.TwoWireReady : Prop :=
  ∀ s : State, s.slot.powered = true → s.slot.ready = false →
    (s.slot.readyDue ≤ s.clk.now →
      (settle s).slot.ready = true ∧ (settle s).bus.state = .idle ∧ (settle s).bus.wbuf = [] ∧
      (settle s).wr.busy = false ∧ (∀ q, ctrOf (settle s).bus q = ctrOf s.bus q) ∧
      ∀ k, readByte (settle s) k = readByte s k) ∧
    (s.clk.now < s.slot.readyDue → (settle s).slot.ready = false ∧ listening (settle s) = false)

/-! ### Limits -/

/-- The integer comparisons the limit tables rest on are the formulas of the tables (42_sfi_high_speed.md R285, R300;
44_channel_and_boards.md R422): `x ≤ b × sqrt(f)` with f in GHz, given in MHz, and `m ≤ a + b × log10(p/q)`. The second has
no value where p or q is 0, so it is stated for positive ones. -/
def Obligations.LimitsExact : Prop :=
  (∀ (x b : Int) (f : Nat), leRoot x b f = true ↔ (x : ℝ) ≤ b * Real.sqrt (f / 1000)) ∧
  (∀ (b x : Int) (f : Nat), rootLe b x f = true ↔ b * Real.sqrt (f / 1000) ≤ (x : ℝ)) ∧
  (∀ (a : Int) (b : Nat) (m : Int) (p q : Nat), 0 < p → 0 < q →
    (underLog a b m p q = true ↔ (m : ℝ) ≤ a + b * Real.logb 10 (p / q)) ∧
    (belowLog a b m p q = true ↔ (m : ℝ) < a + b * Real.logb 10 (p / q)))

/-- The noise lines of a linear module (42_sfi_high_speed.md R314, with the numbers of R313's Table 20): a test passes where
RN lies below both sloped lines and below the ceiling and dWDP is within its own maximum, and a module passes where every
required test condition was tested and every test of it passes; LRM requires its three stressors under both conditions. -/
def Obligations.NoiseLine : Prop :=
  (∀ (c : RnCase) (dwdp rn : Int), rnPasses c dwdp rn = true ↔
    rn < (rnLine c).1 * dwdp + 1000 * (rnLine c).2.1 ∧
    rn < (rnLine c).2.2.1 * dwdp + 1000 * (rnLine c).2.2.2.1 ∧
    rn < 1000 * (rnLine c).2.2.2.2 ∧
    dwdp ≤ (match c with | .sr => 2700 | .lr => 2700 | .lrm _ => 1500)) ∧
  rnLine .sr = (-200, 780, -200, 780, 780) ∧ rnLine .lr = (-200, 830, -200, 830, 830) ∧
  rnLine (.lrm .pre) = (-153, 475, -92, 457, 475) ∧ rnLine (.lrm .split) = (-170, 475, -100, 455, 475) ∧
  rnLine (.lrm .post) = (-153, 475, -92, 457, 475) ∧
  (∀ (required : List (RnCase × Tp3Condition)) (tests : List Tp3Test),
    linearPasses required tests = true ↔
      ∀ q ∈ required, (∃ m ∈ tests, (m.case, m.condition) = q) ∧
        ∀ m ∈ tests, (m.case, m.condition) = q → rnPasses m.case m.dwdp m.rn = true) ∧
  ∀ (k : Stressor) (d : Tp3Condition), (RnCase.lrm k, d) ∈ lrmRequired

/-! ### A module that may not take a word -/

/-- DEVICE_ADDRESS_WORD to a ready module with `P_MAY_NACK_BUSY` (20_memory.md R92 (b)): it is taken as usual, or it is not
acknowledged and the engine ignores the rest; nothing else of the module changes in either case. Which of the two is a free
value, and what an unacknowledged word leaves the engine in is the model's choice (notes/assumptions/28.md). -/
def Obligations.MayNackBusy : Prop :=
  ∀ (s : State) (sp : Space) (r : Dir), listening s = true → s.out.sdaHeld = false → s.bus.stretching = false →
    s.out.sclHeld = false → s.host.honours = true → s.cfg.mayNackBusy = true → s.bus.state = .gotStart →
    s.bus.phase = .recv → s.bus.nbits = 0 → s.bus.sda = .high →
    ∃ t, exec (.deviceAddressWord sp r) s = .next t ∧
      (t.seen.acks = s.seen.acks ++ [true] ∧ t.bus.sel = sp ∧ t.raised = s.raised ∧
          t.bus.state = (match r with | .write => .expectAddr | .read => .addressedRead) ∨
        t.seen.acks = s.seen.acks ++ [false] ∧ t.bus.sel = s.bus.sel ∧ t.raised = s.raised ++ [.noAcknowledge] ∧
          t.bus.state = .ignoring ∧ t.bus.sda = .high) ∧
      (∀ q, ctrOf t.bus q = ctrOf s.bus q) ∧ t.bus.wbuf = s.bus.wbuf ∧ t.seen.rx = s.seen.rx ∧ t.host = s.host ∧
      sameAround s t ∧ sameControls s t ∧ t.wr = s.wr

end
end

