-- ==== Sys2Proof/Laws/Bus.lean ====
section
/-! SUPPORT. What a word slot does, said once: the words a ready module takes in and sends (30_encoding.md R121;
43_two_wire_operations.md R365). -/

namespace Sys2Proof.Machine

/-- The module listens, no other device holds SDA, the host waits for SCL: every pulse reaches the engine. -/
structure Hears (s : State) : Prop where
  lis : listening s = true
  held : s.out.sdaHeld = false
  waits : s.host.honours = true

/-- A bus nothing disturbs: the module also takes every word. -/
structure Calm (s : State) : Prop extends Hears s where
  nack : s.cfg.mayNackBusy = false

theorem listening_iff (s : State) :
    listening s = true ↔
      s.slot.mated = .all ∧ s.slot.powered = true ∧ s.slot.ready = true ∧ s.slot.stuck = false ∧
        s.wr.busy = false := by
  simp [listening, and_assoc]

theorem toBool_ofBool (b : Bool) : (Level.ofBool b).toBool = b := by cases b <;> rfl

theorem ofBool_toBool (l : Level) : Level.ofBool l.toBool = l := by cases l <;> rfl

theorem ofBool_injective {a b : Bool} (h : Level.ofBool a = Level.ofBool b) : a = b := by
  rw [← toBool_ofBool a, h, toBool_ofBool]

theorem sdaLine_hears {s : State} (h : Hears s) (x : Level) : sdaLine x s = x.meet s.bus.sda := by
  obtain ⟨hm, -⟩ := (listening_iff s).1 h.lis
  simp [sdaLine, h.held, hm]

theorem sdaLine_calm {s : State} (h : Calm s) (x : Level) : sdaLine x s = x.meet s.bus.sda := sdaLine_hears h.toHears x

theorem nackDrawn_calm {s : State} (h : Calm s) : nackDrawn s = false := by simp [nackDrawn, h.nack]

/-- `Hears` looks at nothing a word slot changes. -/
theorem Hears.congr {s t : State} (h : Hears s) (h1 : t.slot = s.slot) (h2 : t.wr = s.wr) (h3 : t.out = s.out)
    (h5 : t.host = s.host) : Hears t :=
  ⟨by simpa [listening, h1, h2] using h.lis, by rw [h3]; exact h.held, by rw [h5]; exact h.waits⟩

/-- `Calm` looks at nothing a word slot changes. -/
theorem Calm.congr {s t : State} (h : Calm s) (h1 : t.slot = s.slot) (h2 : t.wr = s.wr) (h3 : t.out = s.out)
    (h4 : t.cfg = s.cfg) (h5 : t.host = s.host) : Calm t :=
  ⟨h.toHears.congr h1 h2 h3 h5, by rw [h4]; exact h.nack⟩

/-- A pulse that is heard reaches the engine. -/
theorem pulse_hears {s : State} (h : Hears s) (x : Level) : pulse x s = sclFall (sclRise (sdaLine x s) s) := by
  rw [pulse, if_pos h.lis, if_pos h.waits]

theorem pulse_calm {s : State} (h : Calm s) (x : Level) : pulse x s = sclFall (sclRise (sdaLine x s) s) :=
  pulse_hears h.toHears x

/-- Eight shifted bits are the byte, whatever stood in the register. -/
theorem shiftIn_eight (v w : Byte) :
    shiftIn (shiftIn (shiftIn (shiftIn (shiftIn (shiftIn (shiftIn (shiftIn v (w.getLsbD 7)) (w.getLsbD 6))
      (w.getLsbD 5)) (w.getLsbD 4)) (w.getLsbD 3)) (w.getLsbD 2)) (w.getLsbD 1)) (w.getLsbD 0) = w := by
  have one (b : Bool) (i : Nat) : (if b = true then 1#8 else 0#8).getLsbD i = (b && decide (i = 0)) := by
    cases b <;> simp
  apply BitVec.eq_of_getLsbD_eq
  intro i hi
  simp only [shiftIn, BitVec.getLsbD_or, BitVec.getLsbD_shiftLeft, one]
  have : i = 0 ∨ i = 1 ∨ i = 2 ∨ i = 3 ∨ i = 4 ∨ i = 5 ∨ i = 6 ∨ i = 7 := by omega
  rcases this with rfl | rfl | rfl | rfl | rfl | rfl | rfl | rfl <;> simp

/-- A state with another shift register and bit count. -/
def midWord (v : Byte) (k : Nat) (s : State) : State := { s with bus := { s.bus with shift := v, nbits := k } }

theorem midWord_hears {s : State} (h : Hears s) (v : Byte) (k : Nat) : Hears (midWord v k s) :=
  h.congr rfl rfl rfl rfl

theorem midWord_self (s : State) : midWord s.bus.shift s.bus.nbits s = s := rfl

/-- One bit taken in, not the last of its word. -/
theorem pulse_recv {s : State} (h : Hears s) (hp : s.bus.phase = .recv) (hd : s.bus.sda = .high) (v : Byte) {k : Nat}
    (hk : k < 7) (b : Bool) :
    pulse (Level.ofBool b) (midWord v k s) = midWord (shiftIn v b) (k + 1) s := by
  have c := midWord_hears h v k
  have e : sdaLine (Level.ofBool b) (midWord v k s) = Level.ofBool b := by
    rw [sdaLine_hears c]; show (Level.ofBool b).meet s.bus.sda = _; rw [hd]; cases b <;> rfl
  have n7 : k ≠ 7 := by omega
  have n8 : ¬ 8 ≤ k + 1 := by omega
  rw [pulse_hears c, e]
  simp [sclRise, midWord, hp, n7, nextBit, sclFall, n8, toBool_ofBool]

/-- The eighth bit: the word is taken, and the acknowledge slot begins. -/
theorem pulse_recv_last {s : State} (h : Hears s) (hp : s.bus.phase = .recv) (hd : s.bus.sda = .high) (v : Byte)
    (b : Bool) :
    pulse (Level.ofBool b) (midWord v 7 s) = sclFall (takeWord (midWord (shiftIn v b) 8 s)) := by
  have c := midWord_hears h v 7
  have e : sdaLine (Level.ofBool b) (midWord v 7 s) = Level.ofBool b := by
    rw [sdaLine_hears c]; show (Level.ofBool b).meet s.bus.sda = _; rw [hd]; cases b <;> rfl
  rw [pulse_hears c, e]
  simp [sclRise, midWord, hp, nextBit, toBool_ofBool]

theorem sendBits_step {s : State} (h : Hears s) (hp : s.bus.phase = .recv) (hd : s.bus.sda = .high) (w v : Byte)
    {k : Nat} (hk : k < 7) (n : Nat) :
    sendBits w (n + 1) (midWord v k s) = sendBits w n (midWord (shiftIn v (w.getLsbD n)) (k + 1) s) := by
  rw [sendBits, pulse_recv h hp hd v hk]

/-- Eight bits of a word taken in from the start of a slot. -/
theorem sendBits_recv {s : State} (h : Hears s) (hp : s.bus.phase = .recv) (hn : s.bus.nbits = 0)
    (hd : s.bus.sda = .high) (w : Byte) :
    sendBits w 8 s = sclFall (takeWord (midWord w 8 s)) := by
  conv_lhs => rw [← midWord_self s, hn]
  rw [sendBits_step h hp hd _ _ (by omega), sendBits_step h hp hd _ _ (by omega), sendBits_step h hp hd _ _ (by omega),
    sendBits_step h hp hd _ _ (by omega), sendBits_step h hp hd _ _ (by omega), sendBits_step h hp hd _ _ (by omega),
    sendBits_step h hp hd _ _ (by omega), sendBits, sendBits, pulse_recv_last h hp hd, shiftIn_eight]

/-- What a word slot leaves alone. -/
structure Keeps (s t : State) : Prop where
  cfg : t.cfg = s.cfg
  host : t.host = s.host
  out : t.out = s.out
  slot : t.slot = s.slot
  tx : t.tx = s.tx
  rcv : t.rcv = s.rcv
  rate : t.rate = s.rate
  lvl : t.lvl = s.lvl
  wr : t.wr = s.wr
  mem : t.mem = s.mem
  script : t.script = s.script

theorem Keeps.refl (s : State) : Keeps s s := ⟨rfl, rfl, rfl, rfl, rfl, rfl, rfl, rfl, rfl, rfl, rfl⟩

theorem Keeps.trans {s t u : State} (a : Keeps s t) (b : Keeps t u) : Keeps s u :=
  ⟨b.cfg.trans a.cfg, b.host.trans a.host, b.out.trans a.out, b.slot.trans a.slot, b.tx.trans a.tx,
    b.rcv.trans a.rcv, b.rate.trans a.rate, b.lvl.trans a.lvl, b.wr.trans a.wr, b.mem.trans a.mem,
    b.script.trans a.script⟩

theorem Hears.keeps {s t : State} (h : Hears s) (k : Keeps s t) : Hears t := h.congr k.slot k.wr k.out k.host

theorem Calm.keeps {s t : State} (h : Calm s) (k : Keeps s t) : Calm t := h.congr k.slot k.wr k.out k.cfg k.host

/-! Every engine event keeps what is not the bus. -/

theorem spend_keeps (n : Nat) (s : State) : Keeps s (spend n s) := ⟨rfl, rfl, rfl, rfl, rfl, rfl, rfl, rfl, rfl, rfl, rfl⟩

theorem raise_keeps (c : Condition) (s : State) : Keeps s (raise c s) :=
  ⟨rfl, rfl, rfl, rfl, rfl, rfl, rfl, rfl, rfl, rfl, rfl⟩

theorem putBus_keeps (s : State) (b : Bus) : Keeps s { s with bus := b } :=
  ⟨rfl, rfl, rfl, rfl, rfl, rfl, rfl, rfl, rfl, rfl, rfl⟩

theorem takeWord_keeps (s : State) : Keeps s (takeWord s) := by
  unfold takeWord
  cases s.bus.state <;>
    first
    | exact spend_keeps 1 s
    | (refine Keeps.trans ?_ (spend_keeps 1 _)
       simp only [takeDeviceWord, takeAddress, takeData]
       repeat' split
       all_goals first | exact putBus_keeps s _ | exact (putBus_keeps s _).trans (raise_keeps _ _))

theorem sendNext_keeps (s : State) : Keeps s (sendNext s) := (putBus_keeps s _).trans (spend_keeps 1 _)

theorem sclRise_keeps (x : Level) (s : State) : Keeps s (sclRise x s) := by
  unfold sclRise
  cases s.bus.phase <;> dsimp only
  · exact Keeps.refl s
  · split
    · exact (putBus_keeps s _).trans (takeWord_keeps _)
    · exact putBus_keeps s _
  · exact Keeps.refl s
  · exact putBus_keeps s _
  · exact putBus_keeps s _

theorem sclFall_keeps (s : State) : Keeps s (sclFall s) := by
  unfold sclFall
  cases s.bus.phase <;> dsimp only
  · exact Keeps.refl s
  · split
    · exact putBus_keeps s _
    · exact Keeps.refl s
  · cases s.bus.state <;> dsimp only <;>
      first
      | exact putBus_keeps s _
      | exact (putBus_keeps s _).trans (sendNext_keeps _)
  · split <;> exact putBus_keeps s _
  · split
    · exact sendNext_keeps s
    · exact putBus_keeps s _

theorem pulse_keeps (x : Level) (s : State) : Keeps s (pulse x s) := by
  unfold pulse
  dsimp only
  split
  · split
    · exact (sclRise_keeps _ s).trans (sclFall_keeps _)
    · split
      · exact spend_keeps 1 s
      · exact (spend_keeps 1 s).trans ((sclRise_keeps _ _).trans (sclFall_keeps _))
  · exact Keeps.refl s

/-- What bus time changes: the clock, and the record of the stretch. -/
theorem busTime_eq (m n : Nat) (s : State) : ∃ t h a x, busTime m n s =
    { s with
      clk := { now := t, drawn := s.clk.drawn + 1 }
      bus := { s.bus with hold := h, heldAt := a, stretching := x } } ∧
    s.clk.now + n * s.host.sclPeriod ≤ t ∧ (s.bus.stretching = false → x = false) := by
  refine ⟨_, _, _, _, rfl, ?_, ?_⟩
  · dsimp only [stretchFor, releaseScl, advance, holdScl]; omega
  · intro h; dsimp only [stretchFor, releaseScl, advance, holdScl]; rw [h, Bool.or_false, Bool.not_and_self]

/-- What the time of a word slot leaves of the engine. -/
structure SameEngine (s u : State) : Prop where
  state : u.bus.state = s.bus.state
  phase : u.bus.phase = s.bus.phase
  sel : u.bus.sel = s.bus.sel
  nbits : u.bus.nbits = s.bus.nbits
  sda : u.bus.sda = s.bus.sda
  wbuf : u.bus.wbuf = s.bus.wbuf
  ctr : ∀ q, ctrOf u.bus q = ctrOf s.bus q

theorem wordTime_engine (w : Byte) (s : State) : SameEngine s (wordTime w s) :=
  ⟨rfl, rfl, rfl, rfl, rfl, rfl, fun q => by cases q <;> rfl⟩

theorem busTime_keeps (m n : Nat) (s : State) : Keeps s (busTime m n s) :=
  ⟨rfl, rfl, rfl, rfl, rfl, rfl, rfl, rfl, rfl, rfl, rfl⟩

theorem clockTime_keeps (n : Nat) (s : State) : Keeps s (clockTime n s) := busTime_keeps _ n s

theorem pulseTime_keeps (s : State) : Keeps s (pulseTime s) := busTime_keeps _ 1 s

theorem wordTime_keeps (w : Byte) (s : State) : Keeps s (wordTime w s) := busTime_keeps _ 9 s

theorem sendBits_keeps (w : Byte) (n : Nat) (s : State) : Keeps s (sendBits w n s) := by
  induction n generalizing s with
  | zero => exact Keeps.refl s
  | succ n ih => exact (pulse_keeps _ s).trans (ih _)

theorem hearAck_keeps (s : State) : Keeps s (hearAck s) := by
  have k := pulse_keeps .high s
  unfold hearAck
  generalize pulse .high s = t at k ⊢
  generalize decide (sdaLine .high s = .low) = a
  refine k.trans ?_
  cases a
  · exact (show Keeps t _ from ⟨rfl, rfl, rfl, rfl, rfl, rfl, rfl, rfl, rfl, rfl, rfl⟩)
  · exact (show Keeps t _ from ⟨rfl, rfl, rfl, rfl, rfl, rfl, rfl, rfl, rfl, rfl, rfl⟩)

/-- A word the host sends keeps everything that is not the bus. -/
theorem sendWord_keeps (w : Byte) (s : State) : Keeps s (sendWord w s) := by
  rw [sendWord]
  exact ((wordTime_keeps w s).trans (sendBits_keeps w 8 _)).trans (hearAck_keeps _)

theorem readBits_keeps (n : Nat) (v : Byte) (s : State) : Keeps s (readBits n v s).2 := by
  induction n generalizing v s with
  | zero => exact Keeps.refl s
  | succ n ih => exact (pulse_keeps _ s).trans (ih _ _)

/-- A word the host takes in keeps everything that is not the bus. -/
theorem readWord_keeps (ack : Bool) (s : State) : Keeps s (readWord ack s) := by
  have k := (clockTime_keeps 9 s).trans (readBits_keeps 8 0 _)
  rw [readWord]
  generalize readBits 8 0 (clockTime 9 s) = r at k ⊢
  have q := pulse_keeps (if ack then .low else .high) r.2
  dsimp only
  generalize pulse (if ack then .low else .high) r.2 = t at q ⊢
  exact (k.trans q).trans ⟨rfl, rfl, rfl, rfl, rfl, rfl, rfl, rfl, rfl, rfl, rfl⟩

/-! ### Words the module takes -/

/-- The acknowledge bit noted by the host. -/
def noteAck (s : State) : State :=
  { s with
    seen := { s.seen with acks := s.seen.acks ++ [true] }
    bus := { s.bus with freeAt := some s.clk.now, deafTill := none } }

theorem hearAck_low {s : State} (h : Hears s) (hp : s.bus.phase = .ackOut) (hd : s.bus.sda = .low) :
    hearAck s = noteAck (sclFall s) := by
  have e : sdaLine .high s = .low := by rw [sdaLine_hears h, hd]; rfl
  have p : pulse .high s = sclFall s := by rw [pulse_hears h, e]; simp [sclRise, hp]
  simp only [hearAck, e, p, noteAck, decide_true, if_true]

/-- A word the module acknowledges, from the start of a slot. -/
theorem sendWord_taken {s : State} (h : Hears s) (hp : s.bus.phase = .recv) (hn : s.bus.nbits = 0)
    (hd : s.bus.sda = .high) (w : Byte)
    (ha : (takeWord (midWord w 8 (wordTime w s))).bus.willAck = true)
    (hr : (takeWord (midWord w 8 (wordTime w s))).bus.phase = .recv)
    (hb : (takeWord (midWord w 8 (wordTime w s))).bus.nbits = 8) :
    sendWord w s =
      noteAck (sclFall (sclFall (takeWord (midWord w 8 (wordTime w s))))) := by
  have c : Hears (wordTime w s) := h.keeps (wordTime_keeps w s)
  have k : Hears (takeWord (midWord w 8 (wordTime w s))) := (midWord_hears c w 8).keeps (takeWord_keeps _)
  rw [sendWord, sendBits_recv c hp hn hd]
  have f : sclFall (takeWord (midWord w 8 (wordTime w s))) =
      { takeWord (midWord w 8 (wordTime w s)) with
        bus := { (takeWord (midWord w 8 (wordTime w s))).bus with phase := .ackOut, sda := .low } } := by
    simp [sclFall, hr, hb, ha]
  exact hearAck_low (k.keeps (sclFall_keeps _)) (by rw [f]) (by rw [f])

theorem decodeDev_devWord (sp : Space) (r : Dir) : decodeDev (devWord sp r) = .ok (sp, r) := by
  cases sp <;> cases r <;> rfl

/-- What follows an acknowledged device address word for a write. -/
theorem sendWord_devW {s : State} (h : Hears s) (sp : Space)
    (n : nackDrawn (midWord (devWord sp .write) 8 (wordTime (devWord sp .write) s)) = false) (hs : s.bus.state = .gotStart) (hp : s.bus.phase = .recv)
    (hn : s.bus.nbits = 0) (hd : s.bus.sda = .high) :
    sendWord (devWord sp .write) s =
      noteAck (spend 1
        { wordTime (devWord sp .write) s with bus := { (wordTime (devWord sp .write) s).bus with
            sel := sp, state := .expectAddr, willAck := true, shift := devWord sp .write, nbits := 0, sda := .high
            phase := .recv } }) := by
  have T := sendWord_taken h hp hn hd (devWord sp .write)
  have q := wordTime_engine (devWord sp .write) s
  generalize wordTime (devWord sp .write) s = u at T n q ⊢
  have e : takeWord (midWord (devWord sp .write) 8 (u)) =
      spend 1 { u with bus := { u.bus with
        sel := sp, state := .expectAddr, willAck := true, shift := devWord sp .write, nbits := 8 } } := by
    have st : (midWord (devWord sp .write) 8 (u)).bus.state = .gotStart := q.state.trans hs
    have sh : (midWord (devWord sp .write) 8 (u)).bus.shift = devWord sp .write := rfl
    rw [takeWord, st]; dsimp only
    rw [takeDeviceWord, sh, decodeDev_devWord]; dsimp only
    rw [n]; rfl
  rw [T (by rw [e]; rfl) (by rw [e]; exact q.phase.trans hp) (by rw [e]; rfl), e]
  have p9 : u.bus.phase = .recv := q.phase.trans hp
  simp [sclFall, spend, p9]

/-- What follows an acknowledged device address word for a read: the first data word stands on SDA. -/
theorem sendWord_devR {s : State} (h : Hears s) (sp : Space)
    (n : nackDrawn (midWord (devWord sp .read) 8 (wordTime (devWord sp .read) s)) = false) (hs : s.bus.state = .gotStart) (hp : s.bus.phase = .recv)
    (hn : s.bus.nbits = 0) (hd : s.bus.sda = .high) :
    sendWord (devWord sp .read) s =
      noteAck (sendNext (spend 1
        { wordTime (devWord sp .read) s with bus := { (wordTime (devWord sp .read) s).bus with
            sel := sp, state := .addressedRead, willAck := true, shift := devWord sp .read, nbits := 0, sda := .high
            phase := .ackOut } })) := by
  have T := sendWord_taken h hp hn hd (devWord sp .read)
  have q := wordTime_engine (devWord sp .read) s
  generalize wordTime (devWord sp .read) s = u at T n q ⊢
  have e : takeWord (midWord (devWord sp .read) 8 (u)) =
      spend 1 { u with bus := { u.bus with
        sel := sp, state := .addressedRead, willAck := true, shift := devWord sp .read, nbits := 8 } } := by
    have st : (midWord (devWord sp .read) 8 (u)).bus.state = .gotStart := q.state.trans hs
    have sh : (midWord (devWord sp .read) 8 (u)).bus.shift = devWord sp .read := rfl
    rw [takeWord, st]; dsimp only
    rw [takeDeviceWord, sh, decodeDev_devWord]; dsimp only
    rw [n]; rfl
  rw [T (by rw [e]; rfl) (by rw [e]; exact q.phase.trans hp) (by rw [e]; rfl), e]
  have p9 : u.bus.phase = .recv := q.phase.trans hp
  simp [sclFall, spend, p9]

/-- What follows an acknowledged data word address. -/
theorem sendWord_addr {s : State} (h : Calm s) (hs : s.bus.state = .expectAddr) (hp : s.bus.phase = .recv)
    (hn : s.bus.nbits = 0) (hd : s.bus.sda = .high) (a : Byte) :
    sendWord a s =
      noteAck (spend 1
        { wordTime a s with bus := { setCtr s.bus.sel a (wordTime a s).bus with
            state := .writeData, wbuf := [], loaded := a, willAck := true, shift := a, nbits := 0, sda := .high
            phase := .recv } }) := by
  have T := sendWord_taken h.toHears hp hn hd a
  have k := h.keeps (wordTime_keeps a s)
  have q := wordTime_engine a s
  generalize wordTime a s = u at T k q ⊢
  have n : nackDrawn (midWord a 8 (u)) = false :=
    nackDrawn_calm (k.congr rfl rfl rfl rfl rfl)
  have e : takeWord (midWord a 8 (u)) =
      spend 1 { u with bus := { setCtr s.bus.sel a u.bus with
        state := .writeData, wbuf := [], loaded := a, willAck := true, shift := a, nbits := 8 } } := by
    have st : (midWord a 8 (u)).bus.state = .expectAddr := q.state.trans hs
    have se : (midWord a 8 (u)).bus.sel = s.bus.sel := q.sel
    rw [takeWord, st]; dsimp only
    rw [takeAddress, n, se]
    cases s.bus.sel <;> rfl
  have p8 : (takeWord (midWord a 8 (u))).bus.phase = .recv := by
    rw [e]; cases s.bus.sel <;> exact q.phase.trans hp
  rw [T (by rw [e]; rfl) p8 (by rw [e]; rfl), e]
  have p9 : (setCtr s.bus.sel a u.bus).phase = .recv := by
    cases s.bus.sel <;> exact q.phase.trans hp
  simp [sclFall, spend, p9]

/-- What follows an acknowledged data word of a write. -/
theorem sendWord_data {s : State} (h : Calm s) (hs : s.bus.state = .writeData) (hp : s.bus.phase = .recv)
    (hn : s.bus.nbits = 0) (hd : s.bus.sda = .high) (hw : s.bus.wbuf.length < 8) (d : Byte) :
    sendWord d s =
      noteAck (spend 1
        { wordTime d s with bus := { stepCtr s.bus.sel (wordTime d s).bus with
            wbuf := s.bus.wbuf ++ [(ctrOf s.bus s.bus.sel, d)], willAck := true, shift := d, nbits := 0, sda := .high
            phase := .recv } }) := by
  have T := sendWord_taken h.toHears hp hn hd d
  have k := h.keeps (wordTime_keeps d s)
  have q := wordTime_engine d s
  generalize wordTime d s = u at T k q ⊢
  have n : nackDrawn (midWord d 8 (u)) = false :=
    nackDrawn_calm (k.congr rfl rfl rfl rfl rfl)
  have l : ¬ Config.seqWriteMax ≤ s.bus.wbuf.length := by simp [Config.seqWriteMax]; omega
  have e : takeWord (midWord d 8 (u)) =
      spend 1 { u with bus := { stepCtr s.bus.sel u.bus with
        wbuf := s.bus.wbuf ++ [(ctrOf s.bus s.bus.sel, d)], willAck := true, shift := d, nbits := 8 } } := by
    have st : (midWord d 8 (u)).bus.state = .writeData := q.state.trans hs
    have se : (midWord d 8 (u)).bus.sel = s.bus.sel := q.sel
    have wb : (midWord d 8 (u)).bus.wbuf = s.bus.wbuf := q.wbuf
    rw [takeWord, st]; dsimp only
    rw [takeData, n, wb, se]
    simp only [l, Bool.false_eq_true, if_false]
    have ct : ctrOf (midWord d 8 u).bus s.bus.sel = ctrOf s.bus s.bus.sel := by
      rw [← q.ctr]; cases s.bus.sel <;> rfl
    rw [ct]
    cases s.bus.sel <;> rfl
  have p8 : (takeWord (midWord d 8 (u))).bus.phase = .recv := by
    rw [e]; cases s.bus.sel <;> exact q.phase.trans hp
  rw [T (by rw [e]; rfl) p8 (by rw [e]; rfl), e]
  have p9 : (stepCtr s.bus.sel u.bus).phase = .recv := by
    cases s.bus.sel <;> exact q.phase.trans hp
  have s9 : (stepCtr s.bus.sel u.bus).state = .writeData := by
    cases s.bus.sel <;> exact q.state.trans hs
  simp [sclFall, spend, p9, s9]

/-! ### Words the module sends -/

/-- A module that has k bits of a word out and bit 7 of `v` on SDA. -/
def midSend (v : Byte) (k : Nat) (s : State) : State :=
  { s with bus := { s.bus with shift := v, nbits := k, sda := Level.ofBool (v.getLsbD 7) } }

theorem pulse_send {s : State} (h : Calm s) (hp : s.bus.phase = .send) (v : Byte) {k : Nat} (hk : k < 7) :
    pulse .high (midSend v k s) = midSend (v <<< 1) (k + 1) s := by
  have c : Calm (midSend v k s) := h.congr rfl rfl rfl rfl rfl
  have n8 : ¬ 8 ≤ k + 1 := by omega
  have n7 : k ≠ 7 := by omega
  rw [pulse_calm c]
  simp [sclRise, midSend, hp, nextBit, sclFall, n8, n7]

theorem pulse_send_last {s : State} (h : Calm s) (hp : s.bus.phase = .send) (v : Byte) :
    pulse .high (midSend v 7 s) =
      { s with bus := { stepCtr s.bus.sel s.bus with shift := v, nbits := 8, phase := .ackIn, sda := .high } } := by
  have c : Calm (midSend v 7 s) := h.congr rfl rfl rfl rfl rfl
  have q : ∀ b : Bus, b.phase = .send → (stepCtr s.bus.sel b).phase = .send := by
    intro b hb; cases s.bus.sel <;> exact hb
  rw [pulse_calm c]
  cases hs : s.bus.sel <;> simp [sclRise, midSend, hp, nextBit, sclFall, hs, stepCtr, setCtr, ctrOf]

theorem readBits_step {s : State} (h : Calm s) (hp : s.bus.phase = .send) (v : Byte) {k : Nat} (hk : k < 7) (n : Nat)
    (x : Byte) :
    readBits (n + 1) x (midSend v k s) =
      readBits n (shiftIn x (v.getLsbD 7)) (midSend (v <<< 1) (k + 1) s) := by
  have c : Calm (midSend v k s) := h.congr rfl rfl rfl rfl rfl
  have e : sdaLine .high (midSend v k s) = Level.ofBool (v.getLsbD 7) := by
    rw [sdaLine_calm c]; rfl
  rw [readBits, e, toBool_ofBool, pulse_send h hp v hk]

/-- Eight bits of a word the module sends. -/
theorem readBits_send {s : State} (h : Calm s) (hp : s.bus.phase = .send) (hn : s.bus.nbits = 0)
    (hd : s.bus.sda = Level.ofBool (s.bus.shift.getLsbD 7)) :
    readBits 8 0 s =
      (s.bus.shift,
        { s with bus := { stepCtr s.bus.sel s.bus with
            shift := s.bus.shift <<< 7, nbits := 8, phase := .ackIn, sda := .high } }) := by
  have e : s = midSend s.bus.shift 0 s := by rw [midSend, ← hd, ← hn]
  have c : Calm (midSend (s.bus.shift <<< 1 <<< 1 <<< 1 <<< 1 <<< 1 <<< 1 <<< 1) 7 s) := h.congr rfl rfl rfl rfl rfl
  conv_lhs => rw [e]
  rw [readBits_step h hp _ (by omega), readBits_step h hp _ (by omega), readBits_step h hp _ (by omega),
    readBits_step h hp _ (by omega), readBits_step h hp _ (by omega), readBits_step h hp _ (by omega),
    readBits_step h hp _ (by omega), readBits, readBits, pulse_send_last h hp, sdaLine_calm c]
  have q : Level.high.meet (midSend (s.bus.shift <<< 1 <<< 1 <<< 1 <<< 1 <<< 1 <<< 1 <<< 1) 7 s).bus.sda =
      Level.ofBool ((s.bus.shift <<< 1 <<< 1 <<< 1 <<< 1 <<< 1 <<< 1 <<< 1).getLsbD 7) := rfl
  rw [q, toBool_ofBool]
  have r := shiftIn_eight 0 s.bus.shift
  simp only [BitVec.getLsbD_shiftLeft] at *
  refine Prod.ext ?_ ?_
  · simpa using r
  · simp only [← BitVec.shiftLeft_add]

/-! ### A module that only waits for START or STOP (10_state.md R42) -/

theorem engaged_of_drivesNothing {b : Bus} (h : drivesNothing b = true) : engaged b = false := by
  cases hb : b.state <;> simp_all [drivesNothing, engaged]

theorem maybeOwn_of_drivesNothing {b : Bus} (h : drivesNothing b = true) : maybeOwn b = false := by
  cases hb : b.state <;> simp_all [drivesNothing, maybeOwn]

/-- Where no low period may be stretched, SCL is held for no time. -/
theorem busTime_zero_hold (n : Nat) (s : State) : (busTime 0 n s).bus.hold = 0 := by
  simp [busTime, drawNat, Nat.mod_one]

/-- It holds SCL in none of the low periods before a START or a STOP, in a pulse, in a word, and it loses no START, STOP or
pulse. -/
theorem drivesNothing_scl {s : State} (h : drivesNothing s.bus = true) (w : Byte) (n : Nat) :
    (lowPeriod s).bus.hold = 0 ∧ (pulseTime s).bus.hold = 0 ∧ (wordTime w s).bus.hold = 0 ∧ (clockTime n s).bus.hold = 0 ∧
      edgeLost s = false ∧ pulseLost s = false := by
  have hs : s.bus.state ≠ .gotStart := by intro hs; simp [drivesNothing, hs] at h
  have he := engaged_of_drivesNothing h
  simp [lowPeriod, pulseTime, wordTime, clockTime, stretchable, edgeLost, pulseLost, lostIn, he, maybeOwn_of_drivesNothing h, hs,
    busTime_zero_hold]

end Sys2Proof.Machine
end

