-- ==== Sys2Proof/Laws/Ops.lean ====
section
/-! SUPPORT. The named operations: bounds of what is drawn, going on after a step, what a control's bits read back as. -/

namespace Sys2Proof.Machine

theorem drawNat_le (s : State) (k b : Nat) : drawNat s k b ≤ b := Nat.le_of_lt_succ (Nat.mod_lt _ (Nat.succ_pos _))

/-- A drawn instant is not before now, -/
theorem drawDue_ge (s : State) (k b : Nat) : s.clk.now ≤ drawDue s k b := Nat.le_add_right _ _

/-- and not after its bound. -/
theorem drawDue_le (s : State) (k b : Nat) : drawDue s k b ≤ s.clk.now + b := Nat.add_le_add_left (drawNat_le s k b) _

@[simp] theorem andThen_next (s : State) (f : State → Host.Outcome State Fault Refusal) : andThen (.next s) f = f s := rfl

@[simp] theorem andThen_fault (r : Fault) (f : State → Host.Outcome State Fault Refusal) : andThen (.fault r) f = .fault r :=
  rfl

@[simp] theorem andThen_refused (r : Refusal) (f : State → Host.Outcome State Fault Refusal) :
    andThen (.refused r) f = .refused r := rfl

/-- Going on twice is going on with both. -/
theorem andThen_assoc (o : Host.Outcome State Fault Refusal) (f g : State → Host.Outcome State Fault Refusal) :
    andThen (andThen o f) g = andThen o fun t => andThen (f t) g := by
  cases o <;> rfl

/-- What goes on from a next state came from one. -/
theorem andThen_eq_next {o : Host.Outcome State Fault Refusal} {f : State → Host.Outcome State Fault Refusal} {t : State}
    (h : andThen o f = .next t) : ∃ s, o = .next s ∧ f s = .next t := by
  cases o with
  | next s => exact ⟨s, rfl, h⟩
  | fault r => cases h
  | refused r => cases h

/-- SCL is free where neither the module nor a device holds it. -/
theorem sclHeld_free {s : State} (h : s.bus.stretching = false) (g : s.out.sclHeld = false) : sclHeld s = false := by
  simp [sclHeld, moduleHolds, h, g]

/-- A bus operation answers the state its body leaves where SCL is free and the host waits for it, -/
theorem clocked_free (f : State → State) {s : State} (h : sclHeld s = false) (g : s.host.honours = true) :
    clocked f s = .next (f s) := by
  simp [clocked, h, g]

/-- or where no ninth word came to the module, -/
theorem clocked_kept (f : State → State) {s : State} (h : sclHeld s = false) (g : overran s (f s) = false) :
    clocked f s = .next (f s) := by
  simp [clocked, h, g]

/-- and hangs where it is held. -/
theorem clocked_held (f : State → State) {s : State} (h : sclHeld s = true) : clocked f s = .next (hang s) := by
  simp [clocked, h]

/-- A bus operation answers the state its body leaves, or the hung bus where SCL is held, or refuses a ninth word. -/
theorem clocked_cases (f : State → State) (s : State) :
    (sclHeld s = false ∧ clocked f s = .next (f s)) ∨ (sclHeld s = true ∧ clocked f s = .next (hang s)) ∨
      (sclHeld s = false ∧ s.host.honours = false ∧ overran s (f s) = true ∧ clocked f s = .refused .writeOverrun) := by
  cases h : sclHeld s
  · cases g : s.host.honours
    · cases e : overran s (f s)
      · exact .inl ⟨rfl, clocked_kept f h e⟩
      · exact .inr (.inr ⟨rfl, rfl, rfl, by simp [clocked, h, g, e]⟩)
    · exact .inl ⟨rfl, clocked_free f h g⟩
  · exact .inr (.inl ⟨rfl, clocked_held f h⟩)

/-- A next state of a bus operation is the hung bus or what its body leaves. -/
theorem clocked_next {f : State → State} {s t : State} (h : clocked f s = .next t) :
    sclHeld s = true ∧ t = hang s ∨ sclHeld s = false ∧ t = f s := by
  rcases clocked_cases f s with ⟨a, e⟩ | ⟨a, e⟩ | ⟨_, _, _, e⟩ <;> rw [e] at h <;> cases h
  · exact .inr ⟨a, rfl⟩
  · exact .inl ⟨a, rfl⟩

/-- Conditions that are none of a ninth word show none. -/
theorem overran_append {s t : State} {l : List Condition} (h : t.raised = s.raised ++ l) (g : Condition.writeOverrun ∉ l) :
    overran s t = false := by
  simp [overran, h, List.count_append, List.count_eq_zero_of_not_mem g]

theorem txOff_of_high {s : State} (h : txDisableIn s = .high) : txOff s = true := by simp [txOff, h]

/-! ### Bits of a control (10_state.md R37) -/

theorem put_bits : ∀ (v m c : Byte), ((v &&& ~~~m) ||| (c &&& m)) &&& m = c &&& m := by
  intro v m c; ext i hi; simp; cases m[i] <;> simp
theorem fieldGet_put_true (f : Field) (v : Byte) : fieldGet f (fieldPut f true v) = true := by
  simp [fieldGet, fieldPut, put_bits]
theorem fieldGet_put_false (f : Field) (v : Byte) (h : f.mask ≠ 0) : fieldGet f (fieldPut f false v) = false := by
  simp only [fieldGet, fieldPut, Bool.false_eq_true, if_false, put_bits, decide_eq_false_iff_not]
  intro e
  apply h
  ext i hi
  have := congrArg (fun z : Byte => z[i]) e
  simp at this
  cases hm : f.mask[i] <;> simp_all
theorem fieldGet_put (f : Field) (b : Bool) (v : Byte) (h : f.mask ≠ 0) : fieldGet f (fieldPut f b v) = b := by
  cases b
  · exact fieldGet_put_false f v h
  · exact fieldGet_put_true f v
theorem powerGet_put (f : PowerField) (l : PowerLevel) (v : Byte) (h1 : f.codeI &&& f.mask ≠ f.codeII &&& f.mask) (h2 : f.codeI &&& f.mask ≠ f.codeIII &&& f.mask)
   (h3 : f.codeII &&& f.mask ≠ f.codeIII &&& f.mask) : powerGet f (powerPut f l v) = some l := by
  unfold powerGet powerPut
  rw [put_bits]
  cases l
  · simp
  · rw [if_neg (Ne.symm h1), if_pos rfl]
  · rw [if_neg (Ne.symm h2), if_neg (Ne.symm h3), if_pos rfl]
theorem fieldGet_put_apart (f g : Field) (b c : Bool) (v : Byte) (h : f.mask ≠ 0) (hd : f.mask &&& g.mask = 0) : fieldGet f (fieldPut g c (fieldPut f b v)) = b := by
  have : ∀ w, fieldPut g c w &&& f.mask = w &&& f.mask := by
    intro w
    unfold fieldPut
    ext i hi
    have := congrArg (fun z : Byte => z[i]) hd
    simp at this ⊢
    cases hm : f.mask[i] <;> cases hg : g.mask[i] <;> simp_all
  have e : fieldGet f (fieldPut g c (fieldPut f b v)) = fieldGet f (fieldPut f b v) := by
    unfold fieldGet; rw [this]
  rw [e, fieldGet_put f b v h]


end Sys2Proof.Machine
end

