-- ==== Sys2Proof/Laws/Frames.lean ====
section
/-! SUPPORT. What START, a word, and STOP leave behind, on a bus nothing disturbs: the steps the frames of
30_encoding.md R126 are made of (43_two_wire_operations.md R365). -/

namespace Sys2Proof.Machine

/-! ### Memory, counters and the byte a read takes -/

@[simp] theorem ctrOf_setCtr (s : Space) (v : Byte) (b : Bus) : ctrOf (setCtr s v b) s = v := by cases s <;> rfl

theorem ctrOf_setCtr_ne {s r : Space} (h : r ≠ s) (v : Byte) (b : Bus) : ctrOf (setCtr s v b) r = ctrOf b r := by
  cases s <;> cases r <;> first | rfl | exact absurd rfl h

theorem setCtr_sel (s : Space) (v : Byte) (b : Bus) : (setCtr s v b).sel = b.sel := by cases s <;> rfl

@[simp] theorem ctrOf_stepCtr (s : Space) (b : Bus) : ctrOf (stepCtr s b) s = ctrOf b s + 1 := by cases s <;> rfl

theorem ctrOf_stepCtr_ne {s r : Space} (h : r ≠ s) (b : Bus) : ctrOf (stepCtr s b) r = ctrOf b r :=
  ctrOf_setCtr_ne h _ b

/-! ### The byte a read sends -/

/-- A byte that the state shows at an address, whatever free values have been used by then. -/
def Shows (s : State) (sp : Space) (a v : Byte) : Prop :=
  ∃ n, v = sampleByte { s with clk := { s.clk with drawn := n } } sp a

theorem shows_sampleByte (s : State) (sp : Space) (a : Byte) : Shows s sp a (sampleByte s sp a) := ⟨s.clk.drawn, rfl⟩

/-- What is shown rests on nothing the bus changes. -/
theorem Shows.congr {s t : State} {sp : Space} {a v : Byte} (h : Shows t sp a v) (k : Keeps s t) : Shows s sp a v := by
  obtain ⟨n, rfl⟩ := h
  refine ⟨n, ?_⟩
  simp only [sampleByte, showControls, showLos, storedByte, drawByte, drawBool, k.cfg, k.tx, k.rate, k.lvl, k.rcv, k.mem]

theorem Shows.forward {s t : State} {sp : Space} {a v : Byte} (h : Shows s sp a v) (k : Keeps s t) : Shows t sp a v :=
  h.congr ⟨k.cfg.symm, k.host.symm, k.out.symm, k.slot.symm, k.tx.symm, k.rcv.symm, k.rate.symm, k.lvl.symm, k.wr.symm,
    k.mem.symm, k.script.symm⟩

/-! ### Where the engine stands between words -/

/-- The module is about to take a word in. -/
structure Taking (s : State) (st : BusState) : Prop where
  state : s.bus.state = st
  phase : s.bus.phase = .recv
  nbits : s.bus.nbits = 0
  sda : s.bus.sda = .high

/-- The module has the first bit of a word from `sp` on SDA. -/
structure Sending (s : State) (sp : Space) : Prop where
  state : s.bus.state = .addressedRead
  phase : s.bus.phase = .send
  nbits : s.bus.nbits = 0
  sda : s.bus.sda = Level.ofBool (s.bus.shift.getLsbD 7)
  sel : s.bus.sel = sp

/-- What n word slots leave alone, and the time they take. -/
structure Slots (n : Nat) (s t : State) : Prop extends Keeps s t where
  stretching : s.bus.stretching = false → t.bus.stretching = false
  raised : t.raised = s.raised
  wires : t.seen.wires = s.seen.wires
  now : s.clk.now + n * (9 * s.host.sclPeriod) ≤ t.clk.now

theorem Slots.refl (s : State) : Slots 0 s s := ⟨Keeps.refl s, id, rfl, rfl, by omega⟩

theorem Slots.trans {n m : Nat} {s t u : State} (a : Slots n s t) (b : Slots m t u) : Slots (n + m) s u := by
  refine ⟨a.toKeeps.trans b.toKeeps, fun h => b.stretching (a.stretching h), b.raised.trans a.raised,
    b.wires.trans a.wires, ?_⟩
  have x := a.now; have y := b.now
  rw [a.host] at y
  rw [Nat.add_mul]; omega

theorem busTime_now (m : Nat) (s : State) : s.clk.now + 1 * (9 * s.host.sclPeriod) ≤ (busTime m 9 s).clk.now := by
  dsimp only [busTime, stretchFor, releaseScl, advance, holdScl]; omega

theorem clockTime_now (s : State) : s.clk.now + 1 * (9 * s.host.sclPeriod) ≤ (clockTime 9 s).clk.now := busTime_now _ s

theorem wordTime_now (w : Byte) (s : State) : s.clk.now + 1 * (9 * s.host.sclPeriod) ≤ (wordTime w s).clk.now :=
  busTime_now _ s

theorem busTime_released (m n : Nat) (s : State) (h : s.bus.stretching = false) :
    (busTime m n s).bus.stretching = false := by
  dsimp only [busTime, stretchFor, releaseScl, advance, holdScl]; rw [h, Bool.or_false, Bool.not_and_self]

/-- What the time of a word slot leaves alone, and the time it takes. -/
structure SlotTime (s u : State) : Prop extends Keeps s u, SameEngine s u where
  raised : u.raised = s.raised
  seen : u.seen = s.seen
  loaded : u.bus.loaded = s.bus.loaded
  shift : u.bus.shift = s.bus.shift
  stretching : s.bus.stretching = false → u.bus.stretching = false
  now : s.clk.now + 1 * (9 * s.host.sclPeriod) ≤ u.clk.now

theorem wordTime_slot (w : Byte) (s : State) : SlotTime s (wordTime w s) :=
  ⟨wordTime_keeps w s, wordTime_engine w s, rfl, rfl, rfl, rfl, busTime_released _ 9 s, wordTime_now w s⟩

theorem clockTime_engine (n : Nat) (s : State) : SameEngine s (clockTime n s) :=
  ⟨rfl, rfl, rfl, rfl, rfl, rfl, fun q => by cases q <;> rfl⟩

theorem pulseTime_engine (s : State) : SameEngine s (pulseTime s) :=
  ⟨rfl, rfl, rfl, rfl, rfl, rfl, fun q => by cases q <;> rfl⟩

theorem clockTime_slot (s : State) : SlotTime s (clockTime 9 s) :=
  ⟨clockTime_keeps 9 s, clockTime_engine 9 s, rfl, rfl, rfl, rfl, busTime_released _ 9 s, clockTime_now s⟩

/-- What the low period before a START or a STOP leaves alone. -/
structure Quiet (s u : State) : Prop extends Keeps s u, SameEngine s u where
  raised : u.raised = s.raised
  seen : u.seen = s.seen
  deafTill : u.bus.deafTill = s.bus.deafTill
  deafWrite : u.bus.deafWrite = s.bus.deafWrite
  stretching : s.bus.stretching = false → u.bus.stretching = false
  now : s.clk.now ≤ u.clk.now

theorem busTime_after (m n : Nat) (s : State) : s.clk.now ≤ (busTime m n s).clk.now := by
  dsimp only [busTime, stretchFor, releaseScl, advance, holdScl]; omega

theorem lowPeriod_quiet (s : State) : Quiet s (lowPeriod s) :=
  ⟨busTime_keeps _ 0 s, ⟨rfl, rfl, rfl, rfl, rfl, rfl, fun q => by cases q <;> rfl⟩, rfl, rfl, rfl, rfl,
    busTime_released _ 0 s, busTime_after _ 0 s⟩

/-- The state at the instant of a STOP. -/
def closing (s : State) : State := spend 1 (advance Config.tSuSto (lowPeriod s))

theorem closing_quiet (s : State) : Quiet s (closing s) :=
  have q := lowPeriod_quiet s
  ⟨q.toKeeps.trans ⟨rfl, rfl, rfl, rfl, rfl, rfl, rfl, rfl, rfl, rfl, rfl⟩,
    ⟨q.state, q.phase, q.sel, q.nbits, q.sda, q.wbuf, q.ctr⟩, q.raised, q.seen, q.deafTill, q.deafWrite,
    q.stretching, q.now.trans (Nat.le_add_right _ _)⟩

/-- A bus whose host waits loses no pulse. -/
theorem edgeLost_waits {s : State} (h : s.host.honours = true) : edgeLost s = false := by simp [edgeLost, lostIn, h]

theorem pulseLost_waits {s : State} (h : s.host.honours = true) : pulseLost s = false := by simp [pulseLost, lostIn, h]

/-- What the engine and the host note at the end of a slot is no more than a slot. -/
theorem SlotTime.slots {s u t : State} (k : SlotTime s u) (h : Keeps u t)
    (hs : t.bus.stretching = u.bus.stretching) (hr : t.raised = u.raised) (hw : t.seen.wires = u.seen.wires)
    (hn : t.clk.now = u.clk.now) : Slots 1 s t :=
  ⟨k.toKeeps.trans h, fun e => hs.trans (k.stretching e), hr.trans k.raised, hw.trans (by rw [k.seen]),
    hn ▸ k.now⟩

/-- Two states that differ only in the bus, the clock and what the host has seen. -/
theorem keeps_of (u : State) (c : Clock) (b : Bus) (n : Seen) : Keeps u { u with clk := c, bus := b, seen := n } :=
  ⟨rfl, rfl, rfl, rfl, rfl, rfl, rfl, rfl, rfl, rfl, rfl⟩

theorem nack_wordTime {s : State} (h : Calm s) (w : Byte) : nackDrawn (midWord w 8 (wordTime w s)) = false :=
  nackDrawn_calm ((h.keeps (wordTime_keeps w s)).congr rfl rfl rfl rfl rfl)

/-- A write device address word. -/
theorem word_devW {s : State} (h : Calm s) (k : Taking s .gotStart) (sp : Space) :
    ∃ t, sendWord (devWord sp .write) s = t ∧ Slots 1 s t ∧ Taking t .expectAddr ∧ t.bus.sel = sp ∧
      (∀ r, ctrOf t.bus r = ctrOf s.bus r) ∧ t.bus.wbuf = s.bus.wbuf ∧
      t.seen.rx = s.seen.rx ∧ t.seen.acks = s.seen.acks ++ [true] := by
  have E := sendWord_devW h.toHears sp (nack_wordTime h _) k.state k.phase k.nbits k.sda
  have T := wordTime_slot (devWord sp .write) s
  generalize wordTime (devWord sp .write) s = u at E T
  refine ⟨_, E, T.slots (keeps_of u _ _ _) rfl rfl rfl rfl, ⟨rfl, rfl, rfl, rfl⟩, rfl, ?_, T.wbuf,
    by rw [← T.seen]; rfl, by rw [← T.seen]; rfl⟩
  intro r; rw [← T.ctr]; cases r <;> rfl

/-- A read device address word: the first byte is taken. -/
theorem word_devR {s : State} (h : Calm s) (k : Taking s .gotStart) (sp : Space) :
    ∃ t, sendWord (devWord sp .read) s = t ∧ Slots 1 s t ∧ Sending t sp ∧
      (∀ r, ctrOf t.bus r = ctrOf s.bus r) ∧ t.bus.wbuf = s.bus.wbuf ∧
      t.seen.rx = s.seen.rx ∧ t.seen.acks = s.seen.acks ++ [true] ∧
      Shows s sp (ctrOf s.bus sp) t.bus.shift := by
  have E := sendWord_devR h.toHears sp (nack_wordTime h _) k.state k.phase k.nbits k.sda
  have T := wordTime_slot (devWord sp .read) s
  generalize wordTime (devWord sp .read) s = u at E T
  refine ⟨_, E, T.slots (keeps_of u _ _ _) rfl rfl rfl rfl, ⟨rfl, rfl, rfl, rfl, rfl⟩, ?_, T.wbuf,
    by rw [← T.seen]; rfl, by rw [← T.seen]; rfl, ?_⟩
  · intro r; rw [← T.ctr]; cases r <;> rfl
  · refine Shows.congr (t := spend 1 { u with bus := { u.bus with
            sel := sp, state := .addressedRead, willAck := true, shift := devWord sp .read, nbits := 0, sda := .high
            phase := .ackOut } }) ?_ (T.toKeeps.trans (keeps_of u _ _ u.seen))
    have q := shows_sampleByte (spend 1 { u with bus := { u.bus with
            sel := sp, state := .addressedRead, willAck := true, shift := devWord sp .read, nbits := 0, sda := .high
            phase := .ackOut } }) sp (ctrOf u.bus sp)
    rw [← T.ctr]
    cases sp <;> exact q

/-- A data word address. -/
theorem word_addr {s : State} (h : Calm s) (k : Taking s .expectAddr) (a : Byte) :
    ∃ t, sendWord a s = t ∧ Slots 1 s t ∧ Taking t .writeData ∧ t.bus.sel = s.bus.sel ∧
      ctrOf t.bus s.bus.sel = a ∧ (∀ r, r ≠ s.bus.sel → ctrOf t.bus r = ctrOf s.bus r) ∧ t.bus.wbuf = [] ∧
      t.bus.loaded = a ∧ t.seen.rx = s.seen.rx ∧ t.seen.acks = s.seen.acks ++ [true] := by
  have E := sendWord_addr h k.state k.phase k.nbits k.sda a
  have T := wordTime_slot a s
  generalize wordTime a s = u at E T
  have sel : ∀ v, (setCtr s.bus.sel v u.bus).sel = s.bus.sel := by
    intro v; rw [setCtr_sel, T.sel]
  have x : (setCtr s.bus.sel a u.bus).stretching = u.bus.stretching := by cases s.bus.sel <;> rfl
  refine ⟨_, E, T.slots (keeps_of u _ _ _) x rfl rfl rfl, ⟨rfl, rfl, rfl, rfl⟩, sel a, ?_, ?_, rfl, rfl,
    by rw [← T.seen]; rfl, by rw [← T.seen]; rfl⟩
  · exact (show ctrOf (setCtr s.bus.sel a u.bus) s.bus.sel = a by simp) ▸ (by cases s.bus.sel <;> rfl)
  · intro r hr; rw [← T.ctr, ← ctrOf_setCtr_ne hr a u.bus]; cases s.bus.sel <;> cases r <;> rfl

/-- A data word of a write. -/
theorem word_data {s : State} (h : Calm s) (k : Taking s .writeData) (hw : s.bus.wbuf.length < 8) (d : Byte) :
    ∃ t, sendWord d s = t ∧ Slots 1 s t ∧ Taking t .writeData ∧ t.bus.sel = s.bus.sel ∧
      ctrOf t.bus s.bus.sel = ctrOf s.bus s.bus.sel + 1 ∧ (∀ r, r ≠ s.bus.sel → ctrOf t.bus r = ctrOf s.bus r) ∧
      t.bus.wbuf = s.bus.wbuf ++ [(ctrOf s.bus s.bus.sel, d)] ∧ t.bus.loaded = s.bus.loaded ∧
      t.seen.rx = s.seen.rx ∧ t.seen.acks = s.seen.acks ++ [true] := by
  have E := sendWord_data h k.state k.phase k.nbits k.sda hw d
  have T := wordTime_slot d s
  generalize wordTime d s = u at E T
  have x : (stepCtr s.bus.sel u.bus).stretching = u.bus.stretching := by cases s.bus.sel <;> rfl
  have y : (stepCtr s.bus.sel u.bus).state = .writeData := by
    rw [show (stepCtr s.bus.sel u.bus).state = u.bus.state by cases s.bus.sel <;> rfl, T.state, k.state]
  have z : (stepCtr s.bus.sel u.bus).sel = s.bus.sel := by
    rw [stepCtr, setCtr_sel, T.sel]
  have l : (stepCtr s.bus.sel u.bus).loaded = s.bus.loaded := by
    rw [← T.loaded]; cases s.bus.sel <;> rfl
  refine ⟨_, E, T.slots (keeps_of u _ _ _) x rfl rfl rfl, ⟨y, rfl, rfl, rfl⟩, z, ?_, ?_, rfl, l,
    by rw [← T.seen]; rfl, by rw [← T.seen]; rfl⟩
  · rw [← T.ctr s.bus.sel, ← ctrOf_stepCtr]; cases s.bus.sel <;> rfl
  · intro r hr; rw [← T.ctr r, ← ctrOf_stepCtr_ne hr u.bus]; cases s.bus.sel <;> cases r <;> rfl

/-! ### Words the host takes in -/

/-- The word of `u` is out; the acknowledge bit of the host is next. -/
def wordOut (u : State) : State :=
  { u with bus := { stepCtr u.bus.sel u.bus with shift := u.bus.shift <<< 7, nbits := 8, phase := .ackIn, sda := .high } }

theorem Sending.slot {s u : State} {sp : Space} (k : Sending s sp) (q : SlotTime s u) : Sending u sp :=
  ⟨q.state.trans k.state, q.phase.trans k.phase, q.nbits.trans k.nbits, by rw [q.sda, k.sda, q.shift], q.sel.trans k.sel⟩

theorem readBits_sending {u : State} (h : Calm u) {sp : Space} (k : Sending u sp) :
    readBits 8 0 u = (u.bus.shift, wordOut u) :=
  readBits_send h k.phase k.nbits k.sda

theorem wordOut_calm {s : State} (h : Calm s) : Calm (wordOut s) := h.congr rfl rfl rfl rfl rfl

theorem wordOut_phase (s : State) : (wordOut s).bus.phase = .ackIn := rfl

theorem wordOut_sda (s : State) : (wordOut s).bus.sda = .high := rfl

theorem wordOut_ctr {u : State} {sp : Space} (h : u.bus.sel = sp) :
    (wordOut u).bus.sel = sp ∧ ctrOf (wordOut u).bus sp = ctrOf u.bus sp + 1 ∧
      (∀ r, r ≠ sp → ctrOf (wordOut u).bus r = ctrOf u.bus r) := by
  subst h
  refine ⟨?_, ?_, ?_⟩
  · rw [wordOut]; cases h : u.bus.sel <;> exact h
  · rw [← ctrOf_stepCtr, wordOut]; cases u.bus.sel <;> rfl
  · intro r hr; rw [← ctrOf_stepCtr_ne hr u.bus, wordOut]; cases u.bus.sel <;> cases r <;> rfl

theorem wordOut_keeps (u : State) : Keeps u (wordOut u) := putBus_keeps u _

theorem wordOut_rest (u : State) :
    (wordOut u).bus.state = u.bus.state ∧ (wordOut u).bus.wbuf = u.bus.wbuf ∧
      (wordOut u).bus.stretching = u.bus.stretching := by
  rw [wordOut]; cases u.bus.sel <;> exact ⟨rfl, rfl, rfl⟩

/-- A word the host acknowledges: the next one stands on SDA. -/
theorem word_readAck {s : State} (h : Calm s) {sp : Space} (k : Sending s sp) :
    ∃ t, readWord true s = t ∧ Slots 1 s t ∧ Sending t sp ∧ ctrOf t.bus sp = ctrOf s.bus sp + 1 ∧
      (∀ r, r ≠ sp → ctrOf t.bus r = ctrOf s.bus r) ∧ t.bus.wbuf = s.bus.wbuf ∧
      t.seen.rx = s.seen.rx ++ [s.bus.shift] ∧ t.seen.acks = s.seen.acks ++ [true] ∧
      Shows s sp (ctrOf s.bus sp + 1) t.bus.shift := by
  have T := clockTime_slot s
  rw [readWord]
  generalize clockTime 9 s = u at T
  have cu : Calm u := h.keeps T.toKeeps
  have ku := k.slot T
  have c := wordOut_calm cu
  obtain ⟨c1, c2, c3⟩ := wordOut_ctr ku.sel
  obtain ⟨r1, r2, r3⟩ := wordOut_rest u
  have K := wordOut_keeps u
  have e : pulse .low (wordOut u) = sendNext { wordOut u with bus := { (wordOut u).bus with hostAck := true } } := by
    rw [pulse_calm c, sdaLine_calm c]
    have : sclRise (Level.low.meet (wordOut u).bus.sda) (wordOut u) =
        { wordOut u with bus := { (wordOut u).bus with hostAck := true } } := by
      rw [sclRise, wordOut_phase]; rfl
    rw [this, sclFall]; rfl
  rw [readBits_sending cu ku]
  dsimp only
  rw [if_pos rfl, e]
  have q := shows_sampleByte { wordOut u with bus := { (wordOut u).bus with hostAck := true } } sp
    (ctrOf s.bus sp + 1)
  have ee : (wordOut u).raised = u.raised ∧ (wordOut u).seen = u.seen ∧ (wordOut u).clk = u.clk := ⟨rfl, rfl, rfl⟩
  generalize wordOut u = w at *
  obtain ⟨e1, e2, e3⟩ := ee
  refine ⟨_, rfl, T.slots (K.trans (keeps_of w _ _ _)) r3 e1 (by rw [← e2]; rfl) (by rw [← e3]; rfl),
    ⟨r1.trans (T.state.trans k.state), rfl, rfl, rfl, c1⟩, ?_, ?_, r2.trans T.wbuf, ?_, ?_, ?_⟩
  · rw [← T.ctr, ← c2]; cases sp <;> rfl
  · intro r hr; rw [← T.ctr, ← c3 r hr]; cases r <;> rfl
  · rw [← T.seen, ← e2, ← T.shift]; rfl
  · rw [← T.seen, ← e2]; rfl
  · have x : ctrOf { w.bus with hostAck := true } sp = ctrOf s.bus sp + 1 := by
      rw [← T.ctr, ← c2]; cases sp <;> rfl
    have y : w.bus.sel = sp := c1
    have z : Shows { w with bus := { w.bus with hostAck := true } } sp (ctrOf s.bus sp + 1)
        (sampleByte { w with bus := { w.bus with hostAck := true } } w.bus.sel
          (ctrOf { w.bus with hostAck := true } w.bus.sel)) := by rw [y, x]; exact q
    exact Shows.congr z (T.toKeeps.trans (K.trans (keeps_of w w.clk _ w.seen)))

/-- The last word: the module lets SDA go and waits. -/
theorem word_readLast {s : State} (h : Calm s) {sp : Space} (k : Sending s sp) :
    ∃ t, readWord false s = t ∧ Slots 1 s t ∧ t.bus.state = .idleUntilStop ∧ t.bus.phase = .off ∧ t.bus.nbits = 0 ∧
      t.bus.sda = .high ∧ t.bus.sel = sp ∧ ctrOf t.bus sp = ctrOf s.bus sp + 1 ∧
      (∀ r, r ≠ sp → ctrOf t.bus r = ctrOf s.bus r) ∧ t.bus.wbuf = s.bus.wbuf ∧
      t.seen.rx = s.seen.rx ++ [s.bus.shift] ∧ t.seen.acks = s.seen.acks ++ [false] := by
  have T := clockTime_slot s
  rw [readWord]
  generalize clockTime 9 s = u at T
  have cu : Calm u := h.keeps T.toKeeps
  have ku := k.slot T
  have c := wordOut_calm cu
  obtain ⟨c1, c2, c3⟩ := wordOut_ctr ku.sel
  obtain ⟨r1, r2, r3⟩ := wordOut_rest u
  have K := wordOut_keeps u
  have e : pulse .high (wordOut u) =
      { wordOut u with bus := { (wordOut u).bus with
          hostAck := false, phase := .off, state := .idleUntilStop, nbits := 0, sda := .high } } := by
    rw [pulse_calm c, sdaLine_calm c]
    have : sclRise (Level.high.meet (wordOut u).bus.sda) (wordOut u) =
        { wordOut u with bus := { (wordOut u).bus with hostAck := false } } := by
      rw [sclRise, wordOut_phase]; rfl
    rw [this, sclFall]; rfl
  rw [readBits_sending cu ku]
  dsimp only
  rw [if_neg Bool.false_ne_true, e]
  have ee : (wordOut u).raised = u.raised ∧ (wordOut u).seen = u.seen ∧ (wordOut u).clk = u.clk := ⟨rfl, rfl, rfl⟩
  generalize wordOut u = w at *
  obtain ⟨e1, e2, e3⟩ := ee
  refine ⟨_, rfl, T.slots (K.trans (keeps_of w _ _ _)) r3 e1 (by rw [← e2]) (by rw [← e3]),
    rfl, rfl, rfl, rfl, c1, ?_, ?_, r2.trans T.wbuf, ?_, ?_⟩
  · rw [← T.ctr, ← c2]; cases sp <;> rfl
  · intro r hr; rw [← T.ctr, ← c3 r hr]; cases r <;> rfl
  · rw [← T.seen, ← e2, ← T.shift]
  · rw [← T.seen, ← e2]

theorem one_add_ofNat (n : Nat) : (1 : Byte) + BitVec.ofNat 8 n = BitVec.ofNat 8 (n + 1) := by
  rw [Nat.add_comm n 1, BitVec.ofNat_add]; rfl

/-- n data words, all but the last acknowledged. -/
theorem words_read {s : State} (h : Calm s) {sp : Space} (k : Sending s sp) (n : Nat) (hn : 1 ≤ n)
    (v : Shows s sp (ctrOf s.bus sp) s.bus.shift) :
    ∃ t vs, readWords n s = t ∧ Slots n s t ∧ t.bus.state = .idleUntilStop ∧ t.bus.phase = .off ∧
      t.bus.nbits = 0 ∧ t.bus.sda = .high ∧ t.bus.sel = sp ∧
      ctrOf t.bus sp = ctrOf s.bus sp + BitVec.ofNat 8 n ∧
      (∀ r, r ≠ sp → ctrOf t.bus r = ctrOf s.bus r) ∧ t.bus.wbuf = s.bus.wbuf ∧
      t.seen.rx = s.seen.rx ++ vs ∧ vs.length = n ∧
      t.seen.acks = s.seen.acks ++ List.replicate (n - 1) true ++ [false] ∧
      ∀ i x, vs[i]? = some x → Shows s sp (ctrOf s.bus sp + BitVec.ofNat 8 i) x := by
  induction n generalizing s with
  | zero => omega
  | succ n ih =>
    cases n with
    | zero =>
      obtain ⟨t, e, a, h1, h2, h3, h4, h5, h6, h7, h8, h9, h10⟩ := word_readLast h k
      refine ⟨t, [s.bus.shift], e, a, h1, h2, h3, h4, h5, h6, h7, h8, h9, rfl, by simpa using h10, ?_⟩
      intro i x hi
      cases i with
      | zero =>
        have hx : s.bus.shift = x := by simpa using hi
        subst hx; simpa using v
      | succ i => simp at hi
    | succ n =>
      obtain ⟨t, e, a, h1, h6, h7, h8, h9, h10, hv⟩ := word_readAck h k
      have v' : Shows t sp (ctrOf t.bus sp) t.bus.shift := by
        rw [h6]; exact hv.forward a.toKeeps
      obtain ⟨u, vs, e', b, g1, g2, g3, g4, g5, g6, g7, g8, g9, gl, g10, gv⟩ := ih (h.keeps a.toKeeps) h1 (by omega) v'
      refine ⟨u, s.bus.shift :: vs, ?_, ?_, g1, g2, g3, g4, g5, ?_, ?_, ?_, ?_, ?_, ?_, ?_⟩
      · rw [readWords, e, e']
      · have := a.trans b
        rwa [show 1 + (n + 1) = n + 1 + 1 by omega] at this
      · rw [g6, h6, BitVec.add_assoc, one_add_ofNat]
      · intro r hr; rw [g7 r hr, h7 r hr]
      · rw [g8, h8]
      · rw [g9, h9, List.append_assoc]; rfl
      · simp [gl]
      · rw [g10, h10]
        simp [List.replicate_succ]
      · intro i x hi
        cases i with
        | zero =>
          have hx : s.bus.shift = x := by simpa using hi
          subst hx; simpa using v
        | succ i =>
          have := gv i x (by simpa using hi)
          rw [h6, BitVec.add_assoc, one_add_ofNat] at this
          exact this.congr a.toKeeps

theorem wordsAt_length (a : Byte) (ds : List Byte) : (wordsAt a ds).length = ds.length := by
  induction ds generalizing a with
  | nil => rfl
  | cons d ds ih => simp [wordsAt, ih]

theorem acked_iff {s : State} {l : List Bool} (h : s.seen.acks = l ++ [true]) : acked s = true := by
  simp [acked, h]

/-- Data words of a write, all acknowledged. -/
theorem words_sent {s : State} (h : Calm s) (k : Taking s .writeData) (ds : List Byte)
    (hw : s.bus.wbuf.length + ds.length ≤ 8) :
    ∃ t, sendAll ds s = t ∧ Slots ds.length s t ∧ Taking t .writeData ∧ t.bus.sel = s.bus.sel ∧
      ctrOf t.bus s.bus.sel = ctrOf s.bus s.bus.sel + BitVec.ofNat 8 ds.length ∧
      (∀ r, r ≠ s.bus.sel → ctrOf t.bus r = ctrOf s.bus r) ∧
      t.bus.wbuf = s.bus.wbuf ++ wordsAt (ctrOf s.bus s.bus.sel) ds ∧ t.bus.loaded = s.bus.loaded ∧
      t.seen.rx = s.seen.rx ∧ t.seen.acks = s.seen.acks ++ List.replicate ds.length true := by
  induction ds generalizing s with
  | nil => exact ⟨s, rfl, Slots.refl s, k, rfl, by simp, fun _ _ => rfl, by simp [wordsAt], rfl, rfl, by simp⟩
  | cons d ds ih =>
    simp only [List.length_cons] at hw
    obtain ⟨t, e, a, h1, h2, h3, h4, h5, h6, h7, h8⟩ := word_data h k (by omega) d
    obtain ⟨u, e', b, g1, g2, g3, g4, g5, g6, g7, g8⟩ :=
      ih (h.keeps a.toKeeps) h1 (by rw [h5, List.length_append]; simp only [List.length_singleton]; omega)
    rw [h2] at g2 g3 g4 g5
    refine ⟨u, ?_, ?_, g1, g2, ?_, ?_, ?_, ?_, ?_, ?_⟩
    · rw [sendAll, sendThen, e, if_pos (acked_iff h8), e']
    · have := a.trans b
      rwa [Nat.add_comm] at this
    · rw [g3, h3, List.length_cons, BitVec.add_assoc, one_add_ofNat]
    · intro r hr; rw [g4 r hr, h4 r hr]
    · rw [g5, h5, h3, List.append_assoc]; rfl
    · rw [g6, h6]
    · rw [g7, h7]
    · rw [g8, h8]; simp [List.replicate_succ]

/-! ### START and STOP -/

/-- What START leaves alone and what it sets. -/
structure Began (s t : State) : Prop where
  cfg : t.cfg = s.cfg
  out : t.out = s.out
  slot : t.slot = s.slot
  tx : t.tx = s.tx
  rcv : t.rcv = s.rcv
  rate : t.rate = s.rate
  lvl : t.lvl = s.lvl
  wr : t.wr = s.wr
  mem : t.mem = s.mem
  script : t.script = s.script
  raised : t.raised = s.raised
  host : t.host = { s.host with inFrame := true }
  seen : t.seen = (openFrame s).seen
  stretching : s.bus.stretching = false → t.bus.stretching = false
  wbuf : t.bus.wbuf = []
  ctr : ∀ r, ctrOf t.bus r = ctrOf s.bus r
  now : s.clk.now ≤ t.clk.now

/-- The interface of a module that listens has nothing to come. -/
theorem settleInterface_listening {s : State} (h : listening s = true) : settleInterface s = s := by
  obtain ⟨-, -, h3, -, h5⟩ := (listening_iff s).1 h
  simp [settleInterface, settleReady, settleWrite, h3, h5]

theorem awaitFree_eq {s : State} (hl : listening s = true) :
    ∃ n, s.clk.now ≤ n ∧ awaitFree s = { s with clk := { s.clk with now := n } } ∧
      busFree { s with clk := { s.clk with now := n } } = true := by
  unfold awaitFree busFree
  cases h : s.bus.freeAt with
  | none => exact ⟨s.clk.now, le_refl _, rfl, by simp [h]⟩
  | some x =>
    exact ⟨max s.clk.now (x + Config.tBuf), le_max_left _ _, settleInterface_listening hl, by simp [h]⟩

/-- A bus that is free stays free while only time passes. -/
theorem busFree_later {s u : State} (h : busFree s = true) (hf : u.bus.freeAt = s.bus.freeAt)
    (hn : s.clk.now ≤ u.clk.now) : busFree u = true := by
  unfold busFree at h ⊢
  rw [hf]
  cases e : s.bus.freeAt with
  | none => rfl
  | some x => rw [e] at h; have := of_decide_eq_true h; exact decide_eq_true (by omega)

/-- START on a free bus: the module sees it. -/
theorem hostStart_seen {s : State} (h : Hears s) (hd : s.bus.sda = .high) (hf : busFree s = true) :
    hostStart s = spend 2 (seeStart (openFrame (advance (Config.tSuSta + Config.tHdSta) (lowPeriod s)))) := by
  have q := lowPeriod_quiet s
  have line : ¬ sdaLine .high s = .low := by rw [sdaLine_hears h]; simp [hd, Level.meet]
  have hu : Hears (lowPeriod s) := h.keeps q.toKeeps
  rw [hostStart, if_neg line]
  dsimp only
  rw [if_pos]
  rw [hu.lis, edgeLost_waits hu.waits, busFree_later (u := lowPeriod s) hf rfl q.now]; rfl

/-- START on a free bus, seen by the module. -/
theorem start_seen {s : State} (h : Calm s) (hd : s.bus.sda = .high) (hw : s.bus.state = .writeData → s.bus.wbuf = []) :
    ∃ t, (∀ k, startThen k s = k t) ∧ Began s t ∧ Taking t .gotStart := by
  obtain ⟨n, hn, e, f⟩ := awaitFree_eq h.lis
  set u : State := { s with clk := { s.clk with now := n } } with hu
  have cu : Calm u := h.congr rfl rfl rfl rfl rfl
  have line : ¬ sdaLine .high u = .low := by rw [sdaLine_calm cu, hu]; simp [hd, Level.meet]
  have q := lowPeriod_quiet u
  have st := hostStart_seen cu.toHears (show u.bus.sda = .high from hd) f
  generalize lowPeriod u = x at q st
  have ab : abortWrite (openFrame (advance (Config.tSuSta + Config.tHdSta) x)) =
      openFrame (advance (Config.tSuSta + Config.tHdSta) x) := by
    rw [abortWrite, if_neg]
    rintro ⟨a, b⟩; exact b (q.wbuf.trans (hw (q.state.symm.trans a)))
  rw [seeStart, ab] at st
  refine ⟨spend 2 (gotStart (openFrame (advance (Config.tSuSta + Config.tHdSta) x))), ?_, ?_, ⟨rfl, rfl, rfl, rfl⟩⟩
  · intro k; rw [startThen, e, if_neg line, st]
  · refine ⟨q.cfg, q.out, q.slot, q.tx, q.rcv, q.rate, q.lvl, q.wr, q.mem, q.script, q.raised, ?_, ?_, q.stretching,
      rfl, ?_, hn.trans (q.now.trans (Nat.le_add_right _ _))⟩
    · show ({ x.host with inFrame := true } : HostSide) = _; rw [q.host]
    · show (openFrame x).seen = _; simp only [openFrame]; rw [q.host, q.seen]
    · intro r; rw [show ctrOf s.bus r = ctrOf x.bus r from (q.ctr r).symm]; cases r <;> rfl

theorem Calm.began {s t : State} (h : Calm s) (b : Began s t) : Calm t :=
  ⟨⟨by simpa [listening, b.slot, b.wr] using h.lis, by rw [b.out]; exact h.held, by rw [b.host]; exact h.waits⟩,
    by rw [b.cfg]; exact h.nack⟩

/-- What STOP does to a transaction that is no write with data, seen after its set-up time; `b` is until when the host must
take the module to be busy, and whether with a write. -/
def closed (b : Option Nat × Bool) (s : State) : State :=
  { goIdle s with
    host := { s.host with inFrame := false }
    bus := { (goIdle s).bus with freeAt := some s.clk.now, deafTill := b.1, deafWrite := b.2 } }

theorem stop_plain {s : State} (h : Calm s) (hd : s.bus.sda = .high) (hs : s.bus.state ≠ .writeData) :
    hostStop s = closed (s.bus.deafTill, s.bus.deafWrite) (closing s) := by
  have line : ¬ sdaLine .high s = .low := by rw [sdaLine_calm h]; simp [hd, Level.meet]
  have q := closing_quiet s
  have c : Hears (closing s) := h.toHears.keeps q.toKeeps
  have p : edgeLost (lowPeriod s) = false := edgeLost_waits c.waits
  have st : (closing s).bus.state ≠ .writeData := fun e => hs (q.state.symm.trans e)
  have mw : mayWrite (closing s) = false := by rw [mayWrite, decide_eq_false st, Bool.and_false, Bool.false_and]
  rw [hostStop, if_neg line]
  dsimp only
  rw [p, show spend 1 (advance Config.tSuSto (lowPeriod s)) = closing s from rfl, c.lis, mw, q.deafTill, q.deafWrite]
  simp only [Bool.not_false, Bool.and_true, if_true, Bool.false_eq_true, if_false, Bool.false_or]
  rw [seeStop, if_neg st]; rfl

theorem stop_write {s : State} (h : Calm s) (k : Taking s .writeData) (hw : s.bus.wbuf ≠ []) :
    hostStop s =
      closed (some (writeBound (closing s)), true)
        (stopLevel (closing s).bus (stopSoftTx (closing s).bus (beginWrite (closing s)))) := by
  have line : ¬ sdaLine .high s = .low := by rw [sdaLine_calm h]; simp [k.sda, Level.meet]
  have q := closing_quiet s
  have c : Hears (closing s) := h.toHears.keeps q.toKeeps
  have p : edgeLost (lowPeriod s) = false := edgeLost_waits c.waits
  have st : (closing s).bus.state = .writeData := q.state.trans k.state
  have nw : (closing s).bus.wbuf ≠ [] := fun e => hw (q.wbuf.symm.trans e)
  have nb : (closing s).bus.nbits = 0 := q.nbits.trans k.nbits
  have mw : mayWrite (closing s) = true := by simp [mayWrite, c.lis, st, nb]
  rw [hostStop, if_neg line]
  dsimp only
  rw [p, show spend 1 (advance Config.tSuSto (lowPeriod s)) = closing s from rfl, c.lis, mw]
  simp only [Bool.not_false, Bool.and_true, if_true, Bool.true_or]
  rw [seeStop, if_pos st, if_neg nw, if_pos nb]; rfl

/-! ### Words nobody takes -/

/-- The module hears nothing, or its engine is in no word. -/
def Aside (s : State) : Prop := listening s = false ∨ (s.bus.phase = .off ∧ s.host.honours = true)

theorem pulse_aside {s : State} (h : Aside s) (x : Level) : pulse x s = s := by
  unfold pulse
  rcases h with h | ⟨h, g⟩
  · simp [h]
  · simp [sclRise, sclFall, h, g]

theorem sendBits_aside {s : State} (h : Aside s) (w : Byte) (n : Nat) : sendBits w n s = s := by
  induction n with
  | zero => rfl
  | succ n ih => rw [sendBits, pulse_aside h, ih]

theorem Aside.slot {s u : State} (h : Aside s) (k : SlotTime s u) : Aside u := by
  rcases h with h | ⟨h, g⟩
  · left; simpa [listening, k.slot, k.wr] using h
  · right; rw [k.phase, k.host]; exact ⟨h, g⟩

/-- A word slot that nobody answers: the host reads NACK. -/
theorem sendWord_aside {s : State} (h : Aside s) (hl : sdaLine .high s = .high) (w : Byte) :
    sendWord w s =
      raise .noAcknowledge
        { wordTime w s with seen := { s.seen with acks := s.seen.acks ++ [false] } } := by
  have k := wordTime_slot w s
  have c : Aside (wordTime w s) := h.slot k
  have l : sdaLine .high (wordTime w s) = .high := by
    simpa [sdaLine, k.out, k.slot, k.sda] using hl
  have e := k.seen
  rw [sendWord, sendBits_aside c]
  generalize wordTime w s = u at c l e ⊢
  rw [hearAck]
  simp only [l, pulse_aside c]
  rw [← e]; rfl

/-- A word slot of a word the module does not take: it goes out of the transaction. -/
theorem sendWord_refused {s : State} (h : Hears s) (k : Taking s .gotStart) (w : Byte)
    (e : takeWord (midWord w 8 (wordTime w s)) =
      spend 1 { wordTime w s with bus := { (wordTime w s).bus with
        state := .ignoring, willAck := false, shift := w, nbits := 8 } }) :
    sendWord w s =
      raise .noAcknowledge
        (spend 1 { wordTime w s with
          seen := { s.seen with acks := s.seen.acks ++ [false] }
          bus := { (wordTime w s).bus with
            state := .ignoring, willAck := false, shift := w, nbits := 0, phase := .off, sda := .high } }) := by
  have q := wordTime_slot w s
  have c : Hears (wordTime w s) := h.keeps q.toKeeps
  rw [sendWord, ← q.seen]
  generalize wordTime w s = x at c q e ⊢
  have p9 : x.bus.phase = .recv := q.phase.trans k.phase
  rw [sendBits_recv c p9 (q.nbits.trans k.nbits) (q.sda.trans k.sda), e]
  generalize hu : ({ x with bus := { x.bus with
        state := .ignoring, willAck := false, shift := w, nbits := 8 } } : State) = u
  have hp : (spend 1 u).bus.phase = .recv := by rw [← hu]; exact p9
  have f : sclFall (spend 1 u) = { spend 1 u with bus := { u.bus with phase := .ackOut, sda := .high } } := by
    rw [sclFall, hp, ← hu]; rfl
  rw [f]
  generalize hv : ({ spend 1 u with bus := { u.bus with phase := .ackOut, sda := .high } } : State) = v
  have cv : Hears v := c.congr (by rw [← hv, ← hu]; rfl) (by rw [← hv, ← hu]; rfl) (by rw [← hv, ← hu]; rfl)
    (by rw [← hv, ← hu]; rfl)
  have hl : sdaLine .high v = .high := by rw [sdaLine_hears cv, ← hv]; rfl
  have hpv : pulse .high v = { v with bus := { v.bus with sda := .high, nbits := 0, phase := .off } } := by
    rw [pulse_hears cv, hl]
    rw [← hv, ← hu]; rfl
  rw [hearAck, hl, hpv, ← hv, ← hu]
  rfl

/-- A word slot of a word the module refuses: it goes out of the transaction. -/
theorem sendWord_foreign {s : State} (h : Calm s) (k : Taking s .gotStart) (w : Byte)
    (hw : w &&& 0xFC#8 ≠ 0xA0#8) :
    sendWord w s =
      raise .noAcknowledge
        (spend 1 { wordTime w s with
          seen := { s.seen with acks := s.seen.acks ++ [false] }
          bus := { (wordTime w s).bus with
            state := .ignoring, willAck := false, shift := w, nbits := 0, phase := .off, sda := .high } }) := by
  refine sendWord_refused h.toHears k w ?_
  have q := wordTime_slot w s
  generalize wordTime w s = x at q ⊢
  have st : (midWord w 8 x).bus.state = .gotStart := q.state.trans k.state
  have sh : (midWord w 8 x).bus.shift = w := rfl
  have dd : decodeDev w = .error (.foreignAddress w) := by rw [decodeDev, if_neg hw]
  rw [takeWord, st]; dsimp only
  rw [takeDeviceWord, sh, dd]; rfl

end Sys2Proof.Machine
end

