-- ==== Sys2Proof/Laws/Memory.lean ====
section
/-! SUPPORT. What the operations over memory do: a read after a write, the bytes a write cycle changes and the ones it leaves,
and the canonical form, which every one of them keeps (20_memory.md R93, R96). -/

namespace Sys2Proof.Machine

theorem lookup_insert (k j : Nat) (v : Byte) (m : List Host.Cell) :
    (Memory.insert k v m).lookup j = if j = k then some v else m.lookup j := by
  induction m with
  | nil =>
    by_cases h : j = k
    · simp [Memory.insert, h]
    · have : (j == k) = false := by simpa using h
      rw [Memory.insert, List.lookup_cons, this, if_neg h]
  | cons c m ih =>
    obtain ⟨a, w⟩ := c
    by_cases h1 : k < a
    · rw [Memory.insert, if_pos h1]
      by_cases h : j = k
      · simp [List.lookup, h]
      · have : (j == k) = false := by simpa using h
        rw [List.lookup_cons, this, if_neg h]
    · by_cases h2 : k = a
      · rw [Memory.insert, if_neg h1, if_pos h2]
        by_cases h : j = k
        · simp [List.lookup, h]
        · have e1 : (j == k) = false := by simpa using h
          have e2 : (j == a) = false := by rw [← h2]; exact e1
          rw [List.lookup_cons, List.lookup_cons, e1, e2, if_neg h]
      · rw [Memory.insert, if_neg h1, if_neg h2, List.lookup_cons, List.lookup_cons, ih]
        by_cases h : j = k
        · have : (j == a) = false := by simp [h, h2]
          rw [this]
        · simp only [if_neg h]

theorem lookup_erase (k j : Nat) (m : List Host.Cell) :
    (Memory.erase k m).lookup j = if j = k then none else m.lookup j := by
  induction m with
  | nil => simp [Memory.erase]
  | cons c m ih =>
    obtain ⟨a, w⟩ := c
    simp only [Memory.erase] at ih ⊢
    by_cases h1 : a = k
    · rw [List.filter_cons_of_neg (by simp [h1]), ih]
      by_cases h : j = k
      · simp [h]
      · have : (j == a) = false := by rw [h1]; simpa using h
        rw [if_neg h, if_neg h, List.lookup_cons, this]
    · rw [List.filter_cons_of_pos (by simp [h1]), List.lookup_cons, List.lookup_cons, ih]
      by_cases h : j = k
      · have : (j == a) = false := by simp [h]; exact fun e => h1 e.symm
        rw [this]
      · simp only [if_neg h]

theorem mem_insert {k : Nat} {v : Byte} {m : List Host.Cell} {c : Host.Cell} (h : c ∈ Memory.insert k v m) :
    c = (k, v) ∨ c ∈ m := by
  induction m with
  | nil => simpa [Memory.insert] using h
  | cons d m ih =>
    unfold Memory.insert at h
    split at h
    · simpa using h
    · split at h
      · rcases List.mem_cons.1 h with h | h
        · exact .inl h
        · exact .inr (List.mem_cons_of_mem _ h)
      · rcases List.mem_cons.1 h with h | h
        · exact .inr (by rw [h]; exact List.mem_cons_self)
        · rcases ih h with h | h
          · exact .inl h
          · exact .inr (List.mem_cons_of_mem _ h)

theorem insert_pairwise {k : Nat} {v : Byte} {m : List Host.Cell} (h : m.Pairwise fun a b => a.1 < b.1) :
    (Memory.insert k v m).Pairwise fun a b => a.1 < b.1 := by
  induction m with
  | nil => simp [Memory.insert]
  | cons d m ih =>
    obtain ⟨h1, h2⟩ := List.pairwise_cons.1 h
    unfold Memory.insert
    split
    · rename_i hk
      refine List.pairwise_cons.2 ⟨fun c hc => ?_, h⟩
      rcases List.mem_cons.1 hc with rfl | hc
      · exact hk
      · exact Nat.lt_trans hk (h1 c hc)
    · split
      · rename_i hk
        exact List.pairwise_cons.2 ⟨fun c hc => by rw [hk]; exact h1 c hc, h2⟩
      · rename_i hk1 hk2
        refine List.pairwise_cons.2 ⟨fun c hc => ?_, ih h2⟩
        rcases mem_insert hc with rfl | hc
        · show d.1 < k; omega
        · exact h1 c hc

/-- Every cell of canonical memory stands for itself. -/
theorem wf_iff {init : List (Nat × Byte)} {m : List Host.Cell} :
    Memory.wf init m = true ↔
      (m.Pairwise fun a b => a.1 < b.1) ∧ ∀ c ∈ m, c.1 < 512 ∧ Memory.unlisted init c.1 ≠ some c.2 := by
  simp [Memory.wf]

/-- No memory cell is listed after reset: the form holds. -/
theorem wf_nil (init : List (Nat × Byte)) : Memory.wf init [] = true := by simp [Memory.wf]

/-- One write keeps the canonical form, wherever it lands. -/
theorem write_keeps_wf (init : List (Nat × Byte)) {k : Nat} {v : Byte} {m : List Host.Cell} (hk : k < 512)
    (h : Memory.wf init m = true) : Memory.wf init (Memory.write init k v m) = true := by
  obtain ⟨h1, h2⟩ := wf_iff.1 h
  unfold Memory.write
  split
  · exact wf_iff.2 ⟨h1.filter _, fun c hc => h2 c (List.mem_filter.1 hc).1⟩
  · rename_i hu
    refine wf_iff.2 ⟨insert_pairwise h1, fun c hc => ?_⟩
    rcases mem_insert hc with rfl | hc
    · exact ⟨hk, hu⟩
    · exact h2 c hc

theorem memKey_lt (s : Space) (a : Byte) : memKey s a < 512 := by
  have := a.isLt
  cases s <;> simp only [memKey] <;> omega

theorem writeAll_keeps_wf (c : Params) (s : Space) (l : List (Byte × Byte)) {m : List Host.Cell}
    (h : Memory.wf c.init m = true) : Memory.wf c.init (Memory.writeAll c s l m) = true := by
  induction l generalizing m with
  | nil => exact h
  | cons w l ih =>
    obtain ⟨a, v⟩ := w
    rw [Memory.writeAll]
    refine ih ?_
    split
    · exact write_keeps_wf _ (memKey_lt s a) h
    · exact h

theorem spoilAll_keeps_wf (c : Params) (s : Space) (k : Nat) (l : List (Byte × Byte)) {m : List Host.Cell}
    (h : Memory.wf c.init m = true) : Memory.wf c.init (Memory.spoilAll c s k l m) = true := by
  induction l generalizing k m with
  | nil => exact h
  | cons w l ih =>
    obtain ⟨a, v⟩ := w
    rw [Memory.spoilAll]
    refine ih (k + 1) ?_
    split
    · exact write_keeps_wf _ (memKey_lt s a) h
    · exact h

theorem memKey_inj {s r : Space} {a b : Byte} (h : memKey s a = memKey r b) : s = r ∧ a = b := by
  have x := a.isLt
  have y := b.isLt
  cases s <;> cases r <;> simp only [memKey] at h
  · exact ⟨rfl, BitVec.eq_of_toNat_eq h⟩
  · omega
  · omega
  · exact ⟨rfl, BitVec.eq_of_toNat_eq (by omega)⟩

end Sys2Proof.Machine
end

