-- ==== Sys2Proof/Laws/Transmitter.lean ====
section
/-! SUPPORT. What the shared operations over the transmitter, the rate selection and the power level leave alone: each
changes its own unit and uses free values, and nothing else. -/

namespace Sys2Proof.Machine

/-- The states that differ from `s` in the transmitter and the free values used, at most. -/
def TxOnly (s t : State) : Prop := ∃ x n, t = { s with tx := x, clk := { s.clk with drawn := n } }

/-- The states that differ from `s` in the rate selection and the free values used, at most. -/
def RateOnly (s t : State) : Prop := ∃ x n, t = { s with rate := x, clk := { s.clk with drawn := n } }

/-- The states that differ from `s` in the power level and the free values used, at most. -/
def LvlOnly (s t : State) : Prop := ∃ x n, t = { s with lvl := x, clk := { s.clk with drawn := n } }

theorem TxOnly.refl (s : State) : TxOnly s s := ⟨s.tx, s.clk.drawn, rfl⟩

theorem RateOnly.refl (s : State) : RateOnly s s := ⟨s.rate, s.clk.drawn, rfl⟩

theorem LvlOnly.refl (s : State) : LvlOnly s s := ⟨s.lvl, s.clk.drawn, rfl⟩

theorem TxOnly.trans {s t u : State} (a : TxOnly s t) (b : TxOnly t u) : TxOnly s u := by
  obtain ⟨x, n, rfl⟩ := a
  obtain ⟨y, m, rfl⟩ := b
  exact ⟨y, m, rfl⟩

theorem RateOnly.trans {s t u : State} (a : RateOnly s t) (b : RateOnly t u) : RateOnly s u := by
  obtain ⟨x, n, rfl⟩ := a
  obtain ⟨y, m, rfl⟩ := b
  exact ⟨y, m, rfl⟩

/-! ### The transmitter -/

theorem beginInit_txOnly (s : State) : TxOnly s (beginInit s) := ⟨_, _, rfl⟩

theorem keepPending_txOnly {f : State → State} {s : State} (k : TxOnly s (f s)) : TxOnly s (keepPending f s) := by
  unfold keepPending; split
  · exact k.trans ⟨_, (f s).clk.drawn, rfl⟩
  · exact k

/-- A pending detection stands as it did, -/
theorem keepPending_faultDue (f : State → State) {s : State} (h : s.tx.faultDue.isSome) :
    (keepPending f s).tx.faultDue = s.tx.faultDue := by simp [keepPending, h]

/-- and where none is pending, `f` is all there is. -/
theorem keepPending_none (f : State → State) {s : State} (h : s.tx.faultDue = none) : keepPending f s = f s := by
  simp [keepPending, h]

theorem txRise_txOnly (s : State) : TxOnly s (txRise s) := ⟨_, _, rfl⟩

theorem lateFault_txOnly (s : State) : TxOnly s (lateFault s) := by
  unfold lateFault; split
  · exact ⟨_, _, rfl⟩
  · exact TxOnly.refl s

theorem txReturn_txOnly (s : State) : TxOnly s (txReturn s) := by
  unfold txReturn
  exact TxOnly.trans ⟨_, _, rfl⟩ (lateFault_txOnly _)

theorem txFall_txOnly (s : State) : TxOnly s (txFall s) := by
  have k : TxOnly s (spend 1 { s with tx := { s.tx with fallAt := s.clk.now } }) := ⟨_, _, rfl⟩
  unfold txFall
  dsimp only
  generalize spend 1 { s with tx := { s.tx with fallAt := s.clk.now } } = t at k ⊢
  split
  · exact k.trans (beginInit_txOnly _)
  · cases s.tx.state <;> dsimp only
    · exact k
    · exact k
    · exact k
    · split
      · exact k.trans ⟨_, _, rfl⟩
      · split
        · exact k.trans (txReturn_txOnly _)
        · exact k.trans (keepPending_txOnly (beginInit_txOnly _))
    · exact k

/-- What an assertion does, said once. -/
theorem txRise_asserted (s : State) : asserted s.clk.now s.tx (txRise s).tx := by
  refine ⟨rfl, fun h => ?_, fun h => ?_, fun h g => ?_⟩
  · show (match s.tx.state with
      | .operating => TxState.disabled | .initializing => .disabled | .disabled => .disabled
      | .faultLatched => .disabled | .offUnpowered => .offUnpowered) = _
    cases e : s.tx.state <;> first | rfl | exact absurd e h
  · have e : (txRise s).tx.offDue = some (drawDue s 0 Config.tOff) := if_pos (by simpa using h)
    exact ⟨_, e, drawDue_ge .., drawDue_le ..⟩
  · exact if_neg (by simp [h, g])

/-- A start-up that begins now. -/
theorem beginInit_startsBy (s : State) : startsBy s s.clk.now none (beginInit s).tx := by
  refine ⟨rfl, rfl, rfl, rfl, ⟨_, rfl, drawDue_ge .., drawDue_le ..⟩, fun h g => ?_⟩
  have e : (beginInit s).tx.faultDue = some (drawDue s 1 (tFaultOn s.cfg)) := if_pos (by simp [h, g])
  exact ⟨_, e, .inr ⟨drawDue_ge .., drawDue_le ..⟩⟩

theorem startsBy_weaken {s : State} {n : Nat} {f : Option Nat} {y : TxUnit} (h : startsBy s n none y) : startsBy s n f y := by
  obtain ⟨a, b, c, d, e, g⟩ := h
  refine ⟨a, b, c, d, e, fun p q => ?_⟩
  obtain ⟨x, hx, r⟩ := g p q
  exact ⟨x, hx, .inr (r.resolve_left (by simp))⟩

theorem keepPending_startsBy {s : State} {f : Nat} (h : s.tx.faultDue = some f) :
    startsBy s s.clk.now (some f) (keepPending beginInit s).tx := by
  obtain ⟨a, b, c, d, e, -⟩ := beginInit_startsBy s
  rw [keepPending, if_pos (by simp [h])]
  exact ⟨a, b, c, d, e, fun _ _ => ⟨f, h, .inl rfl⟩⟩

/-- A fault left to the negation is detected there, and one detected already keeps its bound. -/
theorem lateFault_tx (s : State) :
    (lateFault s).tx = { s.tx with faultDue := (lateFault s).tx.faultDue } ∧
    (∀ f, s.tx.faultDue = some f → (lateFault s).tx.faultDue = some f) ∧
    (s.tx.faultDue = none →
      if s.out.faultCond && s.cfg.txFaultImpl && !s.cfg.latchWhenDisabled then
        ∃ d, (lateFault s).tx.faultDue = some d ∧ s.clk.now ≤ d ∧ d ≤ s.clk.now + tFaultOn s.cfg
      else (lateFault s).tx.faultDue = none) := by
  unfold lateFault
  split
  · rename_i h
    simp only [Bool.and_eq_true, Option.isNone_iff_eq_none] at h
    refine ⟨rfl, fun f hf => by simp [h.2] at hf, fun _ => ?_⟩
    rw [if_pos (by simpa using h.1)]
    exact ⟨_, rfl, drawDue_ge .., drawDue_le ..⟩
  · rename_i h
    refine ⟨rfl, fun f hf => hf, fun hn => ?_⟩
    rw [if_neg (by simpa [hn] using h)]
    exact hn

/-- The transmitter with the instant of a falling edge. -/
def fallen (s : State) : State := spend 1 { s with tx := { s.tx with fallAt := s.clk.now } }

/-- A falling edge that resets a fault. -/
theorem txFall_reset {s : State} (h : ((s.tx.latch || s.tx.faultDue.isSome) && resetTaken s) = true) :
    txFall s = beginInit (fallen s) := if_pos h

/-- A falling edge that resets none. -/
theorem txFall_kept {s : State} (h : ¬((s.tx.latch || s.tx.faultDue.isSome) && resetTaken s) = true) :
    txFall s =
      match s.tx.state with
      | .disabled =>
        if s.tx.latch then { fallen s with tx := { (fallen s).tx with state := .faultLatched } }
        else if s.tx.initDone then txReturn (fallen s)
        else keepPending beginInit (fallen s)
      | .faultLatched => fallen s
      | .initializing => fallen s
      | .operating => fallen s
      | .offUnpowered => fallen s := if_neg h

/-- What a negation does, said once. -/
theorem txFall_negated (s : State) : negated s s.clk.now s.tx (txFall s).tx := by
  have starts : startsBy s s.clk.now none (beginInit (fallen s)).tx := beginInit_startsBy (fallen s)
  have taken (h : s.tx.riseAt + Config.tReset ≤ s.clk.now) : resetTaken s = true := by simp [resetTaken, h]
  by_cases hr : ((s.tx.latch || s.tx.faultDue.isSome) && resetTaken s) = true
  · rw [txFall_reset hr]
    refine ⟨⟨rfl, rfl, rfl, rfl⟩, fun _ hl hf => ?_, fun _ _ f _ => ⟨fun _ => starts, .inl (startsBy_weaken starts)⟩,
      fun _ _ => starts, fun _ _ => .inl starts, fun hl hf _ => ?_⟩ <;> simp [hl, hf] at hr
  · rw [txFall_kept hr]
    simp only [Bool.and_eq_true, Bool.or_eq_true, not_and] at hr
    have late (hl : s.tx.latch = true) (h : s.tx.riseAt + Config.tReset ≤ s.clk.now) : False := hr (.inl hl) (taken h)
    obtain ⟨a, b, c⟩ := lateFault_tx (spend 1 { fallen s with tx := { (fallen s).tx with
      due := some (drawDue (fallen s) 0 Config.tOn) } })
    have ret : txReturn (fallen s) = lateFault (spend 1 { fallen s with tx := { (fallen s).tx with
      due := some (drawDue (fallen s) 0 Config.tOn) } }) := rfl
    rw [← ret] at a b c
    have back (h : s.tx.state = .disabled) : returnsBy s.clk.now (txReturn (fallen s)).tx := by
      rw [a]; exact ⟨h, _, rfl, drawDue_ge .., drawDue_le ..⟩
    cases e : s.tx.state <;> dsimp only
    case disabled =>
      cases hl : s.tx.latch
      · cases hi : s.tx.initDone
        · simp only [Bool.false_eq_true, if_false]
          refine ⟨?_, fun _ _ hf => ⟨fun h => absurd (hi.symm.trans h) (by decide), fun _ => ?_⟩,
            fun _ _ f hf => ⟨fun h => ?_, .inl ?_⟩,
            fun h => absurd (hl.symm.trans h) (by decide), fun h => absurd (hl.symm.trans h) (by decide),
            fun _ _ h => absurd h (by rw [e]; decide)⟩
          · unfold keepPending; split <;> exact ⟨rfl, rfl, rfl, rfl⟩
          · rw [keepPending_none beginInit (show (fallen s).tx.faultDue = none from hf)]; exact starts
          · exact absurd (taken h) (hr (.inr (by simp [hf])))
          · exact keepPending_startsBy (s := fallen s) hf
        · simp only [Bool.false_eq_true, if_false, if_true]
          refine ⟨by rw [a]; exact ⟨rfl, rfl, rfl, rfl⟩,
            fun _ _ hf => ⟨fun _ => ⟨back e, ?_, ?_, ?_, ?_, c hf⟩, fun h => absurd (hi.symm.trans h) (by decide)⟩,
            fun _ _ f hf => ⟨fun h => ?_, .inr ⟨hi, back e, b f hf⟩⟩, fun h => absurd (hl.symm.trans h) (by decide),
            fun h => absurd (hl.symm.trans h) (by decide), fun _ _ h => absurd h (by rw [e]; decide)⟩
          · rw [a]; exact hl
          · rw [a]; exact hi
          · rw [a]; rfl
          · rw [a]; rfl
          · exact absurd (taken h) (hr (.inr (by simp [hf])))
      · simp only [if_true]
        exact ⟨⟨rfl, rfl, rfl, rfl⟩, fun _ h => absurd (hl.symm.trans h) (by decide),
          fun _ h => absurd (hl.symm.trans h) (by decide), fun _ h => (late hl h).elim,
          fun _ _ => .inr (by rfl), fun h => absurd (hl.symm.trans h) (by decide)⟩
    all_goals
      refine ⟨⟨rfl, rfl, rfl, rfl⟩, fun h => absurd (e.symm.trans h) (by decide),
        fun h => absurd (e.symm.trans h) (by decide), fun hl h => (late hl h).elim, fun _ h => ?_, fun _ _ h => ?_⟩
    case faultLatched.refine_1 => exact .inr (by rw [← e]; rfl)
    all_goals first | rfl | exact absurd h (by rw [e]; decide)

theorem reTx_txOnly (b : Bool) (s : State) : TxOnly s (reTx b s) := by
  unfold reTx
  split
  · exact TxOnly.refl s
  · split
    · exact txRise_txOnly s
    · split
      · exact txFall_txOnly s
      · exact TxOnly.refl s

theorem setSoftTx_txOnly (v : Bool) (s : State) : TxOnly s (setSoftTx v s) :=
  TxOnly.trans (t := { s with tx := { s.tx with soft := v } }) ⟨_, s.clk.drawn, rfl⟩ (reTx_txOnly _ _)

theorem stopSoftTx_txOnly (b : Bus) (s : State) : TxOnly s (stopSoftTx b s) := by
  unfold stopSoftTx; split
  · exact setSoftTx_txOnly _ s
  · exact TxOnly.refl s

/-! ### The power level -/

theorem enableLevel_lvlOnly (l : PowerLevel) (s : State) : LvlOnly s (enableLevel l s) := by
  unfold enableLevel; split
  · exact LvlOnly.refl s
  · exact ⟨_, _, rfl⟩

theorem disableLevel_lvlOnly (s : State) : LvlOnly s (disableLevel s) := by
  unfold disableLevel; split
  · exact LvlOnly.refl s
  · split
    · exact ⟨_, s.clk.drawn, rfl⟩
    · exact ⟨_, _, rfl⟩

theorem setLevel_lvlOnly (l : PowerLevel) (s : State) : LvlOnly s (setLevel l s) := by
  cases l
  · exact disableLevel_lvlOnly s
  · exact enableLevel_lvlOnly _ s
  · exact enableLevel_lvlOnly _ s

theorem stopLevel_lvlOnly (b : Bus) (s : State) : LvlOnly s (stopLevel b s) := by
  unfold stopLevel; split
  · exact setLevel_lvlOnly _ s
  · exact LvlOnly.refl s

/-! ### The rate selection -/

theorem reRx_rateOnly (b : Bool) (s : State) : RateOnly s (reRx b s) := by
  unfold reRx; split
  · exact ⟨_, _, rfl⟩
  · exact RateOnly.refl s

theorem reTxRate_rateOnly (b : Bool) (s : State) : RateOnly s (reTxRate b s) := by
  unfold reTxRate; split
  · exact ⟨_, _, rfl⟩
  · exact RateOnly.refl s

theorem setSoftRs0_rateOnly (v : Bool) (s : State) : RateOnly s (setSoftRs0 v s) :=
  RateOnly.trans (t := { s with rate := { s.rate with soft0 := Level.ofBool v } }) ⟨_, s.clk.drawn, rfl⟩
    (reRx_rateOnly _ _)

theorem setSoftRs1_rateOnly (v : Bool) (s : State) : RateOnly s (setSoftRs1 v s) :=
  RateOnly.trans (t := { s with rate := { s.rate with soft1 := Level.ofBool v } }) ⟨_, s.clk.drawn, rfl⟩
    (reTxRate_rateOnly _ _)

theorem softRates_rateOnly (b : Bus) (s : State) : RateOnly s (softRates b s) := by
  unfold softRates
  dsimp only
  split <;> split <;>
    first
    | exact (setSoftRs0_rateOnly _ s).trans (setSoftRs1_rateOnly _ _)
    | exact setSoftRs0_rateOnly _ s
    | exact setSoftRs1_rateOnly _ s
    | exact RateOnly.refl s

/-! ### Words that miss the controls -/

/-- No word lands on an address: the write brings nothing for it. -/
theorem wordFor_none {b : Bus} {sp : Space} {a : Byte}
    (h : ∀ w ∈ b.wbuf, memKey b.sel w.1 ≠ memKey sp a) : wordFor b sp a = none := by
  unfold wordFor
  split
  · rename_i e
    rw [List.lookup_eq_none_iff]
    intro p hp
    have := h p hp
    rw [e] at this
    rw [bne_iff_ne]
    rintro rfl; exact this rfl
  · rfl

end Sys2Proof.Machine
end

