-- ==== Sys2Proof/Laws/Timers.lean ====
section
/-! SUPPORT. What the module's timers do, one unit at a time: a proof about one unit cites the lemma of its timer and never
unfolds the others (10_state.md R45). -/

namespace Sys2Proof.Machine

/-- What the timers of the transmitter, the receiver, the rates and the level leave alone. -/
structure Ticks (s t : State) : Prop where
  cfg : t.cfg = s.cfg
  clk : t.clk = s.clk
  host : t.host = s.host
  seen : t.seen = s.seen
  out : t.out = s.out
  slot : t.slot = s.slot
  bus : t.bus = s.bus
  wr : t.wr = s.wr
  mem : t.mem = s.mem
  script : t.script = s.script

theorem Ticks.refl (s : State) : Ticks s s := ⟨rfl, rfl, rfl, rfl, rfl, rfl, rfl, rfl, rfl, rfl⟩

theorem Ticks.trans {s t u : State} (a : Ticks s t) (b : Ticks t u) : Ticks s u :=
  ⟨b.cfg.trans a.cfg, b.clk.trans a.clk, b.host.trans a.host, b.seen.trans a.seen, b.out.trans a.out,
    b.slot.trans a.slot, b.bus.trans a.bus, b.wr.trans a.wr, b.mem.trans a.mem, b.script.trans a.script⟩

/-- The timers that run after the write cycle's. -/
def lateTimers (s : State) : State :=
  settleLevel (settleTxRate (settleRx (settleLos (settleOff (settleTx (settleFault s))))))

theorem settle_eq (s : State) : settle s = lateTimers (settleWrite (settleReady s)) := rfl

/-! ### One timer each -/

theorem settleFault_ticks (s : State) : Ticks s (settleFault s) := by
  unfold settleFault; split
  · exact ⟨rfl, rfl, rfl, rfl, rfl, rfl, rfl, rfl, rfl, rfl⟩
  · exact Ticks.refl s

theorem settleTx_ticks (s : State) : Ticks s (settleTx s) := by
  unfold settleTx
  split
  · cases s.tx.state <;> dsimp only
    · exact ⟨rfl, rfl, rfl, rfl, rfl, rfl, rfl, rfl, rfl, rfl⟩
    · split <;> exact ⟨rfl, rfl, rfl, rfl, rfl, rfl, rfl, rfl, rfl, rfl⟩
    · exact ⟨rfl, rfl, rfl, rfl, rfl, rfl, rfl, rfl, rfl, rfl⟩
    · exact ⟨rfl, rfl, rfl, rfl, rfl, rfl, rfl, rfl, rfl, rfl⟩
    · exact ⟨rfl, rfl, rfl, rfl, rfl, rfl, rfl, rfl, rfl, rfl⟩
  · exact Ticks.refl s

theorem settleOff_ticks (s : State) : Ticks s (settleOff s) := by
  unfold settleOff; split
  · exact ⟨rfl, rfl, rfl, rfl, rfl, rfl, rfl, rfl, rfl, rfl⟩
  · exact Ticks.refl s

theorem settleLos_ticks (s : State) : Ticks s (settleLos s) := by
  unfold settleLos; dsimp only; split
  · split <;> exact ⟨rfl, rfl, rfl, rfl, rfl, rfl, rfl, rfl, rfl, rfl⟩
  · exact Ticks.refl s

theorem settleRx_ticks (s : State) : Ticks s (settleRx s) := by
  unfold settleRx; split
  · exact ⟨rfl, rfl, rfl, rfl, rfl, rfl, rfl, rfl, rfl, rfl⟩
  · exact Ticks.refl s

theorem settleTxRate_ticks (s : State) : Ticks s (settleTxRate s) := by
  unfold settleTxRate; split
  · exact ⟨rfl, rfl, rfl, rfl, rfl, rfl, rfl, rfl, rfl, rfl⟩
  · exact Ticks.refl s

theorem settleLevel_ticks (s : State) : Ticks s (settleLevel s) := by
  unfold settleLevel; split
  · exact ⟨rfl, rfl, rfl, rfl, rfl, rfl, rfl, rfl, rfl, rfl⟩
  · exact Ticks.refl s

theorem lateTimers_ticks (s : State) : Ticks s (lateTimers s) :=
  ((((((settleFault_ticks s).trans (settleTx_ticks _)).trans (settleOff_ticks _)).trans (settleLos_ticks _)).trans
    (settleRx_ticks _)).trans (settleTxRate_ticks _)).trans (settleLevel_ticks _)

/-! ### Which unit each timer touches -/

theorem settleFault_other (s : State) :
    (settleFault s).rcv = s.rcv ∧ (settleFault s).rate = s.rate ∧ (settleFault s).lvl = s.lvl := by
  unfold settleFault; split <;> exact ⟨rfl, rfl, rfl⟩

theorem settleTx_other (s : State) :
    (settleTx s).rcv = s.rcv ∧ (settleTx s).rate = s.rate ∧ (settleTx s).lvl = s.lvl := by
  unfold settleTx
  split
  · cases s.tx.state <;> dsimp only
    · exact ⟨rfl, rfl, rfl⟩
    · split <;> exact ⟨rfl, rfl, rfl⟩
    · exact ⟨rfl, rfl, rfl⟩
    · exact ⟨rfl, rfl, rfl⟩
    · exact ⟨rfl, rfl, rfl⟩
  · exact ⟨rfl, rfl, rfl⟩

theorem settleOff_other (s : State) :
    (settleOff s).rcv = s.rcv ∧ (settleOff s).rate = s.rate ∧ (settleOff s).lvl = s.lvl := by
  unfold settleOff; split <;> exact ⟨rfl, rfl, rfl⟩

theorem settleLos_other (s : State) :
    (settleLos s).tx = s.tx ∧ (settleLos s).rate = s.rate ∧ (settleLos s).lvl = s.lvl := by
  unfold settleLos; dsimp only; split
  · split <;> exact ⟨rfl, rfl, rfl⟩
  · exact ⟨rfl, rfl, rfl⟩

theorem settleRx_other (s : State) :
    (settleRx s).tx = s.tx ∧ (settleRx s).rcv = s.rcv ∧ (settleRx s).lvl = s.lvl := by
  unfold settleRx; split <;> exact ⟨rfl, rfl, rfl⟩

theorem settleTxRate_other (s : State) :
    (settleTxRate s).tx = s.tx ∧ (settleTxRate s).rcv = s.rcv ∧ (settleTxRate s).lvl = s.lvl := by
  unfold settleTxRate; split <;> exact ⟨rfl, rfl, rfl⟩

theorem settleLevel_other (s : State) :
    (settleLevel s).tx = s.tx ∧ (settleLevel s).rcv = s.rcv ∧ (settleLevel s).rate = s.rate := by
  unfold settleLevel; split <;> exact ⟨rfl, rfl, rfl⟩

/-! ### What the timers leave in each unit -/

/-- The transmitter after the timers. -/
theorem lateTimers_tx (s : State) : (lateTimers s).tx = (settleOff (settleTx (settleFault s))).tx := by
  rw [lateTimers, (settleLevel_other _).1, (settleTxRate_other _).1, (settleRx_other _).1, (settleLos_other _).1]

/-- The receiver's timer looks at its own unit, the signal and the clock only. -/
theorem settleLos_rcv (s : State) :
    (settleLos s).rcv =
      if isDue s.rcv.due s then { s.rcv with los := !s.out.signal, known := true, due := none } else s.rcv := by
  unfold settleLos; dsimp only; split
  · split <;> rfl
  · rfl

theorem isDue_congr {s t : State} (d : Option Nat) (h : t.clk = s.clk) : isDue d t = isDue d s := by
  unfold isDue; rw [h]

/-- The receiver after the timers. -/
theorem lateTimers_rcv (s : State) :
    (lateTimers s).rcv =
      if isDue s.rcv.due s then { s.rcv with los := !s.out.signal, known := true, due := none } else s.rcv := by
  have k := ((settleFault_ticks s).trans (settleTx_ticks _)).trans (settleOff_ticks _)
  have r : (settleOff (settleTx (settleFault s))).rcv = s.rcv := by
    rw [(settleOff_other _).1, (settleTx_other _).1, (settleFault_other _).1]
  rw [lateTimers, (settleLevel_other _).2.1, (settleTxRate_other _).2.1, (settleRx_other _).2.1, settleLos_rcv, r,
    isDue_congr _ k.clk, k.out]

/-- The rates after the timers. -/
theorem lateTimers_rate (s : State) :
    (lateTimers s).rate = (settleTxRate (settleRx s)).rate := by
  have k := (((settleFault_ticks s).trans (settleTx_ticks _)).trans (settleOff_ticks _)).trans (settleLos_ticks _)
  have r : (settleLos (settleOff (settleTx (settleFault s)))).rate = s.rate := by
    rw [(settleLos_other _).2.1, (settleOff_other _).2.1, (settleTx_other _).2.1, (settleFault_other _).2.1]
  rw [lateTimers, (settleLevel_other _).2.2]
  generalize settleLos (settleOff (settleTx (settleFault s))) = u at k r
  have w0 : rxWanted u = rxWanted s := by simp only [rxWanted, rs0In, k.cfg, k.slot, k.host, r]
  have e : (settleRx u).rate = (settleRx s).rate := by
    unfold settleRx; rw [isDue_congr _ k.clk, r]
    split
    · simp only [w0]
    · exact r
  have k' := settleRx_ticks u
  have ks := settleRx_ticks s
  have w1 : txWanted (settleRx u) = txWanted (settleRx s) := by
    simp only [txWanted, rs1In, k'.cfg, k'.slot, k'.host, ks.cfg, ks.slot, ks.host, k.cfg, k.slot, k.host, e]
  have c1 : (settleRx u).clk = (settleRx s).clk := by rw [k'.clk, ks.clk, k.clk]
  generalize settleRx u = x at *
  generalize settleRx s = y at *
  unfold settleTxRate
  rw [isDue_congr _ c1, e]
  split
  · simp only [w1]
  · exact e

/-- The power level after the timers. -/
theorem lateTimers_lvl (s : State) :
    (lateTimers s).lvl =
      if (s.slot.powered && isDue s.lvl.due s) = true then
        { s.lvl with level := s.lvl.next, settled := true, due := none }
      else s.lvl := by
  have k := (((((settleFault_ticks s).trans (settleTx_ticks _)).trans (settleOff_ticks _)).trans (settleLos_ticks _)).trans
    (settleRx_ticks _)).trans (settleTxRate_ticks _)
  have r : (settleTxRate (settleRx (settleLos (settleOff (settleTx (settleFault s)))))).lvl = s.lvl := by
    rw [(settleTxRate_other _).2.2, (settleRx_other _).2.2, (settleLos_other _).2.2, (settleOff_other _).2.2,
      (settleTx_other _).2.2, (settleFault_other _).2.2]
  rw [lateTimers]
  generalize settleTxRate (settleRx (settleLos (settleOff (settleTx (settleFault s))))) = u at k r
  unfold settleLevel
  rw [isDue_congr _ k.clk, k.slot, r]
  split
  · rfl
  · exact r

/-! ### Readiness and the write cycle -/

/-- Nothing becomes ready where the interface is ready, or has no power. -/
theorem settleReady_ready {s : State} (h : s.slot.ready = true) : settleReady s = s := by
  rw [settleReady, if_neg]; simp [h]

theorem settleReady_early {s : State} (h : s.clk.now < s.slot.readyDue) : settleReady s = s := by
  rw [settleReady, if_neg]
  have : ¬ s.slot.readyDue ≤ s.clk.now := by omega
  simp [this]

/-- What readiness leaves alone. -/
theorem settleReady_keeps (s : State) :
    (settleReady s).cfg = s.cfg ∧ (settleReady s).clk = s.clk ∧ (settleReady s).host = s.host ∧
    (settleReady s).seen = s.seen ∧ (settleReady s).out = s.out ∧ (settleReady s).tx = s.tx ∧
    (settleReady s).rcv = s.rcv ∧ (settleReady s).rate = s.rate ∧ (settleReady s).lvl = s.lvl ∧
    (settleReady s).mem = s.mem ∧ (settleReady s).raised = s.raised ∧ (settleReady s).script = s.script ∧
    (settleReady s).slot = { s.slot with ready := (settleReady s).slot.ready } ∧
    ((settleReady s).wr.busy = true → settleReady s = s) := by
  unfold settleReady; split
  · refine ⟨rfl, rfl, rfl, rfl, rfl, rfl, rfl, rfl, rfl, rfl, rfl, rfl, rfl, ?_⟩
    intro h; cases h
  · exact ⟨rfl, rfl, rfl, rfl, rfl, rfl, rfl, rfl, rfl, rfl, rfl, rfl, rfl, fun _ => rfl⟩

theorem settleWrite_idle {s : State} (h : s.wr.busy = false) : settleWrite s = s := by
  rw [settleWrite, if_neg]; simp [h]

theorem settleWrite_early {s : State} (h : s.clk.now < s.wr.due) : settleWrite s = s := by
  rw [settleWrite, if_neg]
  have : ¬ s.wr.due ≤ s.clk.now := by omega
  simp [this]

/-- The end of a write cycle: memory, the words and the busy flag, and the rate selection that a word may have set. -/
theorem commitWrite_eq (s : State) : ∃ x n, commitWrite s =
    { s with
      mem := Memory.writeAll s.cfg s.wr.space s.bus.wbuf s.mem
      bus := { s.bus with wbuf := [] }
      wr := { s.wr with busy := false }
      rate := x
      clk := { s.clk with drawn := n } } := by
  unfold commitWrite asOf
  obtain ⟨x, n, e⟩ := softRates_rateOnly s.bus
    { ({ s with
        mem := Memory.writeAll s.cfg s.wr.space s.bus.wbuf s.mem
        bus := { s.bus with wbuf := [] }
        wr := { s.wr with busy := false } } : State) with clk := { s.clk with now := s.wr.due } }
  exact ⟨x, n, by dsimp only; rw [e]⟩

theorem settleWrite_due {s : State} (hb : s.wr.busy = true) (hd : s.wr.due ≤ s.clk.now) :
    settleWrite s = commitWrite s := by
  rw [settleWrite, if_pos]; simp [hb, hd]

end Sys2Proof.Machine
end

