-- ==== Sys2Proof/Laws/Transactions.lean ====
section
/-! SUPPORT. What whole transactions do, on a bus nothing disturbs: a read body with its STOP, and a write body with its
STOP (43_two_wire_operations.md R370 to R375). -/

namespace Sys2Proof.Machine

theorem Calm.of {s : State} (h : calm s) : Calm s := ⟨⟨h.1, h.2.1, h.2.2.2.2.1⟩, h.2.2.1⟩

/-- What word slots leave alone, in the terms of the statements. -/
theorem Slots.around {n : Nat} {s t : State} (a : Slots n s t) (h : s.bus.stretching = false) :
    sameAround s t ∧ sameControls s t ∧ t.wr = s.wr ∧ t.host = s.host ∧ t.raised = s.raised :=
  ⟨⟨a.cfg, a.out, a.slot, a.rcv, a.rate, a.script, fun k => by rw [readByte, readByte, a.cfg, a.mem],
    by rw [a.host], a.wires, (a.stretching h).trans h.symm⟩, ⟨a.tx, a.lvl⟩, a.wr, a.host, a.raised⟩

/-- The low period before a STOP adds nothing but time. -/
theorem Slots.quiet {n : Nat} {s t u : State} (a : Slots n s t) (q : Quiet t u) : Slots n s u :=
  ⟨a.toKeeps.trans q.toKeeps, fun h => q.stretching (a.stretching h), q.raised.trans a.raised, by rw [q.seen, a.wires],
    a.now.trans q.now⟩

/-- No ninth word is in sight outside a write. -/
theorem overrun_outside {s : State} (h : s.bus.state ≠ .writeData) : overrun s = false := by simp [overrun, h]

theorem calm_slots {n : Nat} {s t : State} (h : calm s) (a : Slots n s t) : calm t :=
  ⟨(Calm.of h |>.keeps a.toKeeps).lis, by rw [a.out]; exact h.2.1, by rw [a.cfg]; exact h.2.2.1,
    a.stretching h.2.2.2.1, by rw [a.host]; exact h.2.2.2.2.1, by rw [a.out]; exact h.2.2.2.2.2⟩

/-- A frame begins: the engine waits for a device address word. -/
theorem frame_begins {s : State} (h : frameReady s) :
    ∃ t, (∀ k, startThen k s = k t) ∧ Began s t ∧ Taking t .gotStart :=
  start_seen (Calm.of h.1) h.2.1 h.2.2

/-- A frame that ends with nothing written leaves everything but the bus as it was. -/
theorem closed_around {n d} {s t u : State} (b : Began s t) (a : Slots n t u) (h : s.bus.stretching = false) :
    sameAround s (closed d u) ∧ sameControls s (closed d u) ∧ (closed d u).wr = s.wr ∧ (closed d u).raised = s.raised := by
  have hh : u.host = { s.host with inFrame := true } := a.host.trans b.host
  refine ⟨⟨a.cfg.trans b.cfg, a.out.trans b.out, a.slot.trans b.slot, a.rcv.trans b.rcv, a.rate.trans b.rate,
    a.script.trans b.script, fun k => ?_, ?_, ?_, ?_⟩, ⟨a.tx.trans b.tx, a.lvl.trans b.lvl⟩, a.wr.trans b.wr, a.raised.trans b.raised⟩
  · show Memory.read u.cfg.init u.mem k = _; rw [a.cfg, a.mem, b.cfg, b.mem]; rfl
  · show ({ u.host with inFrame := false } : HostSide) = _; rw [hh]; rfl
  · show u.seen.wires = _; rw [a.wires, b.seen]; simp only [openFrame]; split <;> rfl
  · exact (a.stretching (b.stretching h)).trans h.symm

/-- The words of a current or sequential read and the STOP after them (43 R370, R372). -/
theorem read_frame {s t : State} (c : Calm s) (b : Began s t) (k : Taking t .gotStart) (sp : Space) (n : Nat) (hn : 1 ≤ n) :
    ∃ u vs d, hostStop (readBody sp n t) = closed d u ∧ Slots (1 + n) t u ∧ ctrOf u.bus sp = ctrOf t.bus sp + BitVec.ofNat 8 n ∧
      (∀ q, q ≠ sp → ctrOf u.bus q = ctrOf t.bus q) ∧ u.bus.wbuf = t.bus.wbuf ∧ u.seen.rx = t.seen.rx ++ vs ∧ vs.length = n ∧
      u.seen.acks = t.seen.acks ++ [true] ++ List.replicate (n - 1) true ++ [false] ∧
      ∀ i x, vs[i]? = some x → Shows t sp (ctrOf t.bus sp + BitVec.ofNat 8 i) x := by
  have ct := c.began b
  obtain ⟨v, hv, a1, kk, b2, b3, b4, b5, b6⟩ := word_devR ct k sp
  have cv := ct.keeps a1.toKeeps
  have b6' : Shows v sp (ctrOf v.bus sp) v.bus.shift := by
    rw [b2]; exact b6.forward a1.toKeeps
  obtain ⟨u, vs, e, a2, c1, c2, c3, c4, c5, c6, c7, c8, c9, cl, c10, cv'⟩ := words_read cv kk n hn b6'
  have cu := cv.keeps a2.toKeeps
  have Q := closing_quiet u
  refine ⟨closing u, vs, (u.bus.deafTill, u.bus.deafWrite), ?_, (a1.trans a2).quiet Q, by rw [Q.ctr, c6, b2], fun q hq => by rw [Q.ctr, c7 q hq, b2],
    Q.wbuf.trans (c8.trans b3), by rw [Q.seen, c9, b4], cl, by rw [Q.seen, c10, b5], ?_⟩
  · rw [readBody, sendThen, hv, if_pos (acked_iff b5), e, stop_plain cu c4 (by rw [c1]; simp)]
  · intro i x hi
    have := cv' i x hi
    rw [b2] at this
    exact this.congr a1.toKeeps

/-- The words of a random or sequential random read and the STOP after them (43 R371, R373). -/
theorem randomRead_frame {s t : State} (c : Calm s) (b : Began s t) (k : Taking t .gotStart) (sp : Space) (a : Byte) (n : Nat) (hn : 1 ≤ n) :
    ∃ u vs d, hostStop (randomBody sp a n t) = closed d u ∧ Slots (3 + n) t u ∧ ctrOf u.bus sp = a + BitVec.ofNat 8 n ∧
      (∀ q, q ≠ sp → ctrOf u.bus q = ctrOf t.bus q) ∧ u.bus.wbuf = t.bus.wbuf ∧ u.seen.rx = t.seen.rx ++ vs ∧ vs.length = n ∧
      u.seen.acks = t.seen.acks ++ [true, true, true] ++ List.replicate (n - 1) true ++ [false] ∧
      ∀ i x, vs[i]? = some x → Shows t sp (a + BitVec.ofNat 8 i) x := by
  have ct := c.began b
  obtain ⟨v, hv, a1, k1, b1, b2, b3, b4, b5⟩ := word_devW ct k sp
  have cv := ct.keeps a1.toKeeps
  obtain ⟨w, hw, a2, k2, d1, d2, d3, d4, d5, d6, d7⟩ := word_addr cv k1 a
  have cw := cv.keeps a2.toKeeps
  obtain ⟨x, hx, bx, k3⟩ := start_seen cw k2.sda (fun _ => d4)
  obtain ⟨u, vs, d, e, a3, c1, c2, c3, c4, cl, c5, cvv⟩ := read_frame cw bx k3 sp n hn
  rw [b1] at d2 d3
  have inF : w.host.inFrame = true := by rw [a2.host, a1.host, b.host]
  have sx : x.seen = w.seen := by rw [bx.seen]; simp [openFrame, inF]
  have hxw : x.host = w.host := by rw [bx.host]; cases hh : w.host; rw [hh] at inF; simp_all
  have a3' : Slots 0 w x := ⟨⟨bx.cfg, hxw, bx.out, bx.slot, bx.tx, bx.rcv, bx.rate, bx.lvl, bx.wr, bx.mem, bx.script⟩,
    bx.stretching, bx.raised, by rw [sx], by have := bx.now; omega⟩
  have aa := ((a1.trans a2).trans a3').trans a3
  refine ⟨u, vs, d, ?_, ?_, by rw [c1, bx.ctr, d2], fun q hq => by rw [c2 q hq, bx.ctr, d3 q hq, b2], ?_, ?_, cl, ?_, ?_⟩
  · rw [randomBody, sendThen, hv, if_pos (acked_iff b5), sendThen, hw, if_pos (acked_iff d7), hx, e]
  · have : 1 + 1 + 0 + (1 + n) = 3 + n := by omega
    rwa [this] at aa
  · rw [c3, bx.wbuf, b.wbuf]
  · rw [c4, sx, d6, b4]
  · rw [c5, sx, d7, b5]; simp
  · intro i y hi
    have := cvv i y hi
    rw [bx.ctr, d2] at this
    exact this.congr ((a1.toKeeps.trans a2.toKeeps).trans a3'.toKeeps)

/-- The words of a write and the STOP after them, at which the write cycle begins and the controls take effect (43 R374,
R375). -/
theorem write_frame {s t : State} (c : Calm s) (b : Began s t) (k : Taking t .gotStart) (sp : Space) (a : Byte) (ds : List Byte)
    (h0 : ds ≠ []) (h8 : ds.length ≤ 8) :
    ∃ u d, hostStop (writeBody sp a ds t) = closed d (stopLevel u.bus (stopSoftTx u.bus (beginWrite u))) ∧ Slots (2 + ds.length) t u ∧
      u.bus.sel = sp ∧ ctrOf u.bus sp = a + BitVec.ofNat 8 ds.length ∧
      (∀ q, q ≠ sp → ctrOf u.bus q = ctrOf t.bus q) ∧ u.bus.wbuf = wordsAt a ds ∧ u.seen.rx = t.seen.rx ∧
      u.seen.acks = t.seen.acks ++ [true, true] ++ List.replicate ds.length true := by
  have ct := c.began b
  obtain ⟨v, hv, a1, k1, b1, b2, b3, b4, b5⟩ := word_devW ct k sp
  have cv := ct.keeps a1.toKeeps
  obtain ⟨w, hw, a2, k2, d1, d2, d3, d4, d5, d6, d7⟩ := word_addr cv k1 a
  have cw := cv.keeps a2.toKeeps
  rw [b1] at d1 d2 d3
  obtain ⟨u, e, a3, k3, g1, g2, g3, g4, g5, g6, g7⟩ := words_sent cw k2 ds (by rw [d4]; simpa using h8)
  have cu := cw.keeps a3.toKeeps
  have aa := (a1.trans a2).trans a3
  rw [d1] at g1 g2 g3 g4
  have wl : u.bus.wbuf = wordsAt a ds := by rw [g4, d4, d2]; rfl
  have wn : u.bus.wbuf ≠ [] := by
    intro hh; have := wordsAt_length a ds; rw [← wl, hh] at this
    cases ds with
    | nil => exact h0 rfl
    | cons => simp at this
  have Q := closing_quiet u
  refine ⟨closing u, (some (writeBound (closing u)), true), ?_, aa.quiet Q, Q.sel.trans g1, by rw [Q.ctr, g2, d2], fun q hq => by rw [Q.ctr, g3 q hq, d3 q hq, b2],
    Q.wbuf.trans wl, by rw [Q.seen, g6, d6, b4], by rw [Q.seen, g7, d7, b5]; simp⟩
  rw [writeBody, sendThen, hv, if_pos (acked_iff b5), sendThen, hw, if_pos (acked_iff d7), e, stop_write cu k3 wn]

end Sys2Proof.Machine
end

