-- ==== Sys2Proof/Laws/Controls.lean ====
section
/-! SUPPORT. What a write of one byte leaves (43_two_wire_operations.md R374), and what the end of its write cycle does to the
rates (40_low_speed_control.md R175). -/

namespace Sys2Proof.Machine

/-- The state at the STOP of a write of the byte `x` to address `a` of a space: only the engine, the clock and what the host
has seen differ. -/
structure Wrote (s u : State) (sp : Space) (a x : Byte) : Prop where
  cfg : u.cfg = s.cfg
  out : u.out = s.out
  slot : u.slot = s.slot
  tx : u.tx = s.tx
  rcv : u.rcv = s.rcv
  rate : u.rate = s.rate
  lvl : u.lvl = s.lvl
  wr : u.wr = s.wr
  mem : u.mem = s.mem
  script : u.script = s.script
  raised : u.raised = s.raised
  host : u.host = { s.host with inFrame := true }
  wires : u.seen.wires = s.seen.wires
  stretching : u.bus.stretching = s.bus.stretching
  sel : u.bus.sel = sp
  wbuf : u.bus.wbuf = [(a, x)]
  now : s.clk.now + 27 * s.host.sclPeriod ≤ u.clk.now

/-- A write of one byte up to its STOP, at which the write cycle begins and the controls take effect. -/
theorem write_one {s : State} (h : frameReady s) (sp : Space) (a x : Byte) :
    ∃ d u, frame (writeBody sp a [x]) s = closed d (stopLevel u.bus (stopSoftTx u.bus (beginWrite u))) ∧
      Wrote s u sp a x := by
  obtain ⟨t, he, b, k⟩ := frame_begins h
  obtain ⟨u, d, e, A, c1, c2, c3, c4, c5, c6⟩ := write_frame (Calm.of h.1) b k sp a [x] (by simp) (by simp)
  have st : u.bus.stretching = s.bus.stretching :=
    (A.stretching (b.stretching h.1.2.2.2.1)).trans h.1.2.2.2.1.symm
  refine ⟨d, u, by rw [frame, he, e], A.cfg.trans b.cfg, A.out.trans b.out, A.slot.trans b.slot,
    A.tx.trans b.tx, A.rcv.trans b.rcv, A.rate.trans b.rate, A.lvl.trans b.lvl, A.wr.trans b.wr, A.mem.trans b.mem,
    A.script.trans b.script, A.raised.trans b.raised, A.host.trans b.host, ?_, st, c1, c4, ?_⟩
  · show u.seen.wires = _; rw [A.wires, b.seen]; simp only [openFrame]; split <;> rfl
  · have q := A.now; rw [b.host] at q; have q2 := b.now
    simp only [List.length_singleton] at q; omega

/-- An aborted write changes nothing of what the host has seen, -/
theorem abortWrite_seen (s : State) : (abortWrite s).seen = s.seen := by
  unfold abortWrite; split
  · cases s.cfg.abortCtr <;> rfl
  · rfl

/-- nor does a STOP. -/
theorem hostStop_seen (s : State) : (hostStop s).seen = s.seen := by
  have stop : ∀ u : State, (seeStop u).seen = u.seen := by
    intro u
    unfold seeStop goIdle
    dsimp only
    split
    · split
      · rfl
      · split
        · obtain ⟨x, n, e⟩ := stopSoftTx_txOnly u.bus (beginWrite u)
          obtain ⟨y, m, e'⟩ := stopLevel_lvlOnly u.bus (stopSoftTx u.bus (beginWrite u))
          rw [e', e]; rfl
        · exact abortWrite_seen u
    · rfl
  unfold hostStop
  split
  · rfl
  · dsimp only
    split
    · exact stop _
    · rfl

/-- What a whole read leaves: only the engine, the clock and what the host has seen differ, and the bus is ready for the next
frame. -/
structure ReadOnce (s u : State) : Prop where
  cfg : u.cfg = s.cfg
  out : u.out = s.out
  slot : u.slot = s.slot
  tx : u.tx = s.tx
  rcv : u.rcv = s.rcv
  rate : u.rate = s.rate
  lvl : u.lvl = s.lvl
  wr : u.wr = s.wr
  mem : u.mem = s.mem
  script : u.script = s.script
  raised : u.raised = s.raised
  host : u.host = { s.host with inFrame := false }
  wires : u.seen.wires = s.seen.wires
  stretching : u.bus.stretching = s.bus.stretching
  now : s.clk.now ≤ u.clk.now
  ready : frameReady u

/-- The two transactions of a byte written back (20_memory.md R99): a random read, and a write of what was read with some
bits changed. -/
theorem rewrite_two {s : State} (h : frameReady s) (sp : Space) (a : Byte) :
    ∃ w v, frame (randomBody sp a 1) s = w ∧ w.seen.rx.getLast? = some v ∧ ReadOnce s w ∧
      ∀ f, rewriteByte sp a f s = frame (writeBody sp a [f v]) w := by
  obtain ⟨t, he, b, k⟩ := frame_begins h
  obtain ⟨u, vs, d, e, A, c1, c2, c3, c4, cl, c5, c6⟩ := randomRead_frame (Calm.of h.1) b k sp a 1 (by omega)
  obtain ⟨⟨a1, a2, a3, a4, a5, a6, a7, a8, a9, a10⟩, ⟨a11, a12⟩, a13, a14⟩ :=
    closed_around (d := d) b A h.1.2.2.2.1
  obtain ⟨v, rfl⟩ := List.length_eq_one_iff.1 cl
  have hm : (closed d u).mem = s.mem := A.mem.trans b.mem
  have rx : (closed d u).seen.rx = t.seen.rx ++ [v] := c4
  have sc : (closed d u).bus.stretching = false := a10.trans h.1.2.2.2.1
  have ready : frameReady (closed d u) := by
    refine ⟨⟨?_, ?_, ?_, sc, ?_, ?_⟩, rfl, fun q => by cases q⟩
    · rw [← h.1.1]; simp only [listening, a3, a13]
    · rw [a2]; exact h.1.2.1
    · rw [a1]; exact h.1.2.2.1
    · rw [a8]; exact h.1.2.2.2.2.1
    · rw [a2]; exact h.1.2.2.2.2.2
  refine ⟨closed d u, v, by rw [frame, he, e], by rw [rx]; simp, ⟨a1, a2, a3, a11, a4, a5, a12, a13, hm, a6, a14, ?_, a9, a10,
    b.now.trans (Nat.le_of_add_right_le A.now), ready⟩, ?_⟩
  · rw [a8]; rfl
  · intro f
    rw [rewriteByte, he]
    dsimp only
    have bx : (randomBody sp a 1 t).seen.rx = t.seen.rx ++ [v] := by rw [← hostStop_seen, e, rx]
    rw [e, bx, if_pos (by simp)]
    simp

/-- The same for a byte written back with some bits changed. -/
theorem rewrite_one {s : State} (h : frameReady s) (sp : Space) (a : Byte) (f : Byte → Byte) :
    ∃ w v d u, frame (randomBody sp a 1) s = w ∧ w.seen.rx.getLast? = some v ∧ ReadOnce s w ∧
      rewriteByte sp a f s = frame (writeBody sp a [f v]) w ∧
      rewriteByte sp a f s = closed d (stopLevel u.bus (stopSoftTx u.bus (beginWrite u))) ∧ Wrote s u sp a (f v) := by
  obtain ⟨w, v, e1, e2, r, e3⟩ := rewrite_two h sp a
  obtain ⟨d, u, e, x⟩ := write_one r.ready sp a (f v)
  refine ⟨w, v, d, u, e1, e2, r, e3 f, (e3 f).trans e, ⟨x.cfg.trans r.cfg, x.out.trans r.out, x.slot.trans r.slot,
    x.tx.trans r.tx, x.rcv.trans r.rcv, x.rate.trans r.rate, x.lvl.trans r.lvl, x.wr.trans r.wr, x.mem.trans r.mem,
    x.script.trans r.script, x.raised.trans r.raised, ?_, x.wires.trans r.wires, x.stretching.trans r.stretching, x.sel,
    x.wbuf, ?_⟩⟩
  · rw [x.host, r.host]
  · have := x.now; rw [r.host] at this; exact (Nat.add_le_add_right r.now _).trans this

theorem Wrote.miss {s u : State} {sp : Space} {a x : Byte} (w : Wrote s u sp a x) {q : Space} {b : Byte}
    (h : memKey sp a ≠ memKey q b) : wordFor u.bus q b = none :=
  wordFor_none (by rw [w.wbuf, w.sel]; simpa using h)

theorem Wrote.hit {s u : State} {sp : Space} {a x : Byte} (w : Wrote s u sp a x) {q : Space} {b : Byte}
    (h : memKey sp a = memKey q b) : wordFor u.bus q b = some x := by
  obtain ⟨rfl, rfl⟩ := memKey_inj h
  rw [wordFor, w.sel, w.wbuf, if_pos rfl]; simp

/-- A byte that is not the power level enable's changes no level. -/
theorem Wrote.no_level {s u : State} {sp : Space} {a x : Byte} (w : Wrote s u sp a x) (v : State) (hc : v.cfg = u.cfg)
    (h : memKey sp a ≠ memKey s.cfg.powerField.space s.cfg.powerField.addr) : stopLevel u.bus v = v := by
  rw [stopLevel, hc, w.cfg, w.miss h]; rfl

/-- A byte that is not the Software Tx disable's leaves the transmitter alone. -/
theorem Wrote.no_softTx {s u : State} {sp : Space} {a x : Byte} (w : Wrote s u sp a x) (v : State) (hc : v.cfg = u.cfg)
    (h : memKey sp a ≠ memKey s.cfg.softTxField.space s.cfg.softTxField.addr) : stopSoftTx u.bus v = v := by
  rw [stopSoftTx, controlFor, hc, w.cfg, w.miss h]; rfl

/-- The STOP of a write whose rest changed only transmitter, level and clock leaves everything around alone. -/
theorem Wrote.around {s u v : State} {sp : Space} {a x : Byte} (w : Wrote s u sp a x) (hcfg : v.cfg = u.cfg)
    (hout : v.out = u.out) (hslot : v.slot = u.slot) (hrcv : v.rcv = u.rcv) (hrate : v.rate = u.rate)
    (hscr : v.script = u.script) (hmem : v.mem = u.mem) (hh : v.host = u.host) (hw : v.seen = u.seen) (hb : v.bus = u.bus)
    (d : Option Nat × Bool) : sameAround s (closed d v) := by
  refine ⟨hcfg.trans w.cfg, hout.trans w.out, hslot.trans w.slot, hrcv.trans w.rcv, hrate.trans w.rate, hscr.trans w.script,
    ?_, ?_, ?_, ?_⟩
  · intro k; show Memory.read v.cfg.init v.mem k = _; rw [hcfg, hmem, w.cfg, w.mem]; rfl
  · show ({ v.host with inFrame := false } : HostSide) = { s.host with inFrame := false }; rw [hh, w.host]
  · show v.seen.wires = _; rw [hw, w.wires]
  · show v.bus.stretching = _; rw [hb, w.stretching]

/-! ### The rates -/

/-- What a change of the receive rate's software value can do. -/
structure RxRate (s u : State) : Prop where
  cfg : u.cfg = s.cfg
  host : u.host = s.host
  slot : u.slot = s.slot
  now : u.clk.now = s.clk.now
  rx : u.rate.rxHigh = s.rate.rxHigh
  tx : u.rate.txHigh = s.rate.txHigh
  soft1 : u.rate.soft1 = s.rate.soft1
  due1 : u.rate.due1 = s.rate.due1
  hit : s.cfg.rs0Used = true → s.cfg.asMode = false → s.slot.powered = true → rxWanted u ≠ rxWanted s →
    u.rate.changeAt = s.clk.now ∧ ∃ d, u.rate.due0 = some d ∧ s.clk.now ≤ d ∧ d ≤ s.clk.now + tRate s.cfg
  miss : s.cfg.rs0Used = false ∨ s.cfg.asMode = true ∨ rxWanted u = rxWanted s → u.rate.due0 = s.rate.due0
  change : u.rate.changeAt = s.rate.changeAt ∨ u.rate.changeAt = s.clk.now

/-- What a change of the transmit rate's software value can do. -/
structure TxRate (s u : State) : Prop where
  cfg : u.cfg = s.cfg
  host : u.host = s.host
  slot : u.slot = s.slot
  now : u.clk.now = s.clk.now
  rx : u.rate.rxHigh = s.rate.rxHigh
  tx : u.rate.txHigh = s.rate.txHigh
  soft0 : u.rate.soft0 = s.rate.soft0
  due0 : u.rate.due0 = s.rate.due0
  hit : s.cfg.rs1Used = true → s.cfg.asMode = false → s.slot.powered = true → txWanted u ≠ txWanted s →
    u.rate.changeAt = s.clk.now ∧ ∃ d, u.rate.due1 = some d ∧ s.clk.now ≤ d ∧ d ≤ s.clk.now + tRate s.cfg
  miss : s.cfg.rs1Used = false ∨ s.cfg.asMode = true ∨ txWanted u = txWanted s → u.rate.due1 = s.rate.due1
  change : u.rate.changeAt = s.rate.changeAt ∨ u.rate.changeAt = s.clk.now

theorem RxRate.refl (s : State) : RxRate s s :=
  ⟨rfl, rfl, rfl, rfl, rfl, rfl, rfl, rfl, fun _ _ _ h => absurd rfl h, fun _ => rfl, .inl rfl⟩

theorem TxRate.refl (s : State) : TxRate s s :=
  ⟨rfl, rfl, rfl, rfl, rfl, rfl, rfl, rfl, fun _ _ _ h => absurd rfl h, fun _ => rfl, .inl rfl⟩

theorem setSoftRs0_rate (v : Bool) (s : State) : RxRate s (setSoftRs0 v s) := by
  set w : State := { s with rate := { s.rate with soft0 := Level.ofBool v } } with hw
  have e : setSoftRs0 v s = reRx (rxWanted s) w := rfl
  rw [e, reRx]
  by_cases h : (w.cfg.rs0Used && !w.cfg.asMode && w.slot.powered && (rxWanted s != rxWanted w)) = true
  · rw [if_pos h]
    simp only [Bool.and_eq_true, Bool.not_eq_true', bne_iff_ne] at h
    obtain ⟨⟨⟨h1, h2⟩, h3⟩, h4⟩ := h
    refine ⟨rfl, rfl, rfl, rfl, rfl, rfl, rfl, rfl,
      fun _ _ _ _ => ⟨rfl, _, rfl, drawDue_ge w 0 _, drawDue_le w 0 _⟩, ?_, .inr rfl⟩
    rintro (q | q | q)
    · rw [show s.cfg.rs0Used = true from h1] at q; cases q
    · rw [show s.cfg.asMode = false from h2] at q; cases q
    · exact absurd q.symm h4
  · rw [if_neg h]
    refine ⟨rfl, rfl, rfl, rfl, rfl, rfl, rfl, rfl, fun a b c d => absurd ?_ h, fun _ => rfl, .inl rfl⟩
    simp [show w.cfg.rs0Used = true from a, show w.cfg.asMode = false from b, show w.slot.powered = true from c, Ne.symm d]

theorem setSoftRs1_rate (v : Bool) (s : State) : TxRate s (setSoftRs1 v s) := by
  set w : State := { s with rate := { s.rate with soft1 := Level.ofBool v } } with hw
  have e : setSoftRs1 v s = reTxRate (txWanted s) w := rfl
  rw [e, reTxRate]
  by_cases h : (w.cfg.rs1Used && !w.cfg.asMode && w.slot.powered && (txWanted s != txWanted w)) = true
  · rw [if_pos h]
    simp only [Bool.and_eq_true, Bool.not_eq_true', bne_iff_ne] at h
    obtain ⟨⟨⟨h1, h2⟩, h3⟩, h4⟩ := h
    refine ⟨rfl, rfl, rfl, rfl, rfl, rfl, rfl, rfl,
      fun _ _ _ _ => ⟨rfl, _, rfl, drawDue_ge w 0 _, drawDue_le w 0 _⟩, ?_, .inr rfl⟩
    rintro (q | q | q)
    · rw [show s.cfg.rs1Used = true from h1] at q; cases q
    · rw [show s.cfg.asMode = false from h2] at q; cases q
    · exact absurd q.symm h4
  · rw [if_neg h]
    refine ⟨rfl, rfl, rfl, rfl, rfl, rfl, rfl, rfl, fun a b c d => absurd ?_ h, fun _ => rfl, .inl rfl⟩
    simp [show w.cfg.rs1Used = true from a, show w.cfg.asMode = false from b, show w.slot.powered = true from c, Ne.symm d]

theorem rxWanted_congr {s u : State} (h1 : u.cfg = s.cfg) (h2 : u.host = s.host) (h3 : u.slot = s.slot)
    (h4 : u.rate.soft0 = s.rate.soft0) : rxWanted u = rxWanted s := by
  unfold rxWanted rs0In; rw [h1, h2, h3, h4]

theorem txWanted_congr {s u : State} (h1 : u.cfg = s.cfg) (h2 : u.host = s.host) (h3 : u.slot = s.slot)
    (h4 : u.rate.soft1 = s.rate.soft1) : txWanted u = txWanted s := by
  unfold txWanted rs1In; rw [h1, h2, h3, h4]

/-- The end of a write cycle sets the software rate selects that the write has brought: first RS0's, then RS1's. -/
theorem softRates_cases (b : Bus) (s : State) : ∃ t, RxRate s t ∧ TxRate t (softRates b s) := by
  unfold softRates
  cases controlFor b s.cfg.softRs0Field <;> cases controlFor b s.cfg.softRs1Field <;> dsimp only
  · exact ⟨s, RxRate.refl s, TxRate.refl s⟩
  · exact ⟨s, RxRate.refl s, setSoftRs1_rate _ s⟩
  · exact ⟨_, setSoftRs0_rate _ s, TxRate.refl _⟩
  · exact ⟨_, setSoftRs0_rate _ s, setSoftRs1_rate _ _⟩

end Sys2Proof.Machine
end

