-- ==== Sys2Proof/Laws/PerInstr.lean ====
section
/-! SUPPORT. How many word slots an operation's encoding has (the Words column of 30_encoding.md R126), one lemma an
operation. -/

namespace Sys2Proof.Laws

/-- Words of an operation: R126 for the frames, one for a word on its own, none where no word goes over the bus in the
operation's own encoding. -/
def WordCount.expected : Instr → Nat
  | .deviceAddressWord _ _ => 1
  | .dataWordAddress _ => 1
  | .dataWord _ => 1
  | .currentRead _ => 2
  | .randomRead _ _ => 4
  | .seqReadCurrent _ n => 1 + n
  | .seqReadRandom _ _ n => 3 + n
  | .byteWrite _ _ _ => 3
  | .seqWrite _ _ ds => 2 + ds.length
  | .ackPoll _ _ => 1
  | .mgmtReset => 0
  | .txDisableAssert => 0
  | .txDisableNegate => 0
  | .txFaultReset _ => 0
  | .rs0Set _ => 0
  | .rs1Set _ => 0
  | .powerOn => 0
  | .powerOff => 0
  | .insert => 0
  | .remove => 0
  | .powerLevelEnable _ => 0
  | .powerLevelDisable => 0
  | .softTxDisable _ => 0
  | .softRateSelect _ _ => 0

/-- A well-formed operation's encoding has the words of R126. -/
def WordCount.Statement (i : Instr) : Prop := i.wf = true → wordsOf (encode i) = WordCount.expected i

theorem wordsOf_readSyms (n : Nat) (h : 1 ≤ n) : wordsOf (readSyms n) = n := by
  have key : ∀ k, wordsOf (List.replicate k (.read true) ++ [.read false, .stop]) = k + 1 := by
    intro k
    induction k with
    | zero => rfl
    | succ k ih => rw [List.replicate_succ, List.cons_append, wordsOf, ih]
  rw [readSyms, key]; omega

theorem wordsOf_data (ds : List Byte) : wordsOf (ds.map .data ++ [.stop]) = ds.length := by
  induction ds with
  | nil => rfl
  | cons d ds ih => rw [List.map_cons, List.cons_append, wordsOf, ih, List.length_cons]

theorem WordCount.deviceAddressWord (s : Space) (r : Dir) : WordCount.Statement (.deviceAddressWord s r) := fun _ => rfl

theorem WordCount.dataWordAddress (a : Byte) : WordCount.Statement (.dataWordAddress a) := fun _ => rfl

theorem WordCount.dataWord (d : Byte) : WordCount.Statement (.dataWord d) := fun _ => rfl

theorem WordCount.currentRead (s : Space) : WordCount.Statement (.currentRead s) := fun _ => rfl

theorem WordCount.randomRead (s : Space) (a : Byte) : WordCount.Statement (.randomRead s a) := fun _ => rfl

theorem WordCount.seqReadCurrent (s : Space) (n : Nat) : WordCount.Statement (.seqReadCurrent s n) := by
  intro h
  have : 2 ≤ n := by simpa [Instr.wf] using h
  simp only [encode, wordsOf, wordsOf_readSyms n (by omega), WordCount.expected]; omega

theorem WordCount.seqReadRandom (s : Space) (a : Byte) (n : Nat) : WordCount.Statement (.seqReadRandom s a n) := by
  intro h
  have : 2 ≤ n := by simpa [Instr.wf] using h
  simp only [encode, wordsOf, wordsOf_readSyms n (by omega), WordCount.expected]; omega

theorem WordCount.byteWrite (s : Space) (a : Byte) (d : Byte) : WordCount.Statement (.byteWrite s a d) := fun _ => rfl

theorem WordCount.seqWrite (s : Space) (a : Byte) (ds : List Byte) : WordCount.Statement (.seqWrite s a ds) := by
  intro _
  simp only [encode, wordsOf, wordsOf_data, WordCount.expected]; omega

theorem WordCount.ackPoll (s : Space) (r : Poll) : WordCount.Statement (.ackPoll s r) := by
  intro _; obtain ⟨_, e⟩ := r; cases e <;> rfl

theorem WordCount.mgmtReset : WordCount.Statement .mgmtReset := fun _ => rfl

theorem WordCount.txDisableAssert : WordCount.Statement .txDisableAssert := fun _ => rfl

theorem WordCount.txDisableNegate : WordCount.Statement .txDisableNegate := fun _ => rfl

theorem WordCount.txFaultReset (v : Via) : WordCount.Statement (.txFaultReset v) := by intro _; cases v <;> rfl

theorem WordCount.rs0Set (v : Level) : WordCount.Statement (.rs0Set v) := fun _ => rfl

theorem WordCount.rs1Set (v : Level) : WordCount.Statement (.rs1Set v) := fun _ => rfl

theorem WordCount.powerOn : WordCount.Statement .powerOn := fun _ => rfl

theorem WordCount.powerOff : WordCount.Statement .powerOff := fun _ => rfl

theorem WordCount.insert : WordCount.Statement .insert := fun _ => rfl

theorem WordCount.remove : WordCount.Statement .remove := fun _ => rfl

theorem WordCount.powerLevelEnable (l : PowerLevel) : WordCount.Statement (.powerLevelEnable l) := fun _ => rfl

theorem WordCount.powerLevelDisable : WordCount.Statement .powerLevelDisable := fun _ => rfl

theorem WordCount.softTxDisable (v : Bool) : WordCount.Statement (.softTxDisable v) := fun _ => rfl

theorem WordCount.softRateSelect (x : Level) (y : Level) : WordCount.Statement (.softRateSelect x y) := fun _ => rfl

end Sys2Proof.Laws
end

