-- ==== Sys2Proof/Laws/Reads.lean ====
section
/-! SUPPORT. What a byte the module sends says: memory's bits, and the fields laid over them one after the other
(`Shows.shows`). -/

namespace Sys2Proof.Machine

/-- The bits of `m` from `c`, the others from `v`. -/
def blend (m c v : Byte) : Byte := (v &&& ~~~m) ||| (c &&& m)

theorem blend_zero (c v : Byte) : blend 0 c v = v := by
  ext i hi
  simp only [blend, BitVec.getElem_and, BitVec.getElem_or, BitVec.getElem_not, BitVec.ofNat_eq_ofNat, BitVec.getElem_zero]
  simp

theorem blend_own (m c v : Byte) : blend m c v &&& m = c &&& m := by
  ext i hi
  simp only [blend, BitVec.getElem_and, BitVec.getElem_or, BitVec.getElem_not]
  cases m[i] <;> simp

theorem blend_apart {m n : Byte} (h : m &&& n = 0) (c v : Byte) : blend m c v &&& n = v &&& n := by
  ext i hi
  have hb : (m &&& n)[i] = (0#8)[i] := by rw [h]; rfl
  simp only [BitVec.getElem_and, BitVec.getElem_zero, Bool.and_eq_false_iff] at hb
  simp only [blend, BitVec.getElem_and, BitVec.getElem_or, BitVec.getElem_not]
  rcases hb with hb | hb <;> rw [hb] <;> simp

/-- Layers of a byte, (bits, code), the outermost first, over a byte below them. -/
def blends (l : List (Byte × Byte)) (v : Byte) : Byte := l.foldr (fun p w => blend p.1 p.2 w) v

/-- The bits any of the layers takes. -/
def union (l : List (Byte × Byte)) : Byte := l.foldr (fun p m => p.1 ||| m) 0

theorem blends_own {l : List (Byte × Byte)} (h : l.Pairwise fun p q => p.1 &&& q.1 = 0) (v : Byte) {p : Byte × Byte}
    (hp : p ∈ l) : blends l v &&& p.1 = p.2 &&& p.1 := by
  induction l with
  | nil => cases hp
  | cons q l ih =>
    rw [List.pairwise_cons] at h
    rcases List.mem_cons.mp hp with rfl | hp
    · exact blend_own ..
    · exact (blend_apart (h.1 p hp) ..).trans (ih h.2 hp)

theorem blends_rest (l : List (Byte × Byte)) (v : Byte) : blends l v &&& ~~~union l = v &&& ~~~union l := by
  induction l with
  | nil => rfl
  | cons p l ih =>
    ext i hi
    have hb : (blends l v &&& ~~~union l)[i] = (v &&& ~~~union l)[i] := by rw [ih]
    simp only [BitVec.getElem_and, BitVec.getElem_not] at hb
    simp only [blends, union, List.foldr_cons, blend, BitVec.getElem_and, BitVec.getElem_or, BitVec.getElem_not] at hb ⊢
    generalize (List.foldr (fun p w => blend p.1 p.2 w) v l)[i] = x at hb ⊢
    generalize (List.foldr (fun p m => p.1 ||| m) (0 : Byte) l)[i] = y at hb ⊢
    generalize v[i] = z at hb ⊢
    generalize p.1[i] = a
    generalize p.2[i] = b
    revert hb
    cases x <;> cases y <;> cases z <;> cases a <;> cases b <;> simp

/-- The code of a one-bit field. -/
def codeOf (f : Field) (b : Bool) : Byte := if b then f.on else ~~~f.on

/-- The code of a power level. -/
def levelCode (f : PowerField) (l : PowerLevel) : Byte :=
  match l with
  | .one => f.codeI
  | .two => f.codeII
  | .three => f.codeIII

/-- The value Rx_LOS is shown with, by what the draw says where it is open. -/
def losShown (s : State) : Bool := !s.cfg.passiveCable && if s.rcv.known then s.rcv.los else drawBool s 0

/-- The one-bit fields as `sampleByte` lays them, with their values; the power level enable comes after the first three. -/
def fixedFields (c : Params) : List (Field × Bool) :=
  [(asModeField, c.asMode), (c.levelField, decide (c.powerLevel ≠ .one)), (c.cooledField, c.cooled)]

/-- The software controls and Rx_LOS. -/
def liveFields (s : State) : List (Field × Bool) :=
  [(s.cfg.softTxField, s.tx.soft), (s.cfg.softRs0Field, s.rate.soft0.toBool), (s.cfg.softRs1Field, s.rate.soft1.toBool)] ++
    s.cfg.losField.toList.map fun f => (f, losShown s)

/-- A field as (byte, bits, code). -/
def layOf (p : Field × Bool) : Nat × Byte × Byte := (memKey p.1.space p.1.addr, p.1.mask, codeOf p.1 p.2)

/-- Everything laid over memory, the outermost first. -/
def laid (s : State) : List (Nat × Byte × Byte) :=
  (fixedFields s.cfg).map layOf ++
    (memKey s.cfg.powerField.space s.cfg.powerField.addr, s.cfg.powerField.mask, levelCode s.cfg.powerField s.lvl.next) ::
      (liveFields s).map layOf

/-- A layer at one byte: no bits of a field that lies elsewhere. -/
def layerAt (k : Nat) (p : Nat × Byte × Byte) : Byte × Byte := (if p.1 = k then p.2.1 else 0, p.2.2)

theorem laid_places (s : State) : (laid s).map (fun p => (p.1, p.2.1)) = shownPlaces s.cfg := by
  simp [laid, fixedFields, liveFields, layOf, shownPlaces, Function.comp_def]

theorem showField_blend (f : Field) (b : Bool) (sp : Space) (a v : Byte) :
    showField f b sp a v = blend (if memKey f.space f.addr = memKey sp a then f.mask else 0) (codeOf f b) v := by
  rw [showField]
  split
  · rfl
  · rw [blend_zero]

theorem sampleByte_blends (s : State) (sp : Space) (a : Byte) :
    sampleByte s sp a = blends ((laid s).map (layerAt (memKey sp a)))
      (if s.cfg.volatile.contains (memKey sp a) then drawByte s 0 else storedByte s sp a) := by
  have hp (w : Byte) : (if memKey s.cfg.powerField.space s.cfg.powerField.addr = memKey sp a then
      powerPut s.cfg.powerField s.lvl.next w else w) =
      blend (if memKey s.cfg.powerField.space s.cfg.powerField.addr = memKey sp a then s.cfg.powerField.mask else 0)
        (levelCode s.cfg.powerField s.lvl.next) w := by
    split
    · rfl
    · rw [blend_zero]
  rw [sampleByte, showFixed, showControls, hp]
  simp only [showField_blend, showLos]
  cases h : s.cfg.losField <;>
    simp [laid, fixedFields, liveFields, layOf, layerAt, blends, losShown, h]

theorem laid_apart {s : State} (h : placesApart s.cfg) (k : Nat) :
    ((laid s).map (layerAt k)).Pairwise fun p q => p.1 &&& q.1 = 0 := by
  rw [placesApart, ← laid_places, List.pairwise_map] at h
  rw [List.pairwise_map]
  refine h.imp fun {p q} hh => ?_
  simp only [layerAt]
  split <;> split <;> first | exact hh (by simp_all) | simp

theorem union_laid (s : State) (sp : Space) (a : Byte) :
    union ((laid s).map (layerAt (memKey sp a))) = shownMask s.cfg sp a := by
  rw [shownMask, ← laid_places]
  generalize laid s = l
  induction l with
  | nil => rfl
  | cons p l ih =>
    simp only [List.map_cons, union, List.foldr_cons, List.filter_cons] at ih ⊢
    rw [ih, layerAt]
    by_cases h : p.1 = memKey sp a <;> simp [h]

/-- A layer's bits are its code, and no other layer's. -/
theorem sampleByte_field {s : State} (h : placesApart s.cfg) {p : Nat × Byte × Byte} (hp : p ∈ laid s) {sp : Space} {a : Byte}
    (hk : p.1 = memKey sp a) : sampleByte s sp a &&& p.2.1 = p.2.2 &&& p.2.1 := by
  have := blends_own (laid_apart h (memKey sp a))
    (if s.cfg.volatile.contains (memKey sp a) then drawByte s 0 else storedByte s sp a) (List.mem_map_of_mem hp)
  rw [← sampleByte_blends, layerAt, if_pos hk] at this
  exact this

/-- Where no field lies the byte is memory's. -/
theorem sampleByte_rest {s : State} {sp : Space} {a w : Byte} (hv : s.cfg.volatile.contains (memKey sp a) = false)
    (hr : Memory.read s.cfg.init s.mem (memKey sp a) = some w) :
    sampleByte s sp a &&& ~~~shownMask s.cfg sp a = w &&& ~~~shownMask s.cfg sp a := by
  have := blends_rest ((laid s).map (layerAt (memKey sp a))) (storedByte s sp a)
  rw [sampleByte_blends, hv, ← union_laid]
  simpa [storedByte, hr] using this

/-- A byte that is nothing but memory is read as memory holds it. -/
theorem sampleByte_plain {s : State} {sp : Space} {a w : Byte} (hp : isPlain s.cfg sp a = true)
    (hr : Memory.read s.cfg.init s.mem (memKey sp a) = some w) : sampleByte s sp a = w := by
  simp only [isPlain, Bool.and_eq_true, Bool.not_eq_true', decide_eq_true_eq] at hp
  obtain ⟨⟨⟨⟨⟨⟨⟨⟨h1, h2⟩, h3⟩, h4⟩, h5⟩, h6⟩, h7⟩, h8⟩, h9⟩ := hp
  have hl : showLos s sp a w = w := by
    rw [showLos]
    cases e : s.cfg.losField with
    | none => rfl
    | some f =>
      rw [e] at h9
      exact if_neg (of_decide_eq_true h9)
  rw [sampleByte, h1]
  simp [showFixed, showControls, showField, storedByte, h2, h3, h4, h5, h6, h7, h8, hr, hl]

theorem mem_laid_fixed {s : State} {p : Field × Bool} (h : p ∈ fixedFields s.cfg) : layOf p ∈ laid s :=
  List.mem_append_left _ (List.mem_map_of_mem h)

theorem mem_laid_live {s : State} {p : Field × Bool} (h : p ∈ liveFields s) : layOf p ∈ laid s :=
  List.mem_append_right _ (List.mem_cons_of_mem _ (List.mem_map_of_mem h))

/-- Every field that is stated to show lies among the layers. -/
theorem layOf_mem_laid {s : State} {p : Field × Bool} (h : p ∈ shownFields s) : layOf p ∈ laid s := by
  rcases List.mem_append.mp h with h | h
  · have : p ∈ fixedFields s.cfg ∨ p ∈ [(s.cfg.softTxField, s.tx.soft), (s.cfg.softRs0Field, s.rate.soft0.toBool),
        (s.cfg.softRs1Field, s.rate.soft1.toBool)] := List.mem_append.mp h
    rcases this with h | h
    · exact mem_laid_fixed h
    · exact mem_laid_live (List.mem_append_left _ h)
  · refine mem_laid_live (List.mem_append_right _ ?_)
    split at h
    · rename_i hc
      obtain ⟨f, hf, rfl⟩ := List.mem_map.mp h
      refine List.mem_map.mpr ⟨f, hf, ?_⟩
      cases hp : s.cfg.passiveCable
      · rw [losShown, hp, if_pos (by simpa [hp] using hc)]
      · rw [losShown, hp]; rfl
    · cases h

/-- What a byte the module sends says, in the terms the statements use. -/
theorem sampleByte_shows (s : State) (sp : Space) (a : Byte) : shows s sp a (sampleByte s sp a) :=
  ⟨fun _ hp hr => sampleByte_plain hp hr, fun _ hv hr => sampleByte_rest hv hr, fun hap =>
    ⟨fun _ hp hk => sampleByte_field hap (layOf_mem_laid hp) hk, fun hk =>
      sampleByte_field (p := (_, _, levelCode s.cfg.powerField s.lvl.next)) hap
        (List.mem_append_right _ (List.mem_cons_self ..)) hk⟩⟩

/-- The same of a byte that is shown: what it says rests on no free value. -/
theorem Shows.shows {s : State} {sp : Space} {a v : Byte} (h : Shows s sp a v) : shows s sp a v := by
  obtain ⟨n, rfl⟩ := h
  exact sampleByte_shows { s with clk := { s.clk with drawn := n } } sp a

end Sys2Proof.Machine
end

