-- ==== Sys2Proof/Laws/State.lean ====
section
/-! SUPPORT. What the named updates of the state leave and set: one lemma a field, so that no proof unfolds a record
update. -/

namespace Sys2Proof.Machine

/-! ### Free values used -/

@[simp] theorem spend_cfg (n : Nat) (s : State) : (spend n s).cfg = s.cfg := rfl
@[simp] theorem spend_host (n : Nat) (s : State) : (spend n s).host = s.host := rfl
@[simp] theorem spend_seen (n : Nat) (s : State) : (spend n s).seen = s.seen := rfl
@[simp] theorem spend_out (n : Nat) (s : State) : (spend n s).out = s.out := rfl
@[simp] theorem spend_slot (n : Nat) (s : State) : (spend n s).slot = s.slot := rfl
@[simp] theorem spend_tx (n : Nat) (s : State) : (spend n s).tx = s.tx := rfl
@[simp] theorem spend_rcv (n : Nat) (s : State) : (spend n s).rcv = s.rcv := rfl
@[simp] theorem spend_rate (n : Nat) (s : State) : (spend n s).rate = s.rate := rfl
@[simp] theorem spend_lvl (n : Nat) (s : State) : (spend n s).lvl = s.lvl := rfl
@[simp] theorem spend_bus (n : Nat) (s : State) : (spend n s).bus = s.bus := rfl
@[simp] theorem spend_wr (n : Nat) (s : State) : (spend n s).wr = s.wr := rfl
@[simp] theorem spend_mem (n : Nat) (s : State) : (spend n s).mem = s.mem := rfl
@[simp] theorem spend_raised (n : Nat) (s : State) : (spend n s).raised = s.raised := rfl
@[simp] theorem spend_script (n : Nat) (s : State) : (spend n s).script = s.script := rfl
@[simp] theorem spend_clk_now (n : Nat) (s : State) : (spend n s).clk.now = s.clk.now := rfl
@[simp] theorem spend_clk_drawn (n : Nat) (s : State) : (spend n s).clk.drawn = s.clk.drawn + n := rfl

/-! ### Time -/

@[simp] theorem advance_cfg (t : Nat) (s : State) : (advance t s).cfg = s.cfg := rfl
@[simp] theorem advance_host (t : Nat) (s : State) : (advance t s).host = s.host := rfl
@[simp] theorem advance_seen (t : Nat) (s : State) : (advance t s).seen = s.seen := rfl
@[simp] theorem advance_out (t : Nat) (s : State) : (advance t s).out = s.out := rfl
@[simp] theorem advance_slot (t : Nat) (s : State) : (advance t s).slot = s.slot := rfl
@[simp] theorem advance_tx (t : Nat) (s : State) : (advance t s).tx = s.tx := rfl
@[simp] theorem advance_rcv (t : Nat) (s : State) : (advance t s).rcv = s.rcv := rfl
@[simp] theorem advance_rate (t : Nat) (s : State) : (advance t s).rate = s.rate := rfl
@[simp] theorem advance_lvl (t : Nat) (s : State) : (advance t s).lvl = s.lvl := rfl
@[simp] theorem advance_bus (t : Nat) (s : State) : (advance t s).bus = s.bus := rfl
@[simp] theorem advance_wr (t : Nat) (s : State) : (advance t s).wr = s.wr := rfl
@[simp] theorem advance_mem (t : Nat) (s : State) : (advance t s).mem = s.mem := rfl
@[simp] theorem advance_raised (t : Nat) (s : State) : (advance t s).raised = s.raised := rfl
@[simp] theorem advance_script (t : Nat) (s : State) : (advance t s).script = s.script := rfl
@[simp] theorem advance_clk_now (t : Nat) (s : State) : (advance t s).clk.now = s.clk.now + t := rfl
@[simp] theorem advance_clk_drawn (t : Nat) (s : State) : (advance t s).clk.drawn = s.clk.drawn := rfl

/-! ### A condition raised -/

@[simp] theorem raise_cfg (c : Condition) (s : State) : (raise c s).cfg = s.cfg := rfl
@[simp] theorem raise_host (c : Condition) (s : State) : (raise c s).host = s.host := rfl
@[simp] theorem raise_seen (c : Condition) (s : State) : (raise c s).seen = s.seen := rfl
@[simp] theorem raise_out (c : Condition) (s : State) : (raise c s).out = s.out := rfl
@[simp] theorem raise_slot (c : Condition) (s : State) : (raise c s).slot = s.slot := rfl
@[simp] theorem raise_tx (c : Condition) (s : State) : (raise c s).tx = s.tx := rfl
@[simp] theorem raise_rcv (c : Condition) (s : State) : (raise c s).rcv = s.rcv := rfl
@[simp] theorem raise_rate (c : Condition) (s : State) : (raise c s).rate = s.rate := rfl
@[simp] theorem raise_lvl (c : Condition) (s : State) : (raise c s).lvl = s.lvl := rfl
@[simp] theorem raise_bus (c : Condition) (s : State) : (raise c s).bus = s.bus := rfl
@[simp] theorem raise_wr (c : Condition) (s : State) : (raise c s).wr = s.wr := rfl
@[simp] theorem raise_mem (c : Condition) (s : State) : (raise c s).mem = s.mem := rfl
@[simp] theorem raise_script (c : Condition) (s : State) : (raise c s).script = s.script := rfl
@[simp] theorem raise_clk (c : Condition) (s : State) : (raise c s).clk = s.clk := rfl
@[simp] theorem raise_raised (c : Condition) (s : State) : (raise c s).raised = s.raised ++ [c] := rfl

/-! ### The latched fault -/

@[simp] theorem enterTxFault_cfg (s : State) : (enterTxFault s).cfg = s.cfg := rfl
@[simp] theorem enterTxFault_host (s : State) : (enterTxFault s).host = s.host := rfl
@[simp] theorem enterTxFault_seen (s : State) : (enterTxFault s).seen = s.seen := rfl
@[simp] theorem enterTxFault_out (s : State) : (enterTxFault s).out = s.out := rfl
@[simp] theorem enterTxFault_slot (s : State) : (enterTxFault s).slot = s.slot := rfl
@[simp] theorem enterTxFault_rcv (s : State) : (enterTxFault s).rcv = s.rcv := rfl
@[simp] theorem enterTxFault_rate (s : State) : (enterTxFault s).rate = s.rate := rfl
@[simp] theorem enterTxFault_lvl (s : State) : (enterTxFault s).lvl = s.lvl := rfl
@[simp] theorem enterTxFault_bus (s : State) : (enterTxFault s).bus = s.bus := rfl
@[simp] theorem enterTxFault_wr (s : State) : (enterTxFault s).wr = s.wr := rfl
@[simp] theorem enterTxFault_mem (s : State) : (enterTxFault s).mem = s.mem := rfl
@[simp] theorem enterTxFault_script (s : State) : (enterTxFault s).script = s.script := rfl
@[simp] theorem enterTxFault_clk (s : State) : (enterTxFault s).clk = s.clk := rfl
@[simp] theorem enterTxFault_raised (s : State) : (enterTxFault s).raised = s.raised ++ [.txFault] := rfl
@[simp] theorem enterTxFault_tx_state (s : State) : (enterTxFault s).tx.state = .faultLatched := rfl
@[simp] theorem enterTxFault_tx_latch (s : State) : (enterTxFault s).tx.latch = true := rfl
@[simp] theorem enterTxFault_tx_outputOn (s : State) : (enterTxFault s).tx.outputOn = false := rfl
@[simp] theorem enterTxFault_tx_soft (s : State) : (enterTxFault s).tx.soft = s.tx.soft := rfl
@[simp] theorem enterTxFault_tx_initDone (s : State) : (enterTxFault s).tx.initDone = s.tx.initDone := rfl
@[simp] theorem enterTxFault_tx_due (s : State) : (enterTxFault s).tx.due = none := rfl
@[simp] theorem enterTxFault_tx_faultDue (s : State) : (enterTxFault s).tx.faultDue = none := rfl
@[simp] theorem enterTxFault_tx_offDue (s : State) : (enterTxFault s).tx.offDue = none := rfl

/-! ### An initialisation -/

@[simp] theorem beginInit_cfg (s : State) : (beginInit s).cfg = s.cfg := rfl
@[simp] theorem beginInit_host (s : State) : (beginInit s).host = s.host := rfl
@[simp] theorem beginInit_seen (s : State) : (beginInit s).seen = s.seen := rfl
@[simp] theorem beginInit_out (s : State) : (beginInit s).out = s.out := rfl
@[simp] theorem beginInit_slot (s : State) : (beginInit s).slot = s.slot := rfl
@[simp] theorem beginInit_rcv (s : State) : (beginInit s).rcv = s.rcv := rfl
@[simp] theorem beginInit_rate (s : State) : (beginInit s).rate = s.rate := rfl
@[simp] theorem beginInit_lvl (s : State) : (beginInit s).lvl = s.lvl := rfl
@[simp] theorem beginInit_bus (s : State) : (beginInit s).bus = s.bus := rfl
@[simp] theorem beginInit_wr (s : State) : (beginInit s).wr = s.wr := rfl
@[simp] theorem beginInit_mem (s : State) : (beginInit s).mem = s.mem := rfl
@[simp] theorem beginInit_raised (s : State) : (beginInit s).raised = s.raised := rfl
@[simp] theorem beginInit_script (s : State) : (beginInit s).script = s.script := rfl
@[simp] theorem beginInit_clk_now (s : State) : (beginInit s).clk.now = s.clk.now := rfl
@[simp] theorem beginInit_clk_drawn (s : State) : (beginInit s).clk.drawn = s.clk.drawn + 2 := rfl
@[simp] theorem beginInit_tx_state (s : State) : (beginInit s).tx.state = .initializing := rfl
@[simp] theorem beginInit_tx_latch (s : State) : (beginInit s).tx.latch = false := rfl
@[simp] theorem beginInit_tx_outputOn (s : State) : (beginInit s).tx.outputOn = false := rfl
@[simp] theorem beginInit_tx_soft (s : State) : (beginInit s).tx.soft = s.tx.soft := rfl
@[simp] theorem beginInit_tx_initDone (s : State) : (beginInit s).tx.initDone = false := rfl
@[simp] theorem beginInit_tx_due (s : State) : (beginInit s).tx.due = some (drawDue s 0 (tInit s.cfg)) := rfl
@[simp] theorem beginInit_tx_faultDue (s : State) : (beginInit s).tx.faultDue =
    if s.out.faultCond && s.cfg.txFaultImpl then some (drawDue s 1 (tFaultOn s.cfg)) else none := rfl
@[simp] theorem beginInit_tx_offDue (s : State) : (beginInit s).tx.offDue = s.tx.offDue := rfl

/-! ### The transmitter started -/

@[simp] theorem txOperate_cfg (s : State) : (txOperate s).cfg = s.cfg := rfl
@[simp] theorem txOperate_host (s : State) : (txOperate s).host = s.host := rfl
@[simp] theorem txOperate_seen (s : State) : (txOperate s).seen = s.seen := rfl
@[simp] theorem txOperate_out (s : State) : (txOperate s).out = s.out := rfl
@[simp] theorem txOperate_slot (s : State) : (txOperate s).slot = s.slot := rfl
@[simp] theorem txOperate_rcv (s : State) : (txOperate s).rcv = s.rcv := rfl
@[simp] theorem txOperate_rate (s : State) : (txOperate s).rate = s.rate := rfl
@[simp] theorem txOperate_lvl (s : State) : (txOperate s).lvl = s.lvl := rfl
@[simp] theorem txOperate_bus (s : State) : (txOperate s).bus = s.bus := rfl
@[simp] theorem txOperate_wr (s : State) : (txOperate s).wr = s.wr := rfl
@[simp] theorem txOperate_mem (s : State) : (txOperate s).mem = s.mem := rfl
@[simp] theorem txOperate_raised (s : State) : (txOperate s).raised = s.raised := rfl
@[simp] theorem txOperate_script (s : State) : (txOperate s).script = s.script := rfl
@[simp] theorem txOperate_clk (s : State) : (txOperate s).clk = s.clk := rfl
@[simp] theorem txOperate_tx_state (s : State) : (txOperate s).tx.state = .operating := rfl
@[simp] theorem txOperate_tx_latch (s : State) : (txOperate s).tx.latch = s.tx.latch := rfl
@[simp] theorem txOperate_tx_outputOn (s : State) : (txOperate s).tx.outputOn = true := rfl
@[simp] theorem txOperate_tx_soft (s : State) : (txOperate s).tx.soft = s.tx.soft := rfl
@[simp] theorem txOperate_tx_initDone (s : State) : (txOperate s).tx.initDone = true := rfl
@[simp] theorem txOperate_tx_due (s : State) : (txOperate s).tx.due = none := rfl
@[simp] theorem txOperate_tx_faultDue (s : State) : (txOperate s).tx.faultDue = s.tx.faultDue := rfl
@[simp] theorem txOperate_tx_offDue (s : State) : (txOperate s).tx.offDue = none := rfl

/-! ### START taken -/

@[simp] theorem gotStart_cfg (s : State) : (gotStart s).cfg = s.cfg := rfl
@[simp] theorem gotStart_host (s : State) : (gotStart s).host = s.host := rfl
@[simp] theorem gotStart_seen (s : State) : (gotStart s).seen = s.seen := rfl
@[simp] theorem gotStart_out (s : State) : (gotStart s).out = s.out := rfl
@[simp] theorem gotStart_slot (s : State) : (gotStart s).slot = s.slot := rfl
@[simp] theorem gotStart_tx (s : State) : (gotStart s).tx = s.tx := rfl
@[simp] theorem gotStart_rcv (s : State) : (gotStart s).rcv = s.rcv := rfl
@[simp] theorem gotStart_rate (s : State) : (gotStart s).rate = s.rate := rfl
@[simp] theorem gotStart_lvl (s : State) : (gotStart s).lvl = s.lvl := rfl
@[simp] theorem gotStart_wr (s : State) : (gotStart s).wr = s.wr := rfl
@[simp] theorem gotStart_mem (s : State) : (gotStart s).mem = s.mem := rfl
@[simp] theorem gotStart_raised (s : State) : (gotStart s).raised = s.raised := rfl
@[simp] theorem gotStart_script (s : State) : (gotStart s).script = s.script := rfl
@[simp] theorem gotStart_clk (s : State) : (gotStart s).clk = s.clk := rfl
@[simp] theorem gotStart_bus_state (s : State) : (gotStart s).bus.state = .gotStart := rfl
@[simp] theorem gotStart_bus_phase (s : State) : (gotStart s).bus.phase = .recv := rfl
@[simp] theorem gotStart_bus_sel (s : State) : (gotStart s).bus.sel = s.bus.sel := rfl
@[simp] theorem gotStart_bus_shift (s : State) : (gotStart s).bus.shift = 0 := rfl
@[simp] theorem gotStart_bus_nbits (s : State) : (gotStart s).bus.nbits = 0 := rfl
@[simp] theorem gotStart_bus_sda (s : State) : (gotStart s).bus.sda = .high := rfl
@[simp] theorem gotStart_bus_willAck (s : State) : (gotStart s).bus.willAck = false := rfl
@[simp] theorem gotStart_bus_hostAck (s : State) : (gotStart s).bus.hostAck = s.bus.hostAck := rfl
@[simp] theorem gotStart_bus_wbuf (s : State) : (gotStart s).bus.wbuf = [] := rfl
@[simp] theorem gotStart_bus_loaded (s : State) : (gotStart s).bus.loaded = s.bus.loaded := rfl
@[simp] theorem gotStart_bus_ctrA0 (s : State) : (gotStart s).bus.ctrA0 = s.bus.ctrA0 := rfl
@[simp] theorem gotStart_bus_ctrA2 (s : State) : (gotStart s).bus.ctrA2 = s.bus.ctrA2 := rfl
@[simp] theorem gotStart_bus_stretching (s : State) : (gotStart s).bus.stretching = s.bus.stretching := rfl
@[simp] theorem gotStart_bus_hold (s : State) : (gotStart s).bus.hold = s.bus.hold := rfl
@[simp] theorem gotStart_bus_freeAt (s : State) : (gotStart s).bus.freeAt = s.bus.freeAt := rfl
@[simp] theorem gotStart_bus_heldAt (s : State) : (gotStart s).bus.heldAt = s.bus.heldAt := rfl
@[simp] theorem gotStart_bus_deafTill (s : State) : (gotStart s).bus.deafTill = s.bus.deafTill := rfl
@[simp] theorem gotStart_bus_deafWrite (s : State) : (gotStart s).bus.deafWrite = s.bus.deafWrite := rfl

/-! ### The engine idle -/

@[simp] theorem goIdle_cfg (s : State) : (goIdle s).cfg = s.cfg := rfl
@[simp] theorem goIdle_host (s : State) : (goIdle s).host = s.host := rfl
@[simp] theorem goIdle_seen (s : State) : (goIdle s).seen = s.seen := rfl
@[simp] theorem goIdle_out (s : State) : (goIdle s).out = s.out := rfl
@[simp] theorem goIdle_slot (s : State) : (goIdle s).slot = s.slot := rfl
@[simp] theorem goIdle_tx (s : State) : (goIdle s).tx = s.tx := rfl
@[simp] theorem goIdle_rcv (s : State) : (goIdle s).rcv = s.rcv := rfl
@[simp] theorem goIdle_rate (s : State) : (goIdle s).rate = s.rate := rfl
@[simp] theorem goIdle_lvl (s : State) : (goIdle s).lvl = s.lvl := rfl
@[simp] theorem goIdle_wr (s : State) : (goIdle s).wr = s.wr := rfl
@[simp] theorem goIdle_mem (s : State) : (goIdle s).mem = s.mem := rfl
@[simp] theorem goIdle_raised (s : State) : (goIdle s).raised = s.raised := rfl
@[simp] theorem goIdle_script (s : State) : (goIdle s).script = s.script := rfl
@[simp] theorem goIdle_clk (s : State) : (goIdle s).clk = s.clk := rfl
@[simp] theorem goIdle_bus_state (s : State) : (goIdle s).bus.state = .idle := rfl
@[simp] theorem goIdle_bus_phase (s : State) : (goIdle s).bus.phase = .off := rfl
@[simp] theorem goIdle_bus_sel (s : State) : (goIdle s).bus.sel = s.bus.sel := rfl
@[simp] theorem goIdle_bus_shift (s : State) : (goIdle s).bus.shift = s.bus.shift := rfl
@[simp] theorem goIdle_bus_nbits (s : State) : (goIdle s).bus.nbits = 0 := rfl
@[simp] theorem goIdle_bus_sda (s : State) : (goIdle s).bus.sda = .high := rfl
@[simp] theorem goIdle_bus_willAck (s : State) : (goIdle s).bus.willAck = s.bus.willAck := rfl
@[simp] theorem goIdle_bus_hostAck (s : State) : (goIdle s).bus.hostAck = s.bus.hostAck := rfl
@[simp] theorem goIdle_bus_wbuf (s : State) : (goIdle s).bus.wbuf = s.bus.wbuf := rfl
@[simp] theorem goIdle_bus_loaded (s : State) : (goIdle s).bus.loaded = s.bus.loaded := rfl
@[simp] theorem goIdle_bus_ctrA0 (s : State) : (goIdle s).bus.ctrA0 = s.bus.ctrA0 := rfl
@[simp] theorem goIdle_bus_ctrA2 (s : State) : (goIdle s).bus.ctrA2 = s.bus.ctrA2 := rfl
@[simp] theorem goIdle_bus_stretching (s : State) : (goIdle s).bus.stretching = s.bus.stretching := rfl
@[simp] theorem goIdle_bus_hold (s : State) : (goIdle s).bus.hold = s.bus.hold := rfl
@[simp] theorem goIdle_bus_freeAt (s : State) : (goIdle s).bus.freeAt = s.bus.freeAt := rfl
@[simp] theorem goIdle_bus_heldAt (s : State) : (goIdle s).bus.heldAt = s.bus.heldAt := rfl
@[simp] theorem goIdle_bus_deafTill (s : State) : (goIdle s).bus.deafTill = s.bus.deafTill := rfl
@[simp] theorem goIdle_bus_deafWrite (s : State) : (goIdle s).bus.deafWrite = s.bus.deafWrite := rfl

/-! ### A transaction opened -/

@[simp] theorem openFrame_cfg (s : State) : (openFrame s).cfg = s.cfg := rfl
@[simp] theorem openFrame_out (s : State) : (openFrame s).out = s.out := rfl
@[simp] theorem openFrame_slot (s : State) : (openFrame s).slot = s.slot := rfl
@[simp] theorem openFrame_tx (s : State) : (openFrame s).tx = s.tx := rfl
@[simp] theorem openFrame_rcv (s : State) : (openFrame s).rcv = s.rcv := rfl
@[simp] theorem openFrame_rate (s : State) : (openFrame s).rate = s.rate := rfl
@[simp] theorem openFrame_lvl (s : State) : (openFrame s).lvl = s.lvl := rfl
@[simp] theorem openFrame_bus (s : State) : (openFrame s).bus = s.bus := rfl
@[simp] theorem openFrame_wr (s : State) : (openFrame s).wr = s.wr := rfl
@[simp] theorem openFrame_mem (s : State) : (openFrame s).mem = s.mem := rfl
@[simp] theorem openFrame_raised (s : State) : (openFrame s).raised = s.raised := rfl
@[simp] theorem openFrame_script (s : State) : (openFrame s).script = s.script := rfl
@[simp] theorem openFrame_clk (s : State) : (openFrame s).clk = s.clk := rfl
@[simp] theorem openFrame_host_inFrame (s : State) : (openFrame s).host.inFrame = true := rfl
@[simp] theorem openFrame_host_txDisable (s : State) : (openFrame s).host.txDisable = s.host.txDisable := rfl
@[simp] theorem openFrame_host_sclPeriod (s : State) : (openFrame s).host.sclPeriod = s.host.sclPeriod := rfl

/-! ### A write cycle begun -/

@[simp] theorem beginWrite_cfg (s : State) : (beginWrite s).cfg = s.cfg := rfl
@[simp] theorem beginWrite_host (s : State) : (beginWrite s).host = s.host := rfl
@[simp] theorem beginWrite_seen (s : State) : (beginWrite s).seen = s.seen := rfl
@[simp] theorem beginWrite_out (s : State) : (beginWrite s).out = s.out := rfl
@[simp] theorem beginWrite_slot (s : State) : (beginWrite s).slot = s.slot := rfl
@[simp] theorem beginWrite_tx (s : State) : (beginWrite s).tx = s.tx := rfl
@[simp] theorem beginWrite_rcv (s : State) : (beginWrite s).rcv = s.rcv := rfl
@[simp] theorem beginWrite_rate (s : State) : (beginWrite s).rate = s.rate := rfl
@[simp] theorem beginWrite_lvl (s : State) : (beginWrite s).lvl = s.lvl := rfl
@[simp] theorem beginWrite_bus (s : State) : (beginWrite s).bus = s.bus := rfl
@[simp] theorem beginWrite_mem (s : State) : (beginWrite s).mem = s.mem := rfl
@[simp] theorem beginWrite_raised (s : State) : (beginWrite s).raised = s.raised := rfl
@[simp] theorem beginWrite_script (s : State) : (beginWrite s).script = s.script := rfl
@[simp] theorem beginWrite_clk_now (s : State) : (beginWrite s).clk.now = s.clk.now := rfl
@[simp] theorem beginWrite_clk_drawn (s : State) : (beginWrite s).clk.drawn = s.clk.drawn + 1 := rfl
@[simp] theorem beginWrite_wr_busy (s : State) : (beginWrite s).wr.busy = true := rfl
@[simp] theorem beginWrite_wr_space (s : State) : (beginWrite s).wr.space = s.bus.sel := rfl
@[simp] theorem beginWrite_wr_startAt (s : State) : (beginWrite s).wr.startAt = s.clk.now := rfl
@[simp] theorem beginWrite_wr_cycles (s : State) : (beginWrite s).wr.cycles = s.wr.cycles + 1 := rfl

/-! ### The wires sampled -/

@[simp] theorem sampleWires_cfg (s : State) : (sampleWires s).cfg = s.cfg := rfl
@[simp] theorem sampleWires_host (s : State) : (sampleWires s).host = s.host := rfl
@[simp] theorem sampleWires_out (s : State) : (sampleWires s).out = s.out := rfl
@[simp] theorem sampleWires_slot (s : State) : (sampleWires s).slot = s.slot := rfl
@[simp] theorem sampleWires_tx (s : State) : (sampleWires s).tx = s.tx := rfl
@[simp] theorem sampleWires_rcv (s : State) : (sampleWires s).rcv = s.rcv := rfl
@[simp] theorem sampleWires_rate (s : State) : (sampleWires s).rate = s.rate := rfl
@[simp] theorem sampleWires_lvl (s : State) : (sampleWires s).lvl = s.lvl := rfl
@[simp] theorem sampleWires_bus (s : State) : (sampleWires s).bus = s.bus := rfl
@[simp] theorem sampleWires_wr (s : State) : (sampleWires s).wr = s.wr := rfl
@[simp] theorem sampleWires_mem (s : State) : (sampleWires s).mem = s.mem := rfl
@[simp] theorem sampleWires_raised (s : State) : (sampleWires s).raised = s.raised := rfl
@[simp] theorem sampleWires_script (s : State) : (sampleWires s).script = s.script := rfl
@[simp] theorem sampleWires_clk_now (s : State) : (sampleWires s).clk.now = s.clk.now := rfl
@[simp] theorem sampleWires_clk_drawn (s : State) : (sampleWires s).clk.drawn = s.clk.drawn + 1 := rfl
@[simp] theorem sampleWires_seen_rx (s : State) : (sampleWires s).seen.rx = s.seen.rx := rfl
@[simp] theorem sampleWires_seen_acks (s : State) : (sampleWires s).seen.acks = s.seen.acks := rfl
@[simp] theorem sampleWires_seen_wires (s : State) : (sampleWires s).seen.wires = some (txFaultWire s, rxLosWire s, modAbsWire s) := rfl

/-! ### SCL found held -/

@[simp] theorem hang_cfg (s : State) : (hang s).cfg = s.cfg := rfl
@[simp] theorem hang_host (s : State) : (hang s).host = s.host := rfl
@[simp] theorem hang_seen (s : State) : (hang s).seen = s.seen := rfl
@[simp] theorem hang_out (s : State) : (hang s).out = s.out := rfl
@[simp] theorem hang_tx (s : State) : (hang s).tx = s.tx := rfl
@[simp] theorem hang_rcv (s : State) : (hang s).rcv = s.rcv := rfl
@[simp] theorem hang_rate (s : State) : (hang s).rate = s.rate := rfl
@[simp] theorem hang_lvl (s : State) : (hang s).lvl = s.lvl := rfl
@[simp] theorem hang_bus (s : State) : (hang s).bus = s.bus := rfl
@[simp] theorem hang_wr (s : State) : (hang s).wr = s.wr := rfl
@[simp] theorem hang_mem (s : State) : (hang s).mem = s.mem := rfl
@[simp] theorem hang_script (s : State) : (hang s).script = s.script := rfl
@[simp] theorem hang_clk_now (s : State) : (hang s).clk.now =
    if moduleHolds s then max s.clk.now (s.bus.heldAt + Config.tClockHold) else s.clk.now := rfl
@[simp] theorem hang_clk_drawn (s : State) : (hang s).clk.drawn = s.clk.drawn := rfl
@[simp] theorem hang_slot_mated (s : State) : (hang s).slot.mated = s.slot.mated := rfl
@[simp] theorem hang_slot_vccTAt (s : State) : (hang s).slot.vccTAt = s.slot.vccTAt := rfl
@[simp] theorem hang_slot_powered (s : State) : (hang s).slot.powered = s.slot.powered := rfl
@[simp] theorem hang_slot_powerAt (s : State) : (hang s).slot.powerAt = s.slot.powerAt := rfl
@[simp] theorem hang_slot_ready (s : State) : (hang s).slot.ready = s.slot.ready := rfl
@[simp] theorem hang_slot_readyDue (s : State) : (hang s).slot.readyDue = s.slot.readyDue := rfl
@[simp] theorem hang_slot_stuck (s : State) : (hang s).slot.stuck = (moduleHolds s || s.slot.stuck) := rfl
@[simp] theorem hang_raised (s : State) : (hang s).raised = s.raised ++ [.hungBus] := rfl

/-! ### The bus master's place -/

@[simp] theorem track_clk (l : List Sym) (s : State) : (track l s).clk = s.clk := rfl
@[simp] theorem track_cfg (l : List Sym) (s : State) : (track l s).cfg = s.cfg := rfl
@[simp] theorem track_seen (l : List Sym) (s : State) : (track l s).seen = s.seen := rfl
@[simp] theorem track_out (l : List Sym) (s : State) : (track l s).out = s.out := rfl
@[simp] theorem track_slot (l : List Sym) (s : State) : (track l s).slot = s.slot := rfl
@[simp] theorem track_tx (l : List Sym) (s : State) : (track l s).tx = s.tx := rfl
@[simp] theorem track_rcv (l : List Sym) (s : State) : (track l s).rcv = s.rcv := rfl
@[simp] theorem track_rate (l : List Sym) (s : State) : (track l s).rate = s.rate := rfl
@[simp] theorem track_lvl (l : List Sym) (s : State) : (track l s).lvl = s.lvl := rfl
@[simp] theorem track_bus (l : List Sym) (s : State) : (track l s).bus = s.bus := rfl
@[simp] theorem track_wr (l : List Sym) (s : State) : (track l s).wr = s.wr := rfl
@[simp] theorem track_mem (l : List Sym) (s : State) : (track l s).mem = s.mem := rfl
@[simp] theorem track_raised (l : List Sym) (s : State) : (track l s).raised = s.raised := rfl
@[simp] theorem track_script (l : List Sym) (s : State) : (track l s).script = s.script := rfl
@[simp] theorem track_host_vccT (l : List Sym) (s : State) : (track l s).host.vccT = s.host.vccT := rfl
@[simp] theorem track_host_vccR (l : List Sym) (s : State) : (track l s).host.vccR = s.host.vccR := rfl
@[simp] theorem track_host_railAt (l : List Sym) (s : State) : (track l s).host.railAt = s.host.railAt := rfl
@[simp] theorem track_host_txDisable (l : List Sym) (s : State) : (track l s).host.txDisable = s.host.txDisable := rfl
@[simp] theorem track_host_rs0 (l : List Sym) (s : State) : (track l s).host.rs0 = s.host.rs0 := rfl
@[simp] theorem track_host_rs1 (l : List Sym) (s : State) : (track l s).host.rs1 = s.host.rs1 := rfl
@[simp] theorem track_host_txData (l : List Sym) (s : State) : (track l s).host.txData = s.host.txData := rfl
@[simp] theorem track_host_sclPeriod (l : List Sym) (s : State) : (track l s).host.sclPeriod = s.host.sclPeriod := rfl
@[simp] theorem track_host_honours (l : List Sym) (s : State) : (track l s).host.honours = s.host.honours := rfl
@[simp] theorem track_host_inFrame (l : List Sym) (s : State) : (track l s).host.inFrame = s.host.inFrame := rfl

/-! ### SCL held and released -/

@[simp] theorem holdScl_clk (b : Bool) (s : State) : (holdScl b s).clk = s.clk := rfl
@[simp] theorem holdScl_cfg (b : Bool) (s : State) : (holdScl b s).cfg = s.cfg := rfl
@[simp] theorem holdScl_host (b : Bool) (s : State) : (holdScl b s).host = s.host := rfl
@[simp] theorem holdScl_seen (b : Bool) (s : State) : (holdScl b s).seen = s.seen := rfl
@[simp] theorem holdScl_out (b : Bool) (s : State) : (holdScl b s).out = s.out := rfl
@[simp] theorem holdScl_slot (b : Bool) (s : State) : (holdScl b s).slot = s.slot := rfl
@[simp] theorem holdScl_tx (b : Bool) (s : State) : (holdScl b s).tx = s.tx := rfl
@[simp] theorem holdScl_rcv (b : Bool) (s : State) : (holdScl b s).rcv = s.rcv := rfl
@[simp] theorem holdScl_rate (b : Bool) (s : State) : (holdScl b s).rate = s.rate := rfl
@[simp] theorem holdScl_lvl (b : Bool) (s : State) : (holdScl b s).lvl = s.lvl := rfl
@[simp] theorem holdScl_wr (b : Bool) (s : State) : (holdScl b s).wr = s.wr := rfl
@[simp] theorem holdScl_mem (b : Bool) (s : State) : (holdScl b s).mem = s.mem := rfl
@[simp] theorem holdScl_raised (b : Bool) (s : State) : (holdScl b s).raised = s.raised := rfl
@[simp] theorem holdScl_script (b : Bool) (s : State) : (holdScl b s).script = s.script := rfl
@[simp] theorem holdScl_bus_state (b : Bool) (s : State) : (holdScl b s).bus.state = s.bus.state := rfl
@[simp] theorem holdScl_bus_phase (b : Bool) (s : State) : (holdScl b s).bus.phase = s.bus.phase := rfl
@[simp] theorem holdScl_bus_sel (b : Bool) (s : State) : (holdScl b s).bus.sel = s.bus.sel := rfl
@[simp] theorem holdScl_bus_shift (b : Bool) (s : State) : (holdScl b s).bus.shift = s.bus.shift := rfl
@[simp] theorem holdScl_bus_nbits (b : Bool) (s : State) : (holdScl b s).bus.nbits = s.bus.nbits := rfl
@[simp] theorem holdScl_bus_sda (b : Bool) (s : State) : (holdScl b s).bus.sda = s.bus.sda := rfl
@[simp] theorem holdScl_bus_willAck (b : Bool) (s : State) : (holdScl b s).bus.willAck = s.bus.willAck := rfl
@[simp] theorem holdScl_bus_hostAck (b : Bool) (s : State) : (holdScl b s).bus.hostAck = s.bus.hostAck := rfl
@[simp] theorem holdScl_bus_wbuf (b : Bool) (s : State) : (holdScl b s).bus.wbuf = s.bus.wbuf := rfl
@[simp] theorem holdScl_bus_loaded (b : Bool) (s : State) : (holdScl b s).bus.loaded = s.bus.loaded := rfl
@[simp] theorem holdScl_bus_ctrA0 (b : Bool) (s : State) : (holdScl b s).bus.ctrA0 = s.bus.ctrA0 := rfl
@[simp] theorem holdScl_bus_ctrA2 (b : Bool) (s : State) : (holdScl b s).bus.ctrA2 = s.bus.ctrA2 := rfl
@[simp] theorem holdScl_bus_freeAt (b : Bool) (s : State) : (holdScl b s).bus.freeAt = s.bus.freeAt := rfl
@[simp] theorem holdScl_bus_deafTill (b : Bool) (s : State) : (holdScl b s).bus.deafTill = s.bus.deafTill := rfl
@[simp] theorem holdScl_bus_deafWrite (b : Bool) (s : State) : (holdScl b s).bus.deafWrite = s.bus.deafWrite := rfl

@[simp] theorem releaseScl_clk (b : Bool) (s : State) : (releaseScl b s).clk = s.clk := rfl
@[simp] theorem releaseScl_cfg (b : Bool) (s : State) : (releaseScl b s).cfg = s.cfg := rfl
@[simp] theorem releaseScl_host (b : Bool) (s : State) : (releaseScl b s).host = s.host := rfl
@[simp] theorem releaseScl_seen (b : Bool) (s : State) : (releaseScl b s).seen = s.seen := rfl
@[simp] theorem releaseScl_out (b : Bool) (s : State) : (releaseScl b s).out = s.out := rfl
@[simp] theorem releaseScl_slot (b : Bool) (s : State) : (releaseScl b s).slot = s.slot := rfl
@[simp] theorem releaseScl_tx (b : Bool) (s : State) : (releaseScl b s).tx = s.tx := rfl
@[simp] theorem releaseScl_rcv (b : Bool) (s : State) : (releaseScl b s).rcv = s.rcv := rfl
@[simp] theorem releaseScl_rate (b : Bool) (s : State) : (releaseScl b s).rate = s.rate := rfl
@[simp] theorem releaseScl_lvl (b : Bool) (s : State) : (releaseScl b s).lvl = s.lvl := rfl
@[simp] theorem releaseScl_wr (b : Bool) (s : State) : (releaseScl b s).wr = s.wr := rfl
@[simp] theorem releaseScl_mem (b : Bool) (s : State) : (releaseScl b s).mem = s.mem := rfl
@[simp] theorem releaseScl_raised (b : Bool) (s : State) : (releaseScl b s).raised = s.raised := rfl
@[simp] theorem releaseScl_script (b : Bool) (s : State) : (releaseScl b s).script = s.script := rfl
@[simp] theorem releaseScl_bus_state (b : Bool) (s : State) : (releaseScl b s).bus.state = s.bus.state := rfl
@[simp] theorem releaseScl_bus_phase (b : Bool) (s : State) : (releaseScl b s).bus.phase = s.bus.phase := rfl
@[simp] theorem releaseScl_bus_sel (b : Bool) (s : State) : (releaseScl b s).bus.sel = s.bus.sel := rfl
@[simp] theorem releaseScl_bus_shift (b : Bool) (s : State) : (releaseScl b s).bus.shift = s.bus.shift := rfl
@[simp] theorem releaseScl_bus_nbits (b : Bool) (s : State) : (releaseScl b s).bus.nbits = s.bus.nbits := rfl
@[simp] theorem releaseScl_bus_sda (b : Bool) (s : State) : (releaseScl b s).bus.sda = s.bus.sda := rfl
@[simp] theorem releaseScl_bus_willAck (b : Bool) (s : State) : (releaseScl b s).bus.willAck = s.bus.willAck := rfl
@[simp] theorem releaseScl_bus_hostAck (b : Bool) (s : State) : (releaseScl b s).bus.hostAck = s.bus.hostAck := rfl
@[simp] theorem releaseScl_bus_wbuf (b : Bool) (s : State) : (releaseScl b s).bus.wbuf = s.bus.wbuf := rfl
@[simp] theorem releaseScl_bus_loaded (b : Bool) (s : State) : (releaseScl b s).bus.loaded = s.bus.loaded := rfl
@[simp] theorem releaseScl_bus_ctrA0 (b : Bool) (s : State) : (releaseScl b s).bus.ctrA0 = s.bus.ctrA0 := rfl
@[simp] theorem releaseScl_bus_ctrA2 (b : Bool) (s : State) : (releaseScl b s).bus.ctrA2 = s.bus.ctrA2 := rfl
@[simp] theorem releaseScl_bus_freeAt (b : Bool) (s : State) : (releaseScl b s).bus.freeAt = s.bus.freeAt := rfl
@[simp] theorem releaseScl_bus_deafTill (b : Bool) (s : State) : (releaseScl b s).bus.deafTill = s.bus.deafTill := rfl
@[simp] theorem releaseScl_bus_deafWrite (b : Bool) (s : State) : (releaseScl b s).bus.deafWrite = s.bus.deafWrite := rfl
@[simp] theorem releaseScl_bus_heldAt (b : Bool) (s : State) : (releaseScl b s).bus.heldAt = s.bus.heldAt := rfl
@[simp] theorem releaseScl_bus_hold (b : Bool) (s : State) : (releaseScl b s).bus.hold = s.bus.hold := rfl

/-! ### Bus time -/

@[simp] theorem busTime_cfg (m n : Nat) (s : State) : (busTime m n s).cfg = s.cfg := rfl
@[simp] theorem busTime_host (m n : Nat) (s : State) : (busTime m n s).host = s.host := rfl
@[simp] theorem busTime_seen (m n : Nat) (s : State) : (busTime m n s).seen = s.seen := rfl
@[simp] theorem busTime_out (m n : Nat) (s : State) : (busTime m n s).out = s.out := rfl
@[simp] theorem busTime_slot (m n : Nat) (s : State) : (busTime m n s).slot = s.slot := rfl
@[simp] theorem busTime_tx (m n : Nat) (s : State) : (busTime m n s).tx = s.tx := rfl
@[simp] theorem busTime_rcv (m n : Nat) (s : State) : (busTime m n s).rcv = s.rcv := rfl
@[simp] theorem busTime_rate (m n : Nat) (s : State) : (busTime m n s).rate = s.rate := rfl
@[simp] theorem busTime_lvl (m n : Nat) (s : State) : (busTime m n s).lvl = s.lvl := rfl
@[simp] theorem busTime_wr (m n : Nat) (s : State) : (busTime m n s).wr = s.wr := rfl
@[simp] theorem busTime_mem (m n : Nat) (s : State) : (busTime m n s).mem = s.mem := rfl
@[simp] theorem busTime_raised (m n : Nat) (s : State) : (busTime m n s).raised = s.raised := rfl
@[simp] theorem busTime_script (m n : Nat) (s : State) : (busTime m n s).script = s.script := rfl
@[simp] theorem busTime_clk_drawn (m n : Nat) (s : State) : (busTime m n s).clk.drawn = s.clk.drawn + 1 := rfl
@[simp] theorem busTime_bus_state (m n : Nat) (s : State) : (busTime m n s).bus.state = s.bus.state := rfl
@[simp] theorem busTime_bus_phase (m n : Nat) (s : State) : (busTime m n s).bus.phase = s.bus.phase := rfl
@[simp] theorem busTime_bus_sel (m n : Nat) (s : State) : (busTime m n s).bus.sel = s.bus.sel := rfl
@[simp] theorem busTime_bus_shift (m n : Nat) (s : State) : (busTime m n s).bus.shift = s.bus.shift := rfl
@[simp] theorem busTime_bus_nbits (m n : Nat) (s : State) : (busTime m n s).bus.nbits = s.bus.nbits := rfl
@[simp] theorem busTime_bus_sda (m n : Nat) (s : State) : (busTime m n s).bus.sda = s.bus.sda := rfl
@[simp] theorem busTime_bus_willAck (m n : Nat) (s : State) : (busTime m n s).bus.willAck = s.bus.willAck := rfl
@[simp] theorem busTime_bus_hostAck (m n : Nat) (s : State) : (busTime m n s).bus.hostAck = s.bus.hostAck := rfl
@[simp] theorem busTime_bus_wbuf (m n : Nat) (s : State) : (busTime m n s).bus.wbuf = s.bus.wbuf := rfl
@[simp] theorem busTime_bus_loaded (m n : Nat) (s : State) : (busTime m n s).bus.loaded = s.bus.loaded := rfl
@[simp] theorem busTime_bus_ctrA0 (m n : Nat) (s : State) : (busTime m n s).bus.ctrA0 = s.bus.ctrA0 := rfl
@[simp] theorem busTime_bus_ctrA2 (m n : Nat) (s : State) : (busTime m n s).bus.ctrA2 = s.bus.ctrA2 := rfl
@[simp] theorem busTime_bus_freeAt (m n : Nat) (s : State) : (busTime m n s).bus.freeAt = s.bus.freeAt := rfl
@[simp] theorem busTime_bus_deafTill (m n : Nat) (s : State) : (busTime m n s).bus.deafTill = s.bus.deafTill := rfl
@[simp] theorem busTime_bus_deafWrite (m n : Nat) (s : State) : (busTime m n s).bus.deafWrite = s.bus.deafWrite := rfl

/-! ### Which rail is alone at the module -/

@[simp] theorem noteRails_clk (t r : Bool) (s : State) : (noteRails t r s).clk = s.clk := rfl
@[simp] theorem noteRails_cfg (t r : Bool) (s : State) : (noteRails t r s).cfg = s.cfg := rfl
@[simp] theorem noteRails_seen (t r : Bool) (s : State) : (noteRails t r s).seen = s.seen := rfl
@[simp] theorem noteRails_out (t r : Bool) (s : State) : (noteRails t r s).out = s.out := rfl
@[simp] theorem noteRails_slot (t r : Bool) (s : State) : (noteRails t r s).slot = s.slot := rfl
@[simp] theorem noteRails_tx (t r : Bool) (s : State) : (noteRails t r s).tx = s.tx := rfl
@[simp] theorem noteRails_rcv (t r : Bool) (s : State) : (noteRails t r s).rcv = s.rcv := rfl
@[simp] theorem noteRails_rate (t r : Bool) (s : State) : (noteRails t r s).rate = s.rate := rfl
@[simp] theorem noteRails_lvl (t r : Bool) (s : State) : (noteRails t r s).lvl = s.lvl := rfl
@[simp] theorem noteRails_bus (t r : Bool) (s : State) : (noteRails t r s).bus = s.bus := rfl
@[simp] theorem noteRails_wr (t r : Bool) (s : State) : (noteRails t r s).wr = s.wr := rfl
@[simp] theorem noteRails_mem (t r : Bool) (s : State) : (noteRails t r s).mem = s.mem := rfl
@[simp] theorem noteRails_raised (t r : Bool) (s : State) : (noteRails t r s).raised = s.raised := rfl
@[simp] theorem noteRails_script (t r : Bool) (s : State) : (noteRails t r s).script = s.script := rfl
@[simp] theorem noteRails_host_vccT (t r : Bool) (s : State) : (noteRails t r s).host.vccT = s.host.vccT := rfl
@[simp] theorem noteRails_host_vccR (t r : Bool) (s : State) : (noteRails t r s).host.vccR = s.host.vccR := rfl
@[simp] theorem noteRails_host_txDisable (t r : Bool) (s : State) : (noteRails t r s).host.txDisable = s.host.txDisable := rfl
@[simp] theorem noteRails_host_rs0 (t r : Bool) (s : State) : (noteRails t r s).host.rs0 = s.host.rs0 := rfl
@[simp] theorem noteRails_host_rs1 (t r : Bool) (s : State) : (noteRails t r s).host.rs1 = s.host.rs1 := rfl
@[simp] theorem noteRails_host_txData (t r : Bool) (s : State) : (noteRails t r s).host.txData = s.host.txData := rfl
@[simp] theorem noteRails_host_sclPeriod (t r : Bool) (s : State) : (noteRails t r s).host.sclPeriod = s.host.sclPeriod := rfl
@[simp] theorem noteRails_host_honours (t r : Bool) (s : State) : (noteRails t r s).host.honours = s.host.honours := rfl
@[simp] theorem noteRails_host_inFrame (t r : Bool) (s : State) : (noteRails t r s).host.inFrame = s.host.inFrame := rfl
@[simp] theorem noteRails_host_frame (t r : Bool) (s : State) : (noteRails t r s).host.frame = s.host.frame := rfl
@[simp] theorem noteRails_host_railAt (t r : Bool) (s : State) : (noteRails t r s).host.railAt =
    if vccTIn s == vccRIn s then none
    else if vccTIn s == t && vccRIn s == r then s.host.railAt
    else some s.clk.now := rfl

/-! ### The words of a step placed -/

@[simp] theorem withFetchWord_cfg (s : State) (nbits w : Nat) : (State.withFetchWord s nbits w).cfg = s.cfg := rfl
@[simp] theorem withFetchWord_host (s : State) (nbits w : Nat) : (State.withFetchWord s nbits w).host = s.host := rfl
@[simp] theorem withFetchWord_seen (s : State) (nbits w : Nat) : (State.withFetchWord s nbits w).seen = s.seen := rfl
@[simp] theorem withFetchWord_out (s : State) (nbits w : Nat) : (State.withFetchWord s nbits w).out = s.out := rfl
@[simp] theorem withFetchWord_slot (s : State) (nbits w : Nat) : (State.withFetchWord s nbits w).slot = s.slot := rfl
@[simp] theorem withFetchWord_tx (s : State) (nbits w : Nat) : (State.withFetchWord s nbits w).tx = s.tx := rfl
@[simp] theorem withFetchWord_rcv (s : State) (nbits w : Nat) : (State.withFetchWord s nbits w).rcv = s.rcv := rfl
@[simp] theorem withFetchWord_rate (s : State) (nbits w : Nat) : (State.withFetchWord s nbits w).rate = s.rate := rfl
@[simp] theorem withFetchWord_lvl (s : State) (nbits w : Nat) : (State.withFetchWord s nbits w).lvl = s.lvl := rfl
@[simp] theorem withFetchWord_bus (s : State) (nbits w : Nat) : (State.withFetchWord s nbits w).bus = s.bus := rfl
@[simp] theorem withFetchWord_wr (s : State) (nbits w : Nat) : (State.withFetchWord s nbits w).wr = s.wr := rfl
@[simp] theorem withFetchWord_mem (s : State) (nbits w : Nat) : (State.withFetchWord s nbits w).mem = s.mem := rfl
@[simp] theorem withFetchWord_raised (s : State) (nbits w : Nat) : (State.withFetchWord s nbits w).raised = s.raised := rfl
@[simp] theorem withFetchWord_clk (s : State) (nbits w : Nat) : (State.withFetchWord s nbits w).clk = s.clk := rfl
@[simp] theorem withFetchWord_script (s : State) (nbits w : Nat) : (State.withFetchWord s nbits w).script = .host (layout nbits w) :: s.script := rfl

end Sys2Proof.Machine
end

