-- ==== Sys2Proof/Laws/Supply.lean ====
section
/-! SUPPORT. Power and mating, said once: what the loss of power leaves, and what one stage of mating does in each of its
cases (10_state.md R23, R30; 41_power_and_esd.md R238, R239). -/

namespace Sys2Proof.Machine

/-- A write leaves every other key alone. -/
theorem read_write_ne (init : List (Nat × Byte)) (m : List Host.Cell) {k j : Nat} (v : Byte) (h : j ≠ k) :
    Memory.read init (Memory.write init k v m) j = Memory.read init m j := by
  unfold Memory.write
  split
  · simp [Memory.read, lookup_erase, h]
  · simp [Memory.read, lookup_insert, h]

/-- The bytes a cut write cycle does not aim at stay (93 U8). -/
theorem spoil_other (c : Params) (sp : Space) (k : Nat) (l : List (Byte × Byte)) (m : List Host.Cell) (q : Space) (a : Byte)
    (h : q ≠ sp ∨ isWritable c q a = false ∨ ∀ w ∈ l, w.1 ≠ a) :
    Memory.read c.init (Memory.spoilAll c sp k l m) (memKey q a) = Memory.read c.init m (memKey q a) := by
  induction l generalizing m k with
  | nil => rfl
  | cons w l ih =>
    obtain ⟨b, v⟩ := w
    rw [Memory.spoilAll, ih]
    · split
      · rename_i hw
        refine read_write_ne _ _ _ fun e => ?_
        obtain ⟨e1, e2⟩ := memKey_inj e
        rcases h with h | h | h
        · exact h e1
        · rw [e1, e2, hw] at h; cases h
        · exact h (b, v) (List.mem_cons_self) e2.symm
      · rfl
    · rcases h with h | h | h
      · exact .inl h
      · exact .inr (.inl h)
      · exact .inr (.inr fun w hw => h w (List.mem_cons_of_mem _ hw))

/-- What the loss of power leaves: everything volatile gone, memory as it was but for the bytes of a write cycle cut off. -/
theorem powerDown_facts (s : State) :
    (powerDown s).slot = { s.slot with powered := false, ready := false, stuck := false } ∧ (powerDown s).tx.state = .offUnpowered ∧ (powerDown s).tx.latch = false ∧
    (powerDown s).tx.outputOn = false ∧ (powerDown s).lvl.level = .one ∧ (powerDown s).bus.wbuf = [] ∧ (powerDown s).bus.state = .idle ∧
    (powerDown s).bus.sda = .high ∧ (powerDown s).wr.busy = false ∧ (powerDown s).wr.cycles = s.wr.cycles ∧
    (s.wr.busy = false → ∀ k, readByte (powerDown s) k = readByte s k) ∧
    (∀ sp a, (sp ≠ s.wr.space ∨ isWritable s.cfg sp a = false ∨ ∀ w ∈ s.bus.wbuf, w.1 ≠ a) →
          readByte (powerDown s) (memKey sp a) = readByte s (memKey sp a)) ∧
    (powerDown s).out = s.out ∧ (powerDown s).cfg = s.cfg ∧ (powerDown s).raised = s.raised ∧ (powerDown s).clk.now = s.clk.now ∧ (powerDown s).host = s.host := by
  cases hb : s.wr.busy
  · have e : spoilWrite s = s := by rw [spoilWrite, hb]; rfl
    unfold powerDown; rw [e]
    exact ⟨rfl, rfl, rfl, rfl, rfl, rfl, rfl, rfl, rfl, rfl, fun _ _ => rfl, fun _ _ _ => rfl, rfl, rfl, rfl, rfl, rfl⟩
  · have e : spoilWrite s = spend s.bus.wbuf.length { s with mem := Memory.spoilAll s.cfg s.wr.space s.clk.drawn s.bus.wbuf s.mem } := by rw [spoilWrite, hb]; rfl
    unfold powerDown; rw [e]
    refine ⟨rfl, rfl, rfl, rfl, rfl, rfl, rfl, rfl, rfl, rfl, (by intro h; cases h), ?_, rfl, rfl, rfl, rfl, rfl⟩
    intro sp a h
    exact spoil_other _ _ _ _ _ _ _ h

theorem followSupply_up (s : State) (hp : s.slot.powered = false) (h : supplied s = true) :
    followSupply s = powerUp s := by
  rw [followSupply, if_pos (by simp [h, hp])]

theorem followSupply_off (s : State) (hp : s.slot.powered = false) (h : supplied s = false) : followSupply s = s := by
  rw [followSupply, if_neg (by simp [h]), if_neg (by simp [hp])]
theorem followSupply_kept (s : State) (hp : s.slot.powered = true) (h : supplied s = true) : followSupply s = s := by
  rw [followSupply, if_neg (by simp [hp]), if_neg (by simp [h])]

/-- The state with the contacts mated as far as `m`, before the module follows its supply. -/
def mateTo (m : Mated) (s : State) : State :=
  noteRails (vccTIn s) (vccRIn s) (noteVccT (vccTIn s) { s with slot := { s.slot with mated := m } })

theorem noteVccT_eq (b : Bool) (s : State) : ∃ n, noteVccT b s = { s with slot := { s.slot with vccTAt := n } } := by
  unfold noteVccT; split
  · exact ⟨some s.clk.now, rfl⟩
  · exact ⟨s.slot.vccTAt, rfl⟩

/-- Mating changes presence, the instant VccT came to a module without power, and since when one rail is alone there. -/
theorem mateTo_eq (m : Mated) (s : State) : ∃ n r, mateTo m s =
    { s with slot := { s.slot with mated := m, vccTAt := n }, host := { s.host with railAt := r } } := by
  obtain ⟨n, e⟩ := noteVccT_eq (vccTIn s) { s with slot := { s.slot with mated := m } }
  rw [mateTo, e]; exact ⟨n, _, rfl⟩

/-- Without exactly one rail at the module none is alone. -/
theorem mateTo_even {m : Mated} {s : State} (h : powerMated m = false ∨ s.host.vccT = s.host.vccR) :
    (mateTo m s).host = { s.host with railAt := none } := by
  have e : ∀ u : State, u.slot.mated = m → u.host = s.host →
      ∀ a b, (noteRails a b u).host = { s.host with railAt := none } := by
    intro u hu hh a b
    have : (vccTIn u == vccRIn u) = true := by
      rw [vccTIn, vccRIn, hu, hh]
      rcases h with h | h <;> simp [h]
    simp only [noteRails, this, if_true, hh]
  obtain ⟨n, q⟩ := noteVccT_eq (vccTIn s) { s with slot := { s.slot with mated := m } }
  rw [mateTo, q]
  exact e { s with slot := { s.slot with mated := m, vccTAt := n } } rfl rfl _ _

theorem mateTo_keeps (m : Mated) (s : State) :
    (mateTo m s).clk = s.clk ∧ (mateTo m s).cfg = s.cfg ∧ (mateTo m s).host = { s.host with railAt := (mateTo m s).host.railAt } ∧
    (mateTo m s).out = s.out ∧
    (mateTo m s).tx = s.tx ∧ (mateTo m s).rate = s.rate ∧ (mateTo m s).bus = s.bus ∧ (mateTo m s).wr = s.wr ∧
    (mateTo m s).lvl = s.lvl ∧ (mateTo m s).mem = s.mem ∧ (mateTo m s).raised = s.raised ∧
    (mateTo m s).slot.mated = m := by
  obtain ⟨n, r, e⟩ := mateTo_eq m s; rw [e]; exact ⟨rfl, rfl, rfl, rfl, rfl, rfl, rfl, rfl, rfl, rfl, rfl, rfl⟩

/-- Mating a module that keeps its power changes presence, and which rail is alone, only. -/
theorem mateTo_live (m : Mated) {s : State} (h : s.slot.powered = true) : ∃ r,
    mateTo m s = { s with slot := { s.slot with mated := m }, host := { s.host with railAt := r } } := by
  rw [mateTo, noteVccT, if_neg (by simp [h])]; exact ⟨_, rfl⟩

theorem supplied_mateTo (m : Mated) (s : State) :
    supplied (mateTo m s) = (s.host.vccT && s.host.vccR && powerMated m) := by
  obtain ⟨n, r, e⟩ := mateTo_eq m s; rw [e, supplied]

theorem mateTo_powered (m : Mated) (s : State) : (mateTo m s).slot.powered = s.slot.powered := by
  obtain ⟨n, r, e⟩ := mateTo_eq m s; rw [e]

theorem mateStage_eq (m : Mated) (s : State) : mateStage m s =
  (if s.slot.powered && (if s.slot.mated = .all ∧ m ≠ .all then raise .modAbsent (followSupply (mateTo m s)) else followSupply (mateTo m s)).slot.powered then
    reTxRate (txWanted s) (reRx (rxWanted s) (reTx (txOff s) (if s.slot.mated = .all ∧ m ≠ .all then raise .modAbsent (followSupply (mateTo m s)) else followSupply (mateTo m s))))
  else (if s.slot.mated = .all ∧ m ≠ .all then raise .modAbsent (followSupply (mateTo m s)) else followSupply (mateTo m s))) := rfl

theorem mateStage_off (m : Mated) (s : State) (hm : s.slot.mated ≠ .all) (hp : s.slot.powered = false)
    (h : supplied (mateTo m s) = false) : mateStage m s = mateTo m s := by
  have := followSupply_off (mateTo m s) ((mateTo_powered m s).trans hp) h
  have hn : ¬ (s.slot.mated = .all ∧ m ≠ .all) := fun q => hm q.1
  rw [mateStage_eq, this, if_neg hn, if_neg (by simp [hp])]

theorem mateStage_on (m : Mated) (s : State) (hm : s.slot.mated ≠ .all) (hp : s.slot.powered = false)
    (h : supplied (mateTo m s) = true) : mateStage m s = powerUp (mateTo m s) := by
  have := followSupply_up (mateTo m s) ((mateTo_powered m s).trans hp) h
  have hn : ¬ (s.slot.mated = .all ∧ m ≠ .all) := fun q => hm q.1
  rw [mateStage_eq, this, if_neg hn, if_neg (by simp [hp])]

theorem mateStage_kept (m : Mated) (s : State) (hm : s.slot.mated ≠ .all) (hp : s.slot.powered = true)
    (h : supplied (mateTo m s) = true) : mateStage m s = reTxRate (txWanted s) (reRx (rxWanted s) (reTx (txOff s) (mateTo m s))) := by
  have := followSupply_kept (mateTo m s) ((mateTo_powered m s).trans hp) h
  have hn : ¬ (s.slot.mated = .all ∧ m ≠ .all) := fun q => hm q.1
  rw [mateStage_eq, this, if_neg hn, if_pos]
  rw [mateTo_powered]; simp [hp]

theorem reRates_keep (s : State) (b c : Bool) : ∀ u, u = reTxRate c (reRx b s) → u.tx = s.tx ∧ u.slot = s.slot ∧ u.host = s.host ∧ u.out = s.out ∧ u.cfg = s.cfg ∧ u.raised = s.raised ∧
    u.clk.now = s.clk.now ∧ u.bus = s.bus ∧ u.wr = s.wr ∧ u.lvl = s.lvl ∧ u.mem = s.mem := by
  rintro u rfl
  obtain ⟨x, n, e⟩ := reRx_rateOnly b s
  rw [e]
  obtain ⟨y, m, e'⟩ := reTxRate_rateOnly c { s with rate := x, clk := { s.clk with drawn := n } }
  rw [e']
  exact ⟨rfl, rfl, rfl, rfl, rfl, rfl, rfl, rfl, rfl, rfl, rfl⟩

theorem reControls_keep (s : State) (m : Mated) (a b c : Bool) : ∀ u, u = reTxRate c (reRx b (reTx a (mateTo m s))) → u.tx = (reTx a (mateTo m s)).tx ∧ u.slot = (mateTo m s).slot ∧ u.host = (mateTo m s).host ∧ u.out = s.out ∧ u.cfg = s.cfg ∧ u.raised = s.raised ∧
    u.clk.now = s.clk.now ∧ u.bus = s.bus ∧ u.wr = s.wr ∧ u.lvl = s.lvl ∧ u.mem = s.mem := by
  intro u hu
  have := reRates_keep _ _ _ u hu
  obtain ⟨k, r, f⟩ := mateTo_eq m s
  obtain ⟨x, n, e⟩ := reTx_txOnly a (mateTo m s)
  rw [e] at this ⊢
  rw [f] at this ⊢
  exact this


end Sys2Proof.Machine
end

