-- ==== Sys2Proof/Tests/Slice0.lean ====
section
/-! SUPPORT. Tests: ill-formed operations refused, words written out bit by bit from the spec's encodings, the vectors of
95_test_vectors.md on one small state, and for every statement with hypotheses a state and operands that meet them. -/

namespace Sys2Proof.Tests

open Sys2Proof.Machine

/-! ### Well-formedness (30_encoding.md R126; 41_power_and_esd.md R240) -/

theorem test_wf_seq_read_current_one : (Instr.seqReadCurrent .a0 1).wf = false := by decide

theorem test_wf_seq_read_random_one : (Instr.seqReadRandom .a2 0 1).wf = false := by decide

theorem test_wf_seq_write_one : (Instr.seqWrite .a2 0x80#8 [1#8]).wf = false := by decide

theorem test_wf_seq_write_nine : (Instr.seqWrite .a2 0x80#8 (List.replicate 9 0#8)).wf = false := by decide

theorem test_wf_level_one : (Instr.powerLevelEnable .one).wf = false := by decide

theorem test_wf_bounds : (Instr.seqReadCurrent .a0 2).wf = true ∧ (Instr.seqWrite .a2 0 (List.replicate 8 0#8)).wf = true := by
  decide

/-! ### Decoding: the words of R122 to R129 (V1 to V9, E1) -/

theorem test_decode_device_address_word : decode [.dev 0b10100010#8] = .ok (.deviceAddressWord .a2 .write) := by decide

theorem test_decode_data_word_address : decode [.addr 0b01100000#8] = .ok (.dataWordAddress 0x60#8) := by decide

theorem test_decode_data_word : decode [.data 0b01010101#8] = .ok (.dataWord 0x55#8) := by decide

theorem test_decode_current_read : decode [.start, .dev 0b10100001#8, .read false, .stop] = .ok (.currentRead .a0) := by
  decide

theorem test_decode_random_read :
    decode [.start, .dev 0b10100010#8, .addr 0x60#8, .start, .dev 0b10100011#8, .read false, .stop]
      = .ok (.randomRead .a2 0x60#8) := by decide

theorem test_decode_seq_read_current :
    decode [.start, .dev 0b10100001#8, .read true, .read true, .read false, .stop] = .ok (.seqReadCurrent .a0 3) := by
  decide

theorem test_decode_seq_read_random :
    decode [.start, .dev 0b10100010#8, .addr 0xFF#8, .start, .dev 0b10100011#8, .read true, .read false, .stop]
      = .ok (.seqReadRandom .a2 0xFF#8 2) := by decide

theorem test_decode_byte_write :
    decode [.start, .dev 0b10100010#8, .addr 0x80#8, .data 0x55#8, .stop] = .ok (.byteWrite .a2 0x80#8 0x55#8) := by decide

theorem test_decode_seq_write :
    decode [.start, .dev 0b10100000#8, .addr 0x10#8, .data 1#8, .data 2#8, .data 3#8, .stop]
      = .ok (.seqWrite .a0 0x10#8 [1#8, 2#8, 3#8]) := by decide

theorem test_decode_ack_poll :
    decode [.start, .dev 0b10100010#8, .stop] = .ok (.ackPoll .a2 ⟨.write, .stop⟩) ∧
    decode [.start, .dev 0b10100001#8, .start] = .ok (.ackPoll .a0 ⟨.read, .repeatedStart⟩) := by decide

theorem test_decode_mgmt_reset : decode [.mgmt] = .ok .mgmtReset := by decide

theorem test_decode_tx_disable :
    decode [.contact .txDisable .high] = .ok .txDisableAssert ∧ decode [.openPin .txDisable] = .ok .txDisableAssert ∧
    decode [.contact .txDisable .low] = .ok .txDisableNegate := by decide

theorem test_decode_tx_fault_reset :
    decode [.contact .txDisable .high, .wait 100, .contact .txDisable .low] = .ok (.txFaultReset .contact) ∧
    decode [.control (.softTx true), .control (.softTx false)] = .ok (.txFaultReset .software) := by decide

theorem test_decode_rate_select :
    decode [.contact .rs0 .high] = .ok (.rs0Set .high) ∧ decode [.openPin .rs0] = .ok (.rs0Set .low) ∧
    decode [.contact .rs1 .high] = .ok (.rs1Set .high) := by decide

theorem test_decode_power :
    decode [.rails true true] = .ok .powerOn ∧ decode [.rails false false] = .ok .powerOff := by decide

theorem test_decode_mating :
    decode [.mate .caseOnly, .mate .grounds, .mate .power, .mate .all] = .ok .insert ∧
    decode [.mate .power, .mate .grounds, .mate .caseOnly, .mate .absent] = .ok .remove := by decide

theorem test_decode_controls :
    decode [.control (.power .two)] = .ok (.powerLevelEnable .two) ∧ decode [.control (.power .one)] = .ok .powerLevelDisable ∧
    decode [.control (.softTx true)] = .ok (.softTxDisable true) ∧
    decode [.control (.softRate .high .low)] = .ok (.softRateSelect .high .low) := by decide

/-- V5 to V9: words that are no device address word of the module. -/
theorem test_decode_foreign :
    [0xA4#8, 0xA6#8, 0xA8#8, 0xAE#8, 0x50#8, 0x00#8, 0x51#8, 0xB0#8, 0xFF#8].all
      (fun w => decide (decode [.start, .dev w, .stop] = .error (.foreignAddress w))) = true := by decide

theorem test_decode_refused :
    decode [.start, .dev 0xA2#8, .addr 0x80#8, .stop] = .error .noDataWord ∧
    decode ([.start, .dev 0xA2#8, .addr 0x80#8] ++ (List.replicate 9 (.data 0#8) ++ [.stop])) = .error .tooManyDataWords ∧
    decode [.start, .dev 0xA2#8, .addr 0x60#8, .start, .dev 0xA1#8, .read false, .stop] = .error .mixedSpaces ∧
    decode [.start, .dev 0xA1#8, .read true, .stop] = .error .badReadFrame ∧
    decode [.contact .txDisable .high, .wait 99, .contact .txDisable .low] = .error .shortResetPulse := by decide

/-- Table rows as words: A1h is a current read of A0h, A2h a byte write of zeros to A2h, 55h a data word. -/
theorem test_table_words :
    decodeTableWord 8 0xA1 = some (.currentRead .a0) ∧ decodeTableWord 8 0xA2 = some (.byteWrite .a2 0 0) ∧
    decodeTableWord 8 0x55 = some (.dataWord 0x55#8) := by decide

/-! ### A small state -/

/-- A module for the tests: controls and fixed bits lie away from the bytes read below. -/
def params : Params where
  txFaultImpl := true
  rxLosImpl := true
  rs0Used := true
  rs1Used := true
  asMode := false
  passiveCable := false
  cooled := false
  powerLevel := .two
  rxKind := .limiting
  hostSupports := .both
  stretch := false
  init := [(0x14, 0x53#8), (0xFE, 0x11#8), (0xFF, 0x22#8), (0x00, 0x33#8), (256 + 0x60, 0x1A#8), (256 + 0x80, 0x00#8),
    (256 + 110, 0x00#8), (256 + 118, 0x00#8), (256 + 0xFF, 0xAA#8), (256 + 0x00, 0xBB#8)]
  writable := [256 + 0x80, 256 + 0x81, 256 + 0xFC, 256 + 0x00]
  volatile := [256 + 104]
  fibreChannel := false
  modAbsPullUp := true
  oneGig := false
  vccHost := 3300
  vccHost2w := 3300
  rate := 10312500
  abortCtr := .keepIncremented
  mayNackBusy := false
  rsCombine := .or
  txDisCombine := .or
  tPowerLevel3 := 3000000
  tPowerDown3 := 3000000
  latchWhenDisabled := true
  softTxInit := false
  softRs0Init := .low
  softRs1Init := .low
  softTxField := { space := .a2, addr := 110#8, mask := 0x40#8, on := 0x40#8 }
  softRs0Field := { space := .a2, addr := 110#8, mask := 0x08#8, on := 0x08#8 }
  softRs1Field := { space := .a2, addr := 118#8, mask := 0x08#8, on := 0x08#8 }
  powerField := { space := .a2, addr := 118#8, mask := 0x03#8, codeI := 0#8, codeII := 1#8, codeIII := 2#8 }
  cooledField := { space := .a0, addr := 64#8, mask := 0x04#8, on := 0x04#8 }
  levelField := { space := .a0, addr := 64#8, mask := 0x02#8, on := 0x02#8 }
  losField := none

/-- Powered for a second, ready, transmitter operating, bus idle. -/
def ready : State where
  clk := { now := 10000000, drawn := 0 }
  cfg := params
  host :=
    { vccT := true, vccR := true, railAt := none, txDisable := .low, rs0 := .low, rs1 := .low, txData := true
      sclPeriod := 25, honours := true, inFrame := false, frame := [] }
  seen := { rx := [], acks := [], wires := none }
  out := { signal := true, faultCond := false, rxData := true, sdaHeld := false, sclHeld := false }
  slot := { mated := .all, vccTAt := none, powered := true, powerAt := 0, ready := true, readyDue := 1, stuck := false }
  tx :=
    { state := .operating, latch := false, outputOn := true, soft := false, initDone := true, due := none, faultDue := none
      offDue := none, riseAt := 0, fallAt := 0, faultAt := 0 }
  rcv := { los := false, known := true, due := none, changeAt := 0 }
  rate :=
    { rxHigh := false, txHigh := false, soft0 := .low, soft1 := .low, due0 := none, due1 := none, changeAt := 0 }
  lvl := { level := .one, next := .one, settled := true, due := none, writeAt := none }
  bus :=
    { state := .idle, phase := .off, sel := .a0, shift := 0, nbits := 0, sda := .high, willAck := false, hostAck := false
      wbuf := [], loaded := 0, ctrA0 := 0x14#8, ctrA2 := 0x33#8, stretching := false, heldAt := 0, hold := 0, freeAt := none
      deafTill := none, deafWrite := false }
  wr := { busy := false, space := .a0, due := 0, startAt := 0, cycles := 0 }
  mem := []
  raised := []
  script := []

/-- What a field of the next state is, or `d` where the machine stops. -/
def after {α : Type} (o : Host.Outcome State Fault Refusal) (f : State → α) (d : α) : α :=
  match o with
  | .next s => f s
  | .fault _ => d
  | .refused _ => d

/-- The same with other counters. -/
def counters (a0 a2 : Byte) : State := { ready with bus := { ready.bus with ctrA0 := a0, ctrA2 := a2 } }

/-! ### The transactions (95_test_vectors.md V10 to V24) -/

/-- V10. -/
theorem test_current_read :
    after (exec (.currentRead .a0) ready) (fun t => (t.seen.rx, t.bus.ctrA0, t.bus.ctrA2, t.seen.acks)) ([], 0, 0, [])
      = ([0x53#8], 0x15#8, 0x33#8, [true, false]) := by decide

/-- V20. -/
theorem test_current_read_rolls_over :
    after (exec (.currentRead .a0) (counters 0xFF#8 0)) (fun t => (t.seen.rx, t.bus.ctrA0)) ([], 1) = ([0x22#8], 0#8) := by
  decide

/-- V11, V21. -/
theorem test_random_read :
    after (exec (.randomRead .a2 0x60#8) (counters 0x10#8 0x20#8))
      (fun t => (t.seen.rx, t.bus.ctrA0, t.bus.ctrA2, t.wr.busy)) ([], 0, 0, true)
      = ([0x1A#8], 0x10#8, 0x61#8, false) := by decide

set_option maxRecDepth 4000 in
/-- V12. -/
theorem test_seq_read_current :
    after (exec (.seqReadCurrent .a0 3) (counters 0xFE#8 0)) (fun t => (t.seen.rx, t.bus.ctrA0)) ([], 0)
      = ([0x11#8, 0x22#8, 0x33#8], 0x01#8) := by decide

set_option maxRecDepth 4000 in
/-- V13. -/
theorem test_seq_read_random :
    after (exec (.seqReadRandom .a2 0xFF#8 2) ready) (fun t => (t.seen.rx, t.bus.ctrA2)) ([], 0)
      = ([0xAA#8, 0xBB#8], 0x01#8) := by decide

/-- V14, up to the STOP. -/
theorem test_byte_write :
    after (exec (.byteWrite .a2 0x80#8 0x55#8) ready)
      (fun t => (t.bus.wbuf, t.bus.ctrA2, t.wr.busy, t.mem, t.seen.acks)) ([], 0, false, [], [])
      = ([(0x80#8, 0x55#8)], 0x81#8, true, [], [true, true, true]) := by decide

/-- V14, the end of the write cycle. -/
theorem test_write_cycle_end :
    (settle { ready with
      bus := { ready.bus with wbuf := [(0x80#8, 0x55#8)] }
      wr := { busy := true, space := .a2, due := 5, startAt := 0, cycles := 1 } }).mem = [(256 + 0x80, 0x55#8)] := by decide

/-- V23: the words roll over inside the space. -/
theorem test_seq_write_rolls_over :
    after (exec (.seqWrite .a2 0xFC#8 [1, 2, 3, 4, 5, 6, 7, 8]) ready) (fun t => (t.bus.wbuf.map (·.1), t.bus.ctrA2)) ([], 0)
      = ([0xFC#8, 0xFD#8, 0xFE#8, 0xFF#8, 0x00#8, 0x01#8, 0x02#8, 0x03#8], 0x04#8) := by decide

/-- V38. -/
theorem test_seq_write_nine :
    exec (.seqWrite .a2 0x80#8 (List.replicate 9 0#8)) ready = .refused .writeOverrun := rfl

/-- V17. -/
theorem test_ack_poll_busy :
    after (exec (.ackPoll .a2 ⟨.write, .stop⟩) { ready with wr := { ready.wr with busy := true, due := 20000000 } })
      (fun t => (t.seen.acks, t.bus.ctrA2, t.raised)) ([], 0, []) = ([false], 0x33#8, [.noAcknowledge]) := by decide

/-- V18. -/
theorem test_ack_poll_ready :
    after (exec (.ackPoll .a2 ⟨.write, .stop⟩) ready) (fun t => (t.seen.acks, t.bus.ctrA2, t.bus.state)) ([], 0, .ignoring)
      = ([true], 0x33#8, .idle) := by decide

/-- A module that stands in a data word 00h with three bits out (43 R377, example; V19). -/
def midRead : State :=
  { ready with bus := { ready.bus with state := .addressedRead, phase := .send, shift := 0, nbits := 3, sda := .low } }

/-- The example of R377: six pulses at 2.5 µs, then START inside the last, with its hold time of 0.6 µs (R690); the word was
clocked out whole. -/
theorem test_mgmt_reset :
    after (exec .mgmtReset midRead) (fun t => (t.bus.state, t.bus.sda, t.clk.now - midRead.clk.now, t.bus.ctrA0))
      (.idle, .low, 0, 0) = (.gotStart, .high, 6 * 25 + 6, 0x15#8) := by decide

theorem test_mgmt_reset_idle :
    after (exec .mgmtReset ready) (fun t => (t.bus.state, t.clk.now - ready.clk.now, t.bus.ctrA0)) (.idle, 0, 0)
      = (.gotStart, 25 + 6, 0x14#8) := by decide

/-! ### Words (30_encoding.md R122 to R124) -/

/-- After START. -/
def started : State := { ready with bus := { ready.bus with state := .gotStart, phase := .recv } }

/-- After START and a write device address word for A2h. -/
def addressed : State := { ready with bus := { ready.bus with state := .expectAddr, phase := .recv, sel := .a2 } }

/-- After a data word address 80h. -/
def writing (ws : List (Byte × Byte)) : State :=
  { ready with bus := { ready.bus with
      state := .writeData, phase := .recv, sel := .a2, wbuf := ws, ctrA2 := 0x80#8, loaded := 0x80#8 } }

theorem test_device_address_word :
    after (exec (.deviceAddressWord .a2 .write) started) (fun t => (t.bus.state, t.bus.sel, t.seen.acks)) (.idle, .a0, [])
      = (.expectAddr, .a2, [true]) := by decide

theorem test_data_word_address :
    after (exec (.dataWordAddress 0x80#8) addressed) (fun t => (t.bus.state, t.bus.ctrA2, t.bus.ctrA0)) (.idle, 0, 0)
      = (.writeData, 0x80#8, 0x14#8) := by decide

theorem test_data_word :
    after (exec (.dataWord 0x55#8) (writing [])) (fun t => (t.bus.wbuf, t.bus.ctrA2)) ([], 0)
      = ([(0x80#8, 0x55#8)], 0x81#8) := by decide

/-- A ninth data word. -/
theorem test_data_word_nine :
    exec (.dataWord 0x55#8) (writing (List.replicate 8 (0#8, 0#8))) = .refused .writeOverrun := rfl

/-- R637: a ninth word that reaches the module inside a frame is recorded, and the frame refused. -/
theorem test_ninth_word_in_frame :
    let eight : State := writing (List.replicate 8 (0#8, 0#8))
    let s : State := { eight with host := { eight.host with honours := false } }
    (takeData s).raised = s.raised ++ [.writeOverrun] ∧ clocked takeData s = .refused .writeOverrun := ⟨rfl, rfl⟩

/-- V40: STOP after four bits of a data word. -/
theorem test_stop_inside_word :
    after (andThen (runSyms [.pulse .low, .pulse .high, .pulse .low, .pulse .high] (writing [])) (runSym .stop))
      (fun t => (t.bus.wbuf, t.bus.ctrA2, t.bus.state, t.mem)) ([(0, 0)], 0, .gotStart, []) = ([], 0x80#8, .idle, []) := by
  decide

/-- V26. -/
theorem test_write_aborted_by_start :
    after (runSyms [.start] { writing [(0x80#8, 1), (0x81#8, 2)] with
        bus := { (writing [(0x80#8, 1), (0x81#8, 2)]).bus with ctrA2 := 0x82#8 } })
      (fun t => (t.bus.wbuf, t.bus.ctrA2, t.wr.busy, t.raised)) ([(0, 0)], 0, true, []) = ([], 0x82#8, false, [.abortedWrite]) := by
  decide

/-- V39: the host acknowledged one word too many, and SDA is low. -/
theorem test_stop_hangs : (runSym .stop midRead) = .next (raise .hungBus midRead) := rfl

/-! ### Contacts, power, mating (V48 to V75) -/

theorem test_tx_disable_assert :
    after (exec .txDisableAssert ready) (fun t => (t.tx.state, t.tx.outputOn, t.tx.offDue.isSome)) (.operating, true, false)
      = (.disabled, false, true) := by decide

theorem test_tx_disable_negate :
    after (exec .txDisableNegate
        { ready with host := { ready.host with txDisable := .high }, tx := { ready.tx with state := .disabled, outputOn := false } })
      (fun t => (t.tx.state, t.tx.due.isSome)) (.operating, false) = (.disabled, true) := by decide

/-- A latched fault that has gone (V62). -/
def latched : State := { ready with tx := { ready.tx with state := .faultLatched, latch := true, outputOn := false } }

/-- V62: it stays. -/
theorem test_latch_stays :
    (txFaultWire (settle latched), (settle latched).tx.latch) = (Level.high, true) := by decide

/-- V63. -/
theorem test_tx_fault_reset :
    after (exec (.txFaultReset .contact) latched)
      (fun t => (t.tx.state, t.tx.latch, t.host.txDisable, t.clk.now - latched.clk.now)) (.operating, true, .high, 0)
      = (.initializing, false, .low, 100) := by decide

/-- The same by software (60_exceptions.md R626). -/
theorem test_soft_tx_disable :
    after (exec (.softTxDisable true) ready) (fun t => (t.bus.wbuf, t.tx.soft, t.tx.state)) ([], false, .operating)
      = ([(110#8, 0x40#8)], true, .disabled) := by decide

/-- V60, at the latch. -/
theorem test_fault_taken :
    let t := settle { ready with tx := { ready.tx with faultDue := some 5 } }
    (t.tx.state, t.tx.latch, t.tx.outputOn, txFaultWire t, t.raised)
      = (.faultLatched, true, false, Level.high, [.txFault]) := by decide

/-- V52 and V53. -/
theorem test_rs0_set :
    after (exec (.rs0Set .high) ready) (fun t => t.rate.due0.isSome) false = true ∧
    after (exec (.rs1Set .high) { ready with cfg := { params with rs1Used := false } }) (fun t => t.rate) { ready.rate with rxHigh := true }
      = ready.rate := by decide

theorem test_rs1_set : after (exec (.rs1Set .high) ready) (fun t => (t.host.rs1, t.rate.due1.isSome)) (.low, false)
    = (.high, true) := by decide

/-- A slot with power and no module. -/
def empty : State :=
  { ready with
    slot := { ready.slot with mated := .absent, powered := false, ready := false }
    tx := { ready.tx with state := .offUnpowered, outputOn := false, initDone := false } }

/-- V57. -/
theorem test_empty_slot : (txFaultWire empty, rxLosWire empty, modAbsWire empty) = (Level.high, Level.high, Level.high) := by
  decide

/-- V58, V70. -/
theorem test_insert :
    after (exec .insert empty) (fun t => (modAbsWire t, t.slot.powered, t.slot.ready, t.tx.state, t.lvl.level))
      (.high, false, true, .disabled, .two) = (.low, true, false, .initializing, .one) := by decide

theorem test_remove :
    after (exec .remove ready) (fun t => (modAbsWire t, t.slot.powered, t.tx.state, t.raised)) (.low, true, .operating, [])
      = (.high, false, .offUnpowered, [.modAbsent]) := by decide

/-- A mated module without power, Tx_Disable high. -/
def dark : State :=
  { ready with
    host := { ready.host with vccT := false, vccR := false, txDisable := .high }
    slot := { ready.slot with powered := false, ready := false }
    tx := { ready.tx with state := .offUnpowered, outputOn := false, initDone := false } }

/-- V71. -/
theorem test_power_on :
    after (exec .powerOn dark) (fun t => (t.slot.powered, t.tx.state, t.bus.state, t.lvl.level)) (false, .operating, .ignoring, .two)
      = (true, .disabled, .idle, .one) := by decide

theorem test_power_off :
    after (exec .powerOff ready) (fun t => (t.slot.powered, t.slot.ready, t.tx.state)) (true, true, .operating)
      = (false, false, .offUnpowered) := by decide

/-- V75. -/
theorem test_rail_skew :
    runSym (.rails true true) { dark with host := { dark.host with vccT := true, railAt := some 1 } } = .refused .railSkew := rfl

/-- V77. -/
theorem test_power_level_enable :
    after (exec (.powerLevelEnable .two) ready) (fun t => (t.bus.wbuf, t.lvl.level, t.lvl.settled)) ([], .one, true)
      = ([(118#8, 0x01#8)], .two, false) := by decide

/-- V80. -/
theorem test_power_level_enable_level_one_module :
    after (exec (.powerLevelEnable .two) { ready with cfg := { params with powerLevel := .one } })
      (fun t => (t.lvl.level, t.seen.acks)) (.two, []) = (.one, [true, true, true]) := by decide

theorem test_power_level_disable :
    after (exec .powerLevelDisable { ready with lvl := { ready.lvl with level := .two, next := .two } })
      (fun t => (t.bus.wbuf, t.lvl.level, t.lvl.next)) ([], .one, .two) = ([(118#8, 0x00#8)], .two, .one) := by decide

set_option maxRecDepth 4000 in
/-- One byte for both: it is read, and written back with the bit set; the host has seen the write's three acknowledges. -/
theorem test_soft_rate_select :
    after (exec (.softRateSelect .high .high) { ready with cfg := { params with softRs1Field := params.softRs0Field } })
      (fun t => (t.bus.wbuf, t.seen.acks)) ([], []) = ([(110#8, 0x08#8)], [true, true, true]) := by decide

/-- V67, V68. -/
theorem test_loss_of_signal :
    rxLosWire (settle { ready with out := { ready.out with signal := false }, rcv := { ready.rcv with due := some 5 } }) = .high ∧
    rxLosWire (settle { ready with rcv := { ready.rcv with los := true, due := some 5 } }) = .low := by decide

/-- A table word runs as the first operation after reset. -/
theorem test_step_table_word :
    decodeTableWord 8 0xA1 = some (.currentRead .a0) ∧
    step (ready.withFetchWord 8 0xA1)
      = andThen (andThen (exec (.currentRead .a0) ready) fun t => .next (track (layout 8 0xA1) t)) fun t => .next (settle t) :=
  ⟨by decide, rfl⟩

theorem test_step_after_reset :
    step (State.reset.withFetchWord 8 0xA1)
      = andThen (andThen (exec (.currentRead .a0) State.reset) fun t => .next (track (layout 8 0xA1) t))
          fun t => .next (settle t) := rfl

/-! ### Limits (95_test_vectors.md V83 to V160) -/

/-- V94 to V102. -/
theorem test_mask_b :
    [(500, 94), (500, 96), (500, 351), (500, -200), (100, 0), (225, 40), (225, 50), (775, 40), (900, 0)].map
      (fun p : Int × Int => transmitterHit p.1 p.2)
      = [true, false, true, false, false, true, false, true, false] := by decide

/-- V103 to V108. -/
theorem test_mask_c' :
    [(500, 149), (500, 151), (425, 70), (425, 80), (500, 430), (300, 0)].map (fun p : Int × Int => limitingHit p.1 p.2)
      = [true, false, true, false, true, false] := by decide

/-- V109 to V117, in 10^-7. -/
theorem test_rn_limits :
    [rnLimit .sr 0, rnLimit .sr 1000, rnLimit .sr 2700, rnLimit .lr 1000, rnLimit (.lrm .pre) 0, rnLimit (.lrm .pre) 500,
      rnLimit (.lrm .pre) 1500, rnLimit (.lrm .split) 1000, rnLimit (.lrm .post) 500]
      = [780000, 580000, 240000, 630000, 457000, 398500, 245500, 305000, 398500] := by decide

/-- V118. -/
theorem test_rn_dwdp_max : rnPasses (.lrm .pre) 1600 0 = false := by decide

/-- R314: LRM fails while one of its six tests is missing. -/
theorem test_lrm_needs_all_tests :
    let tests := lrmRequired.map fun q => Tp3Test.mk q.1 q.2 4000 4500 300000
    [linearPasses lrmRequired tests, linearPasses lrmRequired tests.tail, linearPasses lrmRequired (⟨.lrm .split, .overload, 4000, 4500, 400000⟩ :: tests)]
      = [true, false, false] := by decide

/-- V119 to V128: at the limit, and 1 mdB beyond it (V120 to V123 round up to whole mdB). -/
theorem test_channel_band :
    [channelMinimum 100 (-730), channelMinimum 100 (-731), channelMinimum 1000 (-1755), channelMinimum 1000 (-1756),
      channelMinimum 7500 (-10000), channelMinimum 7500 (-10001), channelMinimum 10000 (-16000),
      channelMaximum 500 0, channelMaximum 500 1, channelMaximum 3000 (-1000), channelMaximum 3000 (-999),
      channelMaximum 5500 (-2250), channelMaximum 9000 (-3000)]
      = [true, false, true, false, true, false, true, true, false, true, false, true, true] := by decide

/-- V129 to V132. -/
theorem test_channel_reflection :
    [channelReflection 2000 (-14500), channelReflection 5000 (-14500), channelReflection 8000 (-9250),
      channelReflection 8000 (-9249), channelReflection 11100 (-3825)] = [true, true, true, false, true] := by decide

/-- Table 16 at 1 GHz and 4.1 GHz (rule R300). -/
theorem test_module_return_loss :
    [moduleDifferential 1000 (-10000), moduleDifferential 1000 (-9999)] = [true, false] := by decide

/-- V136: 6 hits of 6.75 allowed pass, 7 do not. -/
theorem test_hit_ratio :
    [hitRatioOk 6 200 1350 2000 5 100000, hitRatioOk 7 200 1350 2000 5 100000] = [true, false] := by decide

/-- V142, V140, V85, V84, E1 of R352. -/
theorem test_metrics :
    terminationMismatch 52 48 = (800, 100) ∧ qsqAtLeast 5 500 500 = true ∧ moduleNoiseOk 14000 = true ∧
    moduleNoiseOk 15000 = false ∧ pullUpOk 3460 1020 = true ∧ pullUpOk 3460 1019 = false := by decide

/-- V144: the stressor's sum is 1; 112 samples; the peak (E10, E11). -/
theorem test_copper_tables :
    copperStressor.sum = 10000 ∧ pulseResponse.length = 112 ∧ pulseResponse.getD 14 0 = 1218 ∧ waveformLength = 8176 := by
  decide

/-- R21 note 2, R23: the case first. -/
theorem test_case_mates_first :
    (contactTable.filter (contactMated .caseOnly)).map (·.number) = [0] ∧ contactTable.length = 21 := by decide

/-- R6, R271, R592: rates the source covers, and the rows that bind them. -/
theorem test_rates :
    [rateCovered 10312500, rateCovered 9953280, rateCovered 1250000, rateCovered 8500000, rateCovered 14025000]
      = [true, true, true, false, false] ∧
    hostInputRows { params with rate := 1250000, oneGig := true } .lr = table40 := by decide

/-- R484: a negative bound is not met. R497: neither is a large negative DCD. -/
theorem test_bounds_have_signs :
    rnAtMost 1 1 100 (-1) 10 = false ∧ rnAtMost 1 1 100 1 10 = true ∧ stressedEyeOk 420 340 80 50 (-30) = false ∧
    stressedEyeOk 420 340 80 50 (-20) = true := by decide

/-- R541: no indication of loss of signal in a passive cable, whatever the far end does. -/
theorem test_passive_cable_los :
    let los := { space := .a2, addr := 110#8, mask := 0x02#8, on := 0x02#8 : Field }
    let dead : State := { ready with cfg := { params with losField := some los }, rcv := { ready.rcv with los := true } }
    sampleByte dead .a2 110#8 = 0x02#8 ∧
    sampleByte { dead with cfg := { dead.cfg with passiveCable := true } } .a2 110#8 = 0x00#8 := by decide

/-- R353: tBUF runs from an acknowledge that a single pulse clocks. -/
theorem test_pulse_acknowledges :
    after (onePulse .high { addressed with bus := { addressed.bus with phase := .ackOut, nbits := 8, sda := .low } })
      (fun t => (t.bus.freeAt, t.bus.phase)) (none, .off) = (some 10000025, .recv) := by decide

/-- R477: every edge of one repetition, the one between its last sample and its first too. -/
theorem test_crossings_wrap :
    crossingIndices [2, -2, -2, 2, 2, -2] = [0, 2, 4, 5] ∧ crossingTime [2, -2, -2, 2, 2, -2] 5 = (132, 24) := by decide

/-- R560 note 10: at 1 GHz the cable's bound is -5.4 dB, strictly. -/
theorem test_cable_common_mode : [cableCommonMode 1000 (-5400), cableCommonMode 1000 (-5401)] = [false, true] := by decide

/-- R612: 14 taps and 0.77576 ns at 10.3125 GBd end above 15 symbol periods. -/
theorem test_equalizer_delays : eqDelays .copperTwdp 14 10312500 = (0, 16) ∧ eqDelays .opticalWdp 14 10312500 = (0, 7) := by
  decide

/-! ### States and operands that meet the statements' hypotheses -/

theorem ready_calm : calm ready := ⟨rfl, rfl, rfl, rfl, rfl, rfl⟩

theorem ready_frameReady : frameReady ready := ⟨ready_calm, rfl, by decide⟩

theorem params_controlsApart : controlsApart params := by unfold controlsApart; decide

/-- A state with the module in its write cycle. -/
def busy : State := { ready with wr := { ready.wr with busy := true, due := 10000001 } }

theorem busy_deaf : deaf busy := ⟨rfl, rfl, rfl, fun _ => rfl, rfl⟩

theorem witness_StepRunsDecoded :
    ({ ready with script := [.host [.start, .dev 0xA1#8, .read false, .stop]] } : State).script
      = .host [.start, .dev 0xA1#8, .read false, .stop] :: [] ∧
    decode [.start, .dev 0xA1#8, .read false, .stop] = .ok (.currentRead .a0) ∧
    decodeTableWord 8 0xA1 = some (.currentRead .a0) := ⟨rfl, by decide, by decide⟩

theorem witness_DecodeEncode :
    (Instr.seqReadCurrent .a0 2).wf = true ∧ (Instr.seqReadRandom .a2 0xFF#8 2).wf = true ∧
    (Instr.seqWrite .a2 0xFF#8 [0, 1]).wf = true ∧ (Instr.seqWrite .a0 0 (List.replicate 8 0#8)).wf = true ∧
    (Instr.powerLevelEnable .three).wf = true := by decide

theorem witness_DecodedIsWellFormed : decode [.mgmt] = .ok .mgmtReset := by decide

theorem witness_FrameHasOneSpelling :
    decode (.start :: [.dev 0xA0#8, .addr 0xFF#8, .data 0#8, .data 1#8, .stop]) = .ok (.seqWrite .a0 0xFF#8 [0, 1]) := by
  decide

theorem witness_InvStep : Machine.Inv ready ∧ ∃ t, step ready = .next t := by
  refine ⟨?_, _, rfl⟩
  unfold Machine.Inv
  decide

theorem witness_EngineShapeStep : EngineShape midRead ∧ ∃ t, step midRead = .next t := by
  refine ⟨?_, _, rfl⟩
  unfold EngineShape
  decide

theorem witness_DeviceAddressWord : wordReady started .gotStart := ⟨⟨rfl, rfl, rfl, rfl, rfl, rfl⟩, rfl, rfl, rfl, rfl⟩

theorem witness_DataWordAddress : wordReady addressed .expectAddr := ⟨⟨rfl, rfl, rfl, rfl, rfl, rfl⟩, rfl, rfl, rfl, rfl⟩

/-- With seven words another is taken; with eight it is refused. -/
theorem witness_DataWord :
    (wordReady (writing (List.replicate 7 (0, 0))) .writeData ∧ (writing (List.replicate 7 (0, 0))).bus.wbuf.length < 8) ∧
    wordReady (writing (List.replicate 8 (0, 0))) .writeData ∧ 8 ≤ (writing (List.replicate 8 (0, 0))).bus.wbuf.length :=
  ⟨⟨⟨⟨rfl, rfl, rfl, rfl, rfl, rfl⟩, rfl, rfl, rfl, rfl⟩, by decide⟩, ⟨⟨rfl, rfl, rfl, rfl, rfl, rfl⟩, rfl, rfl, rfl, rfl⟩, by decide⟩

theorem witness_ForeignWordIgnored : wordReady started .gotStart ∧ (0xA4#8 : Byte) &&& 0xFC#8 ≠ 0xA0#8 :=
  ⟨witness_DeviceAddressWord, by decide⟩

/-- A plain byte, a live one, one of memory and a control, with fields that share no bit. -/
theorem witness_CurrentRead :
    frameReady ready ∧ isPlain params .a2 0x80#8 = true ∧ readByte ready (memKey .a2 0x80#8) = some 0 ∧
    params.volatile.contains (memKey .a2 104#8) = true ∧
    (params.volatile.contains (memKey .a2 110#8) = false ∧ readByte ready (memKey .a2 110#8) = some 0 ∧
      shownMask params .a2 110#8 = 0x48#8) ∧
    placesApart params ∧ (params.softTxField, false) ∈ shownFields ready ∧
    memKey params.softTxField.space params.softTxField.addr = memKey .a2 110#8 ∧
    memKey params.powerField.space params.powerField.addr = memKey .a2 118#8 := by
  unfold placesApart
  refine ⟨ready_frameReady, ?_⟩
  decide

/-- The fields of a byte are read as the machine holds them: the Software Tx disable; A0h byte 93 bit 2; the power level enable
beside a rate select; memory's other bits. -/
theorem test_control_read :
    let s : State := { ready with
      tx := { ready.tx with soft := true }, lvl := { ready.lvl with level := .two, next := .two }
      rate := { ready.rate with soft1 := .high }
      cfg := { params with asMode := true, init := (93, 0xA0#8) :: params.init } }
    [sampleByte s .a2 110#8, sampleByte s .a0 93#8, sampleByte s .a2 118#8] = [0x40#8, 0xA4#8, 0x09#8] := by decide

theorem witness_RandomRead : frameReady (counters 0xFF#8 0xFF#8) := ⟨⟨rfl, rfl, rfl, rfl, rfl, rfl⟩, rfl, by decide⟩

theorem witness_SequentialReadCurrent : frameReady (counters 0xFF#8 0) ∧ 1 ≤ 1 :=
  ⟨⟨⟨rfl, rfl, rfl, rfl, rfl, rfl⟩, rfl, by decide⟩, by decide⟩

theorem witness_SequentialReadRandom : frameReady ready ∧ 1 ≤ 257 := ⟨ready_frameReady, by decide⟩

theorem ready_misses (sp : Space) (ws : List (Byte × Byte))
    (h : ∀ w ∈ ws, memKey sp w.1 ≠ memKey .a2 0x6E#8 ∧ memKey sp w.1 ≠ memKey .a2 0x76#8) :
    missesControls ready.cfg sp ws := h

theorem witness_ByteWrite : frameReady ready ∧ missesControls ready.cfg .a2 [(0x80#8, 0x55#8)] :=
  ⟨ready_frameReady, ready_misses _ _ (by simp [memKey])⟩

/-- One word, eight words, nine words. -/
theorem witness_SequentialWrite :
    frameReady ready ∧ [0#8] ≠ [] ∧ [0#8].length ≤ 8 ∧ (List.replicate 8 0#8).length ≤ 8 ∧
    missesControls ready.cfg .a2 (wordsAt 0xFC#8 (List.replicate 8 0#8)) ∧ 8 < (List.replicate 9 0#8).length :=
  ⟨ready_frameReady, by decide, by decide, by decide, ready_misses _ _ (by simp [memKey, wordsAt, List.replicate]), by decide⟩

theorem witness_AckPoll : frameReady ready := ready_frameReady

theorem witness_WordNotTaken :
    deaf busy ∧ calm ready ∧ ready.bus.phase = .off ∧ ready.bus.sda = .high ∧ ready.bus.state ≠ .writeData :=
  ⟨busy_deaf, ready_calm, rfl, rfl, by decide⟩

/-- A module in its write cycle whose host has just made STOP, and whose cycle ends with the host's wait for tBUF or well
after a second poll. -/
def polled (due : Nat) : State :=
  { ready with bus := { ready.bus with freeAt := some 10000000 }, wr := { ready.wr with busy := true, due := due } }

/-- The wait ends before the write cycle, with it, and with a slot that is empty; a poll that is repeated, its second word still
inside the cycle. -/
theorem witness_DeafFrameHasNoEffect :
    (isFrame (.ackPoll .a2 ⟨.write, .repeatedStart⟩) = true ∧ sclHeld (polled 10000201) = false) ∧
    ((awaitFree (polled 10000201)).clk.now < (polled 10000201).wr.due ∧ (polled 10000201).slot.ready = true) ∧
    deaf (awaitFree (polled 10100000)) ∧ deaf (awaitFree empty) ∧
    10000200 + Config.tSuSta + Config.tHdSta + 9 * 25 + Config.tBuf < (polled 10100000).wr.due ∧
    listening (awaitFree (polled 10000200)) = true :=
  ⟨⟨rfl, rfl⟩, ⟨by decide, rfl⟩, ⟨by decide, rfl, rfl, fun _ => rfl, rfl⟩, ⟨rfl, rfl, rfl, fun _ => rfl, rfl⟩, by decide,
    by decide⟩

/-- The same write under the other value of `P_ABORT_CTR`. -/
def restoring : State := { writing [(0x80#8, 1)] with cfg := { params with abortCtr := .restoreLoaded } }

theorem witness_AbortedWrite :
    (calm (writing [(0x80#8, 1)]) ∧ (writing [(0x80#8, 1)]).bus.state = .writeData ∧ (writing [(0x80#8, 1)]).bus.wbuf ≠ [] ∧
      (writing [(0x80#8, 1)]).bus.sda = .high ∧ busFree (writing [(0x80#8, 1)]) = true ∧
      (writing [(0x80#8, 1)]).cfg.abortCtr = .keepIncremented) ∧
    calm restoring ∧ restoring.bus.wbuf ≠ [] ∧ busFree restoring = true ∧ restoring.cfg.abortCtr = .restoreLoaded :=
  ⟨⟨⟨rfl, rfl, rfl, rfl, rfl, rfl⟩, rfl, by decide, rfl, rfl, rfl⟩, ⟨rfl, rfl, rfl, rfl, rfl, rfl⟩, by decide, rfl, rfl⟩

/-- One bit into a word, and seven bits. -/
theorem witness_StopInsideWordAborts :
    let s : State := { restoring with bus := { restoring.bus with nbits := 1 } }
    let u : State := { writing [(0x80#8, 1)] with bus := { (writing [(0x80#8, 1)]).bus with nbits := 7 } }
    (calm s ∧ s.bus.state = .writeData ∧ s.bus.wbuf ≠ [] ∧ s.bus.nbits ≠ 0 ∧ s.bus.sda = .high) ∧
    calm u ∧ u.bus.state = .writeData ∧ u.bus.wbuf ≠ [] ∧ u.bus.nbits ≠ 0 ∧ u.bus.sda = .high :=
  ⟨⟨⟨rfl, rfl, rfl, rfl, rfl, rfl⟩, rfl, by decide, by decide, rfl⟩, ⟨rfl, rfl, rfl, rfl, rfl, rfl⟩, rfl, by decide, by decide, rfl⟩

/-- R685 rows 4 and 6: STOP three bits into a data word, and before the host has answered a read word. -/
theorem test_cut_short :
    cutShort false { writing [] with bus := { (writing []).bus with nbits := 3 } } = [.unterminatedWrite] ∧
    cutShort false { midRead with bus := { midRead.bus with phase := .ackIn } } = [.lastWordAcked] ∧
    cutShort false (writing []) = [] := by decide

/-- R440, R432: a board measured at two frequencies, and a mismatch at 1 MHz through it; none through another board. -/
theorem test_board_and_mismatch :
    let boards : Boards := ⟨[(.host, [⟨10, -60⟩, ⟨15000, -2352⟩])], none⟩
    boardsOk .b boards = true ∧ boardCompliant .host [⟨10, -60⟩, ⟨11100, -1860⟩] = false ∧
    mismatchOk .b table11 ⟨boards, 1000000, terminationMismatch 51 49⟩ = true ∧
    mismatchOk .b table11 ⟨boards, 1000000, terminationMismatch 52 48⟩ = false ∧
    mismatchOk .a table26 ⟨boards, 1000000, terminationMismatch 51 49⟩ = false := by decide

/-- R261: the set points are inset by the tone's peak, and the other rail is within its limits too. -/
theorem test_tone_set_points :
    let run (t r : ToneRail) : ToneRun := ⟨.vccT, 1000, 66, 400, 12, t, r⟩
    toneRunOk (run ⟨3173, 33⟩ ⟨3300, 0⟩) = true ∧ toneRunAt false (run ⟨3173, 33⟩ ⟨3300, 0⟩) = true ∧
    toneRunAt true (run ⟨3427, 33⟩ ⟨3300, 0⟩) = true ∧ toneRunOk (run ⟨0, 3460⟩ ⟨3300, 0⟩) = false ∧
    toneRunOk (run ⟨3173, 33⟩ ⟨3470, 0⟩) = false := by decide

/-- R497: no stress after the limiter, and none without one; the interferers at the ends of their ranges. -/
theorem test_stress_generator :
    stressChainOk stressChain = true ∧ stressChainOk [.isiGenerator, .sineInterferer, .randomInterferer] = false ∧
    stressChainOk [.isiGenerator, .sineInterferer, .limiter, .randomInterferer] = false ∧
    interferenceOk ⟨100, 6000, 7⟩ = true ∧ interferenceOk ⟨2001, 6000, 7⟩ = false ∧ interferenceOk ⟨100, 6000, 6⟩ = false := by
  decide

/-- R42: the module holds SCL while it sends, and not once the host has read its last word. -/
theorem test_idle_until_stop_drives_nothing :
    (runEvent (.holdScl true) midRead).bus.stretching = true ∧
    (runEvent (.holdScl true) { midRead with bus := { midRead.bus with state := .idleUntilStop } }).bus.stretching = false := by
  decide

/-- R433 note 1: an ASIC that tolerates 850 mV of swing, and one that tolerates 849 mV. -/
theorem test_asic_tolerance :
    [850, 849].map (fun v => (table27 .limiting).all fun r => meets r (if r.unit = "mV" then v else 15000)) = [true, false] ∧
    (table27 .both).length = 3 := by decide

/-- R445 to R448: a pair of mated boards, every sweep at 10 MHz and at 15 GHz. -/
def mated (through : Int) (noise : Nat) : MatedPair :=
  let flat (m : Int) : List FitSample := [⟨10, m⟩, ⟨15000, m⟩]
  let path : MatedPath := ⟨flat (-30000), flat (-30000), flat (-30000), flat (-30000), flat through, flat through,
    flat (-40000), flat (-40000)⟩
  ⟨path, path, ⟨1000, 34, .mcb1, .mcb2, 12000, noise⟩⟩

/-- R440, R446, R448: a pair within its limits, one that loses too much, one with 1 mV of NEXT. -/
theorem test_mated_pair :
    [matedPairOk (mated (-60) 999), matedPairOk (mated (-90) 999), matedPairOk (mated (-60) 1000)] = [true, false, false] := by
  decide

/-- R556 notes 3 and 5, R440: at C'', through two boards whose pair is compliant too, and not at B'. -/
theorem test_noise_point :
    let host : Board × List FitSample := (.host, [⟨10, -60⟩, ⟨15000, -2352⟩])
    let module : Board × List FitSample := (.module, [⟨10, -13⟩, ⟨15000, -1064⟩])
    let at' (p : TestPoint) (bs : Boards) : NoiseCapture := ⟨p, bs, ⟨50, 100, 25, false, 12000⟩, .squareWave, false, true, false, []⟩
    atModuleBoard (at' .c'' ⟨[host, module], some (mated (-60) 999)⟩) = true ∧
    atModuleBoard (at' .c'' ⟨[host, module], some (mated (-90) 999)⟩) = false ∧
    atModuleBoard (at' .c'' ⟨[host, module], none⟩) = false ∧ atModuleBoard (at' .b' ⟨[module], none⟩) = false := by decide

/-- R563, R564: no NEXT of no samples, no loss of no voltage. -/
theorem test_cable_measured :
    nextAtMost [] 0 0 = false ∧ nextAtMost [3, -4] 0 4 = true ∧ nextAtMost [3, -4] 0 3 = false ∧
    vmaLossAtMost 0 0 4400 = false ∧ vmaLossAtMost 1 0 4400 = false := by decide

/-- R485, R6: the rows of Table 1 that are Clause 52, and the one Appendix E is for. -/
theorem test_table1_rows :
    ((applications.filter clause52).map (·.rate)) = [10312500, 9953280] ∧
    ((applications.filter forCopper).map (·.name)) = ["10GSFP+Cu"] := by decide

/-- R420, R281: 7.0% at 28.76 Ω and 100 Ω, 6.4% at 28.4 Ω; 111 Ω. -/
theorem test_traces :
    [(28760, 100000), (28400, 100000), (31900, 111000)].map (fun z : Int × Int => tracesOk z.1 z.2) = [true, false, false] := by
  decide

/-- R481: no edges are none of any symbols, nor 100 edges of 10^14 symbols. -/
theorem test_edges_of_symbols : edgesOf 0 [] = false ∧ edgesOf (10 ^ 14) (List.replicate 100 0) = false := by
  refine ⟨by decide, ?_⟩
  simp [edgesOf]

/-- R314: LRM requires its six tests, and no row of Chapter 3 is content with none. -/
theorem test_required :
    (applications.filter (·.name = "LRM")).map (fun a => [testsRequired a lrmRequired, testsRequired a lrmRequired.tail]) =
      [[true, false]] ∧
    ∀ a ∈ applications.filter (·.interface.contains .chapter3), testsRequired a [] = false := by
  refine ⟨by decide, fun a h => ?_⟩
  have h : Document.chapter3 ∈ a.interface := by simpa using (List.mem_filter.1 h).2
  simp [testsRequired, h]

/-- R473, R474: no eye mask test without crossings at one side, without a screen, or without waveforms. -/
theorem test_eye_mask_taken (x : EyeMaskTest) (h : x.left = [] ∨ x.right = [] ∨ x.screen = 0 ∨ x.waveforms = 0) :
    eyeMaskConditions x = false := by
  rcases h with h | h | h | h <;> simp [eyeMaskConditions, maskTime, average, h]

/-- R506: noise 3 dB down at 10 GHz is white to there, and not to 10 GHz where it is so at 5 GHz or was not swept. -/
theorem test_white_noise :
    [[⟨10, 0⟩, ⟨10000, -3000⟩, ⟨12000, -9000⟩], [⟨10, 0⟩, ⟨5000, -3001⟩, ⟨10000, -3000⟩], [⟨10, 0⟩, ⟨9999, 0⟩], []].map
      (whiteNoise 10000) = [true, false, false, false] := by decide

/-- R540: a noise of the copper generator is not calibrated on ports of 75 Ω, nor R280's pairs blocked at three contacts. -/
theorem test_copper_ports :
    instrumentOk .c'' none ⟨75, 100, 25, false, 12000⟩ = false ∧ blockingOk (fun n => n ≠ 18) = false ∧
    blockingOk (fun _ => true) = true := by decide

/-- R351 n.2, R21 n.4: an active termination's sink at 0.40 V, and the bound on the pulled-up contacts. -/
theorem test_bus_pull :
    (BusPull.active fun mv => if mv < 400 then 4000 else 3000).SinkOk 3300 ∧ ¬(BusPull.active fun _ => 3001).SinkOk 3300 ∧
    hostVoltagesOk 3140 3300 (fun _ => 3640) = true ∧ hostVoltagesOk 3140 3300 (fun _ => 3641) = false ∧
    hostVoltagesOk 3300 3140 (fun n => if n = 18 then 4000 else 3640) = true := by
  refine ⟨fun mv h => ?_, fun h => absurd (h 400 (by decide)) (by decide), by decide⟩
  have : ¬mv < 400 := by omega
  simp [this]

/-- R301: Table 17 states TJ as 0.28 UI. -/
theorem test_total_jitter :
    (rowOf table17 "TJ").map (fun r => [meets r 280, meets r 281]) = some [true, false] := by decide

/-- R182: the module's pull resistors. -/
theorem test_module_pulls :
    modulePullsOk params ⟨4700, 30001, 47000, true⟩ = true ∧ modulePullsOk params ⟨4699, 30001, 47000, true⟩ = false ∧
    modulePullsOk params ⟨4700, 30000, 47000, true⟩ = false := by decide

/-- R236: the profile's currents and powers are the rows of Table 8. -/
theorem test_supply_rows :
    (rowOf supplyTable "instantaneous peak current on enabling Level III").map (·.hi) = some (some ((peakCurrents .three).1 : Int)) ∧
    (rowOf supplyTable "sustained peak current on enabling Level II").map (·.hi) = some (some ((peakCurrents .two).2 : Int)) ∧
    (rowOf supplyTable "instantaneous peak current at hot plug").map (·.hi) = some (some ((peakCurrents .one).1 : Int)) ∧
    (rowOf supplyTable "Level II power").map (·.hi) = some (some (levelPower .two : Int)) := by decide

/-- Between two words, and three bits into the first data word. -/
theorem witness_AddressOnlyWrite :
    let inside : State := { writing [] with bus := { (writing []).bus with nbits := 3 } }
    (calm (writing []) ∧ (writing []).bus.state = .writeData ∧ (writing []).bus.wbuf = [] ∧ (writing []).bus.sda = .high) ∧
    calm inside ∧ inside.bus.state = .writeData ∧ inside.bus.wbuf = [] ∧ inside.bus.sda = .high ∧ inside.bus.nbits ≠ 0 :=
  ⟨⟨⟨rfl, rfl, rfl, rfl, rfl, rfl⟩, rfl, rfl, rfl⟩, ⟨rfl, rfl, rfl, rfl, rfl, rfl⟩, rfl, rfl, rfl, by decide⟩

theorem witness_HeldSdaHangsBus : sclHeld midRead = false ∧ sdaLine .high midRead = .low := ⟨rfl, rfl⟩

/-- The module holds SCL, or another device does; a frame, a word, and the operations that clock or write. -/
theorem witness_HeldClockSticks :
    (sclHeld { ready with bus := { ready.bus with stretching := true } } = true ∧
      moduleHolds { ready with bus := { ready.bus with stretching := true } } = true) ∧
    (sclHeld { ready with out := { ready.out with sclHeld := true } } = true ∧
      moduleHolds { ready with out := { ready.out with sclHeld := true } } = false) ∧
    isFrame (.byteWrite .a2 0 0) = true ∧
    isFrame (.seqWrite .a2 0 (List.replicate 8 0#8)) = true ∧
    (∃ i, i = Instr.mgmtReset ∧ isFrame i = false) ∧ ∃ i, i = Instr.txFaultReset .software ∧ isFrame i = false :=
  ⟨⟨rfl, rfl⟩, ⟨rfl, rfl⟩, rfl, rfl, ⟨_, rfl, rfl⟩, _, rfl, rfl⟩

/-- The engine in each phase: idle, with seven bits of a ninth word in, in the middle of a read, before an acknowledge. -/
theorem witness_ManagementReset :
    let full : State := { writing (List.replicate 8 (0, 0)) with
      bus := { (writing (List.replicate 8 (0, 0))).bus with nbits := 7 } }
    let acking : State := { writing [] with bus := { (writing []).bus with phase := .ackOut, nbits := 8, sda := .low } }
    (calm full ∧ EngineShape full ∧ overrun full = true ∧ full.bus.nbits = 7) ∧
    (calm ready ∧ EngineShape ready ∧ overrun ready = false ∧ ready.bus.phase = .off) ∧
    (calm midRead ∧ EngineShape midRead ∧ overrun midRead = false ∧ midRead.bus.phase = .send) ∧
    calm acking ∧ EngineShape acking ∧ overrun acking = false ∧ acking.bus.phase = .ackOut := by
  refine ⟨⟨⟨rfl, rfl, rfl, rfl, rfl, rfl⟩, ?_, rfl, rfl⟩, ⟨ready_calm, ?_, rfl, rfl⟩, ⟨⟨rfl, rfl, rfl, rfl, rfl, rfl⟩, ?_, rfl, rfl⟩,
    ⟨rfl, rfl, rfl, rfl, rfl, rfl⟩, ?_, rfl, rfl⟩ <;> unfold EngineShape <;> decide

theorem witness_MemoryStaysCanonical : 511 < 512 ∧ Memory.wf params.init [(511, 0xAB#8)] = true := by decide

/-- A write cycle that ends now. -/
def ending : State :=
  { ready with
    bus := { ready.bus with wbuf := [(0x80#8, 1), (0x80#8, 2)] }
    wr := { busy := true, space := .a2, due := 10000000, startAt := 0, cycles := 1 } }

theorem witness_WriteCommits :
    (ending.slot.mated = .all ∧ ending.slot.powered = true ∧ ending.slot.stuck = false) ∧ ending.slot.ready = true ∧ ending.wr.busy = true ∧ ending.wr.due ≤ ending.clk.now ∧
    isWritable ending.cfg ending.wr.space 0x80#8 = true ∧ ending.bus.wbuf.reverse.lookup 0x80#8 = some 2#8 ∧
    Space.a0 ≠ ending.wr.space ∧ isWritable ending.cfg .a2 0x90#8 = false := by decide

theorem witness_WriteCycleRuns :
    busy.slot.ready = true ∧ busy.wr.busy = true ∧ busy.clk.now < busy.wr.due := by decide

theorem witness_WriteThenRead :
    frameReady ready ∧ isWritable ready.cfg .a2 0x80#8 = true ∧ isPlain ready.cfg .a2 0x80#8 = true :=
  ⟨ready_frameReady, by decide, by decide⟩

/-- A transmitter that emits, one whose light is returning, a latched one, and one told already. -/
theorem witness_TxDisableAssert :
    let back := { ready.tx with state := .disabled, outputOn := false, due := some 10000001 }
    (ready.slot.powered = true ∧ ready.cfg.passiveCable = false ∧ txOff ready = false ∧ ready.tx.outputOn = true) ∧
    (returning back = true ∧ back.outputOn = false ∧ back.state ≠ .offUnpowered) ∧
    (latched.tx.state = .faultLatched ∧ txOff latched = false ∧ latched.tx.outputOn = false ∧
      returning latched.tx = false) ∧
    txOff { ready with host := { ready.host with txDisable := .high } } = true := by decide

/-- A module held disabled; the clauses of its transmitter. -/
def held (x : TxUnit) : State := { ready with host := { ready.host with txDisable := .high }, tx := x }

theorem witness_TxDisableNegate :
    let off := { ready.tx with state := .disabled, outputOn := false }
    let fresh := { off with initDone := false }
    let fault := { latched.tx with riseAt := 10000000 - Config.tReset }
    let pending := { off with faultDue := some 10000001, riseAt := 10000000 - Config.tReset }
    let early := { fresh with faultDue := some 10000001, riseAt := 10000000 - Config.tReset + 1 }
    let late : State := { held off with cfg := { params with latchWhenDisabled := false }, out := { ready.out with faultCond := true } }
    ((held off).slot.mated = .all ∧ (held off).slot.powered = true ∧ (held off).cfg.passiveCable = false ∧
      (held off).host.txDisable = .high ∧ (held off).tx.soft = false ∧ off.state = .disabled ∧ off.initDone = true ∧
      off.latch = false ∧ off.faultDue = none) ∧
    (fresh.state = .disabled ∧ fresh.initDone = false ∧ fresh.latch = false ∧ fresh.faultDue = none ∧
      ({ held fresh with out := { ready.out with faultCond := true } } : State).out.faultCond = true) ∧
    (early.state = .disabled ∧ early.latch = false ∧ early.initDone = false ∧ early.faultDue = some 10000001 ∧
      ¬early.riseAt + Config.tReset ≤ 10000000) ∧
    ((late.out.faultCond && late.cfg.txFaultImpl && !late.cfg.latchWhenDisabled) = true ∧ late.tx.faultDue = none) ∧
    (ready.tx.latch = false ∧ ready.tx.faultDue = none ∧ ready.tx.state = .operating) ∧
    ((held latched.tx).tx.latch = true ∧ (held { latched.tx with state := .disabled }).tx.state = .disabled) ∧
    ((held fault).tx.latch = true ∧ (held fault).tx.riseAt + Config.tReset ≤ (held fault).clk.now ∧
      (held fault).tx.state = .faultLatched) ∧
    (({ held fault with out := { ready.out with faultCond := true } } : State).out.faultCond = true ∧
      (held fault).cfg.txFaultImpl = true) ∧
    (pending.state = .disabled ∧ pending.latch = false ∧ pending.faultDue = some 10000001 ∧
      (held pending).tx.riseAt + Config.tReset ≤ (held pending).clk.now) ∧
    txOff ready = false ∧ txOff { held { off with soft := true } with host := ready.host } = true := by decide

theorem witness_TransmitterStarts :
    let s := held { ready.tx with state := .disabled, due := some 10000000 }
    let u : State := { ready with tx := { ready.tx with state := .initializing, due := some 10000000 }
                                  out := { ready.out with faultCond := true } }
    (s.tx.due = some 10000000 ∧ 10000000 ≤ s.clk.now ∧ s.tx.faultDue = none ∧ s.tx.state = .disabled) ∧
    u.tx.due = some 10000000 ∧ 10000000 ≤ u.clk.now ∧ u.tx.faultDue = none ∧ u.tx.state = .initializing ∧
    u.out.faultCond = true ∧ u.cfg.txFaultImpl = true := by decide

/-- Operating; in the t_on window; disabled with the fault latched at once; detected already; disabled with the fault left to
the next negation. -/
theorem witness_FaultDetected :
    let off := { ready.tx with state := .disabled, outputOn := false }
    let back := { off with due := some 10000001 }
    let seen := { ready.tx with faultDue := some 10000001 }
    let late := { held off with cfg := { params with latchWhenDisabled := false }, out := { ready.out with faultCond := true } }
    (ready.slot.powered = true ∧ ready.cfg.txFaultImpl = true ∧ ready.tx.latch = false ∧ ready.out.faultCond = false ∧
      ready.tx.faultDue = none ∧ ready.tx.state = .operating) ∧
    (back.state = .disabled ∧ returning back = true ∧ back.latch = false ∧ back.faultDue = none) ∧
    ((held off).tx.state = .disabled ∧ (held off).tx.initDone = true ∧ (held off).cfg.latchWhenDisabled = true ∧
      (held off).tx.faultDue = none ∧ (held off).out.faultCond = false) ∧
    (seen.latch = false ∧ seen.faultDue ≠ none) ∧
    (({ late with out := ready.out } : State).out.faultCond = false ∧ returning late.tx = false) ∧
    late.slot.mated = .all ∧ late.slot.powered = true ∧ late.cfg.passiveCable = false ∧ late.host.txDisable = .high ∧
    late.tx.soft = false ∧ late.tx.state = .disabled ∧ late.tx.initDone = true ∧ late.tx.latch = false ∧
    late.tx.faultDue = none ∧ late.cfg.txFaultImpl = true ∧ late.cfg.latchWhenDisabled = false ∧
    late.out.faultCond = true := by decide

theorem witness_FaultTaken :
    let s : State := { ready with tx := { ready.tx with faultDue := some 10000000 } }
    s.slot.powered = true ∧ s.tx.faultDue = some 10000000 ∧ 10000000 ≤ s.clk.now ∧ s.tx.latch = false ∧
    s.cfg.txFaultImpl = true := by decide

theorem witness_LatchHeld :
    let s : State := { latched with script := [.env (.fault false)] }
    (Machine.Inv latched ∧ latched.tx.latch = true ∧ latched.script = [] ∧ ∃ t, step latched = .next t) ∧
    (Machine.Inv s ∧ s.tx.latch = true ∧ s.script = .env (.fault false) :: [] ∧ ∃ t, step s = .next t) ∧
    ∃ e, e = EnvEvent.holdSda true ∧ latched.bus.state ≠ .writeData := by
  refine ⟨⟨?_, rfl, rfl, _, rfl⟩, ⟨?_, rfl, rfl, _, rfl⟩, _, rfl, by decide⟩ <;> unfold Machine.Inv <;> decide

theorem witness_TxFaultResetByContact :
    (latched.slot.mated = .all ∧ latched.slot.powered = true ∧ latched.cfg.passiveCable = false ∧
      latched.host.txDisable = .low ∧ latched.tx.soft = false ∧ latched.wr.busy = false ∧ latched.tx.latch = true ∧
      latched.tx.state = .faultLatched) ∧
    ready.tx.latch = false ∧ ready.tx.state = .operating ∧ ready.tx.initDone = true ∧ ready.tx.faultDue = none ∧
    ready.wr.busy = false := by decide

theorem witness_TxFaultResetBySoftware :
    frameReady latched ∧ controlsApart latched.cfg ∧ latched.cfg.passiveCable = false ∧ latched.cfg.txDisCombine = .or ∧
    latched.host.txDisable = .low ∧ latched.tx.soft = false ∧ latched.tx.latch = true ∧ latched.tx.state = .faultLatched ∧
    Config.sclPeriodMin ≤ latched.host.sclPeriod :=
  ⟨⟨⟨rfl, rfl, rfl, rfl, rfl, rfl⟩, rfl, by decide⟩, params_controlsApart, rfl, rfl, rfl, rfl, rfl, rfl, by decide⟩

/-- No edge: the value it has already, the contact high, software that is not combined, a passive cable. An assertion:
operating, light returning, initialising, latched. A negation: in normal operation, with the fault left to it, before the
first start-up with the fault there, over a pending and over a latched fault, after pulses of t_reset and of less. -/
theorem witness_SoftTxDisable :
    let told (v : Bool) (s : State) : Bool := txOff { s with tx := { s.tx with soft := v } }
    let off := { ready.tx with state := .disabled, soft := true, outputOn := false }
    let kept (x : TxUnit) : State := { ready with tx := x, out := { ready.out with faultCond := true } }
    let pending := { off with faultDue := some 10000001 }
    let latch := { off with latch := true }
    (frameReady ready ∧ controlsApart ready.cfg) ∧
    (told false ready = txOff ready ∧ told true { ready with host := { ready.host with txDisable := .high } } = true ∧
      (∀ v, told v { ready with cfg := { params with txDisCombine := .contactOnly } } = false) ∧
      ({ params with passiveCable := true } : Params).passiveCable = true) ∧
    (txOff ready = false ∧ told true ready = true ∧ ready.cfg.passiveCable = false ∧ ready.tx.state ≠ .offUnpowered ∧
      ready.tx.outputOn = true ∧ returning { off with soft := false, due := some 10000001 } = true ∧
      told true { ready with tx := { ready.tx with state := .initializing, outputOn := false } } = true ∧
      told true latched = true ∧ latched.tx.outputOn = false ∧ returning latched.tx = false) ∧
    (txOff (kept off) = true ∧ told false (kept off) = false ∧ off.state = .disabled ∧ off.latch = false ∧
      off.faultDue = none ∧ off.initDone = true) ∧
    ((kept off).out.faultCond && (kept off).cfg.txFaultImpl && !{ params with latchWhenDisabled := false }.latchWhenDisabled)
      = true ∧
    told false (kept { off with initDone := false }) = false ∧
    (told false (kept pending) = false ∧ pending.latch = false ∧ pending.faultDue = some 10000001 ∧
      pending.riseAt + Config.tReset ≤ (kept pending).clk.now) ∧
    (told false (kept latch) = false ∧ latch.latch = true ∧ latch.state = .disabled ∧
      latch.riseAt + Config.tReset ≤ (kept latch).clk.now) ∧
    ¬(kept latch).clk.now - 1 + Config.tReset ≤ (kept latch).clk.now :=
  ⟨⟨ready_frameReady, params_controlsApart⟩, by decide⟩

theorem witness_SoftRateSelect :
    let c := { params with softRs0Field := { params.softRs0Field with addr := 119#8 }
                           softRs1Field := { params.softRs0Field with addr := 119#8, mask := 0x10#8 } }
    (frameReady ready ∧ controlsApart ready.cfg) ∧ frameReady { ready with cfg := c } ∧ controlsApart c ∧
    memKey c.softRs0Field.space c.softRs0Field.addr = memKey c.softRs1Field.space c.softRs1Field.addr ∧
    memKey c.softRs0Field.space c.softRs0Field.addr ≠ memKey c.softTxField.space c.softTxField.addr ∧
    memKey c.softRs0Field.space c.softRs0Field.addr ≠ memKey c.powerField.space c.powerField.addr := by
  refine ⟨⟨ready_frameReady, params_controlsApart⟩, ⟨⟨rfl, rfl, rfl, rfl, rfl, rfl⟩, rfl, by decide⟩, ?_, rfl, by decide, by decide⟩
  unfold controlsApart
  decide

/-- The clauses on a rate that changes: an unused and a used input. -/
theorem witness_SoftRateSelect_rates :
    rsCombined params.rsCombine .low .high ≠ rsCombined params.rsCombine .low .low ∧ params.rs0Used = true ∧
    params.rs1Used = true ∧ params.asMode = false ∧
    memKey params.softRs0Field.space params.softRs0Field.addr ≠ memKey params.softRs1Field.space params.softRs1Field.addr ∧
    ({ params with rs0Used := false, rs1Used := false } : Params).rs1Used = false := by decide

/-- A Level II module and a Level I module. -/
theorem witness_PowerLevelEnable :
    PowerLevel.two ≠ .one ∧ frameReady ready ∧ controlsApart ready.cfg ∧ ready.cfg.powerLevel ≠ .one ∧
    frameReady { ready with cfg := { params with powerLevel := .one } } ∧
    controlsApart { params with powerLevel := .one } :=
  ⟨by decide, ready_frameReady, params_controlsApart, by decide, ⟨⟨rfl, rfl, rfl, rfl, rfl, rfl⟩, rfl, by decide⟩,
    params_controlsApart⟩

/-- Level I; Level II; Level II with a disable running. -/
theorem witness_PowerLevelDisable :
    let s : State := { ready with lvl := { ready.lvl with level := .two, next := .two } }
    let u : State := { ready with lvl := { ready.lvl with level := .two, next := .one, due := some 10000001 } }
    frameReady ready ∧ controlsApart ready.cfg ∧ ready.lvl.level = .one ∧ (frameReady s ∧ s.lvl.level ≠ .one ∧
      s.lvl.next ≠ .one) ∧ frameReady u ∧ u.lvl.level ≠ .one ∧ u.lvl.next = .one ∧ u.lvl.due ≠ none :=
  ⟨ready_frameReady, params_controlsApart, rfl, ⟨⟨⟨rfl, rfl, rfl, rfl, rfl, rfl⟩, rfl, by decide⟩, by decide, by decide⟩,
    ⟨⟨rfl, rfl, rfl, rfl, rfl, rfl⟩, rfl, by decide⟩, by decide, rfl, by decide⟩

theorem witness_LevelReached :
    let s : State := { ready with lvl := { ready.lvl with level := .two, next := .one, due := some 10000000 } }
    s.slot.powered = true ∧ s.lvl.due = some 10000000 ∧ 10000000 ≤ s.clk.now := by decide

/-- RS0 and RS1 used and changing; not used; used and not changing. -/
theorem witness_RateSelectContacts :
    (ready.cfg.rs0Used = true ∧ ready.cfg.asMode = false ∧ ready.slot.powered = true ∧
      rxWanted { ready with host := { ready.host with rs0 := .high } } ≠ rxWanted ready) ∧
    (ready.cfg.rs1Used = true ∧ txWanted { ready with host := { ready.host with rs1 := .high } } ≠ txWanted ready) ∧
    ({ params with rs0Used := false, rs1Used := false } : Params).rs0Used = false ∧
    rxWanted { ready with host := { ready.host with rs0 := .low } } = rxWanted ready := by decide

theorem witness_RateReached :
    let s : State := { ready with rate := { ready.rate with due0 := some 10000000, due1 := some 10000000 } }
    s.wr.busy = false ∧ 10000000 ≤ s.clk.now ∧ s.rate.due0 = some 10000000 ∧ s.rate.due1 = some 10000000 := by decide

theorem witness_LossOfSignal :
    let s : State := { ready with rcv := { ready.rcv with due := some 10000000 } }
    (ready.slot.powered = true ∧ ready.out.signal ≠ false) ∧ s.rcv.due = some 10000000 ∧ 10000000 ≤ s.clk.now ∧
    s.slot.mated = .all ∧ s.slot.powered = true ∧ s.cfg.rxLosImpl = true ∧ s.cfg.passiveCable = false ∧
    ({ s with out := { s.out with signal := false } } : State).out.signal = false ∧ s.rcv.los = false := by decide

theorem witness_StatusWires :
    empty.slot.mated ≠ .all ∧ empty.cfg.modAbsPullUp = true ∧ latched.slot.mated = .all ∧ latched.cfg.txFaultImpl = true ∧
    latched.slot.powered = true ∧ latched.tx.latch = true ∧
    (dark.slot.mated = .all ∧ dark.slot.powered = false ∧ dark.cfg.txFaultImpl = true ∧ dark.cfg.rxLosImpl = true ∧
      dark.cfg.passiveCable = false) ∧ ready.tx.latch = false ∧ ready.tx.state = .operating ∧
    ({ params with txFaultImpl := false, rxLosImpl := false } : Params).txFaultImpl = false := by decide

/-- The second rail at 100 ms exactly, and 100 ns later, and later still with no module; without power, Tx_Disable high and
low, VccT there before; with power. -/
theorem witness_PowerOn :
    let skewed : State := { dark with host := { dark.host with vccT := true, railAt := some (10000000 - Config.tRailSkew - 1) } }
    let just : State := { dark with host := { dark.host with vccT := true, railAt := some (10000000 - Config.tRailSkew) } }
    let low : State := { dark with
      host := { dark.host with txDisable := .low, vccT := true }, slot := { dark.slot with vccTAt := some 9500000 } }
    (powerMated skewed.slot.mated = true ∧ powerMated empty.slot.mated = false) ∧
    (∃ t0, skewed.host.railAt = some t0 ∧ t0 + Config.tRailSkew < skewed.clk.now) ∧
    (∀ t0, just.host.railAt = some t0 → just.clk.now ≤ t0 + Config.tRailSkew) ∧
    (just.slot.powered = false ∧ powerMated just.slot.mated = true ∧ just.cfg.passiveCable = false ∧
      txDisableIn just = .high) ∧
    (low.slot.powered = false ∧ powerMated low.slot.mated = true ∧ txDisableIn low = .low ∧ low.cfg.softTxInit = false) ∧
    (low.host.vccT = true ∧ low.slot.vccTAt = some 9500000) ∧
    ready.slot.powered = powerMated ready.slot.mated := by
  refine ⟨by decide, ⟨_, rfl, by decide⟩, ?_, by decide, by decide, by decide, by decide⟩
  intro t0 h
  cases h
  decide

theorem witness_PowerOff :
    dark.slot.powered = false ∧ ready.slot.powered = true ∧ ready.wr.busy = false ∧ isWritable busy.cfg .a2 0x90#8 = false := by
  decide

/-- The slot empty, the power contacts mated with power and with one rail, everything mated; the rails off and on; Tx_Disable
high and low; rates that change with the mating and that do not. -/
theorem witness_Insert :
    let half : State := { ready with slot := { ready.slot with mated := .power } }
    let lone : State := { half with
      host := { half.host with vccT := false, railAt := some 9999999 }, slot := { half.slot with powered := false } }
    let all (s : State) : State := { s with slot := { s.slot with mated := .all } }
    let fast : State := { half with host := { half.host with rs0 := .high, rs1 := .high, txDisable := .high } }
    let unlit : State := { empty with host := { empty.host with vccT := false } }
    let told : State := { empty with host := { empty.host with txDisable := .high } }
    ready.slot.mated = .all ∧
    (half.slot.mated = .power ∧ half.slot.powered = true ∧ half.host.vccT = true ∧ half.host.vccR = true) ∧
    (empty.slot.mated ≠ .all ∧ empty.slot.powered = false ∧ (empty.host.vccT && empty.host.vccR) = true ∧
      empty.host.txDisable = .low ∧ empty.cfg.softTxInit = false) ∧
    (txOff (all half) = false ∧ half.cfg.passiveCable = false ∧ txOff (all fast) = true) ∧
    (rxWanted (all fast) ≠ rxWanted fast ∧ txWanted (all fast) ≠ txWanted fast ∧ rxWanted (all half) = rxWanted half ∧
      txWanted (all half) = txWanted half ∧ fast.cfg.rs0Used = true ∧ fast.cfg.rs1Used = true ∧ fast.cfg.asMode = false) ∧
    (lone.host.vccT ≠ lone.host.vccR ∧ lone.slot.mated = .power ∧ lone.slot.powered = false) ∧
    (unlit.host.vccT && unlit.host.vccR) = false ∧ (unlit.host.vccT ≠ unlit.host.vccR ∧ unlit.slot.mated ≠ .power) ∧
    empty.host.vccT = empty.host.vccR ∧ told.host.txDisable = .high ∧ told.cfg.passiveCable = false := by decide

theorem witness_Remove :
    (empty.slot.mated = .absent ∧ empty.slot.powered = false) ∧ ready.slot.powered = true ∧ ready.wr.busy = false ∧
    ready.cfg.modAbsPullUp = true := by decide

/-- The time of readiness come, and not yet. -/
theorem witness_TwoWireReady :
    let s : State := { ready with slot := { ready.slot with ready := false, readyDue := 10000000 } }
    let u : State := { ready with slot := { ready.slot with ready := false, readyDue := 10000001 } }
    (s.slot.powered = true ∧ s.slot.ready = false ∧ s.slot.readyDue ≤ s.clk.now) ∧
    u.slot.powered = true ∧ u.slot.ready = false ∧ u.clk.now < u.slot.readyDue := by decide

/-- A module that may leave a word unanswered, after START. -/
theorem witness_MayNackBusy :
    let s : State := { started with cfg := { params with mayNackBusy := true } }
    listening s = true ∧ s.out.sdaHeld = false ∧ s.bus.stretching = false ∧ s.out.sclHeld = false ∧
    s.host.honours = true ∧ s.cfg.mayNackBusy = true ∧ s.bus.state = .gotStart ∧
    s.bus.phase = .recv ∧ s.bus.nbits = 0 ∧ s.bus.sda = .high := by
  decide

theorem witness_LimitsExact : 0 < 1 ∧ 0 < 5500 := by decide

end Sys2Proof.Tests
end

section
/-! What every step keeps, said once (10_state.md R20, R32, R33, R42). An invariant of the machine looks at a few pieces of
the state only. `Kept P` names the operations that change one of those pieces; `Kept.step` walks through everything a step
can do and shows that where these operations keep `P`, every step does. -/

namespace Sys2Proof.Machine

/-! ### What the invariants look at -/

/-- Parameters, memory, transmitter, power level and power: what the invariants look at beside the bus engine. -/
structure Body where
  cfg : Params
  mem : List Host.Cell
  state : TxState
  latch : Bool
  outputOn : Bool
  due : Option Nat
  level : PowerLevel
  next : PowerLevel
  powered : Bool
  ready : Bool

/-- What the invariants look at in the bus engine. -/
structure Engine where
  phase : Phase
  nbits : Nat
  sda : Level
  wbuf : List (Byte × Byte)

/-- The body of a state. -/
def bodyOf (s : State) : Body :=
  { cfg := s.cfg, mem := s.mem, state := s.tx.state, latch := s.tx.latch, outputOn := s.tx.outputOn, due := s.tx.due
    level := s.lvl.level, next := s.lvl.next, powered := s.slot.powered, ready := s.slot.ready }

/-- The engine of a state. -/
def engineOf (s : State) : Engine :=
  { phase := s.bus.phase, nbits := s.bus.nbits, sda := s.bus.sda, wbuf := s.bus.wbuf }

/-- The states that differ in the bus engine, as far as an invariant can see, at most. -/
structure Alike (s t : State) : Prop where
  body : bodyOf t = bodyOf s
  supply : supplied t = supplied s

/-- The states no invariant can tell apart. -/
structure Same (s t : State) : Prop extends Alike s t where
  engine : engineOf t = engineOf s

theorem Alike.trans {s t u : State} (a : Alike s t) (b : Alike t u) : Alike s u :=
  ⟨b.body.trans a.body, b.supply.trans a.supply⟩

/-- What keeps all that is not the bus keeps what an invariant looks at there. -/
theorem Keeps.alike {s t : State} (k : Keeps s t) : Alike s t :=
  ⟨by simp only [bodyOf, k.cfg, k.mem, k.tx, k.lvl, k.slot], by simp only [supplied, k.host, k.slot]⟩

theorem abortWrite_alike (s : State) : Alike s (abortWrite s) := by
  unfold abortWrite
  split <;> exact ⟨rfl, rfl⟩

theorem RateOnly.same {s t : State} (h : RateOnly s t) : Same s t := by
  obtain ⟨x, n, rfl⟩ := h
  exact ⟨⟨rfl, rfl⟩, rfl⟩

/-- The operations that move what an invariant looks at, and that they keep `P`. Time, free values, records and the
environment's inputs are none of them: no invariant sees those. -/
structure Kept (P : State → Prop) : Prop where
  /-- what no invariant can see -/
  same {s t : State} : Same s t → P s → P t
  /-- START, whatever the engine was doing -/
  start {s t : State} : Alike s t → P s → P (gotStart t)
  /-- one SCL pulse -/
  edges (x : Level) {s : State} : P s → P (sclFall (sclRise x s))
  /-- STOP, as a module that listens sees it -/
  stop {s : State} : listening s = true → P s → P (seeStop s)
  /-- the interface becomes ready -/
  ready {s : State} : P s → P (settleReady s)
  /-- the write cycle ends -/
  commit {s : State} : P s → P (commitWrite s)
  /-- the other timers -/
  timers {s : State} : P s → P (lateTimers s)
  /-- rails or mating have changed, and power follows -/
  supply {s t : State} : bodyOf t = bodyOf s → engineOf t = engineOf s → P s → P (followSupply t)
  /-- the transmitter is told to be on or off -/
  switch (b : Bool) {s : State} : P s → P (reTx b s)

/-- Every next state an outcome answers has `P`. -/
def Answers (P : State → Prop) (o : Host.Outcome State Fault Refusal) : Prop := ∀ t, o = .next t → P t

variable {P : State → Prop}

theorem Answers.next {s : State} (h : P s) : Answers P (.next s) := by rintro _ ⟨⟩; exact h

theorem Answers.refused (r : Refusal) : Answers P (.refused r) := by intro t h; cases h

theorem Answers.andThen {o : Host.Outcome State Fault Refusal} {f : State → Host.Outcome State Fault Refusal}
    (ho : Answers P o) (hf : ∀ t, P t → Answers P (f t)) : Answers P (andThen o f) := by
  intro t h
  obtain ⟨s, hs, ht⟩ := andThen_eq_next h
  exact hf s (ho s hs) t ht

namespace Kept

/-- A state no invariant can tell from one that has `P`. -/
theorem still (k : Kept P) {s t : State} (h : P s) (b : bodyOf t = bodyOf s := by rfl)
    (v : supplied t = supplied s := by rfl) (e : engineOf t = engineOf s := by rfl) : P t :=
  k.same ⟨⟨b, v⟩, e⟩ h

/-! ### Time -/

theorem settleInterface (k : Kept P) {s : State} (h : P s) : P (settleInterface s) := by
  unfold Machine.settleInterface settleWrite
  split
  · exact k.commit (k.ready h)
  · exact k.ready h

theorem settle (k : Kept P) {s : State} (h : P s) : P (settle s) := k.timers (k.settleInterface h)

theorem waitUntil (k : Kept P) {s : State} (h : P s) (t : Nat) : P (waitUntil t s) := k.settle (k.still h)

theorem busTime (k : Kept P) {s : State} (h : P s) (m n : Nat) : P (busTime m n s) := k.still h

theorem awaitFree (k : Kept P) {s : State} (h : P s) : P (awaitFree s) := by
  unfold Machine.awaitFree
  split
  · exact k.settleInterface (k.still h)
  · exact h

theorem awaitWrite (k : Kept P) {s : State} (h : P s) : P (awaitWrite s) := by
  unfold Machine.awaitWrite
  split
  · exact k.waitUntil h _
  · exact h

/-! ### Pulses and words -/

theorem pulse (k : Kept P) {s : State} (h : P s) (x : Level) : P (pulse x s) := by
  unfold Machine.pulse
  dsimp only
  split
  · split
    · exact k.edges _ h
    · split
      · exact k.still h
      · exact k.edges _ (k.still h)
  · exact h

theorem sendBits (k : Kept P) {s : State} (h : P s) (w : Byte) (n : Nat) : P (sendBits w n s) := by
  induction n generalizing s with
  | zero => exact h
  | succ n ih => exact ih (k.pulse h _)

theorem hearAck (k : Kept P) {s : State} (h : P s) : P (hearAck s) := by
  unfold Machine.hearAck
  dsimp only
  split <;> exact k.still (k.pulse h .high)

theorem sendWord (k : Kept P) {s : State} (h : P s) (w : Byte) : P (sendWord w s) :=
  k.hearAck (k.sendBits (k.busTime h _ 9) w 8)

theorem readBits (k : Kept P) {s : State} (h : P s) (n : Nat) (v : Byte) : P (readBits n v s).2 := by
  induction n generalizing s v with
  | zero => exact h
  | succ n ih => exact ih (k.pulse h .high) _

theorem readWord (k : Kept P) {s : State} (h : P s) (ack : Bool) : P (readWord ack s) := by
  have hc : P (clockTime 9 s) := k.busTime h _ 9
  have hr := k.readBits hc 8 0
  unfold Machine.readWord
  generalize Machine.readBits 8 0 (clockTime 9 s) = r at hr ⊢
  have hp := k.pulse hr (if ack then .low else .high)
  dsimp only
  generalize Machine.pulse (if ack then .low else .high) r.2 = t at hp ⊢
  exact k.still hp

theorem readWords (k : Kept P) {s : State} (h : P s) (n : Nat) : P (readWords n s) := by
  fun_induction Machine.readWords n s with
  | case1 s => exact h
  | case2 s => exact k.readWord h _
  | case3 s n ih => exact ih (k.readWord h _)

theorem sendThen (k : Kept P) {f : State → State} (hf : ∀ t, P t → P (f t)) (w : Byte) {s : State} (h : P s) :
    P (sendThen w f s) := by
  unfold Machine.sendThen
  dsimp only
  split
  · exact hf _ (k.sendWord h w)
  · exact k.sendWord h w

theorem sendAll (k : Kept P) (l : List Byte) : ∀ s, P s → P (sendAll l s) := by
  induction l with
  | nil => exact fun _ h => h
  | cons d l ih => exact fun _ h => k.sendThen ih d h

/-! ### START, STOP and frames -/

theorem seeStart (k : Kept P) {s : State} (h : P s) : P (seeStart s) := k.start (abortWrite_alike s) h

theorem hostStart (k : Kept P) {s : State} (h : P s) : P (hostStart s) := by
  unfold Machine.hostStart
  dsimp only
  split
  · exact k.still h
  · split
    · exact k.still (k.seeStart (s := openFrame (advance _ (lowPeriod s))) (k.still h))
    · exact k.still h

theorem hostStop (k : Kept P) {s : State} (h : P s) : P (hostStop s) := by
  unfold Machine.hostStop
  dsimp only
  split
  · exact k.still h
  · split
    · rename_i g
      exact k.still (k.stop (Bool.and_eq_true_iff.1 g).1 (k.still h))
    · exact k.still h

theorem startThen (k : Kept P) {f : State → State} (hf : ∀ t, P t → P (f t)) {s : State} (h : P s) :
    P (startThen f s) := by
  unfold Machine.startThen
  dsimp only
  split
  · exact k.still (k.awaitFree h)
  · exact hf _ (k.hostStart (k.awaitFree h))

theorem frame (k : Kept P) {f : State → State} (hf : ∀ t, P t → P (f t)) {s : State} (h : P s) : P (frame f s) :=
  k.startThen (fun t ht => k.hostStop (hf t ht)) h

theorem readBody (k : Kept P) (sp : Space) (n : Nat) (s : State) (h : P s) : P (readBody sp n s) :=
  k.sendThen (fun _ ht => k.readWords ht n) _ h

theorem randomBody (k : Kept P) (sp : Space) (a : Byte) (n : Nat) (s : State) (h : P s) : P (randomBody sp a n s) :=
  k.sendThen (fun _ ht => k.sendThen (fun _ hu => k.startThen (k.readBody sp n) hu) a ht) _ h

theorem writeBody (k : Kept P) (sp : Space) (a : Byte) (ds : List Byte) (s : State) (h : P s) :
    P (writeBody sp a ds s) :=
  k.sendThen (fun _ ht => k.sendThen (k.sendAll ds) a ht) _ h

theorem pollWord (k : Kept P) (sp : Space) (r : Dir) {s : State} (h : P s) : P (pollWord sp r s) := by
  have hw := k.sendWord h (devWord sp r)
  unfold Machine.pollWord
  generalize Machine.sendWord (devWord sp r) s = t at hw ⊢
  dsimp only
  split
  · cases r
    case write => exact hw
    case read => exact k.readWord hw false
  · exact k.still hw

theorem pollEnd (k : Kept P) (e : PollEnd) {s : State} (h : P s) : P (pollEnd e s) := by
  cases e
  case stop => exact k.hostStop h
  case repeatedStart => exact k.startThen (fun _ ht => ht) h

/-! ### Writes of a control -/

theorem rewriteByte (k : Kept P) (sp : Space) (a : Byte) (f : Byte → Byte) {s : State} (h : P s) :
    P (rewriteByte sp a f s) := by
  refine k.startThen (fun t ht => ?_) h
  have hu := k.hostStop (k.randomBody sp a 1 t ht)
  dsimp only
  split
  · exact k.frame (k.writeBody sp a _) hu
  · exact hu

theorem writeLevel (k : Kept P) (l : PowerLevel) (s : State) (h : P s) : P (writeLevel l s) := k.rewriteByte _ _ _ h

theorem writeSoftTx (k : Kept P) (v : Bool) (s : State) (h : P s) : P (writeSoftTx v s) := k.rewriteByte _ _ _ h

theorem writeSoftRate (k : Kept P) (x y : Bool) (s : State) (h : P s) : P (writeSoftRate x y s) := by
  unfold Machine.writeSoftRate
  dsimp only
  split
  · exact k.rewriteByte _ _ _ h
  · exact k.rewriteByte _ _ _ (k.awaitWrite (k.rewriteByte _ _ _ h))

/-! ### Operations that need SCL -/

theorem clocked (k : Kept P) {f : State → State} (hf : ∀ t, P t → P (f t)) {s : State} (h : P s) :
    Answers P (clocked f s) := by
  intro t e
  rcases clocked_next e with ⟨-, rfl⟩ | ⟨-, rfl⟩
  · exact k.still h
  · exact hf s h

theorem wordSlot (k : Kept P) {f : State → State} (hf : ∀ t, P t → P (f t)) {s : State} (h : P s) :
    Answers P (wordSlot f s) := by
  unfold Machine.wordSlot
  split
  · exact .next (k.still h)
  · split
    · exact .refused _
    · exact .next (hf s h)

theorem notePulse (k : Kept P) (x : Level) (s : State) {t : State} (h : P t) : P (notePulse x s t) := by
  unfold Machine.notePulse
  split
  · exact k.still h
  · exact h

theorem onePulse (k : Kept P) (x : Level) {s : State} (h : P s) : Answers P (onePulse x s) := by
  unfold Machine.onePulse
  split
  · exact .next (k.still h)
  · split
    · exact .refused _
    · exact .next (k.notePulse _ _ (k.pulse (k.busTime h _ 1) x))

/-! ### The management reset -/

theorem resetStart (k : Kept P) {s t : State} (a : Alike s t) (h : P s) : P (resetStart t) := by
  unfold Machine.resetStart
  split
  · exact k.start (a.trans ⟨rfl, rfl⟩) h
  · exact k.start a h

/-- The START that ends a management reset, heard by the module or with the engine as it was: a bit clocked in just before it
does not matter where the module hears the START. -/
theorem makeStart (k : Kept P) {s t : State} (a : Alike s t) (e : listening t = true ∨ engineOf t = engineOf s) (h : P s) :
    P (makeStart t) := by
  unfold Machine.makeStart
  dsimp only
  split
  · exact k.resetStart (a.trans ⟨rfl, rfl⟩) h
  · rename_i n
    have still := e.resolve_left n
    exact k.still h a.body a.supply still

theorem resetPulses (k : Kept P) (n : Nat) {s : State} (h : P s) : P (resetPulses n s) := by
  induction n generalizing s with
  | zero =>
    rw [Machine.resetPulses]
    split
    · exact k.makeStart ⟨rfl, rfl⟩ (.inr rfl) (k.settleInterface (k.busTime h _ 0))
    · exact k.still h
  | succ n ih =>
    have ht : P (Machine.settleInterface (pulseTime s)) := k.settleInterface (k.busTime h _ 1)
    rw [Machine.resetPulses]
    generalize Machine.settleInterface (pulseTime s) = t at ht ⊢
    cases g : listening t && !pulseLost t
    case false =>
      simp only [Bool.false_eq_true, if_false]
      split
      · exact k.makeStart ⟨rfl, rfl⟩ (.inr rfl) ht
      · exact ih (k.notePulse _ _ ht)
    case true =>
      simp only [if_true]
      split
      · have q := sclRise_keeps (sdaLine .high t) t
        have hl : listening t = true := (Bool.and_eq_true_iff.1 g).1
        exact k.makeStart q.alike (.inl (by simpa only [listening, q.slot, q.wr] using hl)) ht
      · exact ih (k.notePulse _ _ (k.edges _ ht))

theorem execMgmtReset (k : Kept P) {s : State} (h : P s) : Answers P (execMgmtReset s) := by
  unfold Machine.execMgmtReset
  split
  · exact .refused _
  · exact k.clocked (fun _ ht => k.resetPulses 9 (k.awaitFree ht)) h

/-! ### Contacts and supply -/

theorem driveTxDisable (k : Kept P) (x : Level) {s : State} (h : P s) : P (driveTxDisable x s) :=
  k.switch _ (k.still h)

theorem driveRs0 (k : Kept P) (x : Level) {s : State} (h : P s) : P (driveRs0 x s) :=
  k.same (reRx_rateOnly _ _).same (k.still h)

theorem driveRs1 (k : Kept P) (x : Level) {s : State} (h : P s) : P (driveRs1 x s) :=
  k.same (reTxRate_rateOnly _ _).same (k.still h)

theorem drivePin (k : Kept P) (p : HostPin) (x : Level) {s : State} (h : P s) : P (drivePin p x s) := by
  cases p
  case txDisable => exact k.driveTxDisable x h
  case rs0 => exact k.driveRs0 x h
  case rs1 => exact k.driveRs1 x h

theorem feed (k : Kept P) {s t : State} (h : P s) (a b : Bool) (hb : bodyOf t = bodyOf s := by rfl)
    (he : engineOf t = engineOf s := by rfl) : P (feed a b t) := by
  obtain ⟨n, e⟩ := noteVccT_eq a t
  unfold Machine.feed
  rw [e]
  exact k.supply hb he h

theorem driveRails (k : Kept P) (vccT vccR : Bool) {s : State} (h : P s) : Answers P (driveRails vccT vccR s) := by
  unfold Machine.driveRails
  split
  · exact .refused _
  · exact .next (k.feed h _ _)

theorem mateStage (k : Kept P) (m : Mated) {s : State} (h : P s) : P (mateStage m s) := by
  rw [mateStage_eq]
  have hf : P (followSupply (mateTo m s)) := k.feed h _ _
  generalize followSupply (mateTo m s) = t at hf ⊢
  have hu : P (if s.slot.mated = .all ∧ m ≠ .all then raise .modAbsent t else t) := by
    split
    · exact k.still hf
    · exact hf
  generalize (if s.slot.mated = .all ∧ m ≠ .all then raise .modAbsent t else t) = u at hu ⊢
  split
  · exact k.same (reTxRate_rateOnly _ _).same (k.same (reRx_rateOnly _ _).same (k.switch _ hu))
  · exact hu

theorem execInsert (k : Kept P) {s : State} (h : P s) : Answers P (execInsert s) := by
  refine .next ?_
  cases s.slot.mated
  case absent => exact k.mateStage _ (k.mateStage _ (k.mateStage _ (k.mateStage _ h)))
  case caseOnly => exact k.mateStage _ (k.mateStage _ (k.mateStage _ h))
  case grounds => exact k.mateStage _ (k.mateStage _ h)
  case power => exact k.mateStage _ h
  case all => exact h

/-! ### Operations, symbols and events -/

theorem execTxFaultReset (k : Kept P) (v : Via) {s : State} (h : P s) : Answers P (execTxFaultReset v s) := by
  cases v
  case contact => exact .next (k.driveTxDisable _ (k.waitUntil (k.driveTxDisable _ h) _))
  case software => exact k.clocked (fun t ht => k.writeSoftTx _ _ (k.awaitWrite (k.writeSoftTx _ t ht))) h

theorem execSeqWrite (k : Kept P) (sp : Space) (a : Byte) (ds : List Byte) {s : State} (h : P s) :
    Answers P (execSeqWrite sp a ds s) := by
  unfold Machine.execSeqWrite
  split
  · exact .refused _
  · exact k.clocked (fun _ => k.frame (k.writeBody sp a ds)) h

/-- Every operation of the table. -/
theorem exec (k : Kept P) (i : Instr) {s : State} (h : P s) : Answers P (exec i s) := by
  cases i with
  | deviceAddressWord sp r => exact k.wordSlot (fun _ ht => k.sendWord ht _) h
  | dataWordAddress a => exact k.wordSlot (fun _ ht => k.sendWord ht _) h
  | dataWord d => exact k.wordSlot (fun _ ht => k.sendWord ht _) h
  | currentRead sp => exact k.clocked (fun _ => k.frame (k.readBody sp 1)) h
  | randomRead sp a => exact k.clocked (fun _ => k.frame (k.randomBody sp a 1)) h
  | seqReadCurrent sp n => exact k.clocked (fun _ => k.frame (k.readBody sp n)) h
  | seqReadRandom sp a n => exact k.clocked (fun _ => k.frame (k.randomBody sp a n)) h
  | byteWrite sp a d => exact k.clocked (fun _ => k.frame (k.writeBody sp a [d])) h
  | seqWrite sp a ds => exact k.execSeqWrite sp a ds h
  | ackPoll sp r =>
    exact k.clocked (fun _ => k.startThen fun _ ht => k.pollEnd r.fin (k.pollWord sp r.dir ht)) h
  | mgmtReset => exact k.execMgmtReset h
  | txDisableAssert => exact .next (k.driveTxDisable _ h)
  | txDisableNegate => exact .next (k.driveTxDisable _ h)
  | txFaultReset v => exact k.execTxFaultReset v h
  | rs0Set v => exact .next (k.driveRs0 v h)
  | rs1Set v => exact .next (k.driveRs1 v h)
  | powerOn => exact k.driveRails true true h
  | powerOff => exact k.driveRails false false h
  | insert => exact k.execInsert h
  | remove => exact .next (k.mateStage .absent h)
  | powerLevelEnable l => exact k.clocked (k.writeLevel l) h
  | powerLevelDisable => exact k.clocked (k.writeLevel .one) h
  | softTxDisable v => exact k.clocked (k.writeSoftTx v) h
  | softRateSelect x y => exact k.clocked (k.writeSoftRate x.toBool y.toBool) h

theorem runControl (k : Kept P) (c : Control) {s : State} (h : P s) : Answers P (runControl c s) := by
  cases c with
  | power l => exact k.clocked (k.writeLevel l) h
  | softTx v => exact k.clocked (k.writeSoftTx v) h
  | softRate x y => exact k.clocked (k.writeSoftRate x.toBool y.toBool) h

/-- Every symbol played on its own. -/
theorem runSym (k : Kept P) (y : Sym) {s : State} (h : P s) : Answers P (runSym y s) := by
  cases y with
  | start => exact k.clocked (fun _ => k.hostStart) h
  | stop => exact k.clocked (fun _ => k.hostStop) h
  | dev w => exact k.wordSlot (fun _ ht => k.sendWord ht w) h
  | addr a => exact k.wordSlot (fun _ ht => k.sendWord ht a) h
  | data d => exact k.wordSlot (fun _ ht => k.sendWord ht d) h
  | read ack => exact k.wordSlot (fun _ ht => k.readWord ht ack) h
  | pulse x => exact k.onePulse x h
  | mgmt => exact k.execMgmtReset h
  | contact p x => exact .next (k.drivePin p x h)
  | openPin p => exact .next (k.drivePin p _ h)
  | rails vccT vccR => exact k.driveRails vccT vccR h
  | mate m => exact .next (k.mateStage m h)
  | control c => exact k.runControl c h
  | wait t => exact .next (k.waitUntil h _)
  | sample => exact .next (k.still h)
  | clock p =>
    unfold Machine.runSym
    dsimp only
    split
    · exact .refused _
    · exact .next (k.still h)
  | txData b => exact .next (k.still h)
  | honour b => exact .next (k.still h)

theorem track (k : Kept P) (l : List Sym) {s : State} (h : P s) : P (track l s) := k.still h

theorem runSyms (k : Kept P) (l : List Sym) {s : State} (h : P s) : Answers P (runSyms l s) := by
  induction l generalizing s with
  | nil => exact .next h
  | cons y l ih => exact (k.runSym y h).andThen fun _ ht => ih (k.settle (k.track [y] ht))

theorem runLine (k : Kept P) (l : List Sym) {s : State} (h : P s) : Answers P (runLine l s) := by
  unfold Machine.runLine
  split
  · exact (k.exec _ h).andThen fun _ ht => .next (k.track l ht)
  · exact k.runSyms l h

theorem signalEvent (k : Kept P) (b : Bool) {s : State} (h : P s) : P (signalEvent b s) := by
  unfold Machine.signalEvent
  dsimp only
  split <;> exact k.still h

theorem faultEvent (k : Kept P) (b : Bool) {s : State} (h : P s) : P (faultEvent b s) := by
  unfold Machine.faultEvent
  dsimp only
  split
  · split <;> exact k.still h
  · exact k.still h

theorem sdaMoves (k : Kept P) (x : Level) {s : State} (h : P s) : P (sdaMoves x s) := by
  unfold Machine.sdaMoves
  split
  · rename_i g
    split
    · exact k.seeStart h
    · exact k.stop (Bool.and_eq_true_iff.1 g).1 h
    · exact h
    · exact h
  · exact h

theorem holdSclEvent (k : Kept P) (b : Bool) {s : State} (h : P s) : P (holdSclEvent b s) := by
  unfold Machine.holdSclEvent
  split
  · split
    · exact k.still h
    · exact h
  · split <;> exact k.still h

theorem runEvent (k : Kept P) (e : EnvEvent) {s : State} (h : P s) : P (runEvent e s) := by
  cases e with
  | signal b => exact k.signalEvent b h
  | fault b => exact k.faultEvent b h
  | rxData b => exact k.still h
  | holdSda b => exact k.sdaMoves _ (k.still h)
  | holdScl b => exact k.holdSclEvent b h
  | blockScl b => exact k.still h

theorem runEntry (k : Kept P) (e : Entry) {s : State} (h : P s) : Answers P (runEntry e s) := by
  cases e with
  | host l => exact k.runLine l h
  | env e => exact .next (k.runEvent e h)

/-- Every step keeps `P`. -/
theorem step (k : Kept P) {s t : State} (h : P s) (e : step s = .next t) : P t := by
  revert t
  show Answers P (Machine.step s)
  unfold Machine.step
  split
  · exact .next (k.settle (k.still h))
  · exact (k.runEntry _ (k.still h)).andThen fun _ ht => .next (k.settle ht)

end Kept

end Sys2Proof.Machine
end

section
/-! The shape of the bus engine, which every step keeps (10_state.md R22, R42). -/

namespace Sys2Proof.Machine

theorem EngineShape.congr {s t : State} (h : EngineShape s) (e : engineOf t = engineOf s) : EngineShape t := by
  have phase : t.bus.phase = s.bus.phase := congrArg Engine.phase e
  have nbits : t.bus.nbits = s.bus.nbits := congrArg Engine.nbits e
  have sda : t.bus.sda = s.bus.sda := congrArg Engine.sda e
  simpa only [EngineShape, phase, nbits, sda] using h

/-- An engine that is off and leaves SDA high. -/
theorem engineShape_off {s : State} (hp : s.bus.phase = .off) (hd : s.bus.sda = .high) : EngineShape s := by
  simp [EngineShape, hp, hd]

/-- An engine that takes bits in, with SDA high and fewer than eight of them. -/
theorem engineShape_recv {s : State} (hp : s.bus.phase = .recv) (hd : s.bus.sda = .high) (hn : s.bus.nbits ≤ 7) :
    EngineShape s := by
  simp [EngineShape, hp, hd, hn]

/-- An engine that sends, with fewer than eight bits out. -/
theorem engineShape_send {s : State} (hp : s.bus.phase = .send) (hn : s.bus.nbits ≤ 7) : EngineShape s := by
  simp [EngineShape, hp, hn]

/-- Where the engine can stand while SCL is high: as in `EngineShape`, or with the eighth bit just clocked. -/
structure Risen (s : State) : Prop where
  off : s.bus.phase = .off → s.bus.sda = .high
  recv : s.bus.phase = .recv → s.bus.sda = .high ∧ s.bus.nbits ≤ 8
  send : s.bus.phase = .send → s.bus.nbits ≤ 8

/-- A word taken moves the engine to no other place in its slot. -/
theorem takeWord_slot (s : State) :
    (takeWord s).bus.phase = s.bus.phase ∧ (takeWord s).bus.sda = s.bus.sda ∧ (takeWord s).bus.nbits = s.bus.nbits := by
  unfold takeWord
  cases s.bus.state
  case gotStart =>
    dsimp only [takeDeviceWord]
    split
    · exact ⟨rfl, rfl, rfl⟩
    · split <;> exact ⟨rfl, rfl, rfl⟩
  case expectAddr =>
    dsimp only [takeAddress]
    split
    · exact ⟨rfl, rfl, rfl⟩
    · cases s.bus.sel <;> exact ⟨rfl, rfl, rfl⟩
  case writeData =>
    dsimp only [takeData]
    split
    · exact ⟨rfl, rfl, rfl⟩
    · split
      · exact ⟨rfl, rfl, rfl⟩
      · cases s.bus.sel <;> exact ⟨rfl, rfl, rfl⟩
  all_goals exact ⟨rfl, rfl, rfl⟩

theorem takeWord_risen {s : State} (h : Risen s) : Risen (takeWord s) := by
  obtain ⟨phase, sda, nbits⟩ := takeWord_slot s
  exact ⟨by rw [phase, sda]; exact h.off, by rw [phase, sda, nbits]; exact h.recv, by rw [phase, nbits]; exact h.send⟩

theorem risen_recv {s : State} (hp : s.bus.phase = .recv) (hd : s.bus.sda = .high) (hn : s.bus.nbits ≤ 8) : Risen s := by
  constructor <;> simp [hp, hd, hn]

theorem risen_send {s : State} (hp : s.bus.phase = .send) (hn : s.bus.nbits ≤ 8) : Risen s := by
  constructor <;> simp [hp, hn]

/-- In an acknowledge slot nothing is asked of the engine. -/
theorem risen_ack {s : State} (hp : s.bus.phase = .ackOut ∨ s.bus.phase = .ackIn) : Risen s := by
  rcases hp with hp | hp <;> constructor <;> simp [hp]

theorem stepCtr_slot (sp : Space) (b : Bus) : (stepCtr sp b).phase = b.phase ∧ (stepCtr sp b).nbits = b.nbits := by
  cases sp <;> exact ⟨rfl, rfl⟩

theorem sclRise_risen (x : Level) {s : State} (h : EngineShape s) : Risen (sclRise x s) := by
  obtain ⟨off, recv, send, -⟩ := h
  unfold sclRise
  cases hp : s.bus.phase
  case off => exact ⟨fun _ => off hp, by simp [hp], by simp [hp]⟩
  case ackOut => exact risen_ack (.inl hp)
  case ackIn => exact risen_ack (.inr hp)
  case recv =>
    obtain ⟨hd, hn⟩ := recv hp
    dsimp only
    split
    · exact takeWord_risen (risen_recv hp hd (Nat.succ_le_succ hn))
    · exact risen_recv hp hd (Nat.succ_le_succ hn)
  case send =>
    have hn := send hp
    obtain ⟨phase, nbits⟩ := stepCtr_slot s.bus.sel s.bus
    dsimp only
    split
    · exact risen_send (phase.trans hp) (Nat.succ_le_succ (nbits.trans_le hn))
    · exact risen_send hp (Nat.succ_le_succ hn)

/-- The first bit of a word stands on SDA. -/
theorem sendNext_shape (s : State) : EngineShape (sendNext s) := engineShape_send rfl (Nat.zero_le 7)

theorem sclFall_shape {s : State} (h : Risen s) : EngineShape (sclFall s) := by
  unfold sclFall
  cases hp : s.bus.phase
  case off => exact engineShape_off hp (h.off hp)
  case recv =>
    obtain ⟨hd, hn⟩ := h.recv hp
    dsimp only
    split
    · simp [EngineShape]
    · exact engineShape_recv hp hd (by omega)
  case ackOut =>
    dsimp only
    cases s.bus.state
    case addressedRead => exact sendNext_shape _
    case gotStart | expectAddr | writeData => exact engineShape_recv rfl rfl (Nat.zero_le 7)
    case idle | ignoring | idleUntilStop => exact engineShape_off rfl rfl
  case send =>
    have hn := h.send hp
    dsimp only
    split
    · simp [EngineShape]
    · exact engineShape_send hp (show s.bus.nbits ≤ 7 by omega)
  case ackIn =>
    dsimp only
    split
    · exact sendNext_shape s
    · exact engineShape_off rfl rfl

theorem followSupply_shape {s : State} (h : EngineShape s) : EngineShape (followSupply s) := by
  unfold followSupply
  split
  · exact engineShape_off rfl rfl
  · split
    · exact engineShape_off rfl rfl
    · exact h

theorem settleReady_shape {s : State} (h : EngineShape s) : EngineShape (settleReady s) := by
  unfold settleReady
  split
  · exact engineShape_off rfl rfl
  · exact h

theorem commitWrite_shape {s : State} (h : EngineShape s) : EngineShape (commitWrite s) := by
  obtain ⟨x, n, e⟩ := commitWrite_eq s
  rw [e]
  exact h

/-- Every operation that moves the engine keeps its shape. -/
theorem engineShape_kept : Kept EngineShape where
  same e h := h.congr e.engine
  start _ _ := engineShape_recv rfl rfl (Nat.zero_le 7)
  edges x _ h := sclFall_shape (sclRise_risen x h)
  stop _ _ := engineShape_off rfl rfl
  ready := settleReady_shape
  commit := commitWrite_shape
  timers h := h.congr (by rw [engineOf, (lateTimers_ticks _).bus, engineOf])
  supply _ e h := followSupply_shape (h.congr e)
  switch b s h := by
    obtain ⟨x, n, e⟩ := reTx_txOnly b s
    rw [e]
    exact h

/-- Settles O9: a pulse takes the engine through `Risen` and back, and whatever else moves it leaves it off or at the start of
a word. -/
theorem engineShapeStep : Obligations.EngineShapeStep := fun _ _ h e => engineShape_kept.step h e

/-- Settles O10: the engine is off after reset. -/
theorem resetEngineShape : Obligations.ResetEngineShape := engineShape_off rfl rfl

end Sys2Proof.Machine
end

section
/-! The invariant of 10_state.md R33 and R36, 40_low_speed_control.md R162 and 41_power_and_esd.md R239, one operation at a
time. -/

namespace Sys2Proof.Machine

/-! ### Power levels -/

theorem levelWithin_one (l : PowerLevel) : levelWithin .one l = true := rfl

theorem levelWithin_levelMin (a b : PowerLevel) : levelWithin (levelMin a b) b = true := by
  cases a <;> cases b <;> rfl

/-! ### The invariant by name -/

/-- What the invariant says of the transmitter alone. -/
structure TxSound (x : TxUnit) : Prop where
  latched : x.state = .faultLatched → x.latch = true
  armed : x.latch = true → (x.state = .faultLatched ∨ x.state = .disabled) ∧ x.due = none
  light : x.outputOn = true → x.state = .operating

/-- The invariant but for what power needs outside the module: what holds while rails or mating have changed and power has not
followed yet. -/
structure Lawful (s : State) : Prop where
  mem : Memory.wf s.cfg.init s.mem = true
  words : s.bus.wbuf.length ≤ 8
  tx : TxSound s.tx
  off : s.slot.powered = false → s.tx.state = .offUnpowered ∧ s.slot.ready = false ∧ s.lvl.level = .one
  on : s.slot.powered = true → s.tx.state ≠ .offUnpowered
  level : levelWithin s.lvl.level s.cfg.powerLevel = true
  next : levelWithin s.lvl.next s.cfg.powerLevel = true

/-- The invariant with a name for each part. -/
structure Sound (s : State) : Prop extends Lawful s where
  supply : s.slot.powered = true → supplied s = true

theorem inv_iff_sound (s : State) : Inv s ↔ Sound s := by
  constructor
  · rintro ⟨mem, words, latched, armed, light, off, on, level, next⟩
    exact ⟨⟨mem, words, ⟨latched, armed, light⟩, off, fun p => (on p).2, level, next⟩, fun p => (on p).1⟩
  · rintro ⟨⟨mem, words, ⟨latched, armed, light⟩, off, on, level, next⟩, supply⟩
    exact ⟨mem, words, latched, armed, light, off, fun p => ⟨supply p, on p⟩, level, next⟩

/-- The invariant looks at the body and the words held only. -/
theorem Lawful.congr {s t : State} (h : Lawful s) (e : bodyOf t = bodyOf s) (w : t.bus.wbuf.length ≤ 8) : Lawful t := by
  simp only [bodyOf, Body.mk.injEq] at e
  obtain ⟨cfg, mem, state, latch, output, due, level, next, powered, ready⟩ := e
  refine ⟨?_, w, ⟨?_, ?_, ?_⟩, ?_, ?_, ?_, ?_⟩
  · rw [cfg, mem]; exact h.mem
  · rw [state, latch]; exact h.tx.latched
  · rw [state, latch, due]; exact h.tx.armed
  · rw [state, output]; exact h.tx.light
  · rw [powered, state, ready, level]; exact h.off
  · rw [powered, state]; exact h.on
  · rw [cfg, level]; exact h.level
  · rw [cfg, next]; exact h.next

theorem Sound.alike {s t : State} (h : Sound s) (a : Alike s t) (w : t.bus.wbuf.length ≤ 8) : Sound t := by
  have powered : t.slot.powered = s.slot.powered := congrArg Body.powered a.body
  exact ⟨h.congr a.body w, by rw [powered, a.supply]; exact h.supply⟩

theorem Sound.same {s t : State} (h : Sound s) (a : Same s t) : Sound t :=
  have wbuf : t.bus.wbuf = s.bus.wbuf := congrArg Engine.wbuf a.engine
  h.alike a.toAlike (by rw [wbuf]; exact h.words)

/-- The invariant after a change of the transmitter that gives no state to a module without power, nor takes it from one with
power. -/
theorem Sound.setTx {s t : State} (h : Sound s) (o : Same s { t with tx := s.tx }) (q : TxSound t.tx)
    (e : t.tx.state = .offUnpowered ↔ s.tx.state = .offUnpowered) : Sound t :=
  have g := h.same o
  ⟨⟨g.mem, g.words, q, fun p => ⟨e.2 (g.off p).1, (g.off p).2⟩, fun p => mt e.1 (g.on p), g.level, g.next⟩, g.supply⟩

/-- The invariant after a change of the power level of a module with power. -/
theorem Sound.setLvl {s t : State} (h : Sound s) (p : s.slot.powered = true) (o : Same s { t with lvl := s.lvl })
    (level : levelWithin t.lvl.level t.cfg.powerLevel = true) (next : levelWithin t.lvl.next t.cfg.powerLevel = true) :
    Sound t :=
  have g := h.same o
  have on : t.slot.powered = true := (congrArg Body.powered o.body).trans p
  ⟨⟨g.mem, g.words, g.tx, fun off => absurd (on.symm.trans off) (by decide), g.on, level, next⟩, g.supply⟩

/-! ### The transmitter -/

/-- The transmitter of a module with power. -/
structure TxLive (x : TxUnit) : Prop extends TxSound x where
  live : x.state ≠ .offUnpowered

theorem Sound.txLive {s : State} (h : Sound s) (p : s.slot.powered = true) : TxLive s.tx := ⟨h.tx, h.on p⟩

theorem Sound.setTxLive {s t : State} (h : Sound s) (p : s.slot.powered = true) (o : Same s { t with tx := s.tx })
    (q : TxLive t.tx) : Sound t :=
  h.setTx o q.toTxSound ⟨fun e => absurd e q.live, fun e => absurd e (h.on p)⟩

/-- Without a latched fault only the light is left to look at. -/
theorem TxLive.unlatched {x : TxUnit} (hl : x.latch = false) (hs : x.state ≠ .faultLatched)
    (ho : x.outputOn = true → x.state = .operating) (live : x.state ≠ .offUnpowered) : TxLive x :=
  ⟨⟨fun h => absurd h hs, fun h => absurd (hl.symm.trans h) (by decide), ho⟩, live⟩

theorem enterTxFault_live (s : State) : TxLive (enterTxFault s).tx :=
  ⟨⟨fun _ => rfl, fun _ => ⟨.inl rfl, rfl⟩, nofun⟩, nofun⟩

theorem beginInit_live (s : State) : TxLive (beginInit s).tx := .unlatched rfl nofun nofun nofun

theorem txOperate_live {s : State} (h : s.tx.latch = false) : TxLive (txOperate s).tx :=
  .unlatched h nofun (fun _ => rfl) nofun

/-- A transmitter on its way on has no latch set. -/
theorem TxSound.latch_of_due {x : TxUnit} (h : TxSound x) {d : Nat} (e : x.due = some d) : x.latch = false := by
  cases hl : x.latch
  case false => rfl
  case true => exact absurd (e.symm.trans (h.armed hl).2) nofun

/-- An assertion ends whatever ran and leaves the latch, armed in `disabled`. -/
theorem txRise_live {s : State} (h : TxLive s.tx) : TxLive (txRise s).tx := by
  obtain ⟨-, stops, -⟩ := txRise_asserted s
  have disabled : (txRise s).tx.state = .disabled := stops h.live
  refine ⟨⟨fun e => absurd (disabled.symm.trans e) nofun, fun _ => ⟨.inr disabled, rfl⟩, nofun⟩, ?_⟩
  rw [disabled]
  nofun

/-- t_on begins: the state, the latch and the light stay. -/
theorem txReturn_live {s : State} (h : TxLive s.tx) (hl : s.tx.latch = false) (hs : s.tx.state ≠ .faultLatched) :
    TxLive (txReturn s).tx := by
  rw [txReturn, (lateFault_tx _).1]
  exact .unlatched hl hs h.light h.live

theorem keepPending_live {f : State → State} {s : State} (h : TxLive (f s).tx) : TxLive (keepPending f s).tx := by
  unfold keepPending
  split
  · exact ⟨⟨h.latched, h.armed, h.light⟩, h.live⟩
  · exact h

/-- A negation: a start-up, t_on, or the fault as it was. -/
theorem txFall_live {s : State} (h : TxLive s.tx) : TxLive (txFall s).tx := by
  have fell : TxLive (fallen s).tx := ⟨⟨h.latched, h.armed, h.light⟩, h.live⟩
  by_cases hr : ((s.tx.latch || s.tx.faultDue.isSome) && resetTaken s) = true
  · rw [txFall_reset hr]
    exact beginInit_live _
  · rw [txFall_kept hr]
    cases hs : s.tx.state
    case disabled =>
      dsimp only
      split
      · rename_i hl
        have dark : s.tx.outputOn = true → TxState.faultLatched = .operating := fun ho =>
          absurd (hs.symm.trans (h.light ho)) nofun
        exact ⟨⟨fun _ => hl, fun _ => ⟨.inl rfl, (h.armed hl).2⟩, dark⟩, nofun⟩
      · rename_i hl
        split
        · exact txReturn_live fell (Bool.eq_false_iff.2 hl) (fun e => absurd (hs.symm.trans e) nofun)
        · exact keepPending_live (beginInit_live _)
    all_goals exact fell

/-- What changes the transmitter and uses free values changes nothing else the invariant looks at. -/
theorem TxOnly.rest {s t : State} (h : TxOnly s t) : Same s { t with tx := s.tx } := by
  obtain ⟨x, n, rfl⟩ := h
  exact ⟨⟨rfl, rfl⟩, rfl⟩

theorem Sound.reTx {s : State} (h : Sound s) (b : Bool) : Sound (reTx b s) := by
  unfold Machine.reTx
  split
  · exact h
  · rename_i on
    simp only [Bool.or_eq_true, Bool.not_eq_true', not_or, Bool.not_eq_false] at on
    have p : s.slot.powered = true := on.2
    split
    · exact h.setTxLive p (txRise_txOnly s).rest (txRise_live (h.txLive p))
    · split
      · exact h.setTxLive p (txFall_txOnly s).rest (txFall_live (h.txLive p))
      · exact h

/-! ### The timers -/

theorem Sound.settleFault {s : State} (h : Sound s) : Sound (settleFault s) := by
  unfold Machine.settleFault
  split
  · rename_i g
    simp only [Bool.and_eq_true] at g
    obtain ⟨⟨p, -⟩, -⟩ := g
    exact h.setTxLive p ⟨⟨rfl, rfl⟩, rfl⟩ (enterTxFault_live s)
  · exact h

theorem Sound.settleTx {s : State} (h : Sound s) : Sound (settleTx s) := by
  unfold Machine.settleTx
  split
  · rename_i g
    have unlatched : s.tx.latch = false := by
      cases hd : s.tx.due with
      | none => simp [isDue, hd] at g
      | some d => exact h.tx.latch_of_due hd
    have stops : Sound { s with tx := { s.tx with due := none } } :=
      h.setTx ⟨⟨rfl, rfl⟩, rfl⟩ ⟨h.tx.latched, fun hl => ⟨(h.tx.armed hl).1, rfl⟩, h.tx.light⟩ .rfl
    have starts (hs : s.tx.state ≠ .offUnpowered) : Sound (txOperate s) :=
      h.setTx ⟨⟨rfl, rfl⟩, rfl⟩ (txOperate_live unlatched).toTxSound ⟨nofun, fun e => absurd e hs⟩
    cases hs : s.tx.state
    case initializing =>
      dsimp only
      split
      · exact h.setTx ⟨⟨rfl, rfl⟩, rfl⟩ (enterTxFault_live s).toTxSound ⟨nofun, fun e => absurd (hs.symm.trans e) nofun⟩
      · exact starts (by rw [hs]; nofun)
    case disabled => exact starts (by rw [hs]; nofun)
    case operating | faultLatched | offUnpowered => exact stops
  · exact h

theorem Sound.settleOff {s : State} (h : Sound s) : Sound (settleOff s) := by
  unfold Machine.settleOff
  split
  · exact h.same ⟨⟨rfl, rfl⟩, rfl⟩
  · exact h

theorem Sound.settleLos {s : State} (h : Sound s) : Sound (settleLos s) := by
  obtain ⟨tx, -, lvl⟩ := settleLos_other s
  have k := settleLos_ticks s
  exact h.same ⟨⟨by simp only [bodyOf, k.cfg, k.mem, tx, lvl, k.slot], by simp only [supplied, k.host, k.slot]⟩,
    by simp only [engineOf, k.bus]⟩

theorem Sound.settleRx {s : State} (h : Sound s) : Sound (settleRx s) := by
  unfold Machine.settleRx
  split
  · exact h.same ⟨⟨rfl, rfl⟩, rfl⟩
  · exact h

theorem Sound.settleTxRate {s : State} (h : Sound s) : Sound (settleTxRate s) := by
  unfold Machine.settleTxRate
  split
  · exact h.same ⟨⟨rfl, rfl⟩, rfl⟩
  · exact h

theorem Sound.settleLevel {s : State} (h : Sound s) : Sound (settleLevel s) := by
  unfold Machine.settleLevel
  split
  · rename_i g
    exact h.setLvl (Bool.and_eq_true_iff.1 g).1 ⟨⟨rfl, rfl⟩, rfl⟩ h.next h.next
  · exact h

theorem Sound.lateTimers {s : State} (h : Sound s) : Sound (lateTimers s) :=
  h.settleFault.settleTx.settleOff.settleLos.settleRx.settleTxRate.settleLevel

theorem Sound.settleReady {s : State} (h : Sound s) : Sound (settleReady s) := by
  unfold Machine.settleReady
  split
  · rename_i g
    simp only [Bool.and_eq_true] at g
    obtain ⟨⟨p, -⟩, -⟩ := g
    exact ⟨⟨h.mem, Nat.zero_le 8, h.tx, fun off => absurd (p.symm.trans off) nofun, h.on, h.level, h.next⟩, h.supply⟩
  · exact h

theorem Sound.commitWrite {s : State} (h : Sound s) : Sound (commitWrite s) := by
  obtain ⟨x, n, e⟩ := commitWrite_eq s
  rw [e]
  exact ⟨⟨writeAll_keeps_wf _ _ _ h.mem, Nat.zero_le 8, h.tx, h.off, h.on, h.level, h.next⟩, h.supply⟩

/-! ### STOP -/

theorem Sound.stopSoftTx {s : State} (h : Sound s) (b : Bus) : Sound (stopSoftTx b s) := by
  unfold Machine.stopSoftTx setSoftTx
  split
  · rename_i v _
    have soft : Sound { s with tx := { s.tx with soft := v } } := h.same ⟨⟨rfl, rfl⟩, rfl⟩
    exact soft.reTx _
  · exact h

theorem Sound.enableLevel {s : State} (h : Sound s) (p : s.slot.powered = true) (l : PowerLevel) :
    Sound (enableLevel l s) := by
  unfold Machine.enableLevel
  split
  · exact h
  · exact h.setLvl p ⟨⟨rfl, rfl⟩, rfl⟩ (levelWithin_levelMin l _) (levelWithin_levelMin l _)

theorem Sound.disableLevel {s : State} (h : Sound s) (p : s.slot.powered = true) : Sound (disableLevel s) := by
  unfold Machine.disableLevel
  split
  · exact h
  · split
    · exact h.same ⟨⟨rfl, rfl⟩, rfl⟩
    · exact h.setLvl p ⟨⟨rfl, rfl⟩, rfl⟩ h.level (levelWithin_one _)

theorem Sound.stopLevel {s : State} (h : Sound s) (p : s.slot.powered = true) (b : Bus) : Sound (stopLevel b s) := by
  unfold Machine.stopLevel
  split
  · rename_i l _
    cases l
    case one => exact h.disableLevel p
    case two => exact h.enableLevel p .two
    case three => exact h.enableLevel p .three
  · exact h

theorem abortWrite_wbuf (s : State) : (abortWrite s).bus.wbuf.length ≤ s.bus.wbuf.length := by
  unfold abortWrite
  split
  · cases s.cfg.abortCtr <;> exact Nat.zero_le _
  · exact le_rfl

theorem Sound.seeStop {s : State} (h : Sound s) (hl : listening s = true) : Sound (seeStop s) := by
  obtain ⟨-, p, -⟩ := (listening_iff s).1 hl
  have idle {t : State} (ht : Sound t) : Sound (goIdle t) := ht.alike ⟨rfl, rfl⟩ ht.words
  unfold Machine.seeStop
  refine idle ?_
  split
  · split
    · exact h.same ⟨⟨rfl, rfl⟩, rfl⟩
    · split
      · have begun : Sound (beginWrite s) := h.same ⟨⟨rfl, rfl⟩, rfl⟩
        obtain ⟨x, n, e⟩ := stopSoftTx_txOnly s.bus (beginWrite s)
        exact (begun.stopSoftTx s.bus).stopLevel (by rw [e]; exact p) s.bus
      · exact h.alike (abortWrite_alike s) ((abortWrite_wbuf s).trans h.words)
  · exact h

/-! ### Words held -/

/-- A ninth word is never held. -/
theorem takeWord_words {s : State} (h : s.bus.wbuf.length ≤ 8) : (takeWord s).bus.wbuf.length ≤ 8 := by
  unfold takeWord
  cases s.bus.state
  case gotStart =>
    dsimp only [takeDeviceWord]
    split
    · exact h
    · split <;> exact h
  case expectAddr =>
    dsimp only [takeAddress]
    split
    · exact h
    · exact Nat.zero_le 8
  case writeData =>
    dsimp only [takeData]
    split
    · exact h
    · rename_i room
      split
      · exact h
      · simp only [Config.seqWriteMax, not_le] at room
        simp only [spend_bus, List.length_append, List.length_singleton]
        omega
  all_goals exact h

theorem sclRise_words (x : Level) {s : State} (h : s.bus.wbuf.length ≤ 8) : (sclRise x s).bus.wbuf.length ≤ 8 := by
  unfold sclRise
  cases s.bus.phase
  case recv =>
    dsimp only
    split
    · exact takeWord_words h
    · exact h
  case send =>
    dsimp only
    split
    · cases s.bus.sel <;> exact h
    · exact h
  all_goals exact h

theorem sclFall_wbuf (s : State) : (sclFall s).bus.wbuf = s.bus.wbuf := by
  unfold sclFall
  cases s.bus.phase <;> dsimp only
  case ackOut => cases s.bus.state <;> rfl
  case recv | send | ackIn => split <;> rfl

/-! ### Power -/

theorem freshTx_live (s : State) : TxLive (freshTx s) := by
  unfold freshTx
  dsimp only
  split <;> exact .unlatched rfl nofun nofun nofun

theorem powerUp_sound {s : State} (h : Lawful s) (hs : supplied s = true) : Sound (powerUp s) :=
  have x := freshTx_live s
  ⟨⟨h.mem, Nat.zero_le 8, x.toTxSound, nofun, fun _ => x.live, levelWithin_one _, levelWithin_one _⟩, fun _ => hs⟩

theorem spoilWrite_wf {s : State} (h : Memory.wf s.cfg.init s.mem = true) :
    Memory.wf (spoilWrite s).cfg.init (spoilWrite s).mem = true := by
  unfold spoilWrite
  split
  · exact spoilAll_keeps_wf _ _ _ _ h
  · exact h

theorem powerDown_sound {s : State} (h : Lawful s) : Sound (powerDown s) :=
  ⟨⟨spoilWrite_wf h.mem, Nat.zero_le 8, ⟨nofun, nofun, nofun⟩, fun _ => ⟨rfl, rfl, rfl⟩, nofun, levelWithin_one _,
    levelWithin_one _⟩, nofun⟩

theorem Lawful.followSupply {s : State} (h : Lawful s) : Sound (followSupply s) := by
  cases hp : s.slot.powered <;> cases hs : supplied s
  case false.false => rw [followSupply_off s hp hs]; exact ⟨h, fun p => absurd (hp.symm.trans p) nofun⟩
  case false.true => rw [followSupply_up s hp hs]; exact powerUp_sound h hs
  case true.false => rw [Machine.followSupply, if_neg (by simp [hp]), if_pos (by simp [hp, hs])]; exact powerDown_sound h
  case true.true => rw [followSupply_kept s hp hs]; exact ⟨h, fun _ => hs⟩

/-! ### Every step -/

/-- Every operation that moves what the invariant looks at keeps it. -/
theorem sound_kept : Kept Sound where
  same e h := h.same e
  start a h := h.alike (a.trans ⟨rfl, rfl⟩) (Nat.zero_le 8)
  edges x s h :=
    h.alike ((sclRise_keeps x s).trans (sclFall_keeps _)).alike (by rw [sclFall_wbuf]; exact sclRise_words x h.words)
  stop hl h := h.seeStop hl
  ready h := h.settleReady
  commit h := h.commitWrite
  timers h := h.lateTimers
  supply b e h :=
    have wbuf := congrArg Engine.wbuf e
    (h.congr b ((congrArg List.length wbuf).trans_le h.words)).followSupply
  switch b _ h := h.reTx b

/-- Settles O8, by the walk through a step with every operation that moves the invariant's fields. -/
theorem invStep : Obligations.InvStep := fun s t h e =>
  (inv_iff_sound t).2 (sound_kept.step ((inv_iff_sound s).1 h) e)

end Sys2Proof.Machine
end

section
/-! Memory's canonical form, words nobody takes, and the state after reset (10_state.md R41, R42, R50). -/

namespace Sys2Proof.Machine

/-- Settles O31, by the lemma about one write. -/
theorem memoryStaysCanonical : Obligations.MemoryStaysCanonical := fun init _ _ _ hk h => write_keeps_wf init hk h

/-! ### Words nobody takes -/

/-- A word slot of its own sends its word where SCL is free and the module holds no eight words of an open write. -/
theorem wordSlot_free (f : State → State) {s : State} (h : sclHeld s = false) (g : overrun s = false) :
    wordSlot f s = .next (f s) := by
  simp [wordSlot, h, g]

/-- Where a word finds no taker: nothing holds a wire, the module hears nothing or its engine is off, and
the word is no ninth one of a write. -/
structure Unheard (s : State) : Prop where
  aside : Aside s
  sda : sdaLine .high s = .high
  released : s.bus.stretching = false
  scl : s.out.sclHeld = false
  room : overrun s = false

theorem unheard_of_deaf {s : State} (h : deaf s) : Unheard s := by
  obtain ⟨lis, held, released, sda, scl⟩ := h
  refine ⟨.inl lis, ?_, released, scl, by simp [overrun, lis]⟩
  by_cases hm : s.slot.mated = .all
  · simp [sdaLine, held, hm, sda hm, Level.meet]
  · simp [sdaLine, held, hm, Level.meet]

theorem unheard_of_calm {s : State} (h : calm s) (hp : s.bus.phase = .off) (hd : s.bus.sda = .high)
    (hs : s.bus.state ≠ .writeData) : Unheard s := by
  obtain ⟨lis, held, -, released, waits, scl⟩ := h
  refine ⟨.inr ⟨hp, waits⟩, ?_, released, scl, by simp [overrun, hs]⟩
  rw [sdaLine_hears ⟨lis, held, waits⟩, hd]
  rfl

/-- The time of a word slot leaves nothing in the bus but what it records of the stretch. -/
theorem wordTime_bus (w : Byte) {s : State} (h : s.bus.stretching = false) :
    (wordTime w s).bus = { s.bus with hold := (wordTime w s).bus.hold, heldAt := (wordTime w s).bus.heldAt } := by
  obtain ⟨t, d, a, x, e, -, hx⟩ := busTime_eq (stretchable w s) 9 s
  rw [wordTime, e, hx h, ← h]

/-- Settles O22: the word is sent into a slot that nobody answers. -/
theorem wordNotTaken : Obligations.WordNotTaken := by
  intro s i hi hs
  obtain ⟨w, hw⟩ : ∃ w, exec i s = wordSlot (sendWord w) s := by
    cases i
    case deviceAddressWord sp r => exact ⟨devWord sp r, rfl⟩
    case dataWordAddress a => exact ⟨a, rfl⟩
    case dataWord d => exact ⟨d, rfl⟩
    all_goals exact hi.elim
  have u : Unheard s := by
    rcases hs with hs | ⟨hc, hp, hd, hs⟩
    · exact unheard_of_deaf hs
    · exact unheard_of_calm hc hp hd hs
  have T := wordTime_slot w s
  have B := wordTime_bus w u.released
  have E : exec i s = .next (raise .noAcknowledge
      { wordTime w s with seen := { s.seen with acks := s.seen.acks ++ [false] } }) := by
    rw [hw, wordSlot_free _ (sclHeld_free u.released u.scl) u.room, sendWord_aside u.aside u.sda]
  generalize wordTime w s = t at T B E
  refine ⟨_, E, rfl, rfl, ?_, B, T.host, ⟨T.cfg, T.out, T.slot, T.rcv, T.rate, T.script, fun k => ?_, ?_, rfl, ?_⟩,
    ⟨T.tx, T.lvl⟩, T.wr⟩
  · rw [raise_raised, T.raised]
  · simp only [readByte, raise_cfg, raise_mem, T.cfg, T.mem]
  · show t.host = { s.host with inFrame := t.host.inFrame }
    rw [T.host]
  · exact (T.stretching u.released).trans u.released.symm

/-! ### Reset -/

/-- Settles O6: field by field, the drawn instant of readiness by its bound. -/
theorem resetState : Obligations.ResetState := by
  have ready : State.reset.slot.readyDue ≤ Config.t2wStartUp := Nat.le_of_lt_succ (Nat.mod_lt _ (Nat.succ_pos _))
  refine ⟨rfl, rfl, rfl, rfl, rfl, rfl, rfl, ready, rfl, rfl, rfl, rfl, fun h => ?_, fun _ => rfl⟩
  exact if_neg (by rw [show Config.module.passiveCable = false from h]; decide)

/-- The transmitter after reset is initialising, in a passive cable, or disabled. -/
theorem reset_tx_state : State.reset.tx.state = .initializing ∨ State.reset.tx.state = .disabled := by
  cases h : Config.module.passiveCable
  case false => exact .inr (if_neg (by simp [h]))
  case true => exact .inl (if_pos h)

/-- Settles O7: nothing is latched, held or written, the output is off and the level is Level I. -/
theorem resetInv : Obligations.ResetInv := by
  have state := reset_tx_state
  refine ⟨wf_nil _, Nat.zero_le 8, fun h => ?_, nofun, nofun, nofun, fun _ => ⟨rfl, fun h => ?_⟩, rfl, rfl⟩ <;>
    simp [h] at state

end Sys2Proof.Machine
end

section
/-! Memory and the write cycle: what a read gives after the writes of a cycle, what the end of the cycle leaves, and the two
transactions that write a byte and read it back (20_memory.md R87, R93, R96, R97). -/

namespace Sys2Proof.Machine

/-! ### A read after a write -/

/-- One write and the reads after it (20_memory.md R96): written as it reads unlisted, the key is taken out and reads so. -/
theorem read_write (init : List (Nat × Byte)) (m : List Host.Cell) (k j : Nat) (v : Byte) :
    Memory.read init (Memory.write init k v m) j = if j = k then some v else Memory.read init m j := by
  by_cases hu : Memory.unlisted init k = some v
  · rw [Memory.write, if_pos hu, Memory.read, lookup_erase]
    by_cases hj : j = k
    · subst hj; simpa using hu
    · simp only [if_neg hj, Memory.read]
  · rw [Memory.write, if_neg hu, Memory.read, lookup_insert]
    by_cases hj : j = k
    · simp only [if_pos hj]
    · simp only [if_neg hj, Memory.read]

/-- Settles O30, by the lemma about one write. -/
theorem memoryReadWrite : Obligations.MemoryReadWrite := read_write

/-- The words of a write cycle leave a byte alone on which no word lands that may be written. -/
theorem read_writeAll_missed (c : Params) (s : Space) {l : List (Byte × Byte)} {k : Nat}
    (h : ∀ w ∈ l, isWritable c s w.1 = true → memKey s w.1 ≠ k) (m : List Host.Cell) :
    Memory.read c.init (Memory.writeAll c s l m) k = Memory.read c.init m k := by
  induction l generalizing m with
  | nil => rfl
  | cons w l ih =>
    obtain ⟨here, later⟩ := List.forall_mem_cons.1 h
    rw [Memory.writeAll, ih later]
    split
    · rename_i hw; rw [read_write, if_neg (here hw).symm]
    · rfl

/-- A writable byte has the last word that landed on it. -/
theorem read_writeAll_hit {c : Params} {s : Space} {a v : Byte} (hw : isWritable c s a = true) {l : List (Byte × Byte)}
    (h : l.reverse.lookup a = some v) (m : List Host.Cell) :
    Memory.read c.init (Memory.writeAll c s l m) (memKey s a) = some v := by
  induction l generalizing m with
  | nil => cases h
  | cons w l ih =>
    obtain ⟨b, x⟩ := w
    rw [List.reverse_cons, List.lookup_append] at h
    rw [Memory.writeAll]
    cases e : l.reverse.lookup a with
    | some y => exact ih (by simpa [e] using h) _
    | none =>
      rw [e, Option.none_or, List.lookup_singleton] at h
      obtain ⟨rfl, rfl⟩ : a = b ∧ x = v := by simpa using h
      rw [read_writeAll_missed, if_pos hw, read_write, if_pos rfl]
      intro w hm _ hk
      have away := List.lookup_eq_none_iff.1 e w (List.mem_reverse.2 hm)
      exact absurd (memKey_inj hk).2.symm (by simpa using away)

/-! ### The end of the write cycle -/

/-- What the end of a write cycle and the timers after it leave: the words are in memory, the module is not busy, and what
the bus, the host and the slot held stays. -/
structure Committed (s t : State) : Prop where
  cfg : t.cfg = s.cfg
  host : t.host = s.host
  out : t.out = s.out
  slot : t.slot = s.slot
  bus : t.bus = { s.bus with wbuf := [] }
  wr : t.wr = { s.wr with busy := false }
  mem : t.mem = Memory.writeAll s.cfg s.wr.space s.bus.wbuf s.mem

/-- The write cycle of a ready module ends when its time has come (20_memory.md R93). -/
theorem settle_committed {s : State} (hr : s.slot.ready = true) (hb : s.wr.busy = true) (hd : s.wr.due ≤ s.clk.now) :
    Committed s (settle s) := by
  obtain ⟨x, n, e⟩ := commitWrite_eq s
  have k := lateTimers_ticks (commitWrite s)
  rw [settle_eq, settleReady_ready hr, settleWrite_due hb hd]
  generalize lateTimers (commitWrite s) = t at k
  rw [e] at k
  exact ⟨k.cfg, k.host, k.out, k.slot, k.bus, k.wr, k.mem⟩

/-- The end of a write cycle that the host waits for. -/
theorem waitUntil_committed {s : State} (hr : s.slot.ready = true) (hb : s.wr.busy = true) :
    Committed s (waitUntil s.wr.due s) :=
  have k := settle_committed (s := { s with clk := { s.clk with now := max s.clk.now s.wr.due } }) hr hb
    (Nat.le_max_right _ _)
  ⟨k.cfg, k.host, k.out, k.slot, k.bus, k.wr, k.mem⟩

/-- A byte the write cycle has brought reads as its last word. -/
theorem Committed.hit {s t : State} (k : Committed s t) {a v : Byte} (hw : isWritable s.cfg s.wr.space a = true)
    (h : s.bus.wbuf.reverse.lookup a = some v) : readByte t (memKey s.wr.space a) = some v := by
  rw [readByte, k.cfg, k.mem]
  exact read_writeAll_hit hw h s.mem

/-- A byte it has not brought reads as before. -/
theorem Committed.missed {s t : State} (k : Committed s t) {key : Nat}
    (h : ∀ w ∈ s.bus.wbuf, isWritable s.cfg s.wr.space w.1 = true → memKey s.wr.space w.1 ≠ key) :
    readByte t key = readByte s key := by
  rw [readByte, k.cfg, k.mem]
  exact read_writeAll_missed s.cfg s.wr.space h s.mem

/-- The module answers again. -/
theorem Committed.listening {s t : State} (k : Committed s t) (hm : s.slot.mated = .all) (hp : s.slot.powered = true)
    (hr : s.slot.ready = true) (hs : s.slot.stuck = false) : listening t = true := by
  rw [listening_iff, k.slot, k.wr]
  exact ⟨hm, hp, hr, hs, rfl⟩

/-- Settles O32, by what the end of the write cycle leaves. -/
theorem writeCommits : Obligations.WriteCommits := by
  intro s hr hb hd
  have k := settle_committed hr hb hd
  refine ⟨by rw [k.wr], by rw [k.bus], fun hm hp hs => k.listening hm hp hr hs, fun a v hw h => k.hit hw h,
    fun sp a h => k.missed fun w hm hw hk => ?_⟩
  obtain ⟨rfl, rfl⟩ := memKey_inj hk
  rcases h with h | h | h
  · exact h rfl
  · exact absurd (hw.symm.trans h) (by decide)
  · exact h w hm rfl

/-- Settles O33: before its time the write cycle's end is no timer that runs, and the others touch neither bus nor memory. -/
theorem writeCycleRuns : Obligations.WriteCycleRuns := by
  intro s hr hb hd
  have k : Ticks s (settle s) := by
    rw [settle_eq, settleReady_ready hr, settleWrite_early hd]
    exact lateTimers_ticks s
  refine ⟨k.wr, k.bus, ?_, fun key => by rw [readByte, k.cfg, k.mem, readByte]⟩
  simp [listening, k.wr, hb]

/-! ### The counter -/

/-- Settles O34: the counter is a byte of its own space (20_memory.md R87). -/
theorem counterRollsOver : Obligations.CounterRollsOver := by
  intro b sp
  refine ⟨?_, fun q hq => ctrOf_stepCtr_ne hq b⟩
  rw [ctrOf_stepCtr, BitVec.toNat_add]
  rfl

/-! ### A byte written and read back -/

/-- A random read of a byte that is nothing but memory gives what memory holds (43_two_wire_operations.md R371). -/
theorem randomRead_plain {s : State} (h : frameReady s) (hf : s.host.inFrame = false) {sp : Space} {a d : Byte}
    (hp : isPlain s.cfg sp a = true) (hd : readByte s (memKey sp a) = some d) :
    ∃ u, exec (.randomRead sp a) s = .next u ∧ u.seen.rx = [d] := by
  have ready := h
  obtain ⟨⟨-, -, -, released, waits, scl⟩, -, -⟩ := ready
  obtain ⟨t, begins, b, k⟩ := frame_begins h
  obtain ⟨u, vs, e, stops, -, -, -, -, rx, one, -, bytes⟩ := randomRead_frame (Calm.of h.1) b k sp a 1 le_rfl
  obtain ⟨v, rfl⟩ := List.length_eq_one_iff.1 one
  have old : t.seen.rx = [] := by rw [b.seen]; simp [openFrame, hf]
  have byte : Shows t sp a v := by simpa using bytes 0 v rfl
  obtain ⟨plain, -, -⟩ := byte.shows
  have hv : v = d := plain d (by rw [b.cfg]; exact hp) (by rw [readByte, b.cfg, b.mem]; exact hd)
  refine ⟨closed e u, ?_, ?_⟩
  · show clocked (frame (randomBody sp a 1)) s = _
    rw [clocked_free _ (sclHeld_free released scl) waits, frame, begins, stops]
  · show u.seen.rx = [d]
    rw [rx, old, hv, List.nil_append]

/-- A write of a byte that is nothing but memory leaves the module in its write cycle, with the word to come
(43_two_wire_operations.md R374). -/
theorem byteWrite_plain {s : State} (h : frameReady s) {sp : Space} {a : Byte} (hp : isPlain s.cfg sp a = true) (d : Byte) :
    ∃ e u, exec (.byteWrite sp a d) s = .next (closed e (beginWrite u)) ∧ Wrote s u sp a d := by
  obtain ⟨e, u, stops, w⟩ := write_one h sp a d
  obtain ⟨⟨-, -, -, released, waits, scl⟩, -, -⟩ := h
  simp only [isPlain, Bool.and_eq_true, decide_eq_true_eq] at hp
  obtain ⟨⟨⟨⟨⟨-, softTx⟩, -⟩, -⟩, power⟩, -⟩ := hp
  refine ⟨e, u, ?_, w⟩
  show clocked (frame (writeBody sp a [d])) s = _
  rw [clocked_free _ (sclHeld_free released scl) waits, stops, w.no_softTx (beginWrite u) rfl softTx.symm,
    w.no_level (beginWrite u) rfl power.symm]

/-- After the write cycle of a byte the bus is ready for the next frame, and the byte reads as the word written. -/
theorem Wrote.committed {s u t : State} {sp : Space} {a d : Byte} {e : Option Nat × Bool} (w : Wrote s u sp a d)
    (h : frameReady s) (hw : isWritable s.cfg sp a = true) (k : Committed (closed e (beginWrite u)) t) :
    frameReady t ∧ readByte t (memKey sp a) = some d := by
  obtain ⟨⟨lis, held, nack, released, waits, scl⟩, -, -⟩ := h
  obtain ⟨mated, powered, ready, stuck, -⟩ := (listening_iff s).1 lis
  have cfg : (closed e (beginWrite u)).cfg = s.cfg := w.cfg
  have out : (closed e (beginWrite u)).out = s.out := w.out
  have slot : (closed e (beginWrite u)).slot = s.slot := w.slot
  have sel : (closed e (beginWrite u)).wr.space = sp := w.sel
  have wbuf : (closed e (beginWrite u)).bus.wbuf = [(a, d)] := w.wbuf
  refine ⟨⟨⟨?_, ?_, ?_, ?_, ?_, ?_⟩, ?_, ?_⟩, ?_⟩
  · apply k.listening <;> rw [slot] <;> assumption
  · rw [k.out, out, held]
  · rw [k.cfg, cfg, nack]
  · rw [k.bus]; exact w.stretching.trans released
  · rw [k.host]; exact (congrArg HostSide.honours w.host).trans waits
  · rw [k.out, out, scl]
  · rw [k.bus]; rfl
  · rw [k.bus]; exact fun _ => rfl
  · rw [← sel]
    exact k.hit (by rw [cfg, sel, hw]) (by rw [wbuf]; simp)

/-- Settles O35: the word reaches memory at the end of the write cycle, and the module answers the read. -/
theorem writeThenRead : Obligations.WriteThenRead := by
  intro s sp a d h hw hp
  obtain ⟨e, u, writes, w⟩ := byteWrite_plain h hp d
  have cfg : (closed e (beginWrite u)).cfg = s.cfg := w.cfg
  have ready : (closed e (beginWrite u)).slot.ready = true := by
    obtain ⟨-, -, ready, -, -⟩ := (listening_iff s).1 h.1.1
    exact (congrArg SlotUnit.ready w.slot).trans ready
  have k := waitUntil_committed ready rfl
  obtain ⟨begins, byte⟩ := w.committed h hw k
  obtain ⟨v, reads, rx⟩ := randomRead_plain begins (by rw [k.host]; rfl) (by rw [k.cfg, cfg, hp]) byte
  exact ⟨_, v, writes, reads, rx⟩

/-! ### A device address word to a module that may not take it -/

/-- What a device address word that the module takes leads to (30_encoding.md R122). -/
def afterDevWord (r : Dir) : BusState :=
  match r with
  | .write => .expectAddr
  | .read => .addressedRead

/-- Whether the module does not take a word, which is drawn as its last bit comes in (20_memory.md R92 (b)). -/
def wordDeclined (w : Byte) (s : State) : Bool := nackDrawn (midWord w 8 (wordTime w s))

/-- A device address word the module takes. -/
theorem sendWord_dev_taken {s : State} (h : Hears s) (k : Taking s .gotStart) {sp : Space} {r : Dir}
    (n : wordDeclined (devWord sp r) s = false) :
    ∃ t, sendWord (devWord sp r) s = t ∧ Slots 1 s t ∧ t.bus.state = afterDevWord r ∧ t.bus.sel = sp ∧
      (∀ q, ctrOf t.bus q = ctrOf s.bus q) ∧ t.bus.wbuf = s.bus.wbuf ∧ t.seen.rx = s.seen.rx ∧
      t.seen.acks = s.seen.acks ++ [true] := by
  have T := wordTime_slot (devWord sp r) s
  cases r
  case' write => have E := sendWord_devW h sp n k.state k.phase k.nbits k.sda
  case' read => have E := sendWord_devR h sp n k.state k.phase k.nbits k.sda
  all_goals
    generalize wordTime (devWord sp _) s = u at E T
    refine ⟨_, E, T.slots (keeps_of u _ _ _) rfl rfl rfl rfl, rfl, rfl, fun q => ?_, T.wbuf, by rw [← T.seen]; rfl,
      by rw [← T.seen]; rfl⟩
    rw [← T.ctr]; cases q <;> rfl

/-- The engine as the last bit of a device address word comes in that the module does not take (notes/assumptions/28.md). -/
theorem takeWord_dev_declined {s : State} (k : Taking s .gotStart) {sp : Space} {r : Dir}
    (n : wordDeclined (devWord sp r) s = true) :
    takeWord (midWord (devWord sp r) 8 (wordTime (devWord sp r) s)) =
      spend 1 { wordTime (devWord sp r) s with bus := { (wordTime (devWord sp r) s).bus with
        state := .ignoring, willAck := false, shift := devWord sp r, nbits := 8 } } := by
  have state : (midWord (devWord sp r) 8 (wordTime (devWord sp r) s)).bus.state = .gotStart :=
    (wordTime_slot (devWord sp r) s).state.trans k.state
  have shift : (midWord (devWord sp r) 8 (wordTime (devWord sp r) s)).bus.shift = devWord sp r := rfl
  have drawn : nackDrawn (midWord (devWord sp r) 8 (wordTime (devWord sp r) s)) = true := n
  rw [takeWord, state]; dsimp only
  rw [takeDeviceWord, shift, decodeDev_devWord]; dsimp only
  rw [if_pos drawn]; rfl

/-- A device address word the module does not take: it is not acknowledged, and the engine ignores the rest. -/
theorem sendWord_dev_declined {s : State} (h : Hears s) (k : Taking s .gotStart) {sp : Space} {r : Dir}
    (n : wordDeclined (devWord sp r) s = true) :
    ∃ t, sendWord (devWord sp r) s = raise .noAcknowledge t ∧ Slots 1 s t ∧ t.bus.state = .ignoring ∧
      t.bus.sda = .high ∧ t.bus.sel = s.bus.sel ∧ (∀ q, ctrOf t.bus q = ctrOf s.bus q) ∧ t.bus.wbuf = s.bus.wbuf ∧
      t.seen.rx = s.seen.rx ∧ t.seen.acks = s.seen.acks ++ [false] := by
  have T := wordTime_slot (devWord sp r) s
  have E := sendWord_refused h k (devWord sp r) (takeWord_dev_declined k n)
  generalize wordTime (devWord sp r) s = u at E T
  refine ⟨_, E, T.slots (keeps_of u _ _ _) rfl rfl (by rw [← T.seen]; rfl) rfl, rfl, rfl, T.sel, fun q => ?_, T.wbuf,
    rfl, rfl⟩
  rw [← T.ctr]; cases q <;> rfl

/-- Settles O60: the draw decides between the two. -/
theorem mayNackBusy : Obligations.MayNackBusy := by
  intro s sp r lis held released scl waits _ state phase nbits sda
  have h : Hears s := ⟨lis, held, waits⟩
  have k : Taking s .gotStart := ⟨state, phase, nbits, sda⟩
  have E : exec (.deviceAddressWord sp r) s = .next (sendWord (devWord sp r) s) :=
    wordSlot_free _ (sclHeld_free released scl) (overrun_outside (by rw [state]; decide))
  cases n : wordDeclined (devWord sp r) s
  case false =>
    obtain ⟨t, e, a, st, sel, ctr, wbuf, rx, acks⟩ := sendWord_dev_taken h k n
    obtain ⟨around, controls, wr, host, raised⟩ := a.around released
    exact ⟨t, E.trans (congrArg _ e), .inl ⟨acks, sel, raised, st⟩, ctr, wbuf, rx, host, around, controls, wr⟩
  case true =>
    obtain ⟨t, e, a, st, high, sel, ctr, wbuf, rx, acks⟩ := sendWord_dev_declined h k n
    obtain ⟨around, controls, wr, host, raised⟩ := a.around released
    exact ⟨raise .noAcknowledge t, E.trans (congrArg _ e),
      .inr ⟨acks, sel, by rw [raise_raised, raised], st, high⟩, ctr, wbuf, rx, host, around, controls, wr⟩

end Sys2Proof.Machine
end

section
/-! The encoding tables read in both directions: every operation's symbols decode to it, and what decodes is in range and, on
the bus, has no other spelling (30_encoding.md R122 to R129). -/

namespace Sys2Proof

/-! ### Device address words -/

/-- A word that matches `101000xx` is the device address word of the space and the direction its low bits name (R122). -/
theorem eq_devWord_of_match {w : Byte} (h : w &&& 0xFC#8 = 0xA0#8) :
    w = devWord (if w.getLsbD 1 then .a2 else .a0) (if w.getLsbD 0 then .read else .write) := by
  have high (i : Nat) (hi : i < 8) : (w[i] && (0xFC#8)[i]) = (0xA0#8)[i] := by
    rw [← BitVec.getElem_and]
    exact congrArg (fun v : Byte => v[i]) h
  have b7 : w[7] = true := by simpa using high 7 (by omega)
  have b6 : w[6] = false := by simpa using high 6 (by omega)
  have b5 : w[5] = true := by simpa using high 5 (by omega)
  have b4 : w[4] = false := by simpa using high 4 (by omega)
  have b3 : w[3] = false := by simpa using high 3 (by omega)
  have b2 : w[2] = false := by simpa using high 2 (by omega)
  rw [BitVec.getLsbD_eq_getElem (by omega : 1 < 8), BitVec.getLsbD_eq_getElem (by omega : 0 < 8)]
  ext i hi
  cases b1 : w[1] <;> cases b0 : w[0] <;> interval_cases i <;> simp [devWord, *]

/-- The decoder of a device address word answers what the word was made of. -/
theorem decodeDev_eq_ok {w : Byte} {s : Space} {r : Dir} : decodeDev w = .ok (s, r) ↔ w = devWord s r := by
  constructor
  · intro h
    rw [decodeDev] at h
    split at h
    case isTrue hm =>
      have e := eq_devWord_of_match hm
      cases h
      exact e
    case isFalse => cases h
  · rintro rfl
    exact Machine.decodeDev_devWord s r

/-! ### The tails of a frame -/

theorem readSyms_succ {n : Nat} (h : 1 ≤ n) : readSyms (n + 1) = .read true :: readSyms n := by
  obtain ⟨k, rfl⟩ := Nat.exists_eq_add_of_le' h
  rfl

/-- A read of n words is what reads as a tail of n words. -/
theorem readTail_readSyms {n : Nat} (h : 1 ≤ n) : readTail (readSyms n) = some n := by
  induction n, h using Nat.le_induction with
  | base => rfl
  | succ n h ih => rw [readSyms_succ h, readTail, ih]; rfl

theorem readTail_eq_some {l : List Sym} {n : Nat} (h : readTail l = some n) : 1 ≤ n ∧ l = readSyms n := by
  fun_induction readTail l generalizing n with
  | case1 l ih =>
    obtain ⟨m, hm, rfl⟩ := Option.map_eq_some_iff.1 h
    obtain ⟨pos, rfl⟩ := ih hm
    exact ⟨by omega, (readSyms_succ pos).symm⟩
  | case2 => cases h; exact ⟨le_rfl, rfl⟩
  | case3 => cases h

/-- Data words and STOP read as those words. -/
theorem dataTail_map (ds : List Byte) : dataTail (ds.map .data ++ [.stop]) = some ds := by
  induction ds with
  | nil => rfl
  | cons d ds ih => rw [List.map_cons, List.cons_append, dataTail, ih]; rfl

theorem dataTail_eq_some {l : List Sym} {ds : List Byte} (h : dataTail l = some ds) : l = ds.map .data ++ [.stop] := by
  fun_induction dataTail l generalizing ds with
  | case1 d l ih =>
    obtain ⟨es, he, rfl⟩ := Option.map_eq_some_iff.1 h
    rw [ih he]; rfl
  | case2 => cases h; rfl
  | case3 => cases h

/-! ### From operation to symbols and back -/

theorem decodeFrame_devWord_read (s : Space) (l : List Sym) :
    decodeFrame (devWord s .read) l = decodeReadFrame s l := by
  rw [decodeFrame, decodeDev_eq_ok.2 rfl]

theorem decodeFrame_devWord_write (s : Space) (l : List Sym) :
    decodeFrame (devWord s .write) l = decodeWriteFrame s l := by
  rw [decodeFrame, decodeDev_eq_ok.2 rfl]

/-- A read of two words or more is the sequential read from the current address (R372). -/
theorem decodeReadFrame_readSyms (s : Space) {n : Nat} (h : 2 ≤ n) :
    decodeReadFrame s (readSyms n) = .ok (.seqReadCurrent s n) := by
  have tail : readTail (readSyms n) = some n := readTail_readSyms (by omega)
  unfold decodeReadFrame
  split
  case h_1 e => rw [e] at tail; cases tail
  case h_2 e => rw [e] at tail; cases tail
  case h_3 =>
    rw [tail]
    split
    case h_1 e => cases e; omega
    case h_2 e => cases e; rfl
    case h_3 e => cases e

/-- After a write's address and a repeated START it is the sequential random read (R373). -/
theorem decodeRandomRead_readSyms (s : Space) (a : Byte) {n : Nat} (h : 2 ≤ n) :
    decodeRandomRead s a (devWord s .read) (readSyms n) = .ok (.seqReadRandom s a n) := by
  rw [decodeRandomRead, if_pos rfl, readTail_readSyms (by omega)]
  split
  case h_1 e => cases e; omega
  case h_2 e => cases e; rfl
  case h_3 e => cases e

/-- Two to eight data words are the sequential write (R375). -/
theorem decodeDataWords_map (s : Space) (a : Byte) {ds : List Byte} (h2 : 2 ≤ ds.length) (h8 : ds.length ≤ 8) :
    decodeDataWords s a (ds.map .data ++ [.stop]) = .ok (.seqWrite s a ds) := by
  rw [decodeDataWords, dataTail_map]
  match ds, h2, h8 with
  | d :: e :: ds, _, h8 => exact if_pos h8

/-- A write frame whose address is followed by data words is read by its data words. -/
theorem decodeWriteFrame_map (s : Space) (a : Byte) (ds : List Byte) :
    decodeWriteFrame s (.addr a :: (ds.map .data ++ [.stop])) = decodeDataWords s a (ds.map .data ++ [.stop]) := by
  cases ds <;> rfl

/-- Settles O3: constructor by constructor; the frames of many words by what their tails read as. -/
theorem decodeEncode : Obligations.DecodeEncode := by
  intro i h
  cases i
  case deviceAddressWord s r => cases s <;> cases r <;> rfl
  case currentRead s => exact decodeFrame_devWord_read s _
  case randomRead s a => cases s <;> rfl
  case seqReadCurrent s n =>
    exact (decodeFrame_devWord_read s _).trans (decodeReadFrame_readSyms s (of_decide_eq_true h))
  case seqReadRandom s a n =>
    exact (decodeFrame_devWord_write s _).trans (decodeRandomRead_readSyms s a (of_decide_eq_true h))
  case byteWrite s a d => exact decodeFrame_devWord_write s _
  case seqWrite s a ds =>
    obtain ⟨two, eight⟩ : 2 ≤ ds.length ∧ ds.length ≤ 8 := by simpa [Instr.wf] using h
    exact (decodeFrame_devWord_write s _).trans ((decodeWriteFrame_map s a ds).trans (decodeDataWords_map s a two eight))
  case ackPoll s p =>
    obtain ⟨r, e⟩ := p
    cases s <;> cases r <;> cases e <;> rfl
  case txFaultReset via => cases via <;> rfl
  case powerLevelEnable l =>
    have above : l ≠ .one := of_decide_eq_true h
    cases l
    case one => exact absurd rfl above
    all_goals rfl
  all_goals rfl

/-! ### From symbols to operation and back -/

/-- A line is the encoding of an operation with operands in range. -/
structure Spells (l : List Sym) (i : Instr) : Prop where
  wf : i.wf = true
  spelled : encode i = l

/-- A read of any number of words but one is of two or more, for none is no read. -/
theorem two_le_of_readTail {l : List Sym} {n : Nat} (h : readTail l = some n) (ne : n ≠ 1) : 2 ≤ n := by
  have := (readTail_eq_some h).1
  omega

/-- A read frame that is read as an operation spells it (R370, R372, R376). -/
theorem decodeReadFrame_spells {s : Space} {l : List Sym} {i : Instr} (h : decodeReadFrame s l = .ok i) :
    Spells (.start :: .dev (devWord s .read) :: l) i := by
  unfold decodeReadFrame at h
  split at h
  case h_1 => cases h; exact ⟨rfl, rfl⟩
  case h_2 => cases h; exact ⟨rfl, rfl⟩
  case h_3 =>
    split at h
    case h_1 e => cases h; rw [(readTail_eq_some e).2]; exact ⟨rfl, rfl⟩
    case h_2 ne e => cases h; rw [(readTail_eq_some e).2]; exact ⟨decide_eq_true (two_le_of_readTail e ne), rfl⟩
    case h_3 => cases h

/-- So does a random read (R371, R373). -/
theorem decodeRandomRead_spells {s : Space} {a w : Byte} {l : List Sym} {i : Instr}
    (h : decodeRandomRead s a w l = .ok i) :
    Spells (.start :: .dev (devWord s .write) :: .addr a :: .start :: .dev w :: l) i := by
  unfold decodeRandomRead at h
  split at h
  case isFalse => cases h
  case isTrue hw =>
    subst hw
    split at h
    case h_1 e => cases h; rw [(readTail_eq_some e).2]; exact ⟨rfl, rfl⟩
    case h_2 ne e => cases h; rw [(readTail_eq_some e).2]; exact ⟨decide_eq_true (two_le_of_readTail e ne), rfl⟩
    case h_3 => cases h

/-- So does a write with data (R374, R375). -/
theorem decodeDataWords_spells {s : Space} {a : Byte} {l : List Sym} {i : Instr} (h : decodeDataWords s a l = .ok i) :
    Spells (.start :: .dev (devWord s .write) :: .addr a :: l) i := by
  unfold decodeDataWords at h
  split at h
  case h_1 => cases h
  case h_2 => cases h
  case h_3 e => cases h; rw [dataTail_eq_some e]; exact ⟨rfl, rfl⟩
  case h_4 ds none one e =>
    split at h
    case isFalse => cases h
    case isTrue eight =>
      cases h
      have two : 2 ≤ ds.length := by
        match ds, none, one with
        | [], none, _ => exact absurd rfl none
        | [d], _, one => exact absurd rfl (one d)
        | _ :: _ :: ds, _, _ => exact Nat.le_add_left 2 ds.length
      rw [dataTail_eq_some e]
      exact ⟨by simp only [Instr.wf, decide_eq_true two, decide_eq_true (show ds.length ≤ 8 from eight), Bool.and_self], rfl⟩

/-- So does every write frame. -/
theorem decodeWriteFrame_spells {s : Space} {l : List Sym} {i : Instr} (h : decodeWriteFrame s l = .ok i) :
    Spells (.start :: .dev (devWord s .write) :: l) i := by
  unfold decodeWriteFrame at h
  split at h
  case h_1 => cases h; exact ⟨rfl, rfl⟩
  case h_2 => cases h; exact ⟨rfl, rfl⟩
  case h_3 => exact decodeRandomRead_spells h
  case h_4 => exact decodeDataWords_spells h
  case h_5 => cases h

/-- So does every frame (R126, R127). -/
theorem decodeFrame_spells {w : Byte} {l : List Sym} {i : Instr} (h : decodeFrame w l = .ok i) :
    Spells (.start :: .dev w :: l) i := by
  unfold decodeFrame at h
  split at h
  case h_1 => cases h
  case h_2 e => rw [decodeDev_eq_ok.1 e]; exact decodeReadFrame_spells h
  case h_3 e => rw [decodeDev_eq_ok.1 e]; exact decodeWriteFrame_spells h

/-- A contact or abstract operation is read with operands in range: Level I is a disable (R129; 41_power_and_esd.md R240,
R241). -/
theorem decodeContacts_wf {l : List Sym} {i : Instr} (h : decodeContacts l = .ok i) : i.wf = true := by
  unfold decodeContacts at h
  split at h
  case h_4 => split at h <;> cases h; rfl
  case h_15 l above =>
    cases h
    exact decide_eq_true fun one => above (by rw [one])
  case h_19 => cases h
  all_goals cases h; rfl

/-- A line that begins with START is read as an operation only by its frame. -/
theorem decode_start {l : List Sym} {i : Instr} (h : decode (.start :: l) = .ok i) :
    ∃ w m, l = .dev w :: m ∧ decodeFrame w m = .ok i := by
  match l with
  | .dev w :: m => exact ⟨w, m, rfl, h⟩

/-- Settles O4: a frame spells the operation it is read as; the other lines are taken one by one. -/
theorem decodedIsWellFormed : Obligations.DecodedIsWellFormed := by
  intro l i h
  unfold decode at h
  split at h
  case h_1 => exact (decodeFrame_spells h).wf
  case h_2 w =>
    cases e : decodeDev w with
    | error => rw [e] at h; cases h
    | ok p => rw [e] at h; cases h; rfl
  case h_6 => exact decodeContacts_wf h
  all_goals cases h; rfl

/-- Settles O5: what begins with START is a frame, and a frame spells its operation. -/
theorem frameHasOneSpelling : Obligations.FrameHasOneSpelling := by
  intro l i h
  obtain ⟨w, m, rfl, frame⟩ := decode_start h
  exact (decodeFrame_spells frame).spelled

/-- Settles O2: all but the last are encodings, read back; the last is no word of the module's (D13). -/
theorem decodeSamples : Obligations.DecodeSamples :=
  ⟨decodeEncode (.currentRead .a0) rfl, decodeEncode (.randomRead .a2 0x60#8) rfl,
    decodeEncode (.seqReadCurrent .a2 3) rfl, decodeEncode (.seqReadRandom .a0 0xFF#8 2) rfl,
    decodeEncode (.byteWrite .a2 0x80#8 0x55#8) rfl, decodeEncode (.seqWrite .a2 0x80#8 [1#8, 2#8]) rfl,
    decodeEncode (.ackPoll .a0 ⟨.write, .stop⟩) rfl, decodeEncode (.ackPoll .a2 ⟨.write, .repeatedStart⟩) rfl,
    decodeEncode (.deviceAddressWord .a2 .read) rfl, rfl⟩

end Sys2Proof
end

section
/-! Single words of an open transaction, the STOP after an address alone, and the step that runs a line (30_encoding.md R122
to R124, R128, R150; 43_two_wire_operations.md R378). -/

namespace Sys2Proof.Machine

/-! ### A word slot that is ready -/

theorem calm_of_wordReady {s : State} {st : BusState} (h : wordReady s st) : calm s := h.1

/-- The engine of a bus whose word slot is ready is about to take a word in. -/
theorem taking_of_wordReady {s : State} {st : BusState} (h : wordReady s st) : Taking s st := by
  obtain ⟨-, state, phase, nbits, sda⟩ := h
  exact ⟨state, phase, nbits, sda⟩

/-- A word taken leaves the bus ready for the next one. -/
theorem wordReady_of_slots {n : Nat} {s t : State} {st : BusState} (h : calm s) (a : Slots n s t) (k : Taking t st) :
    wordReady t st :=
  ⟨calm_slots h a, k.state, k.phase, k.nbits, k.sda⟩

/-- What word slots on a calm bus leave alone, in the terms of the statements. -/
theorem Slots.around_calm {n : Nat} {s t : State} (a : Slots n s t) (h : calm s) :
    sameAround s t ∧ sameControls s t ∧ t.wr = s.wr ∧ t.host = s.host ∧ t.raised = s.raised := by
  obtain ⟨-, -, -, released, -, -⟩ := h
  exact a.around released

/-- No ninth word is in sight before the eighth is in. -/
theorem overrun_room {s : State} (h : s.bus.wbuf.length < 8) : overrun s = false := by
  have room : ¬ Config.seqWriteMax ≤ s.bus.wbuf.length := Nat.not_le.2 h
  simp [overrun, room]

/-- On a calm bus a word slot sends its word, unless it is a ninth one. -/
theorem wordSlot_calm (f : State → State) {s : State} (h : calm s) (g : overrun s = false) :
    wordSlot f s = .next (f s) := by
  obtain ⟨-, -, -, released, -, scl⟩ := h
  exact wordSlot_free f (sclHeld_free released scl) g

/-- An address word's slot sends its word: no data word of a write is in sight. -/
theorem wordSlot_address (f : State → State) {s : State} {st : BusState} (h : wordReady s st) (hs : st ≠ .writeData) :
    wordSlot f s = .next (f s) :=
  wordSlot_calm f (calm_of_wordReady h) (overrun_outside ((taking_of_wordReady h).state.trans_ne hs))

/-- A ninth data word is refused where SCL is free (60_exceptions.md R637). -/
theorem wordSlot_ninth (f : State → State) {s : State} (h : calm s) (hs : s.bus.state = .writeData)
    (h8 : 8 ≤ s.bus.wbuf.length) : wordSlot f s = .refused .writeOverrun := by
  obtain ⟨lis, -, -, released, -, scl⟩ := h
  have ninth : overrun s = true := by
    have full : Config.seqWriteMax ≤ s.bus.wbuf.length := h8
    simp [overrun, lis, hs, full]
  simp [wordSlot, sclHeld_free released scl, ninth]

/-- A word slot takes nine SCL periods. -/
theorem Slots.nine {s t : State} (a : Slots 1 s t) : s.clk.now + 9 * s.host.sclPeriod ≤ t.clk.now := by
  simpa using a.now

/-- Settles O11, by what a device address word of each direction leaves. -/
theorem deviceAddressWord : Obligations.DeviceAddressWord := by
  intro s sp r h
  have hc := calm_of_wordReady h
  have k := taking_of_wordReady h
  have E : exec (.deviceAddressWord sp r) s = .next (sendWord (devWord sp r) s) :=
    wordSlot_address _ h (by decide)
  cases r
  case write =>
    obtain ⟨t, e, a, taking, sel, ctr, wbuf, rx, acks⟩ := word_devW (Calm.of hc) k sp
    exact ⟨t, E.trans (congrArg _ e), sel, taking.state, acks, rx, ctr, wbuf, fun _ => wordReady_of_slots hc a taking,
      nofun, a.nine, a.around_calm hc⟩
  case read =>
    obtain ⟨t, e, a, sending, ctr, wbuf, rx, acks, byte⟩ := word_devR (Calm.of hc) k sp
    exact ⟨t, E.trans (congrArg _ e), sending.sel, sending.state, acks, rx, ctr, wbuf, nofun, fun _ => byte.shows,
      a.nine, a.around_calm hc⟩

/-- Settles O12, by what a data word address leaves. -/
theorem dataWordAddress : Obligations.DataWordAddress := by
  intro s a h
  have hc := calm_of_wordReady h
  obtain ⟨t, e, slot, taking, sel, ctr, other, wbuf, -, rx, acks⟩ := word_addr (Calm.of hc) (taking_of_wordReady h) a
  have E : exec (.dataWordAddress a) s = .next (sendWord a s) :=
    wordSlot_address _ h (by decide)
  exact ⟨t, E.trans (congrArg _ e), ctr, other, sel, wbuf, wordReady_of_slots hc slot taking, acks, rx, slot.nine,
    slot.around_calm hc⟩

/-- Settles O13: with room for it the word is taken, as a ninth it is refused. -/
theorem dataWord : Obligations.DataWord := by
  intro s d h
  have hc := calm_of_wordReady h
  refine ⟨fun room => ?_, fun full => wordSlot_ninth (sendWord d) hc (taking_of_wordReady h).state full⟩
  obtain ⟨t, e, slot, taking, sel, ctr, other, wbuf, -, rx, acks⟩ :=
    word_data (Calm.of hc) (taking_of_wordReady h) room d
  have E : exec (.dataWord d) s = .next (sendWord d s) := wordSlot_calm _ hc (overrun_room room)
  exact ⟨t, E.trans (congrArg _ e), wbuf, ctr, other, sel, wordReady_of_slots hc slot taking, acks, rx, slot.nine,
    slot.around_calm hc⟩

/-- A device address word of another device: the module lets it pass and ignores the rest (30_encoding.md R128). -/
theorem word_foreign {s : State} (h : Calm s) (k : Taking s .gotStart) {w : Byte} (hw : w &&& 0xFC#8 ≠ 0xA0#8) :
    ∃ t, sendWord w s = raise .noAcknowledge t ∧ Slots 1 s t ∧ t.bus.state = .ignoring ∧ t.bus.phase = .off ∧
      t.bus.sda = .high ∧ (∀ q, ctrOf t.bus q = ctrOf s.bus q) ∧ t.bus.wbuf = s.bus.wbuf ∧
      t.seen.acks = s.seen.acks ++ [false] := by
  have T := wordTime_slot w s
  have E := sendWord_foreign h k w hw
  generalize wordTime w s = u at E T
  refine ⟨_, E, T.slots (keeps_of u _ _ _) rfl rfl (by rw [← T.seen]; rfl) rfl, rfl, rfl, rfl, fun q => ?_, T.wbuf, rfl⟩
  rw [← T.ctr]; cases q <;> rfl

/-- Settles O14: the word goes by, and its missing acknowledge is all that is recorded. -/
theorem foreignWordIgnored : Obligations.ForeignWordIgnored := by
  intro s w h hw
  have hc := calm_of_wordReady h
  obtain ⟨t, e, slot, ignoring, off, high, ctr, wbuf, acks⟩ := word_foreign (Calm.of hc) (taking_of_wordReady h) hw
  obtain ⟨around, controls, wr, host, raised⟩ := slot.around_calm hc
  have E : runSym (.dev w) s = .next (sendWord w s) := wordSlot_address _ h (by decide)
  exact ⟨raise .noAcknowledge t, E.trans (congrArg _ e), ignoring, off, high, acks, by rw [raise_raised, raised], ctr,
    wbuf, around, controls, wr, host⟩

/-! ### STOP after an address alone -/

/-- STOP of a write with no whole data word, wherever its slot stands: the module may be busy (93 U4; 95 V40). -/
theorem stop_addressOnly {s : State} (h : Hears s) (hd : s.bus.sda = .high) (hs : s.bus.state = .writeData)
    (hw : s.bus.wbuf = []) :
    hostStop s = closed (some (writeBound (closing s)), true) (maybeBusy (closing s)) := by
  have line : ¬ sdaLine .high s = .low := by rw [sdaLine_hears h]; simp [hd, Level.meet]
  have q := closing_quiet s
  have c : Hears (closing s) := h.keeps q.toKeeps
  have p : edgeLost (lowPeriod s) = false := edgeLost_waits c.waits
  have st : (closing s).bus.state = .writeData := q.state.trans hs
  have empty : (closing s).bus.wbuf = [] := q.wbuf.trans hw
  have mw : mayWrite (closing s) = true := by simp [mayWrite, c.lis, st, empty]
  rw [hostStop, if_neg line]
  dsimp only
  rw [p, show spend 1 (advance Config.tSuSto (lowPeriod s)) = closing s from rfl, c.lis, mw]
  simp only [Bool.not_false, Bool.and_true, if_true, Bool.true_or]
  rw [seeStop, if_pos st, if_pos empty]; rfl

/-- Settles O26: STOP adds to the instant before it nothing but the draw of the busy time. -/
theorem addressOnlyWrite : Obligations.AddressOnlyWrite := by
  intro s hc hs hw hd
  have free := hc
  obtain ⟨-, -, -, released, waits, scl⟩ := free
  have q := closing_quiet s
  have E : runSym .stop s = .next (closed (some (writeBound (closing s)), true) (maybeBusy (closing s))) :=
    (clocked_free hostStop (sclHeld_free released scl) waits).trans
      (congrArg _ (stop_addressOnly (Calm.of hc).toHears hd hs hw))
  generalize closing s = u at q E
  refine ⟨_, E, rfl, q.wbuf.trans hw, fun r => ?_, fun _ => ⟨drawDue_ge u 0 _, drawDue_le u 0 _⟩,
    by rw [← q.wr]; rfl, q.raised,
    ⟨q.cfg, q.out, q.slot, q.rcv, q.rate, q.script, fun key => ?_, ?_, congrArg Seen.wires q.seen,
      (q.stretching released).trans released.symm⟩, q.tx, q.lvl⟩
  · rw [← q.ctr]; cases r <;> rfl
  · show Memory.read u.cfg.init u.mem key = _
    rw [q.cfg, q.mem]; rfl
  · show ({ u.host with inFrame := false } : HostSide) = _
    rw [q.host]; rfl

/-! ### The step that runs a line -/

/-- A line that is an operation runs as that operation, and the host keeps it in its record. -/
theorem runLine_of_decode {l : List Sym} {i : Instr} (h : decode l = .ok i) (s : State) :
    runLine l s = andThen (exec i s) fun t => .next (track l t) := by
  rw [runLine, h]

/-- A step with a host's line at the head of the script runs it, then the timers. -/
theorem step_host {s : State} {l : List Sym} {rest : List Entry} (h : s.script = .host l :: rest) :
    step s = andThen (runLine l { s with script := rest }) fun t => .next (settle t) := by
  rw [step, h]; rfl

/-- A step whose line is an operation runs it, records the line, then runs the timers. -/
theorem step_of_decode {s : State} {l : List Sym} {rest : List Entry} {i : Instr} (h : s.script = .host l :: rest)
    (hd : decode l = .ok i) :
    step s = andThen (exec i { s with script := rest }) fun t => .next (settle (track l t)) := by
  rw [step_host h, runLine_of_decode hd, andThen_assoc]; rfl

/-- What the decoder reads from a table row's bits is what it reads from the row's symbols. -/
theorem decodeTableWord_eq_some {nbits w : Nat} {i : Instr} (h : decodeTableWord nbits w = some i) :
    decode (layout nbits w) = .ok i := by
  rw [decodeTableWord] at h
  split at h
  case h_1 e => cases h; exact e
  case h_2 => cases h

/-- Settles O1: the second part is the first for the line that `withFetchWord` puts before the script. -/
theorem stepRunsDecoded : Obligations.StepRunsDecoded :=
  ⟨fun _ _ _ _ h hd => step_of_decode h hd, fun s nbits w _ h =>
    step_of_decode (withFetchWord_script s nbits w) (decodeTableWord_eq_some h)⟩

end Sys2Proof.Machine
end

section
/-! The contacts of the low speed interface and the timers they start: Tx_Disable, the rate selects, the end of t_on, of an
initialisation and of a rate's time (40_low_speed_control.md R162, R163, R172, R173; 70_reset_and_hazards.md R671). -/

namespace Sys2Proof.Machine

/-! ### What "told to be off" starts -/

/-- A passive cable, a module without power, and one that is told what it was told before keep their transmitter. -/
theorem reTx_kept {b : Bool} {s : State} (h : s.cfg.passiveCable = true ∨ s.slot.powered = false ∨ txOff s = b) :
    reTx b s = s := by
  unfold reTx
  rcases h with h | h | rfl
  · simp [h]
  · simp [h]
  · cases txOff s <;> simp

theorem reTx_rise {s : State} (hc : s.cfg.passiveCable = false) (hp : s.slot.powered = true) (h : txOff s = true) :
    reTx false s = txRise s := by
  simp [reTx, hc, hp, h]

theorem reTx_fall {s : State} (hc : s.cfg.passiveCable = false) (hp : s.slot.powered = true) (h : txOff s = false) :
    reTx true s = txFall s := by
  simp [reTx, hc, hp, h]

/-- What "told to be off" rests on: Tx_Disable as the module reads it, and the Software Tx disable where it counts. -/
theorem txOff_eq_false {s : State} :
    txOff s = false ↔ txDisableIn s = .low ∧ (s.cfg.txDisCombine = .or → s.tx.soft = false) := by
  have not_high : txDisableIn s ≠ .high ↔ txDisableIn s = .low := by cases txDisableIn s <;> decide
  simp [txOff, not_high]

/-- A contact the host drives high is read high: by the host's level, or by the pull-up where it is not mated (R25). -/
theorem txOff_driven_high (s : State) : txOff { s with host := { s.host with txDisable := .high } } = true := by
  apply txOff_of_high
  unfold txDisableIn
  split <;> rfl

/-- A contact driven low tells nothing to be off that was not. -/
theorem txOff_driven_low {s : State} (h : txOff s = false) :
    txOff { s with host := { s.host with txDisable := .low } } = false := by
  obtain ⟨low, soft⟩ := txOff_eq_false.1 h
  refine txOff_eq_false.2 ⟨?_, soft⟩
  unfold txDisableIn at low ⊢
  split at low
  · rename_i mated; exact if_pos mated
  · cases low

/-- Settles O36: the rise of the contact is an edge where nothing told the transmitter to be off, and none elsewhere. -/
theorem txDisableAssert : Obligations.TxDisableAssert := by
  intro s
  refine ⟨fun hp hc off => ?_, fun h => congrArg Host.Outcome.next ?_⟩
  · have E : driveTxDisable .high s = txRise { s with host := { s.host with txDisable := .high } } := by
      rw [driveTxDisable, off]
      exact reTx_rise hc hp (txOff_driven_high s)
    exact ⟨_, congrArg Host.Outcome.next E, rfl, txRise_asserted _⟩
  · exact reTx_kept (h.imp_right (Or.imp_right fun off => (txOff_driven_high s).trans off.symm))

/-- What differs in the transmitter and the free values only, spelled out. -/
theorem TxOnly.eq {s t : State} (h : TxOnly s t) : t = { s with tx := t.tx, clk := { s.clk with drawn := t.clk.drawn } } := by
  obtain ⟨x, n, rfl⟩ := h
  rfl

/-- Settles O37: the fall of the contact is an edge where the contact alone told the transmitter to be off. -/
theorem txDisableNegate : Obligations.TxDisableNegate := by
  intro s
  refine ⟨fun hm hp hc high soft => ?_, fun h => congrArg Host.Outcome.next ?_⟩
  · have off : txOff s = true := txOff_of_high ((if_pos hm).trans high)
    have on : txOff { s with host := { s.host with txDisable := .low } } = false :=
      txOff_eq_false.2 ⟨if_pos hm, soft⟩
    have E : driveTxDisable .low s = txFall { s with host := { s.host with txDisable := .low } } := by
      rw [driveTxDisable, off]
      exact reTx_fall hc hp on
    exact ⟨_, congrArg Host.Outcome.next E, (txFall_txOnly _).eq, txFall_negated _⟩
  · refine reTx_kept (h.imp_right (Or.imp_right fun off => ?_))
    rcases off with off | off
    · exact (txOff_driven_low off).trans off.symm
    · cases before : txOff s
      · exact absurd (off.symm.trans (txOff_driven_low before)) (by decide)
      · exact off

/-! ### What a rate asked for starts -/

/-- What the receive rate does where `before` was asked for until now: where the module uses the input and another rate is
asked for, its instant is drawn, in place of one that is pending; elsewhere nothing changes. -/
structure RxAsked (before : Bool) (s t : State) : Prop where
  frame : t = { s with
    rate := { s.rate with due0 := t.rate.due0, changeAt := t.rate.changeAt }, clk := { s.clk with drawn := t.clk.drawn } }
  hit : s.cfg.rs0Used = true → s.cfg.asMode = false → s.slot.powered = true → rxWanted s ≠ before →
    t.rate.changeAt = s.clk.now ∧ ∃ d, t.rate.due0 = some d ∧ s.clk.now ≤ d ∧ d ≤ s.clk.now + tRate s.cfg
  miss : s.cfg.rs0Used = false ∨ s.cfg.asMode = true ∨ s.slot.powered = false ∨ rxWanted s = before → t.rate = s.rate

/-- The same for the transmit rate; the instant of the latest change is the old one or this one. -/
structure TxAsked (before : Bool) (s t : State) : Prop where
  frame : t = { s with
    rate := { s.rate with due1 := t.rate.due1, changeAt := t.rate.changeAt }, clk := { s.clk with drawn := t.clk.drawn } }
  hit : s.cfg.rs1Used = true → s.cfg.asMode = false → s.slot.powered = true → txWanted s ≠ before →
    t.rate.changeAt = s.clk.now ∧ ∃ d, t.rate.due1 = some d ∧ s.clk.now ≤ d ∧ d ≤ s.clk.now + tRate s.cfg
  miss : s.cfg.rs1Used = false ∨ s.cfg.asMode = true ∨ s.slot.powered = false ∨ txWanted s = before → t.rate = s.rate
  change : t.rate.changeAt = s.rate.changeAt ∨ t.rate.changeAt = s.clk.now

theorem reRx_asked (b : Bool) (s : State) : RxAsked b s (reRx b s) := by
  unfold reRx
  split
  · rename_i g
    refine ⟨rfl, fun _ _ _ _ => ⟨rfl, _, rfl, drawDue_ge .., drawDue_le ..⟩, fun h => ?_⟩
    rcases h with h | h | h | h <;> simp [h] at g
  · rename_i g
    refine ⟨rfl, fun used rated power ne => absurd ?_ g, fun _ => rfl⟩
    simp [used, rated, power, ne.symm]

theorem reTxRate_asked (b : Bool) (s : State) : TxAsked b s (reTxRate b s) := by
  unfold reTxRate
  split
  · rename_i g
    refine ⟨rfl, fun _ _ _ _ => ⟨rfl, _, rfl, drawDue_ge .., drawDue_le ..⟩, fun h => ?_, .inr rfl⟩
    rcases h with h | h | h | h <;> simp [h] at g
  · rename_i g
    refine ⟨rfl, fun used rated power ne => absurd ?_ g, fun _ => rfl, .inl rfl⟩
    simp [used, rated, power, ne.symm]

/-- The instants of the rates change no rate asked for. -/
theorem RxAsked.wanted {b : Bool} {s t : State} (k : RxAsked b s t) : rxWanted t = rxWanted s ∧ txWanted t = txWanted s := by
  rw [k.frame]
  exact ⟨rfl, rfl⟩

theorem TxAsked.wanted {b : Bool} {s t : State} (k : TxAsked b s t) : rxWanted t = rxWanted s ∧ txWanted t = txWanted s := by
  rw [k.frame]
  exact ⟨rfl, rfl⟩

/-- Settles O49: the contact takes the level, and the rate follows what is asked for then. -/
theorem rateSelectContacts : Obligations.RateSelectContacts := by
  intro s v
  constructor
  · have k := reRx_asked (rxWanted s) { s with host := { s.host with rs0 := v } }
    refine ⟨_, rfl, k.frame, ?_, fun h => k.miss ?_⟩
    · rintro ⟨used, rated, power, ne⟩
      exact k.hit used rated power (k.wanted.1.symm.trans_ne ne)
    · exact h.imp_right (Or.imp_right (Or.imp_right k.wanted.1.symm.trans))
  · have k := reTxRate_asked (txWanted s) { s with host := { s.host with rs1 := v } }
    refine ⟨_, rfl, k.frame, ?_, fun h => k.miss ?_⟩
    · rintro ⟨used, rated, power, ne⟩
      exact k.hit used rated power (k.wanted.2.symm.trans_ne ne)
    · exact h.imp_right (Or.imp_right (Or.imp_right k.wanted.2.symm.trans))

/-! ### The rates after the timers -/

theorem isDue_of_le {s : State} {d : Nat} (h : d ≤ s.clk.now) : isDue (some d) s = true := decide_eq_true h

/-- The rates whose time has come are the ones asked for; the others stand as they did. -/
def ratesSettled (s : State) : RateUnit :=
  { s.rate with
    rxHigh := if isDue s.rate.due0 s then rxWanted s else s.rate.rxHigh
    due0 := if isDue s.rate.due0 s then none else s.rate.due0
    txHigh := if isDue s.rate.due1 s then txWanted s else s.rate.txHigh
    due1 := if isDue s.rate.due1 s then none else s.rate.due1 }

theorem settleRx_eq (s : State) : settleRx s =
    { s with rate := { s.rate with
      rxHigh := if isDue s.rate.due0 s then rxWanted s else s.rate.rxHigh
      due0 := if isDue s.rate.due0 s then none else s.rate.due0 } } := by
  unfold settleRx
  split <;> rfl

theorem settleTxRate_eq (s : State) : settleTxRate s =
    { s with rate := { s.rate with
      txHigh := if isDue s.rate.due1 s then txWanted s else s.rate.txHigh
      due1 := if isDue s.rate.due1 s then none else s.rate.due1 } } := by
  unfold settleTxRate
  split <;> rfl

theorem lateTimers_ratesSettled (s : State) : (lateTimers s).rate = ratesSettled s := by
  rw [lateTimers_rate, settleTxRate_eq, settleRx_eq]
  rfl

/-- Readiness changes no rate asked for and no rate's instant. -/
theorem ratesSettled_settleReady (s : State) : ratesSettled (settleReady s) = ratesSettled s := by
  obtain ⟨cfg, clk, host, -, -, -, -, rate, -, -, -, -, slot, -⟩ := settleReady_keeps s
  have mated : (settleReady s).slot.mated = s.slot.mated := by rw [slot]
  have rx : rxWanted (settleReady s) = rxWanted s := by rw [rxWanted, rs0In, cfg, host, mated, rate]; rfl
  have tx : txWanted (settleReady s) = txWanted s := by rw [txWanted, rs1In, cfg, host, mated, rate]; rfl
  rw [ratesSettled, rate, rx, tx, isDue_congr _ clk, isDue_congr _ clk]
  rfl

/-- Without a write cycle the rates after the timers are the ones that were due. -/
theorem settle_rate {s : State} (h : s.wr.busy = false) : (settle s).rate = ratesSettled s := by
  obtain ⟨-, -, -, -, -, -, -, -, -, -, -, -, -, same⟩ := settleReady_keeps s
  have idle : (settleReady s).wr.busy = false := by
    cases busy : (settleReady s).wr.busy
    · rfl
    · rw [← busy, same busy, h]
  rw [settle_eq, settleWrite_idle idle, lateTimers_ratesSettled, ratesSettled_settleReady]

/-- Settles O50: without a write cycle the timers look at the rates asked for only. -/
theorem rateReached : Obligations.RateReached := by
  intro s d idle hd
  have come := isDue_of_le hd
  rw [settle_rate idle]
  exact ⟨fun h => by simp [ratesSettled, h, come], fun h => by simp [ratesSettled, h, come]⟩

/-! ### The transmitter after the timers -/

/-- The interface's times touch no transmitter and raise nothing. -/
theorem settleInterface_apart (s : State) :
    (settleInterface s).cfg = s.cfg ∧ (settleInterface s).clk.now = s.clk.now ∧ (settleInterface s).out = s.out ∧
    (settleInterface s).tx = s.tx ∧ (settleInterface s).raised = s.raised := by
  obtain ⟨cfg, clk, -, -, out, tx, -, -, -, -, raised, -, -, -⟩ := settleReady_keeps s
  have now := congrArg Clock.now clk
  unfold settleInterface settleWrite
  split
  · obtain ⟨x, n, e⟩ := commitWrite_eq (settleReady s)
    rw [e]
    exact ⟨cfg, now, out, tx, raised⟩
  · exact ⟨cfg, now, out, tx, raised⟩

theorem settleFault_none {s : State} (h : s.tx.faultDue = none) : settleFault s = s := by
  rw [settleFault, h, isDue, Bool.and_false, Bool.false_and]
  rfl

/-- The end of t_on, or of an initialisation in which no safety circuit sees the fault. -/
theorem settleTx_operates {s : State} (h : isDue s.tx.due s = true)
    (hs : s.tx.state = .disabled ∨ s.tx.state = .initializing ∧ (s.out.faultCond && s.cfg.txFaultImpl) = false) :
    settleTx s = txOperate s := by
  rcases hs with hs | ⟨hs, clear⟩
  · simp [settleTx, h, hs]
  · simp only [settleTx, h, hs, clear, if_true, Bool.false_eq_true, if_false]

/-- The end of an initialisation in which the fault is there. -/
theorem settleTx_latches {s : State} (h : isDue s.tx.due s = true) (hs : s.tx.state = .initializing)
    (hf : (s.out.faultCond && s.cfg.txFaultImpl) = true) : settleTx s = enterTxFault s := by
  simp only [settleTx, h, hs, hf, if_true]

theorem settleOff_tx (s : State) : (settleOff s).tx = { s.tx with offDue := (settleOff s).tx.offDue } := by
  unfold settleOff
  split <;> rfl

/-- Of the timers after the transmitter's, the receiver's alone may raise something. -/
theorem lateTimers_raised (s : State) : ∃ l, (lateTimers s).raised = (settleTx (settleFault s)).raised ++ l := by
  have off (u : State) : (settleOff u).raised = u.raised := by unfold settleOff; split <;> rfl
  have los (u : State) : ∃ l, (settleLos u).raised = u.raised ++ l := by
    unfold settleLos
    dsimp only
    split
    · split
      · exact ⟨_, rfl⟩
      · exact ⟨[], (List.append_nil _).symm⟩
    · exact ⟨[], (List.append_nil _).symm⟩
  have rx (u : State) : (settleRx u).raised = u.raised := by unfold settleRx; split <;> rfl
  have tx (u : State) : (settleTxRate u).raised = u.raised := by unfold settleTxRate; split <;> rfl
  have lvl (u : State) : (settleLevel u).raised = u.raised := by unfold settleLevel; split <;> rfl
  obtain ⟨l, e⟩ := los (settleOff (settleTx (settleFault s)))
  exact ⟨l, by rw [lateTimers, lvl, tx, rx, e, off]⟩

/-- Where no fault is to be latched, the transmitter's own timer is all that happens to it but for the fall of its light. -/
theorem settle_starts {s : State} (h : s.tx.faultDue = none) :
    ∃ u, u.cfg = s.cfg ∧ u.clk.now = s.clk.now ∧ u.out = s.out ∧ u.tx = s.tx ∧ u.raised = s.raised ∧
      (settle s).tx = { (settleTx u).tx with offDue := (settle s).tx.offDue } ∧
      ∃ l, (settle s).raised = (settleTx u).raised ++ l := by
  obtain ⟨cfg, now, out, tx, raised⟩ := settleInterface_apart s
  have none := settleFault_none ((congrArg TxUnit.faultDue tx).trans h)
  obtain ⟨l, later⟩ := lateTimers_raised (settleInterface s)
  refine ⟨settleInterface s, cfg, now, out, tx, raised, ?_, l, by rw [← none]; exact later⟩
  have after : (settle s).tx = (settleOff (settleTx (settleInterface s))).tx := by
    rw [← congrArg settleTx none]
    exact lateTimers_tx _
  rw [after]
  exact settleOff_tx _

/-- Settles O38: light at the end of t_on or of an initialisation, the latch at the end of one with the fault there. -/
theorem transmitterStarts : Obligations.TransmitterStarts := by
  intro s d due hd pending
  obtain ⟨u, cfg, now, out, tx, raised, after, l, later⟩ := settle_starts pending
  have come : isDue u.tx.due u = true := by
    rw [tx, due]
    exact isDue_of_le (now.symm ▸ hd)
  constructor
  · intro hs
    have starts : settleTx u = txOperate u := settleTx_operates come (by rw [tx, out, cfg]; exact hs)
    rw [after, starts]
    exact ⟨rfl, rfl, rfl, show u.tx.latch = s.tx.latch from congrArg TxUnit.latch tx⟩
  · intro hs fault circuit
    have latches : settleTx u = enterTxFault u :=
      settleTx_latches come (by rw [tx]; exact hs) (by rw [out, cfg, fault, circuit]; rfl)
    rw [latches] at after later
    rw [after, later]
    refine ⟨rfl, rfl, rfl, l, ?_⟩
    show (u.raised ++ [.txFault]) ++ l = _
    rw [raised, List.append_assoc]
    rfl

end Sys2Proof.Machine
end

section
/-! Mating and unmating (10_state.md R23; 40_low_speed_control.md R165, R166; 41_power_and_esd.md R233; 60_exceptions.md R632;
70_reset_and_hazards.md R671 to R673). -/

namespace Sys2Proof.Machine

/-! ### One stage of mating -/

/-- The state with the contacts mated as far as `m`, and no rail alone at the module. -/
def matedAs (m : Mated) (s : State) : State :=
  { s with slot := { s.slot with mated := m }, host := { s.host with railAt := none } }

/-- Where no power contact has mated no rail is at the module. -/
theorem mateTo_dark {m : Mated} (s : State) (h : powerMated m = false) : mateTo m s = matedAs m s := by
  have dark : noteVccT (vccTIn s) { s with slot := { s.slot with mated := m } } =
      { s with slot := { s.slot with mated := m } } := if_neg (by simp [vccTIn, h])
  have even := mateTo_even (s := s) (.inl h)
  rw [mateTo, dark] at even ⊢
  exact congrArg (fun x : HostSide => { s with slot := { s.slot with mated := m }, host := x }) even

/-- A module that has its power keeps it, and no rail is alone there. -/
theorem mateTo_supplied (m : Mated) {s : State} (hp : s.slot.powered = true) (h : s.host.vccT = s.host.vccR) :
    mateTo m s = matedAs m s := by
  have even := mateTo_even (m := m) (.inr h)
  obtain ⟨r, e⟩ := mateTo_live m hp
  rw [e] at even ⊢
  exact congrArg (fun x : HostSide => { s with slot := { s.slot with mated := m }, host := x }) even

/-- A lone rail that is at the module already is alone there as long as it was, -/
theorem mateTo_lone {m : Mated} {s : State} (h : s.host.vccT ≠ s.host.vccR) (hs : powerMated s.slot.mated = true)
    (hm : powerMated m = true) : (mateTo m s).host.railAt = s.host.railAt := by
  obtain ⟨n, e⟩ := noteVccT_eq (vccTIn s) { s with slot := { s.slot with mated := m } }
  rw [mateTo, e, noteRails_host_railAt]
  simp [vccTIn, vccRIn, hs, hm, h]

/-- and one that comes to the module with its power contacts is alone there from then on. -/
theorem mateTo_lone_comes {m : Mated} {s : State} (h : s.host.vccT ≠ s.host.vccR) (hs : powerMated s.slot.mated = false)
    (hm : powerMated m = true) : (mateTo m s).host.railAt = some s.clk.now := by
  obtain ⟨n, e⟩ := noteVccT_eq (vccTIn s) { s with slot := { s.slot with mated := m } }
  rw [mateTo, e, noteRails_host_railAt]
  cases ht : s.host.vccT <;> cases hr : s.host.vccR <;> simp_all [vccTIn, vccRIn]

/-! ### Removal -/

/-- The module taken out: without power, and `ModAbsent` raised where contact 6 opens. -/
theorem mateStage_absent (s : State) : mateStage .absent s =
    { (if s.slot.powered then powerDown (matedAs .absent s) else matedAs .absent s) with
      raised := s.raised ++ if s.slot.mated = .all then [.modAbsent] else [] } := by
  have gone : supplied (matedAs .absent s) = false := Bool.and_false _
  have follows : followSupply (matedAs .absent s) =
      if s.slot.powered then powerDown (matedAs .absent s) else matedAs .absent s := by
    cases hp : s.slot.powered
    · exact followSupply_off _ hp gone
    · rw [followSupply, gone]
      exact if_pos hp
  have dark : (followSupply (matedAs .absent s)).slot.powered = false := by
    rw [follows]
    split
    · rfl
    · rename_i hp; exact Bool.eq_false_iff.2 hp
  have raised : (followSupply (matedAs .absent s)).raised = s.raised := by
    rw [follows]
    split
    · obtain ⟨-, -, -, -, -, -, -, -, -, -, -, -, -, -, h, -, -⟩ := powerDown_facts (matedAs .absent s)
      exact h
    · rfl
  rw [mateStage_eq, mateTo_dark s rfl, ← follows]
  generalize followSupply (matedAs .absent s) = t at dark raised
  by_cases hm : s.slot.mated = .all
  · simp only [hm, ne_eq, reduceCtorEq, not_false_eq_true, and_self, if_true, raise, dark, Bool.and_false,
      Bool.false_eq_true, if_false, raised]
  · simp only [hm, false_and, if_false, dark, Bool.and_false, Bool.false_eq_true, List.append_nil, ← raised]

theorem txFaultWire_unmated {s : State} (h : s.slot.mated ≠ .all) : txFaultWire s = .high := if_pos h

theorem rxLosWire_unmated {s : State} (h : s.slot.mated ≠ .all) : rxLosWire s = .high := if_pos h

theorem modAbsWire_unmated {s : State} (h : s.slot.mated ≠ .all) (hp : s.cfg.modAbsPullUp = true) :
    modAbsWire s = .high := by
  rw [modAbsWire, if_neg h, if_pos hp]

theorem modAbsWire_mated {s : State} (h : s.slot.mated = .all) : modAbsWire s = .low := if_pos h

/-- Settles O56: a module with power loses it, and one without has nothing to lose. -/
theorem remove : Obligations.Remove := by
  intro s
  refine ⟨_, congrArg Host.Outcome.next (mateStage_absent s), ?_⟩
  cases hp : s.slot.powered
  case false =>
    have unmated : Mated.absent ≠ .all := by decide
    have empty (hm : s.slot.mated = .absent) :
        s.raised ++ (if s.slot.mated = .all then [.modAbsent] else []) = s.raised := by
      rw [if_neg (hm.trans_ne unmated), List.append_nil]
    rw [if_neg Bool.false_ne_true]
    exact ⟨rfl, hp, txFaultWire_unmated unmated, rxLosWire_unmated unmated, fun pull => modAbsWire_unmated unmated pull, rfl,
      fun hm _ => by rw [empty hm, matedAs, ← hm], nofun, fun _ _ => rfl, fun _ _ _ => rfl, rfl, rfl, rfl, rfl, rfl⟩
  case true =>
    obtain ⟨slot, state, latch, output, level, wbuf, idle, -, busy, cycles, kept, aside, out, cfg, -, now, host⟩ :=
      powerDown_facts (matedAs .absent s)
    have absent : (powerDown (matedAs .absent s)).slot.mated = .absent := by rw [slot]; rfl
    have unmated : (powerDown (matedAs .absent s)).slot.mated ≠ .all := by rw [absent]; decide
    exact ⟨absent, rfl, txFaultWire_unmated unmated, rxLosWire_unmated unmated,
      fun pull => modAbsWire_unmated unmated ((congrArg Params.modAbsPullUp cfg).trans pull), rfl, fun _ => nofun,
      fun _ => ⟨state, latch, output, rfl, rfl, rfl, level, fun q => by cases q <;> rfl, idle, wbuf, rfl, busy⟩,
      fun h => kept (h.resolve_right nofun), aside, host, out, cfg, cycles, now⟩

/-! ### A module that has its power -/

theorem reTx_soft (b : Bool) (s : State) : (reTx b s).tx.soft = s.tx.soft := by
  obtain ⟨rises, -⟩ := txRise_asserted s
  obtain ⟨⟨-, falls, -⟩, -⟩ := txFall_negated s
  unfold reTx
  split
  · rfl
  · split
    · rw [rises]
    · split
      · exact falls
      · rfl

/-- What "told to be off" rests on, in two states. -/
theorem txOff_congr {s t : State} (hc : t.cfg = s.cfg) (hi : txDisableIn t = txDisableIn s) (hs : t.tx.soft = s.tx.soft) :
    txOff t = txOff s := by
  rw [txOff, hc, hi, hs]
  rfl

/-- What both rates do where others were asked for until now. -/
structure RatesAsked (rx tx : Bool) (s t : State) : Prop where
  frame : ∃ d0 d1 c n, t = { s with
    rate := { s.rate with due0 := d0, due1 := d1, changeAt := c }, clk := { s.clk with drawn := n } }
  rxHit : s.cfg.rs0Used = true ∧ s.cfg.asMode = false ∧ rxWanted t ≠ rx →
    t.rate.changeAt = s.clk.now ∧ ∃ d, t.rate.due0 = some d ∧ s.clk.now ≤ d ∧ d ≤ s.clk.now + tRate s.cfg
  rxMiss : s.cfg.rs0Used = false ∨ s.cfg.asMode = true ∨ rxWanted t = rx → t.rate.due0 = s.rate.due0
  txHit : s.cfg.rs1Used = true ∧ s.cfg.asMode = false ∧ txWanted t ≠ tx →
    t.rate.changeAt = s.clk.now ∧ ∃ d, t.rate.due1 = some d ∧ s.clk.now ≤ d ∧ d ≤ s.clk.now + tRate s.cfg
  txMiss : s.cfg.rs1Used = false ∨ s.cfg.asMode = true ∨ txWanted t = tx → t.rate.due1 = s.rate.due1

/-- The receive rate first, then the transmit rate: neither moves what the other is asked for. -/
theorem reRates_asked {s : State} (hp : s.slot.powered = true) (b c : Bool) :
    RatesAsked b c s (reTxRate c (reRx b s)) := by
  have k := reRx_asked b s
  generalize reRx b s = t at k
  have m := reTxRate_asked c t
  generalize reTxRate c t = u at m
  have power : t.slot.powered = true := by rw [k.frame]; exact hp
  have now : t.clk.now = s.clk.now := by rw [k.frame]
  have cfg : t.cfg = s.cfg := by rw [k.frame]
  have due1 : t.rate.due1 = s.rate.due1 := by rw [k.frame]
  have due0 : u.rate.due0 = t.rate.due0 := by rw [m.frame]
  have rx : rxWanted u = rxWanted s := m.wanted.1.trans k.wanted.1
  refine ⟨⟨u.rate.due0, u.rate.due1, u.rate.changeAt, u.clk.drawn, ?_⟩, ?_, fun h => ?_, ?_, fun h => ?_⟩
  · rw [m.frame, k.frame]
  · rintro ⟨used, rated, ne⟩
    obtain ⟨change, due⟩ := k.hit used rated hp (rx.symm.trans_ne ne)
    refine ⟨m.change.elim (fun same => same.trans change) (fun new => new.trans now), ?_⟩
    rw [due0]
    exact due
  · rw [due0]
    exact congrArg RateUnit.due0 (k.miss (h.imp_right (Or.imp_right fun same => .inr (rx.symm.trans same))))
  · rintro ⟨used, rated, ne⟩
    rw [← now, ← cfg]
    exact m.hit (cfg ▸ used) (cfg ▸ rated) power (m.wanted.2.symm.trans_ne ne)
  · rw [← due1]
    refine congrArg RateUnit.due1 (m.miss ?_)
    rw [cfg]
    exact h.imp_right (Or.imp_right fun same => .inr (m.wanted.2.symm.trans same))

/-- What the control contacts do as they mate: the transmitter and the rates of a module that has its power follow what it
reads there. -/
structure Remated (s t : State) : Prop where
  frame : t = { s with
    slot := { s.slot with mated := .all }, host := { s.host with railAt := none }, tx := t.tx
    rate := { s.rate with due0 := t.rate.due0, due1 := t.rate.due1, changeAt := t.rate.changeAt }
    clk := { s.clk with drawn := t.clk.drawn } }
  dark : s.cfg.passiveCable = true ∨ txOff t = true → t.tx = s.tx
  lit : s.cfg.passiveCable = false → txOff t = false → negated s s.clk.now s.tx t.tx
  rates : RatesAsked (rxWanted s) (txWanted s) { matedAs .all s with tx := t.tx } t

/-- The last stage of mating, as a module that has its power sees it: until then nothing reached its control contacts. -/
theorem mateStage_remated {s : State} (hm : s.slot.mated ≠ .all) (hp : s.slot.powered = true) (hT : s.host.vccT = true)
    (hR : s.host.vccR = true) : Remated s (mateStage .all s) := by
  have plugged : mateTo .all s = matedAs .all s := mateTo_supplied .all hp (hT.trans hR.symm)
  have live : supplied (mateTo .all s) = true := by rw [supplied_mateTo, hT, hR]; rfl
  rw [mateStage_kept .all s hm hp live, plugged]
  have told : txOff s = true := txOff_of_high (if_neg hm)
  have off : txOff (reTx (txOff s) (matedAs .all s)) = txOff (matedAs .all s) := by
    rw [(reTx_txOnly (txOff s) (matedAs .all s)).eq]
    exact txOff_congr rfl rfl (reTx_soft _ _)
  have dark : s.cfg.passiveCable = true ∨ txOff (matedAs .all s) = true →
      reTx (txOff s) (matedAs .all s) = matedAs .all s :=
    fun h => reTx_kept (h.imp_right fun on => .inr (on.trans told.symm))
  have lit : s.cfg.passiveCable = false → txOff (matedAs .all s) = false →
      negated s s.clk.now s.tx (reTx (txOff s) (matedAs .all s)).tx := by
    intro hc on
    rw [told, reTx_fall (s := matedAs .all s) hc hp on]
    exact txFall_negated (matedAs .all s)
  obtain ⟨a, n, only⟩ := reTx_txOnly (txOff s) (matedAs .all s)
  generalize reTx (txOff s) (matedAs .all s) = x at off dark lit only
  have power : x.slot.powered = true := by rw [only]; exact hp
  have k := reRates_asked power (rxWanted s) (txWanted s)
  generalize reTxRate (txWanted s) (reRx (rxWanted s) x) = z at k
  obtain ⟨d0, d1, c, m, hz⟩ := k.frame
  have tx : z.tx = x.tx := by rw [hz]
  have offz : txOff z = txOff (matedAs .all s) := by rw [hz]; exact off
  refine ⟨by rw [hz, only]; rfl, fun h => ?_, fun hc on => ?_, ?_⟩
  · rw [tx, dark (h.imp_right offz.symm.trans)]; rfl
  · rw [tx]; exact lit hc (offz.symm.trans on)
  · subst only
    exact ⟨⟨d0, d1, c, m, by rw [hz]⟩, k.rxHit, k.rxMiss, k.txHit, k.txMiss⟩

/-! ### A module that gets its power as it mates -/

/-- What power-up leaves of everything but the transmitter; what is not the module's stays. -/
structure PoweredUp (s t : State) : Prop where
  host : t.host = { s.host with railAt := t.host.railAt }
  out : t.out = s.out
  cfg : t.cfg = s.cfg
  raised : t.raised = s.raised
  now : t.clk.now = s.clk.now
  mem : t.mem = s.mem
  cycles : t.wr.cycles = s.wr.cycles
  powered : t.slot.powered = true
  powerAt : t.slot.powerAt = s.clk.now
  ready : t.slot.ready = false
  readyDue : t.slot.readyDue ≤ s.clk.now + Config.t2wStartUp
  soft0 : t.rate.soft0 = s.cfg.softRs0Init
  soft1 : t.rate.soft1 = s.cfg.softRs1Init
  level : t.lvl.level = .one
  idle : t.bus.state = .idle
  wbuf : t.bus.wbuf = []
  busy : t.wr.busy = false

/-- The states that differ from `s` in the contacts, mated as far as `m`, in when VccT came and in which rail is alone there
since when. -/
def SlottedAs (m : Mated) (s t : State) : Prop :=
  ∃ n r, t = { s with slot := { s.slot with mated := m, vccTAt := n }, host := { s.host with railAt := r } }

theorem SlottedAs.self {m : Mated} {s : State} (h : s.slot.mated = m) : SlottedAs m s s :=
  ⟨s.slot.vccTAt, s.host.railAt, by rw [← h]⟩

theorem SlottedAs.mateTo {m : Mated} {s t : State} (k : SlottedAs m s t) (n : Mated) : SlottedAs n s (mateTo n t) := by
  obtain ⟨_, _, rfl⟩ := k
  exact mateTo_eq n _

theorem SlottedAs.matedAs {m : Mated} {s t : State} (k : SlottedAs m s t) (n : Mated) : SlottedAs n s (matedAs n t) := by
  obtain ⟨v, _, rfl⟩ := k
  exact ⟨v, none, rfl⟩

theorem SlottedAs.keeps {m : Mated} {s t : State} (k : SlottedAs m s t) :
    t.slot.mated = m ∧ t.slot.powered = s.slot.powered ∧ t.host.vccT = s.host.vccT ∧ t.host.vccR = s.host.vccR ∧
      t.clk = s.clk := by
  obtain ⟨_, _, rfl⟩ := k
  exact ⟨rfl, rfl, rfl, rfl, rfl⟩

/-- Power-up leaves the same whatever the contacts and the rails were before. -/
theorem SlottedAs.poweredUp {m : Mated} {s t : State} (k : SlottedAs m s t) : PoweredUp s (powerUp t) := by
  obtain ⟨_, _, rfl⟩ := k
  exact ⟨rfl, rfl, rfl, rfl, rfl, rfl, rfl, rfl, rfl, rfl, drawDue_le s 0 _, rfl, rfl, rfl, rfl, rfl, rfl⟩

/-- The mating of the control contacts keeps it. -/
theorem PoweredUp.remated {s t u : State} (k : PoweredUp s t) (r : Remated t u) : PoweredUp s u := by
  rw [r.frame]
  exact ⟨by rw [k.host], k.out, k.cfg, k.raised, k.now, k.mem, k.cycles, k.powered, k.powerAt, k.ready, k.readyDue,
    k.soft0, k.soft1, k.level, k.idle, k.wbuf, k.busy⟩

/-- The start-up ends within t_init of now. -/
theorem startDue_bounds (s : State) (k : Nat) : s.clk.now ≤ startDue s k ∧ startDue s k ≤ s.clk.now + tInit s.cfg := by
  have drawn := drawNat_le s k (tInit s.cfg)
  unfold startDue
  omega

/-- What power-up makes of the transmitter where all contacts have mated (70_reset_and_hazards.md R671, R672). -/
structure TxStarted (s : State) (y : TxUnit) : Prop where
  latch : y.latch = false
  output : y.outputOn = false
  soft : y.soft = s.cfg.softTxInit
  waits : s.cfg.passiveCable = false → s.host.txDisable = .high → y.state = .disabled
  starts : s.host.txDisable = .low → (s.cfg.txDisCombine = .or → s.cfg.softTxInit = false) →
    y.state = .initializing ∧ ∃ d, y.due = some d ∧ s.clk.now ≤ d ∧ d ≤ s.clk.now + tInit s.cfg

/-- The transmitter starts with the power where nothing tells it to be off, -/
theorem freshTx_starts {s : State}
    (h : s.cfg.passiveCable = true ∨ txOff { s with tx := { s.tx with soft := s.cfg.softTxInit } } = false) :
    (freshTx s).state = .initializing ∧
      ∃ d, (freshTx s).due = some d ∧ s.clk.now ≤ d ∧ d ≤ s.clk.now + tInit s.cfg := by
  have starts : (s.cfg.passiveCable || !txOff { s with tx := { s.tx with soft := s.cfg.softTxInit } }) = true := by
    rcases h with h | h <;> simp [h]
  exact ⟨if_pos starts, _, if_pos starts, startDue_bounds s 1⟩

/-- and waits for its first negation otherwise. -/
theorem freshTx_waits {s : State} (hc : s.cfg.passiveCable = false)
    (h : txOff { s with tx := { s.tx with soft := s.cfg.softTxInit } } = true) : (freshTx s).state = .disabled := by
  simp [freshTx, hc, h]

theorem SlottedAs.txStarted {m : Mated} {s t : State} {y : TxUnit} (k : SlottedAs m s t) (h : TxStarted t y) :
    TxStarted s y := by
  obtain ⟨_, _, rfl⟩ := k
  exact ⟨h.latch, h.output, h.soft, h.waits, h.starts⟩

/-- With all contacts mated before the power comes, Tx_Disable is read at the host's level. -/
theorem freshTx_started {s : State} (hm : s.slot.mated = .all) : TxStarted s (freshTx s) where
  latch := rfl
  output := rfl
  soft := rfl
  waits hc high := freshTx_waits hc (txOff_of_high ((if_pos hm).trans high))
  starts low soft := freshTx_starts (.inr (txOff_eq_false.2 ⟨(if_pos hm).trans low, soft⟩))

/-- With power before the control contacts, Tx_Disable is high through the pull-up, and the mating is its first negation where
the host has it low. -/
theorem powerUp_remated {s u : State} (hm : s.slot.mated ≠ .all) (r : Remated (powerUp s) u) : TxStarted s u.tx := by
  have cfg : u.cfg = s.cfg := by rw [r.frame]; rfl
  have input : txDisableIn u = s.host.txDisable := by rw [r.frame]; rfl
  have dark : txOff { s with tx := { s.tx with soft := s.cfg.softTxInit } } = true := txOff_of_high (if_neg hm)
  cases hc : s.cfg.passiveCable
  case true =>
    have kept : u.tx = freshTx s := r.dark (.inl hc)
    rw [kept]
    exact ⟨rfl, rfl, rfl, fun lit => absurd (hc.symm.trans lit) (by decide), fun _ _ => freshTx_starts (.inl hc)⟩
  case false =>
    have waits : (freshTx s).state = .disabled := freshTx_waits hc dark
    cases off : txOff u
    case true =>
      have kept : u.tx = freshTx s := r.dark (.inr off)
      have soft : u.tx.soft = s.cfg.softTxInit := by rw [kept]; rfl
      rw [kept]
      refine ⟨rfl, rfl, rfl, fun _ _ => waits, fun low told => ?_⟩
      have on : txOff u = false := txOff_eq_false.2 ⟨input.trans low, by rw [cfg, soft]; exact told⟩
      exact absurd (off.symm.trans on) (by decide)
    case false =>
      obtain ⟨⟨-, soft, -, -⟩, first, -⟩ := r.lit hc off
      obtain ⟨-, starts⟩ := first waits rfl rfl
      obtain ⟨state, latch, output, -, due, -⟩ := starts rfl
      refine ⟨latch, output, soft, fun _ high => ?_, fun _ _ => ⟨state, due⟩⟩
      exact absurd (off.symm.trans (txOff_of_high (input.trans high))) (by decide)

/-! ### Insertion -/

/-- From the power contacts on one stage is left. -/
theorem execInsert_power {s : State} (h : s.slot.mated = .power) : execInsert s = .next (mateStage .all s) := by
  rw [execInsert, h]

/-- A module without power notices nothing of the stages before the power contacts. -/
theorem mateStage_dark {m : Mated} {s : State} (hs : s.slot.mated ≠ .all) (hp : s.slot.powered = false)
    (hm : powerMated m = false) : mateStage m s = matedAs m s := by
  rw [mateStage_off m s hs hp (by rw [supplied_mateTo, hm, Bool.and_false]), mateTo_dark s hm]

/-- Before them the power contacts and the control contacts are left, in this order. -/
theorem execInsert_below {s : State} (h : powerMated s.slot.mated = false) (hp : s.slot.powered = false) :
    ∃ m t, powerMated m = false ∧ SlottedAs m s t ∧ execInsert s = .next (mateStage .all (mateStage .power t)) := by
  have dark {m n : Mated} {t : State} (k : SlottedAs m s t) (hm : m ≠ .all) (hn : powerMated n = false) :
      mateStage n t = matedAs n t := by
    obtain ⟨mated, powered, -⟩ := k.keeps
    exact mateStage_dark (mated.trans_ne hm) (powered.trans hp) hn
  unfold execInsert
  cases hm : s.slot.mated
  case absent =>
    have k := SlottedAs.self hm
    refine ⟨.grounds, matedAs .grounds (matedAs .caseOnly s), rfl, (k.matedAs _).matedAs _, ?_⟩
    dsimp only
    rw [dark k (by decide) rfl, dark (k.matedAs .caseOnly) (by decide) rfl]
  case caseOnly =>
    have k := SlottedAs.self hm
    refine ⟨.grounds, matedAs .grounds s, rfl, k.matedAs _, ?_⟩
    dsimp only
    rw [dark k (by decide) rfl]
  case grounds => exact ⟨.grounds, s, rfl, SlottedAs.self hm, rfl⟩
  case power | all => rw [hm] at h; cases h

theorem powerMated_eq_false {m : Mated} (h : m ≠ .all) (hp : m ≠ .power) : powerMated m = false := by
  simp [powerMated, h, hp]

/-- What insertion leaves of a slot that does not get both rails: the contacts mated, and which rail is alone there. -/
structure Waiting (s t : State) : Prop where
  slotted : SlottedAs .all s t
  even : s.host.vccT = s.host.vccR → t.host.railAt = none
  comes : s.host.vccT ≠ s.host.vccR → s.slot.mated ≠ .power → t.host.railAt = some s.clk.now
  stays : s.host.vccT ≠ s.host.vccR → s.slot.mated = .power → t.host.railAt = s.host.railAt

/-- Without both rails every stage only mates. -/
theorem insert_unsupplied {s : State} (hm : s.slot.mated ≠ .all) (hp : s.slot.powered = false)
    (off : (s.host.vccT && s.host.vccR) = false) : ∃ t, execInsert s = .next t ∧ Waiting s t := by
  have stage {m n : Mated} {t : State} (k : SlottedAs m s t) (h : m ≠ .all) : mateStage n t = mateTo n t := by
    obtain ⟨mated, powered, hT, hR, -⟩ := k.keeps
    exact mateStage_off n t (mated.trans_ne h) (powered.trans hp) (by rw [supplied_mateTo, hT, hR, off, Bool.false_and])
  have even {m : Mated} {t : State} (k : SlottedAs m s t) (h : s.host.vccT = s.host.vccR) :
      (mateTo .all t).host.railAt = none := by
    obtain ⟨-, -, hT, hR, -⟩ := k.keeps
    rw [mateTo_even (.inr (hT.trans (h.trans hR.symm)))]
  by_cases power : s.slot.mated = .power
  case pos =>
    have k := SlottedAs.self power
    exact ⟨mateTo .all s, by rw [execInsert_power power, stage k (by decide)], k.mateTo .all, even k,
      fun _ ne => absurd power ne, fun h _ => mateTo_lone h (by rw [power]; rfl) rfl⟩
  case neg =>
    obtain ⟨m, v, dark, k, e⟩ := execInsert_below (powerMated_eq_false hm power) hp
    have grounded : m ≠ .all := by rintro rfl; cases dark
    obtain ⟨mated, -, vT, vR, clk⟩ := k.keeps
    have w := k.mateTo .power
    obtain ⟨wmated, -, wT, wR, -⟩ := w.keeps
    refine ⟨mateTo .all (mateTo .power v), by rw [e, stage k grounded, stage w (by decide)], w.mateTo .all, even w,
      fun h _ => ?_, fun _ h => absurd h power⟩
    rw [mateTo_lone (by rw [wT, wR]; exact h) (by rw [wmated]; rfl) rfl,
      mateTo_lone_comes (by rw [vT, vR]; exact h) (by rw [mated]; exact dark) rfl, clk]

/-- With both rails the module starts: as the last contacts mate, or with the power contacts, before the control contacts. -/
theorem insert_supplied {s : State} (hm : s.slot.mated ≠ .all) (hp : s.slot.powered = false)
    (on : (s.host.vccT && s.host.vccR) = true) :
    ∃ t, execInsert s = .next t ∧ t.slot.mated = .all ∧ t.host.railAt = none ∧ PoweredUp s t ∧ TxStarted s t.tx := by
  have stage {m n : Mated} {t : State} (k : SlottedAs m s t) (h : m ≠ .all) (hn : powerMated n = true) :
      mateStage n t = powerUp (mateTo n t) := by
    obtain ⟨mated, powered, hT, hR, -⟩ := k.keeps
    exact mateStage_on n t (mated.trans_ne h) (powered.trans hp) (by rw [supplied_mateTo, hT, hR, on, hn]; rfl)
  obtain ⟨onT, onR⟩ := Bool.and_eq_true_iff.1 on
  by_cases power : s.slot.mated = .power
  case pos =>
    have k := SlottedAs.self power
    have all := k.mateTo .all
    obtain ⟨mated, -⟩ := all.keeps
    have alone : (mateTo .all s).host.railAt = none := by rw [mateTo_even (.inr (onT.trans onR.symm))]
    exact ⟨powerUp (mateTo .all s), by rw [execInsert_power power, stage k (by decide) rfl], mated, alone, all.poweredUp,
      all.txStarted (freshTx_started mated)⟩
  case neg =>
    obtain ⟨m, v, dark, k, e⟩ := execInsert_below (powerMated_eq_false hm power) hp
    have grounded : m ≠ .all := by rintro rfl; cases dark
    have half := k.mateTo .power
    obtain ⟨mated, -, hT, hR, -⟩ := half.keeps
    have apart : (mateTo .power v).slot.mated ≠ .all := mated.trans_ne (by decide)
    have r : Remated (powerUp (mateTo .power v)) (mateStage .all (powerUp (mateTo .power v))) :=
      mateStage_remated apart rfl (hT.trans onT) (hR.trans onR)
    exact ⟨_, by rw [e, stage k grounded rfl], by rw [r.frame], by rw [r.frame], half.poweredUp.remated r,
      half.txStarted (powerUp_remated apart r)⟩

/-- Settles O55: nothing is left to mate; or a module with power gets its control contacts; or one without waits or starts. -/
theorem insert : Obligations.Insert := by
  intro s
  refine ⟨fun hm => ?_, fun hm hp hT hR => ?_, fun hm hp => ?_⟩
  · show execInsert s = _
    rw [execInsert, hm]
  · have k := mateStage_remated (hm.trans_ne (by decide)) hp hT hR
    refine ⟨_, execInsert_power hm, modAbsWire_mated (by rw [k.frame]), k.frame, k.dark, k.lit, k.rates.rxHit,
      k.rates.rxMiss, k.rates.txHit, k.rates.txMiss⟩
  · cases on : s.host.vccT && s.host.vccR
    case false =>
      obtain ⟨t, e, w⟩ := insert_unsupplied hm hp on
      obtain ⟨⟨n, r, rfl⟩, even, comes, stays⟩ := w
      exact ⟨_, e, rfl, modAbsWire_mated rfl, rfl, even, comes, stays, rfl, rfl, rfl, rfl, fun _ => rfl, rfl,
        fun _ => rfl, nofun⟩
    case true =>
      obtain ⟨t, e, mated, alone, k, x⟩ := insert_supplied hm hp on
      have both : s.host.vccT = s.host.vccR := by
        obtain ⟨hT, hR⟩ := Bool.and_eq_true_iff.1 on
        rw [hT, hR]
      refine ⟨t, e, mated, modAbsWire_mated mated, k.host, fun _ => alone, fun ne => absurd both ne,
        fun ne => absurd both ne, k.out, k.cfg, k.raised, k.now, fun key => by rw [readByte, k.cfg, k.mem, readByte],
        k.cycles, nofun, fun _ => ⟨k.powered, k.powerAt, k.ready, k.readyDue, x.latch, x.output, x.soft, k.soft0, k.soft1,
        k.level, k.idle, k.wbuf, k.busy, x.waits, x.starts⟩⟩

end Sys2Proof.Machine
end

section
/-! The software rate selects, written over the bus (40_low_speed_control.md R172, R173, R175; 20_memory.md R93, R99). -/

namespace Sys2Proof.Machine

/-! ### A byte in its write cycle -/

/-- The state after a byte `x` has been written to address `a` of a space: in its write cycle, with the bus free. -/
structure InCycle (s t : State) (sp : Space) (a x : Byte) : Prop where
  cfg : t.cfg = s.cfg
  out : t.out = s.out
  slot : t.slot = s.slot
  rate : t.rate = s.rate
  host : t.host = { s.host with inFrame := false }
  busy : t.wr.busy = true
  later : s.clk.now ≤ t.wr.startAt
  now : t.clk.now = t.wr.startAt
  due_ge : t.wr.startAt ≤ t.wr.due
  due_le : t.wr.due ≤ t.wr.startAt + Config.tWr4
  sel : t.bus.sel = sp
  wbuf : t.bus.wbuf = [(a, x)]
  state : t.bus.state = .idle
  sda : t.bus.sda = .high
  stretching : t.bus.stretching = s.bus.stretching

/-- The STOP of a write of one byte begins its write cycle, whatever controls take effect there. -/
theorem Wrote.inCycle {s u : State} {sp : Space} {a x : Byte} (w : Wrote s u sp a x) (d : Option Nat × Bool) :
    InCycle s (closed d (stopLevel u.bus (stopSoftTx u.bus (beginWrite u)))) sp a x := by
  obtain ⟨y, n, ey⟩ := stopSoftTx_txOnly u.bus (beginWrite u)
  rw [ey]
  obtain ⟨z, m, ez⟩ := stopLevel_lvlOnly u.bus { beginWrite u with tx := y, clk := { (beginWrite u).clk with drawn := n } }
  rw [ez]
  have due : (beginWrite u).wr.due = drawDue u 0 Config.tWr4 := by
    show drawDue u 0 (if u.bus.wbuf.length ≤ 4 then Config.tWr4 else Config.tWr8) = _
    rw [w.wbuf]
    rfl
  exact ⟨w.cfg, w.out, w.slot, w.rate, congrArg (fun h : HostSide => { h with inFrame := false }) w.host, rfl,
    (Nat.le_add_right _ _).trans w.now, rfl, due.symm ▸ drawDue_ge u 0 _, due.symm ▸ drawDue_le u 0 _, w.sel, w.wbuf,
    rfl, rfl, w.stretching⟩

/-- A control in the byte written takes the value written there, -/
theorem InCycle.control_hit {s t : State} {sp : Space} {a x : Byte} (k : InCycle s t sp a x) {f : Field}
    (h : memKey sp a = memKey f.space f.addr) : controlFor t.bus f = some (fieldGet f x) := by
  obtain ⟨hs, ha⟩ := memKey_inj h
  rw [controlFor, wordFor, k.sel, if_pos hs, k.wbuf, ha]
  simp

/-- and a control in another byte takes none. -/
theorem InCycle.control_miss {s t : State} {sp : Space} {a x : Byte} (k : InCycle s t sp a x) {f : Field}
    (h : memKey sp a ≠ memKey f.space f.addr) : controlFor t.bus f = none := by
  rw [controlFor, wordFor_none (by rw [k.wbuf, k.sel]; simpa using h)]
  rfl

/-- When its write cycle has ended, the bus is ready for the next frame. -/
theorem InCycle.after {s t u : State} {sp : Space} {a x : Byte} (k : InCycle s t sp a x) (h : frameReady s)
    (c : Committed t u) : frameReady u := by
  obtain ⟨⟨lis, held, nack, released, waits, scl⟩, -, -⟩ := h
  obtain ⟨mated, powered, ready, stuck, -⟩ := (listening_iff s).1 lis
  rw [← k.slot] at mated powered ready stuck
  exact ⟨⟨c.listening mated powered ready stuck, by rw [c.out, k.out, held], by rw [c.cfg, k.cfg, nack],
    by rw [c.bus, k.stretching, released], by rw [c.host, k.host]; exact waits, by rw [c.out, k.out, scl]⟩,
    by rw [c.bus, k.sda], fun q => by rw [c.bus]⟩

/-! ### The rates at the end of the write cycle -/

/-- What values for the rate selects do to both rates: each one whose wanted value changes gets its instant. -/
structure RatesTaken (s u : State) : Prop where
  rxHigh : u.rate.rxHigh = s.rate.rxHigh
  txHigh : u.rate.txHigh = s.rate.txHigh
  rxHit : s.cfg.rs0Used = true → s.cfg.asMode = false → rxWanted u ≠ rxWanted s →
    u.rate.changeAt = s.clk.now ∧ ∃ d, u.rate.due0 = some d ∧ s.clk.now ≤ d ∧ d ≤ s.clk.now + tRate s.cfg
  rxMiss : s.cfg.rs0Used = false ∨ s.cfg.asMode = true ∨ rxWanted u = rxWanted s → u.rate.due0 = s.rate.due0
  txHit : s.cfg.rs1Used = true → s.cfg.asMode = false → txWanted u ≠ txWanted s →
    u.rate.changeAt = s.clk.now ∧ ∃ d, u.rate.due1 = some d ∧ s.clk.now ≤ d ∧ d ≤ s.clk.now + tRate s.cfg
  txMiss : s.cfg.rs1Used = false ∨ s.cfg.asMode = true ∨ txWanted u = txWanted s → u.rate.due1 = s.rate.due1

theorem softRates_taken (b : Bus) {s : State} (hp : s.slot.powered = true) : RatesTaken s (softRates b s) := by
  obtain ⟨t, k, m⟩ := softRates_cases b s
  have rx := rxWanted_congr m.cfg m.host m.slot m.soft0
  have tx := txWanted_congr k.cfg k.host k.slot k.soft1
  have power : t.slot.powered = true := by rw [k.slot, hp]
  refine ⟨m.rx.trans k.rx, m.tx.trans k.tx, fun used rated ne => ?_, fun h => ?_, fun used rated ne => ?_, fun h => ?_⟩
  · obtain ⟨change, due⟩ := k.hit used rated hp (rx.symm.trans_ne ne)
    rw [m.due0]
    exact ⟨m.change.elim (fun same => same.trans change) (fun new => new.trans k.now), due⟩
  · rw [m.due0]
    exact k.miss (h.imp_right (Or.imp_right rx.symm.trans))
  · rw [← k.now, ← k.cfg]
    exact m.hit (by rw [k.cfg, used]) (by rw [k.cfg, rated]) power (ne.trans_eq tx.symm)
  · rw [← k.due1]
    refine m.miss ?_
    rw [k.cfg]
    exact h.imp_right (Or.imp_right fun same => same.trans tx.symm)

theorem setSoftRs0_soft (v : Bool) (s : State) :
    (setSoftRs0 v s).rate.soft0 = Level.ofBool v ∧ (setSoftRs0 v s).rate.soft1 = s.rate.soft1 := by
  have k := reRx_asked (rxWanted s) { s with rate := { s.rate with soft0 := Level.ofBool v } }
  rw [setSoftRs0, k.frame]
  exact ⟨rfl, rfl⟩

theorem setSoftRs1_soft (v : Bool) (s : State) :
    (setSoftRs1 v s).rate.soft0 = s.rate.soft0 ∧ (setSoftRs1 v s).rate.soft1 = Level.ofBool v := by
  have k := reTxRate_asked (txWanted s) { s with rate := { s.rate with soft1 := Level.ofBool v } }
  rw [setSoftRs1, k.frame]
  exact ⟨rfl, rfl⟩

/-- Each software rate select takes the value the write has brought for it, if any. -/
theorem softRates_soft (b : Bus) (s : State) :
    (softRates b s).rate.soft0 = ((controlFor b s.cfg.softRs0Field).map Level.ofBool).getD s.rate.soft0 ∧
    (softRates b s).rate.soft1 = ((controlFor b s.cfg.softRs1Field).map Level.ofBool).getD s.rate.soft1 := by
  unfold softRates
  cases controlFor b s.cfg.softRs0Field with
  | none =>
    cases controlFor b s.cfg.softRs1Field with
    | none => exact ⟨rfl, rfl⟩
    | some y => exact setSoftRs1_soft y s
  | some x =>
    obtain ⟨zero, one⟩ := setSoftRs0_soft x s
    cases controlFor b s.cfg.softRs1Field with
    | none => exact ⟨zero, one⟩
    | some y =>
      obtain ⟨kept, new⟩ := setSoftRs1_soft y (setSoftRs0 x s)
      exact ⟨kept.trans zero, new⟩

/-- The state at the end of a write cycle, before the software rate selects take effect. -/
def cycleEnd (s : State) : State :=
  { s with
    mem := Memory.writeAll s.cfg s.wr.space s.bus.wbuf s.mem
    bus := { s.bus with wbuf := [] }
    wr := { s.wr with busy := false }
    clk := { s.clk with now := s.wr.due } }

/-- The end of a write cycle is as of its instant for the rates, whenever it comes to be looked at. -/
theorem commitWrite_rates (s : State) (n : Nat) :
    (commitWrite { s with clk := { s.clk with now := n } }).rate = (softRates s.bus (cycleEnd s)).rate ∧
    rxWanted (commitWrite { s with clk := { s.clk with now := n } }) = rxWanted (softRates s.bus (cycleEnd s)) :=
  ⟨rfl, rfl⟩

/-- The timers change no receive rate asked for. -/
theorem lateTimers_rxWanted (s : State) : rxWanted (lateTimers s) = rxWanted s :=
  have k := lateTimers_ticks s
  rxWanted_congr k.cfg k.host k.slot (by rw [lateTimers_ratesSettled]; rfl)

/-- What a host that waits for the end of a write cycle finds: its controls taken, and then the timers run. -/
structure Awaited (s t : State) : Prop where
  committed : Committed s t
  now : s.wr.due ≤ t.clk.now
  soft0 : t.rate.soft0 = (softRates s.bus (cycleEnd s)).rate.soft0
  soft1 : t.rate.soft1 = (softRates s.bus (cycleEnd s)).rate.soft1
  rx : rxWanted t = rxWanted (softRates s.bus (cycleEnd s))
  hit : s.slot.powered = true → s.cfg.rs0Used = true → s.cfg.asMode = false → rxWanted t ≠ rxWanted s →
    t.rate.changeAt = s.wr.due ∧
    (t.rate.due0 = none ∧ t.rate.rxHigh = rxWanted t ∨
      ∃ d, t.rate.due0 = some d ∧ s.wr.due ≤ d ∧ d ≤ s.wr.due + tRate s.cfg)

theorem waitUntil_awaited {s : State} (hr : s.slot.ready = true) (hb : s.wr.busy = true) :
    Awaited s (waitUntil s.wr.due s) := by
  have committed := waitUntil_committed hr hb
  obtain ⟨rate, rx⟩ := commitWrite_rates s (max s.clk.now s.wr.due)
  have now : s.wr.due ≤ (commitWrite { s with clk := { s.clk with now := max s.clk.now s.wr.due } }).clk.now :=
    Nat.le_max_right _ _
  have waited : waitUntil s.wr.due s =
      lateTimers (commitWrite { s with clk := { s.clk with now := max s.clk.now s.wr.due } }) := by
    rw [waitUntil, settle_eq, settleReady_ready (s := { s with clk := { s.clk with now := max s.clk.now s.wr.due } }) hr,
      settleWrite_due (s := { s with clk := { s.clk with now := max s.clk.now s.wr.due } }) hb (Nat.le_max_right _ _)]
  rw [waited] at committed ⊢
  generalize commitWrite { s with clk := { s.clk with now := max s.clk.now s.wr.due } } = u at rate rx now committed
  have settled := lateTimers_ratesSettled u
  have wanted := lateTimers_rxWanted u
  refine ⟨committed, now.trans_eq (congrArg Clock.now (lateTimers_ticks u).clk).symm, ?_, ?_, wanted.trans rx,
    fun hp used rated ne => ?_⟩
  · rw [settled, ← rate]; rfl
  · rw [settled, ← rate]; rfl
  · have changes : rxWanted (softRates s.bus (cycleEnd s)) ≠ rxWanted s := (wanted.trans rx).symm.trans_ne ne
    obtain ⟨change, d, due, ge, le⟩ := (softRates_taken s.bus (s := cycleEnd s) hp).rxHit used rated changes
    rw [← rate] at change due
    rw [settled, wanted]
    refine ⟨change, ?_⟩
    cases come : isDue (some d) u
    · exact .inr ⟨d, by simp [ratesSettled, due, come], ge, le⟩
    · exact .inl ⟨by simp [ratesSettled, due, come], by simp [ratesSettled, due, come]⟩

/-! ### The operation -/

/-- On a bus that is ready a bus operation answers what its body leaves. -/
theorem clocked_ready (f : State → State) {s : State} (h : frameReady s) : clocked f s = .next (f s) := by
  obtain ⟨⟨-, -, -, released, waits, scl⟩, -, -⟩ := h
  exact clocked_free f (sclHeld_free released scl) waits

theorem execSoftRateSelect_ready (x y : Level) {s : State} (h : frameReady s) :
    exec (.softRateSelect x y) s = .next (writeSoftRate x.toBool y.toBool s) := clocked_ready _ h

/-- A byte rewritten on a bus that is ready: its write cycle runs. -/
theorem rewriteByte_inCycle {s : State} (h : frameReady s) (sp : Space) (a : Byte) (f : Byte → Byte) :
    ∃ v, InCycle s (rewriteByte sp a f s) sp a (f v) := by
  obtain ⟨w, v, d, u, -, -, -, -, e, k⟩ := rewrite_one h sp a f
  exact ⟨v, by rw [e]; exact k.inCycle d⟩

/-- A state `t` of the module of `s` in the write cycle whose end gives the software rate selects the values `x` and `y`. -/
structure Selects (x y : Level) (s t : State) : Prop where
  cfg : t.cfg = s.cfg
  ready : t.slot.ready = true
  powered : t.slot.powered = true
  busy : t.wr.busy = true
  now : t.clk.now = t.wr.startAt
  due_ge : t.wr.startAt ≤ t.wr.due
  due_le : t.wr.due ≤ t.wr.startAt + Config.tWr4
  soft0 : (softRates t.bus (cycleEnd t)).rate.soft0 = x
  soft1 : (softRates t.bus (cycleEnd t)).rate.soft1 = y

/-- A byte in its write cycle whose end sets both values. -/
theorem InCycle.selects {s t : State} {sp : Space} {a b : Byte} {x y : Level} (k : InCycle s t sp a b) (h : frameReady s)
    (soft0 : (softRates t.bus (cycleEnd t)).rate.soft0 = x) (soft1 : (softRates t.bus (cycleEnd t)).rate.soft1 = y) :
    Selects x y s t := by
  obtain ⟨⟨lis, -⟩, -, -⟩ := h
  obtain ⟨-, powered, ready, -, -⟩ := (listening_iff s).1 lis
  exact ⟨k.cfg, by rw [k.slot, ready], by rw [k.slot, powered], k.busy, k.now, k.due_ge, k.due_le, soft0, soft1⟩

/-- Both selects in one byte: a read, and a write of both bits. -/
theorem softRate_one {s : State} (h : frameReady s) (c : controlsApart s.cfg) (x y : Level)
    (one : memKey s.cfg.softRs0Field.space s.cfg.softRs0Field.addr
      = memKey s.cfg.softRs1Field.space s.cfg.softRs1Field.addr) :
    Selects x y s (writeSoftRate x.toBool y.toBool s) := by
  obtain ⟨-, -, zero, other, apart, -⟩ := c
  rw [writeSoftRate, if_pos one]
  obtain ⟨v, k⟩ := rewriteByte_inCycle h s.cfg.softRs0Field.space s.cfg.softRs0Field.addr
    fun v => fieldPut s.cfg.softRs1Field y.toBool (fieldPut s.cfg.softRs0Field x.toBool v)
  generalize rewriteByte _ _ _ s = t at k ⊢
  obtain ⟨soft0, soft1⟩ := softRates_soft t.bus (cycleEnd t)
  have cfg : (cycleEnd t).cfg = s.cfg := k.cfg
  rw [cfg, k.control_hit rfl, fieldGet_put_apart _ _ _ _ _ zero (apart one)] at soft0
  rw [cfg, k.control_hit one, fieldGet_put _ _ _ other] at soft1
  exact k.selects h (soft0.trans (ofBool_toBool x)) (soft1.trans (ofBool_toBool y))

/-- What the first of two writes leaves once its write cycle has ended. -/
structure FirstWrite (x : Level) (s t : State) : Prop where
  ready : frameReady t
  cfg : t.cfg = s.cfg
  slot : t.slot = s.slot
  host : t.host = { s.host with inFrame := false }
  soft0 : t.rate.soft0 = x
  soft1 : t.rate.soft1 = s.rate.soft1
  rx : s.cfg.rs0Used = true → s.cfg.asMode = false → rxWanted t ≠ rxWanted s →
    s.clk.now ≤ t.rate.changeAt ∧ t.rate.changeAt ≤ t.clk.now ∧
    (t.rate.due0 = none ∧ t.rate.rxHigh = rxWanted t ∨
      ∃ d, t.rate.due0 = some d ∧ t.rate.changeAt ≤ d ∧ d ≤ t.rate.changeAt + tRate s.cfg)

theorem firstWrite {s : State} (h : frameReady s) (c : controlsApart s.cfg) (x : Level)
    (two : memKey s.cfg.softRs0Field.space s.cfg.softRs0Field.addr
      ≠ memKey s.cfg.softRs1Field.space s.cfg.softRs1Field.addr) :
    FirstWrite x s (awaitWrite (rewriteByte s.cfg.softRs0Field.space s.cfg.softRs0Field.addr
      (fieldPut s.cfg.softRs0Field x.toBool) s)) := by
  obtain ⟨-, -, zero, -⟩ := c
  obtain ⟨v, k⟩ := rewriteByte_inCycle h s.cfg.softRs0Field.space s.cfg.softRs0Field.addr
    (fieldPut s.cfg.softRs0Field x.toBool)
  generalize rewriteByte _ _ _ s = t at k ⊢
  obtain ⟨-, powered, ready, -, -⟩ := (listening_iff s).1 h.1.1
  rw [← k.slot] at powered ready
  rw [awaitWrite, if_pos k.busy]
  have q := waitUntil_awaited ready k.busy
  generalize waitUntil t.wr.due t = w at q
  have e := q.committed
  have cfg : (cycleEnd t).cfg = s.cfg := k.cfg
  obtain ⟨soft0, soft1⟩ := softRates_soft t.bus (cycleEnd t)
  rw [cfg, k.control_hit rfl, fieldGet_put _ _ _ zero] at soft0
  rw [cfg, k.control_miss two] at soft1
  have wanted : rxWanted t = rxWanted s := by
    rw [rxWanted, rs0In, k.cfg, k.slot, k.host, k.rate]
    rfl
  refine ⟨k.after h e, e.cfg.trans k.cfg, e.slot.trans k.slot, e.host.trans k.host,
    q.soft0.trans (soft0.trans (ofBool_toBool x)), q.soft1.trans (soft1.trans (congrArg RateUnit.soft1 k.rate)),
    fun used rated ne => ?_⟩
  obtain ⟨change, due⟩ := q.hit powered (by rw [k.cfg, used]) (by rw [k.cfg, rated]) (ne.trans_eq wanted.symm)
  rw [change, ← k.cfg]
  exact ⟨k.later.trans k.due_ge, q.now, due⟩

/-- The selects in two bytes: RS0's has taken effect when RS1's is written, which then keeps it. -/
structure SecondWrite (x : Level) (s t : State) : Prop where
  soft0 : t.rate.soft0 = x
  soft1 : t.rate.soft1 = s.rate.soft1
  rx : s.cfg.rs0Used = true → s.cfg.asMode = false → rxWanted t ≠ rxWanted s →
    s.clk.now ≤ t.rate.changeAt ∧ t.rate.changeAt ≤ t.wr.startAt ∧
    (t.rate.due0 = none ∧ t.rate.rxHigh = rxWanted t ∨
      ∃ d, t.rate.due0 = some d ∧ t.rate.changeAt ≤ d ∧ d ≤ t.rate.changeAt + tRate s.cfg)

theorem softRate_two {s : State} (h : frameReady s) (c : controlsApart s.cfg) (x y : Level)
    (two : memKey s.cfg.softRs0Field.space s.cfg.softRs0Field.addr
      ≠ memKey s.cfg.softRs1Field.space s.cfg.softRs1Field.addr) :
    Selects x y s (writeSoftRate x.toBool y.toBool s) ∧ SecondWrite x s (writeSoftRate x.toBool y.toBool s) := by
  have first := firstWrite h c x two
  obtain ⟨-, -, -, other, -⟩ := c
  rw [writeSoftRate, if_neg two]
  generalize awaitWrite _ = w at first ⊢
  obtain ⟨v, k⟩ := rewriteByte_inCycle first.ready s.cfg.softRs1Field.space s.cfg.softRs1Field.addr
    (fieldPut s.cfg.softRs1Field y.toBool)
  generalize rewriteByte _ _ _ w = t at k ⊢
  have cfg : t.cfg = s.cfg := k.cfg.trans first.cfg
  have soft0 : t.rate.soft0 = x := by rw [k.rate, first.soft0]
  have wanted : rxWanted t = rxWanted w := by
    rw [rxWanted, rs0In, k.cfg, k.slot, k.host, k.rate]
    rfl
  obtain ⟨zero, one⟩ := softRates_soft t.bus (cycleEnd t)
  rw [show (cycleEnd t).cfg = s.cfg from cfg, k.control_miss two.symm] at zero
  rw [show (cycleEnd t).cfg = s.cfg from cfg, k.control_hit rfl, fieldGet_put _ _ _ other] at one
  have selects := k.selects first.ready (zero.trans soft0) (one.trans (ofBool_toBool y))
  refine ⟨{ selects with cfg := cfg }, soft0, by rw [k.rate, first.soft1], fun used rated ne => ?_⟩
  obtain ⟨after, before, due⟩ := first.rx used rated (wanted.symm.trans_ne ne)
  rw [wanted, k.rate]
  exact ⟨after, before.trans k.later, due⟩

/-- The two transactions of a byte written back, as operations of their own: the read and the write. Where the byte holds
neither the Software Tx disable nor the power level enable, nothing but the write has happened by its STOP. -/
theorem rewriteByte_operations {s : State} (h : frameReady s) (sp : Space) (a : Byte) (f : Byte → Byte) :
    (rewriteByte sp a f s).rate = s.rate ∧
    (∃ u v, exec (.randomRead sp a) s = .next u ∧ u.seen.rx.getLast? = some v ∧
      exec (.byteWrite sp a (f v)) u = .next (rewriteByte sp a f s)) ∧
    (memKey sp a ≠ memKey s.cfg.softTxField.space s.cfg.softTxField.addr →
      memKey sp a ≠ memKey s.cfg.powerField.space s.cfg.powerField.addr →
      sameAround s (rewriteByte sp a f s) ∧ sameControls s (rewriteByte sp a f s) ∧
        (rewriteByte sp a f s).raised = s.raised) := by
  obtain ⟨w, v, d, u, reads, last, r, writes, stops, k⟩ := rewrite_one h sp a f
  refine ⟨?_, ⟨w, v, ?_, last, ?_⟩, fun tx power => ?_⟩
  · rw [stops]
    exact (k.inCycle d).rate
  · rw [← reads]
    exact clocked_ready _ h
  · rw [writes]
    exact clocked_ready _ r.ready
  · rw [stops, k.no_softTx (beginWrite u) rfl tx, k.no_level (beginWrite u) rfl power]
    exact ⟨k.around rfl rfl rfl rfl rfl rfl rfl rfl rfl rfl d, ⟨k.tx, k.lvl⟩, k.raised⟩

/-- Settles O45: in either layout the last write cycle ends with both values; what came before it differs. -/
theorem softRateSelect : Obligations.SoftRateSelect := by
  intro s x y h c
  have selects : Selects x y s (writeSoftRate x.toBool y.toBool s) := by
    by_cases one : memKey s.cfg.softRs0Field.space s.cfg.softRs0Field.addr
        = memKey s.cfg.softRs1Field.space s.cfg.softRs1Field.addr
    · exact softRate_one h c x y one
    · exact (softRate_two h c x y one).1
  have q := waitUntil_awaited selects.ready selects.busy
  obtain ⟨rxHigh, txHigh, rxHit, rxMiss, txHit, txMiss⟩ :=
    softRates_taken (writeSoftRate x.toBool y.toBool s).bus (s := cycleEnd (writeSoftRate x.toBool y.toBool s))
      selects.powered
  rw [show (cycleEnd (writeSoftRate x.toBool y.toBool s)).cfg = s.cfg from selects.cfg] at rxHit rxMiss txHit txMiss
  refine ⟨_, execSoftRateSelect_ready x y h, selects.cfg, selects.busy, selects.now.trans_le selects.due_ge,
    selects.due_ge, selects.due_le, by rw [q.committed.wr], q.soft0.trans selects.soft0, q.soft1.trans selects.soft1,
    ⟨_, settleWrite_due selects.busy le_rfl, selects.soft0, selects.soft1, rxHigh, txHigh, txHit, txMiss, rxHit, rxMiss⟩,
    fun one => ?_, fun two => ?_, fun one tx power => ?_⟩
  · rw [writeSoftRate, if_pos one]
    obtain ⟨rate, operations, -⟩ := rewriteByte_operations h s.cfg.softRs0Field.space s.cfg.softRs0Field.addr
      fun v => fieldPut s.cfg.softRs1Field y.toBool (fieldPut s.cfg.softRs0Field x.toBool v)
    exact ⟨rate, operations⟩
  · obtain ⟨-, soft0, soft1, rx⟩ := softRate_two h c x y two
    exact ⟨soft0, soft1, rx⟩
  · rw [writeSoftRate, if_pos one]
    obtain ⟨-, -, alone⟩ := rewriteByte_operations h s.cfg.softRs0Field.space s.cfg.softRs0Field.addr
      fun v => fieldPut s.cfg.softRs1Field y.toBool (fieldPut s.cfg.softRs0Field x.toBool v)
    exact alone tx power

end Sys2Proof.Machine
end

section
/-! The power level: the time of a change, and POWER_LEVEL_ENABLE and POWER_LEVEL_DISABLE written over the bus
(41_power_and_esd.md R240, R241; 20_memory.md R97, R99). -/

namespace Sys2Proof.Machine

/-! ### The time of a level change -/

/-- The interface's times touch no power level. -/
theorem settleInterface_lvl (s : State) :
    (settleInterface s).lvl = s.lvl ∧ (settleInterface s).slot.powered = s.slot.powered := by
  obtain ⟨-, -, -, -, -, -, -, -, lvl, -, -, -, slot, -⟩ := settleReady_keeps s
  have powered : (settleReady s).slot.powered = s.slot.powered := by rw [slot]
  unfold settleInterface settleWrite
  split
  · obtain ⟨x, n, e⟩ := commitWrite_eq (settleReady s)
    rw [e]
    exact ⟨lvl, powered⟩
  · exact ⟨lvl, powered⟩

/-- Settles O48: the write cycle's end, which runs first, leaves the level and the instant alone. -/
theorem levelReached : Obligations.LevelReached := by
  intro s d powered due come
  obtain ⟨lvl, power⟩ := settleInterface_lvl s
  obtain ⟨-, now, -⟩ := settleInterface_apart s
  have reached : isDue (settleInterface s).lvl.due (settleInterface s) = true := by
    rw [lvl, due]
    exact isDue_of_le (now.symm ▸ come)
  show (lateTimers (settleInterface s)).lvl = _
  rw [lateTimers_lvl, power, powered, reached, lvl]
  rfl

/-! ### What a level asked for starts -/

/-- A Level I module knows no other level. -/
theorem enableLevel_kept (l : PowerLevel) {s : State} (h : s.cfg.powerLevel = .one) : enableLevel l s = s := if_pos h

theorem enableLevel_lvl (l : PowerLevel) {s : State} (h : s.cfg.powerLevel ≠ .one) :
    (enableLevel l s).lvl =
      { level := levelMin l s.cfg.powerLevel, next := levelMin l s.cfg.powerLevel, settled := false
        due := some (drawDue s 0 (tEnable s.cfg (levelMin l s.cfg.powerLevel))), writeAt := some s.clk.now } := by
  rw [enableLevel, if_neg h]
  rfl

theorem setLevel_enables {l : PowerLevel} (h : l ≠ .one) (s : State) : setLevel l s = enableLevel l s := by
  cases l
  case one => exact absurd rfl h
  case two | three => rfl

/-- A write of Level I's code is the disable. -/
theorem setLevel_disables (s : State) : setLevel .one s = disableLevel s := rfl

/-- At Level I there is nothing to disable. -/
theorem disableLevel_kept {s : State} (h : s.lvl.level = .one) : disableLevel s = s := if_pos h

/-- A disable that runs already keeps its instant. -/
theorem disableLevel_runs {s : State} (h : s.lvl.level ≠ .one) (next : s.lvl.next = .one) (due : s.lvl.due ≠ none) :
    disableLevel s = { s with lvl := { s.lvl with writeAt := some s.clk.now } } := by
  have runs : (decide (s.lvl.next = .one) && s.lvl.due.isSome) = true := by simp [next, Option.isSome_iff_ne_none, due]
  rw [disableLevel, if_neg h, if_pos runs]

theorem disableLevel_lvl {s : State} (h : s.lvl.level ≠ .one) (new : s.lvl.next ≠ .one ∨ s.lvl.due = none) :
    (disableLevel s).lvl =
      { s.lvl with
        next := .one, settled := false, due := some (drawDue s 0 (tDisable s.cfg s.lvl.level))
        writeAt := some s.clk.now } := by
  have still : ¬(decide (s.lvl.next = .one) && s.lvl.due.isSome) = true := by
    rcases new with new | new <;> simp [new]
  rw [disableLevel, if_neg h, if_neg still]
  rfl

/-! ### The level written over the bus -/

/-- At its STOP a byte with a level's code in the enable's place asks for that level, and for nothing else. -/
theorem Wrote.takes_level {s u : State} {l : PowerLevel} {x : Byte} (c : controlsApart s.cfg)
    (w : Wrote s u s.cfg.powerField.space s.cfg.powerField.addr (powerPut s.cfg.powerField l x)) :
    stopLevel u.bus (stopSoftTx u.bus (beginWrite u)) = setLevel l (beginWrite u) := by
  obtain ⟨apart, -, -, -, -, oneTwo, oneThree, twoThree⟩ := c
  have word : wordFor u.bus s.cfg.powerField.space s.cfg.powerField.addr = some (powerPut s.cfg.powerField l x) := w.hit rfl
  have cfg : (beginWrite u).cfg = s.cfg := w.cfg
  rw [w.no_softTx (beginWrite u) rfl apart.symm, stopLevel, cfg, word, Option.bind_some,
    powerGet_put _ _ _ oneTwo oneThree twoThree]

/-- What the write of a level's code leaves at its STOP: the byte in its write cycle, everything but the power level as it
was, and the level as `setLevel` has it at that instant. -/
structure LevelWritten (l : PowerLevel) (x : Byte) (s t : State) : Prop where
  wbuf : t.bus.wbuf = [(s.cfg.powerField.addr, powerPut s.cfg.powerField l x)]
  busy : t.wr.busy = true
  space : t.wr.space = s.cfg.powerField.space
  startAt : t.wr.startAt = t.clk.now
  due_ge : t.wr.startAt ≤ t.wr.due
  due_le : t.wr.due ≤ t.wr.startAt + Config.tWr4
  tx : t.tx = s.tx
  around : sameAround s t
  raised : t.raised = s.raised
  lvl : ∃ b : State, b.cfg = s.cfg ∧ b.lvl = s.lvl ∧ b.clk.now = t.clk.now ∧ t.lvl = (setLevel l b).lvl

theorem Wrote.levelWritten {s u : State} {l : PowerLevel} {x : Byte} (c : controlsApart s.cfg)
    (w : Wrote s u s.cfg.powerField.space s.cfg.powerField.addr (powerPut s.cfg.powerField l x)) (d : Option Nat × Bool) :
    LevelWritten l x s (closed d (stopLevel u.bus (stopSoftTx u.bus (beginWrite u)))) := by
  have k := w.inCycle d
  rw [w.takes_level c] at k ⊢
  obtain ⟨y, n, only⟩ := setLevel_lvlOnly l (beginWrite u)
  have lvl : y = (setLevel l (beginWrite u)).lvl := by rw [only]
  rw [only] at k ⊢
  exact ⟨k.wbuf, k.busy, w.sel, k.now.symm, k.due_ge, k.due_le, w.tx, w.around rfl rfl rfl rfl rfl rfl rfl rfl rfl rfl d,
    w.raised, beginWrite u, w.cfg, w.lvl, rfl, lvl⟩

/-- A level written on a bus that is ready, as one operation and as the two transactions it is (20_memory.md R99). -/
theorem writeLevel_operations {s : State} (h : frameReady s) (c : controlsApart s.cfg) (l : PowerLevel) :
    ∃ u x, exec (.randomRead s.cfg.powerField.space s.cfg.powerField.addr) s = .next u ∧ u.seen.rx.getLast? = some x ∧
      exec (.byteWrite s.cfg.powerField.space s.cfg.powerField.addr (powerPut s.cfg.powerField l x)) u =
        .next (writeLevel l s) ∧
      clocked (writeLevel l) s = .next (writeLevel l s) ∧ LevelWritten l x s (writeLevel l s) := by
  obtain ⟨u, x, d, v, reads, last, r, writes, stops, w⟩ :=
    rewrite_one h s.cfg.powerField.space s.cfg.powerField.addr (powerPut s.cfg.powerField l)
  refine ⟨u, x, ?_, last, ?_, clocked_ready _ h, ?_⟩
  · rw [← reads]
    exact clocked_ready _ h
  · rw [writeLevel, writes]
    exact clocked_ready _ r.ready
  · rw [writeLevel, stops]
    exact w.levelWritten c d

/-- Settles O46: the write asks for the level at its STOP, and the module gives the smaller of it and its own. -/
theorem powerLevelEnable : Obligations.PowerLevelEnable := by
  intro s l above h c
  obtain ⟨u, x, reads, last, writes, runs, k⟩ := writeLevel_operations h c l
  obtain ⟨b, cfg, lvl, now, level⟩ := k.lvl
  rw [setLevel_enables above] at level
  refine ⟨u, x, _, reads, last, writes, runs, k.wbuf, k.busy, k.space, k.startAt, k.due_ge, k.due_le, k.tx, k.around,
    k.raised, fun own => ?_, fun own => ?_⟩
  · rw [level, enableLevel_kept l (cfg ▸ own), lvl]
  · rw [level, enableLevel_lvl l (cfg ▸ own), ← now, ← cfg]
    exact ⟨rfl, rfl, rfl, rfl, _, rfl, drawDue_ge b 0 _, drawDue_le b 0 _⟩

/-- Settles O47: the write of Level I's code is the disable, which starts, runs already, or finds Level I. -/
theorem powerLevelDisable : Obligations.PowerLevelDisable := by
  intro s h c
  obtain ⟨u, x, reads, last, writes, runs, k⟩ := writeLevel_operations h c .one
  obtain ⟨b, cfg, lvl, now, level⟩ := k.lvl
  rw [setLevel_disables] at level
  refine ⟨u, x, _, reads, last, writes, runs, k.wbuf, k.busy, k.space, k.startAt, k.due_ge, k.due_le, k.tx, k.around,
    k.raised, ?_⟩
  rw [level, ← lvl, ← now, ← cfg]
  refine ⟨fun one => ?_, fun above next due => ?_, fun above new => ?_⟩
  · rw [disableLevel_kept one]
  · rw [disableLevel_runs above next due]
  · rw [disableLevel_lvl above new]
    exact ⟨rfl, rfl, rfl, rfl, _, rfl, drawDue_ge b 0 _, drawDue_le b 0 _⟩

end Sys2Proof.Machine
end

section
/-! The host's rails: POWER_ON and POWER_OFF (41_power_and_esd.md R233, R238, R239; 40_low_speed_control.md R166, R201;
70_reset_and_hazards.md R671, R672, R674). -/

namespace Sys2Proof.Machine

/-! ### Both rails at one level -/

/-- The state with both rails of the host on or off, and no rail alone at the module. -/
def bothRails (on : Bool) (s : State) : State :=
  { s with host := { s.host with vccT := on, vccR := on, railAt := none } }

/-- VccT comes to a module without power: its start-up counts from there (70_reset_and_hazards.md R671). -/
def vccTComes (on : Bool) (s : State) : Bool := on && powerMated s.slot.mated && !vccTIn s && !s.slot.powered

/-- The state with both rails on or off, before the module follows its supply. -/
def railsDriven (on : Bool) (s : State) : State :=
  { bothRails on s with
    slot := { s.slot with vccTAt := if vccTComes on s then some s.clk.now else s.slot.vccTAt } }

theorem driveRails_both {on : Bool} {s : State} (h : (on && railLate s) = false) :
    driveRails on on s = .next (followSupply (railsDriven on s)) := by
  have even (n : Option Nat) (t r : Bool) :
      noteRails t r { s with slot := { s.slot with vccTAt := n }, host := { s.host with vccT := on, vccR := on } } =
        { bothRails on s with slot := { s.slot with vccTAt := n } } := by
    simp only [noteRails, vccTIn, vccRIn, beq_self_eq_true, if_true, bothRails]
  have comes (b : Bool) : noteVccT (vccTIn s) { s with host := { s.host with vccT := on, vccR := on } } =
      { s with
        slot := { s.slot with vccTAt := if vccTComes on s then some s.clk.now else s.slot.vccTAt }
        host := { s.host with vccT := on, vccR := on } } := by
    show (if vccTComes on s = true then _ else _) = _
    split <;> rfl
  rw [driveRails, Bool.and_self, h, if_neg Bool.false_ne_true, feed, comes true, even]
  rfl

/-- Where no rail comes, to a slot whose power contacts are open, or to a powered module, VccT's instant stands. -/
theorem railsDriven_kept {on : Bool} {s : State} (h : vccTComes on s = false) : railsDriven on s = bothRails on s := by
  rw [railsDriven, h]
  rfl

theorem supplied_railsDriven (on : Bool) (s : State) : supplied (railsDriven on s) = (on && powerMated s.slot.mated) := by
  rw [supplied]
  exact congrArg (· && powerMated s.slot.mated) (Bool.and_self on)

/-! ### The rails off -/

theorem followSupply_down {s : State} (hp : s.slot.powered = true) (h : supplied s = false) :
    followSupply s = powerDown s := by
  rw [followSupply, if_neg (by simp [h]), if_pos (by simp [h, hp])]

/-- A write cycle cut off changes memory's bytes, and uses free values. -/
theorem spoilWrite_eq (s : State) :
    ∃ m n, spoilWrite s = { s with mem := m, clk := { s.clk with drawn := n } } := by
  unfold spoilWrite
  split
  · exact ⟨_, _, rfl⟩
  · exact ⟨s.mem, s.clk.drawn, rfl⟩

/-- What the loss of power makes of each unit it reaches, beside what `powerDown_facts` says. -/
theorem powerDown_units (s : State) :
    (powerDown s).tx = { s.tx with
      state := .offUnpowered, latch := false, outputOn := false, soft := false, initDone := false
      due := none, faultDue := none, offDue := none } ∧
    (powerDown s).rcv = { s.rcv with los := false, known := false, due := none } ∧
    (powerDown s).rate = { s.rate with
      rxHigh := false, txHigh := false, soft0 := .low, soft1 := .low, due0 := none, due1 := none } ∧
    (powerDown s).lvl = { level := .one, next := .one, settled := true, due := none, writeAt := none } ∧
    (∀ q, ctrOf (powerDown s).bus q = 0) ∧ (powerDown s).bus.stretching = false ∧ (powerDown s).bus.phase = .off := by
  obtain ⟨m, n, e⟩ := spoilWrite_eq s
  unfold powerDown
  rw [e]
  exact ⟨rfl, rfl, rfl, rfl, fun q => by cases q <;> rfl, rfl, rfl⟩

/-- Mod_ABS rests on presence, the pull-up, and where there is none on the look at it. -/
theorem modAbsWire_congr {s t : State} (mated : t.slot.mated = s.slot.mated) (cfg : t.cfg = s.cfg) :
    modAbsWire t = modAbsWire { s with clk := t.clk } := by
  unfold modAbsWire
  rw [mated, cfg]

/-- POWER_OFF takes both rails away: a module with power loses it. -/
theorem execPowerOff_eq (s : State) :
    execPowerOff s = .next (if s.slot.powered then powerDown (bothRails false s) else bothRails false s) := by
  have dark : supplied (bothRails false s) = false := rfl
  rw [execPowerOff, driveRails_both (Bool.false_and _), railsDriven_kept rfl]
  cases hp : s.slot.powered
  · rw [followSupply_off (bothRails false s) hp dark]
    rfl
  · rw [followSupply_down (s := bothRails false s) hp dark]
    rfl

/-- Settles O54: a module with power loses all that is volatile, and one without has nothing to lose. -/
theorem powerOff : Obligations.PowerOff := by
  intro s
  refine ⟨_, execPowerOff_eq s, ?_⟩
  cases hp : s.slot.powered
  case false => exact ⟨rfl, fun _ => rfl, nofun⟩
  case true =>
    obtain ⟨slot, -, -, -, -, wbuf, idle, sda, busy, cycles, kept, aside, out, cfg, raised, now, host⟩ :=
      powerDown_facts (bothRails false s)
    obtain ⟨tx, rcv, rate, lvl, counters, stretching, phase⟩ := powerDown_units (bothRails false s)
    have mated : (powerDown (bothRails false s)).slot.mated = s.slot.mated := by rw [slot]; rfl
    exact ⟨host, nofun, fun _ => ⟨slot, tx, rcv, rate, lvl, counters, stretching, wbuf, idle, phase, sda, busy, cycles,
      modAbsWire_congr mated cfg, kept, aside, out, cfg, raised, now⟩⟩

/-! ### The rails on -/

/-- Whether the rails come too far apart, by the instant from which one has been alone at the module. -/
theorem railLate_iff {s : State} : railLate s = true ↔
    powerMated s.slot.mated = true ∧ ∃ t0, s.host.railAt = some t0 ∧ t0 + Config.tRailSkew < s.clk.now := by
  unfold railLate
  cases s.host.railAt <;> simp

/-- A start-up with VccT there before ends within t_init of VccT's rise (70_reset_and_hazards.md R671). -/
theorem startDue_le_vccT {s : State} {t0 : Nat} (h : s.slot.vccTAt = some t0) (k : Nat) :
    startDue s k ≤ max s.clk.now (t0 + tInit s.cfg) := by
  have drawn := drawNat_le s k (tInit s.cfg)
  rw [startDue, h, Option.getD_some]
  omega

/-- A transmitter that nothing tells to be off starts with the power. -/
theorem freshTx_due {s : State} (h : txOff { s with tx := { s.tx with soft := s.cfg.softTxInit } } = false) :
    (freshTx s).state = .initializing ∧ (freshTx s).due = some (startDue s 1) := by
  simp [freshTx, h]

/-- VccT that was there before keeps its instant. -/
theorem railsDriven_vccTAt {s : State} (on : s.host.vccT = true) (mated : powerMated s.slot.mated = true) :
    (railsDriven true s).slot.vccTAt = s.slot.vccTAt := by
  have stays : vccTComes true s = false := by simp [vccTComes, vccTIn, on, mated]
  rw [railsDriven_kept stays]
  rfl

/-- What POWER_ON makes of the transmitter of a module without power; `s` is the state before it. -/
theorem freshTx_railsDriven {s : State} (mated : powerMated s.slot.mated = true) (low : txDisableIn s = .low)
    (soft : s.cfg.txDisCombine = .or → s.cfg.softTxInit = false) :
    (freshTx (railsDriven true s)).state = .initializing ∧
      ∃ d, (freshTx (railsDriven true s)).due = some d ∧ s.clk.now ≤ d ∧ d ≤ s.clk.now + tInit s.cfg ∧
        (s.host.vccT = true → ∀ t0, s.slot.vccTAt = some t0 → d ≤ max s.clk.now (t0 + tInit s.cfg)) := by
  obtain ⟨state, due⟩ := freshTx_due (s := railsDriven true s) (txOff_eq_false.2 ⟨low, soft⟩)
  obtain ⟨ge, le⟩ := startDue_bounds (railsDriven true s) 1
  exact ⟨state, _, due, ge, le, fun on t0 rise => startDue_le_vccT ((railsDriven_vccTAt on mated).trans rise) 1⟩

/-- Settles O53: the rails come too late; or the module has its supply as before; or it gets it now and starts. -/
theorem powerOn : Obligations.PowerOn := by
  intro s
  constructor
  · intro mated late
    have refused : railLate s = true := railLate_iff.2 ⟨mated, late⟩
    show driveRails true true s = _
    rw [driveRails, refused]
    rfl
  · intro timely
    have timely : (true && railLate s) = false := by
      rw [Bool.true_and, Bool.eq_false_iff, ne_eq, railLate_iff]
      rintro ⟨mated, t0, rise, late⟩
      rcases timely with unmated | within
      · exact absurd (mated.symm.trans unmated) (by decide)
      · exact absurd late (Nat.not_lt.2 (within t0 rise))
    have supply : supplied (railsDriven true s) = powerMated s.slot.mated := supplied_railsDriven true s
    refine ⟨_, driveRails_both timely, ?_⟩
    cases mated : powerMated s.slot.mated <;> cases powered : s.slot.powered
    all_goals rw [mated] at supply
    case false.false =>
      have stays : vccTComes true s = false := by simp [vccTComes, mated]
      rw [followSupply_off (railsDriven true s) powered supply]
      exact ⟨rfl, fun _ => railsDriven_kept stays, fun _ => nofun⟩
    case false.true =>
      obtain ⟨-, -, -, -, -, -, -, -, -, -, -, -, -, -, -, -, host⟩ := powerDown_facts (railsDriven true s)
      rw [followSupply_down (s := railsDriven true s) powered supply]
      exact ⟨host, nofun, nofun⟩
    case true.true =>
      have stays : vccTComes true s = false := by simp [vccTComes, powered]
      rw [followSupply_kept (railsDriven true s) powered supply]
      exact ⟨rfl, fun _ => railsDriven_kept stays, nofun⟩
    case true.false =>
      rw [followSupply_up (railsDriven true s) powered supply]
      refine ⟨rfl, nofun, fun _ _ => ⟨rfl, rfl, rfl, rfl, drawDue_ge s 0 _, drawDue_le s 0 _, rfl, rfl, rfl, rfl, rfl, rfl,
        fun active high => ?_, fun low soft => freshTx_railsDriven mated low soft, rfl, rfl, rfl, rfl, rfl, rfl, rfl,
        fun _ => rfl, rfl, rfl, rfl, rfl⟩⟩
      exact freshTx_waits (s := railsDriven true s) active (txOff_of_high high)

end Sys2Proof.Machine
end

section
/-! The integer comparisons under the limit tables: a curve in the square root of the frequency, squared, and a curve in the
logarithm of a ratio, raised to powers of ten (42_sfi_high_speed.md R285, R300; 44_channel_and_boards.md R422). -/

namespace Sys2Proof.Machine

/-! ### The curve in the square root of the frequency -/

/-- The squared curve is free of the root, and with the frequency in MHz it is a thousandth of an integer. -/
theorem sq_curve_eq (b : Int) (f : Nat) :
    ((b : ℝ) * √((f : ℝ) / 1000)) ^ 2 = ((b * b * f : Int) : ℝ) / 1000 := by
  rw [mul_pow, Real.sq_sqrt (by positivity)]
  push_cast
  ring

/-- The squared value over the same denominator as `sq_curve_eq`. -/
theorem sq_value_eq (x : Int) : (x : ℝ) ^ 2 = ((1000 * (x * x) : Int) : ℝ) / 1000 := by
  push_cast
  ring

/-- Over that denominator, reals compare as the integers above it. -/
theorem thousandth_le_iff (m n : Int) : (m : ℝ) / 1000 ≤ (n : ℝ) / 1000 ↔ m ≤ n :=
  (div_le_div_iff_of_pos_right (by norm_num)).trans Int.cast_le

/-- A curve that rises lies above every `x ≤ 0`, and for the others the squares decide. -/
theorem leRoot_iff_of_nonneg {x b : Int} {f : Nat} (hb : 0 ≤ b) :
    leRoot x b f = true ↔ (x : ℝ) ≤ b * √((f : ℝ) / 1000) := by
  have curve : 0 ≤ (b : ℝ) * √((f : ℝ) / 1000) := mul_nonneg (mod_cast hb) (Real.sqrt_nonneg _)
  rw [leRoot, if_pos hb, Bool.or_eq_true, decide_eq_true_iff, decide_eq_true_iff]
  rcases le_total x 0 with hx | hx
  · have below : (x : ℝ) ≤ b * √((f : ℝ) / 1000) := le_trans (mod_cast hx) curve
    simp only [hx, below, true_or]
  · rw [← thousandth_le_iff (1000 * (x * x)), ← sq_value_eq, ← sq_curve_eq, sq_le_sq₀ (mod_cast hx) curve,
      or_iff_right_iff_imp]
    exact fun h => le_trans (mod_cast h) curve

/-- A curve that falls lies above no `x > 0`, and for the others the squares decide, the other way round. -/
theorem leRoot_iff_of_neg {x b : Int} {f : Nat} (hb : b < 0) :
    leRoot x b f = true ↔ (x : ℝ) ≤ b * √((f : ℝ) / 1000) := by
  have curve : (b : ℝ) * √((f : ℝ) / 1000) ≤ 0 :=
    mul_nonpos_of_nonpos_of_nonneg (mod_cast hb.le) (Real.sqrt_nonneg _)
  rw [leRoot, if_neg hb.not_ge, Bool.and_eq_true, decide_eq_true_iff, decide_eq_true_iff]
  have squares (hx : x ≤ 0) : b * b * f ≤ 1000 * (x * x) ↔ (x : ℝ) ≤ b * √((f : ℝ) / 1000) := by
    rw [← thousandth_le_iff, ← sq_value_eq, ← sq_curve_eq, sq_le_sq, abs_of_nonpos curve,
      abs_of_nonpos (mod_cast hx), neg_le_neg_iff]
  exact ⟨fun ⟨hx, h⟩ => (squares hx).1 h, fun h =>
    have hx : x ≤ 0 := mod_cast h.trans curve
    ⟨hx, (squares hx).2 h⟩⟩

theorem leRoot_iff (x b : Int) (f : Nat) : leRoot x b f = true ↔ (x : ℝ) ≤ b * √((f : ℝ) / 1000) :=
  (le_or_gt 0 b).elim leRoot_iff_of_nonneg leRoot_iff_of_neg

theorem rootLe_iff (b x : Int) (f : Nat) : rootLe b x f = true ↔ b * √((f : ℝ) / 1000) ≤ (x : ℝ) := by
  rw [rootLe, leRoot_iff, Int.cast_neg, Int.cast_neg, neg_mul, neg_le_neg_iff]

/-! ### The curve in the logarithm of a ratio -/

/-- The measured side of a comparison with the curve `a + b × log10(p/q)`: what `m` has above `a`, as a power of ten. -/
def logMeasured (a : Int) (b : Nat) (m : Int) (q : Nat) : Nat := 10 ^ (m - a).toNat * q ^ b

/-- The curve's side: what `a` has above `m`, as a power of ten. -/
def logCurve (a : Int) (b : Nat) (m : Int) (p : Nat) : Nat := p ^ b * 10 ^ (a - m).toNat

/-- Where `m` is at least `a` the curve's side has no power of ten. -/
theorem logCurve_of_nonneg {a m : Int} (h : 0 ≤ m - a) (b p : Nat) : logCurve a b m p = p ^ b := by
  rw [logCurve, Int.toNat_of_nonpos (by omega), pow_zero, mul_one]

/-- Where `m` is below `a` the measured side has none. -/
theorem logMeasured_of_neg {a m : Int} (h : ¬ 0 ≤ m - a) (b q : Nat) : logMeasured a b m q = q ^ b := by
  rw [logMeasured, Int.toNat_of_nonpos (by omega), pow_zero, one_mul]

theorem underLog_iff_sides (a : Int) (b : Nat) (m : Int) (p q : Nat) :
    underLog a b m p q = true ↔ logMeasured a b m q ≤ logCurve a b m p := by
  unfold underLog
  split
  case isTrue h => rw [logCurve_of_nonneg h, decide_eq_true_iff, logMeasured]
  case isFalse h => rw [logMeasured_of_neg h, decide_eq_true_iff, logCurve]

theorem belowLog_iff_sides (a : Int) (b : Nat) (m : Int) (p q : Nat) :
    belowLog a b m p q = true ↔ logMeasured a b m q < logCurve a b m p := by
  unfold belowLog
  split
  case isTrue h => rw [logCurve_of_nonneg h, decide_eq_true_iff, logMeasured]
  case isFalse h => rw [logMeasured_of_neg h, decide_eq_true_iff, logCurve]

theorem logMeasured_pos {q : Nat} (hq : 0 < q) (a : Int) (b : Nat) (m : Int) : 0 < logMeasured a b m q := by
  unfold logMeasured
  positivity

theorem logCurve_pos {p : Nat} (hp : 0 < p) (a : Int) (b : Nat) (m : Int) : 0 < logCurve a b m p := by
  unfold logCurve
  positivity

theorem logb_ten_pow_mul_pow {n : Nat} (hn : 0 < n) (k b : Nat) :
    Real.logb 10 ((10 ^ k * n ^ b : Nat) : ℝ) = k + b * Real.logb 10 n := by
  have hn : (n : ℝ) ≠ 0 := Nat.cast_ne_zero.2 hn.ne'
  push_cast
  rw [Real.logb_mul (by positivity) (pow_ne_zero b hn), Real.logb_pow, Real.logb_pow,
    Real.logb_self_eq_one (by norm_num), mul_one]

/-- The logarithms of the two sides are as far apart as the measured value and the curve. -/
theorem logb_sides_sub {p q : Nat} (hp : 0 < p) (hq : 0 < q) (a : Int) (b : Nat) (m : Int) :
    Real.logb 10 (logCurve a b m p) - Real.logb 10 (logMeasured a b m q) =
      a + b * Real.logb 10 (p / q) - m := by
  have shift : (((a - m).toNat : Nat) : ℝ) - ((m - a).toNat : Nat) = a - m := by
    exact_mod_cast (show ((a - m).toNat : Int) - ((m - a).toNat : Int) = a - m by omega)
  have ratio : Real.logb 10 ((p : ℝ) / q) = Real.logb 10 p - Real.logb 10 q :=
    Real.logb_div (Nat.cast_ne_zero.2 hp.ne') (Nat.cast_ne_zero.2 hq.ne')
  rw [logCurve, mul_comm, logMeasured, logb_ten_pow_mul_pow hp, logb_ten_pow_mul_pow hq, ratio]
  linear_combination shift

theorem underLog_iff {p q : Nat} (hp : 0 < p) (hq : 0 < q) (a : Int) (b : Nat) (m : Int) :
    underLog a b m p q = true ↔ (m : ℝ) ≤ a + b * Real.logb 10 (p / q) := by
  rw [underLog_iff_sides, ← @Nat.cast_le ℝ, ← Real.logb_le_logb (b := 10) (by norm_num)
    (Nat.cast_pos.2 (logMeasured_pos hq a b m)) (Nat.cast_pos.2 (logCurve_pos hp a b m)),
    ← sub_nonneg, logb_sides_sub hp hq, sub_nonneg]

theorem belowLog_iff {p q : Nat} (hp : 0 < p) (hq : 0 < q) (a : Int) (b : Nat) (m : Int) :
    belowLog a b m p q = true ↔ (m : ℝ) < a + b * Real.logb 10 (p / q) := by
  rw [belowLog_iff_sides, ← @Nat.cast_lt ℝ, ← Real.logb_lt_logb_iff (b := 10) (by norm_num)
    (Nat.cast_pos.2 (logMeasured_pos hq a b m)) (Nat.cast_pos.2 (logCurve_pos hp a b m)),
    ← sub_pos, logb_sides_sub hp hq, sub_pos]

/-- Settles O58: squares decide the curve in the root, and powers of ten the one in the logarithm. -/
theorem limitsExact : Obligations.LimitsExact :=
  ⟨leRoot_iff, rootLe_iff, fun a b m _ _ hp hq => ⟨underLog_iff hp hq a b m, belowLog_iff hp hq a b m⟩⟩

end Sys2Proof.Machine
end

section
/-! The noise lines of a linear module (42_sfi_high_speed.md R313, R314). -/

namespace Sys2Proof.Machine

/-- RN lies below the limit where it lies below each sloped line and below the ceiling. -/
theorem lt_rnLimit_iff (c : RnCase) (dwdp rn : Int) :
    rn < rnLimit c dwdp ↔
      rn < (rnLine c).1 * dwdp + 1000 * (rnLine c).2.1 ∧
      rn < (rnLine c).2.2.1 * dwdp + 1000 * (rnLine c).2.2.2.1 ∧
      rn < 1000 * (rnLine c).2.2.2.2 := by
  rw [rnLimit, lt_min_iff, lt_min_iff, and_assoc]

theorem rnPasses_iff (c : RnCase) (dwdp rn : Int) :
    rnPasses c dwdp rn = true ↔ rn < rnLimit c dwdp ∧ dwdp ≤ dwdpMax c := by
  rw [rnPasses, Bool.and_eq_true, decide_eq_true_iff, decide_eq_true_iff]

/-- A module passes where each required condition has a test, and none of its tests fails. -/
theorem linearPasses_iff (required : List (RnCase × Tp3Condition)) (tests : List Tp3Test) :
    linearPasses required tests = true ↔
      ∀ q ∈ required, (∃ m ∈ tests, (m.case, m.condition) = q) ∧
        ∀ m ∈ tests, (m.case, m.condition) = q → rnPasses m.case m.dwdp m.rn = true := by
  rw [linearPasses, List.all_eq_true]
  refine forall₂_congr fun q _ => ?_
  simp only [Bool.and_eq_true, Bool.not_eq_true', List.isEmpty_eq_false_iff_exists_mem, List.all_eq_true,
    List.mem_filter, decide_eq_true_iff, and_imp]

theorem mem_lrmRequired (k : Stressor) (d : Tp3Condition) : (RnCase.lrm k, d) ∈ lrmRequired := by
  cases k <;> cases d <;> decide

/-- Settles O59: a test by the limit's three lines, a module by its required conditions, LRM by all six of them. -/
theorem noiseLine : Obligations.NoiseLine := by
  refine ⟨fun c dwdp rn => ?_, rfl, rfl, rfl, rfl, rfl, linearPasses_iff, mem_lrmRequired⟩
  rw [rnPasses_iff, lt_rnLimit_iff, and_assoc, and_assoc]
  cases c <;> exact Iff.rfl

end Sys2Proof.Machine
end

section
/-! The frames of a ready module: reads, writes and the poll (43_two_wire_operations.md R370 to R376). -/

namespace Sys2Proof.Machine

/-! ### What a frame leaves alone -/

/-- A state in which the bus engine, the clock and what the host has seen differ from `s`, and nothing else of the module. -/
structure Undisturbed (s t : State) : Prop where
  around : sameAround s t
  controls : sameControls s t
  wr : t.wr = s.wr

theorem Undisturbed.trans {s t u : State} (a : Undisturbed s t) (b : Undisturbed t u) : Undisturbed s u := by
  obtain ⟨⟨cfg, out, slot, rcv, rate, script, mem, host, wires, stretching⟩, ⟨tx, lvl⟩, wr⟩ := a
  obtain ⟨⟨cfg', out', slot', rcv', rate', script', mem', host', wires', stretching'⟩, ⟨tx', lvl'⟩, wr'⟩ := b
  exact ⟨⟨cfg'.trans cfg, out'.trans out, slot'.trans slot, rcv'.trans rcv, rate'.trans rate, script'.trans script,
    fun k => (mem' k).trans (mem k), by rw [host', host], wires'.trans wires, stretching'.trans stretching⟩,
    ⟨tx'.trans tx, lvl'.trans lvl⟩, wr'.trans wr⟩

/-- A calm bus is calm in every such state. -/
theorem Undisturbed.calm {s t : State} (k : Undisturbed s t) (h : calm s) : calm t := by
  obtain ⟨⟨cfg, out, slot, -, -, -, -, host, -, stretching⟩, -, wr⟩ := k
  obtain ⟨lis, held, nack, released, waits, scl⟩ := h
  exact ⟨by simpa only [listening, slot, wr] using lis, by rw [out, held], by rw [cfg, nack], stretching.trans released,
    by rw [host]; exact waits, by rw [out, scl]⟩

theorem Slots.undisturbed {n : Nat} {s t : State} (a : Slots n s t) (h : calm s) : Undisturbed s t := by
  obtain ⟨around, controls, wr, -, -⟩ := a.around_calm h
  exact ⟨around, controls, wr⟩

/-- A transaction opened changes nothing of the wires last sampled. -/
theorem openFrame_wires (s : State) : (openFrame s).seen.wires = s.seen.wires := by
  simp only [openFrame]; split <;> rfl

theorem Began.undisturbed {s t : State} (b : Began s t) (h : calm s) : Undisturbed s t := by
  obtain ⟨-, -, -, released, -, -⟩ := h
  exact ⟨⟨b.cfg, b.out, b.slot, b.rcv, b.rate, b.script, fun k => by rw [readByte, readByte, b.cfg, b.mem],
    by rw [b.host], by rw [b.seen, openFrame_wires], (b.stretching released).trans released.symm⟩, ⟨b.tx, b.lvl⟩, b.wr⟩

/-- What a byte shows rests on nothing that START changes. -/
theorem Began.shows {s t : State} (b : Began s t) {sp : Space} {a v : Byte} (h : Shows t sp a v) : shows s sp a v := by
  obtain ⟨n, rfl⟩ := h
  refine Shows.shows ⟨n, ?_⟩
  simp only [sampleByte, showControls, showLos, storedByte, drawByte, drawBool, b.cfg, b.tx, b.rate, b.lvl, b.rcv, b.mem]

/-- The time of a frame is at least that of its word slots. -/
theorem Began.slots_now {n : Nat} {s t u : State} (b : Began s t) (a : Slots n t u) :
    s.clk.now + n * 9 * s.host.sclPeriod ≤ u.clk.now := by
  have start := b.now
  have slots := a.now
  rw [b.host] at slots
  rw [Nat.mul_assoc]
  exact (Nat.add_le_add_right start _).trans slots

theorem closed_ctr (d : Option Nat × Bool) (u : State) (q : Space) : ctrOf (closed d u).bus q = ctrOf u.bus q := by
  cases q <;> rfl

/-! ### Reads -/

/-- The end of a frame that wrote nothing, with its `m` word slots. -/
theorem read_ends {s t u : State} {m : Nat} (h : calm s) (b : Began s t) (a : Slots m t u) (hw : u.bus.wbuf = t.bus.wbuf)
    (d : Option Nat × Bool) :
    (closed d u).bus.state = .idle ∧ (closed d u).bus.wbuf = [] ∧ (closed d u).host.inFrame = false ∧
      s.clk.now + m * 9 * s.host.sclPeriod ≤ (closed d u).clk.now ∧
      sameAround s (closed d u) ∧ sameControls s (closed d u) ∧ (closed d u).wr = s.wr ∧ (closed d u).raised = s.raised := by
  obtain ⟨-, -, -, released, -, -⟩ := h
  have now : s.clk.now + m * 9 * s.host.sclPeriod ≤ u.clk.now := b.slots_now a
  exact ⟨rfl, hw.trans b.wbuf, rfl, now, closed_around b a released⟩

/-- Settles O17, by the words of a sequential read and their STOP. -/
theorem sequentialReadCurrent : Obligations.SequentialReadCurrent := by
  intro s sp n h hn
  obtain ⟨t, begins, b, k⟩ := frame_begins h
  obtain ⟨u, vs, d, stops, slots, ctr, other, wbuf, rx, len, acks, bytes⟩ := read_frame (Calm.of h.1) b k sp n hn
  have E : exec (.seqReadCurrent sp n) s = .next (closed d u) :=
    (clocked_ready _ h).trans (by rw [frame, begins, stops])
  refine ⟨closed d u, vs, E, ?_, len, fun i v hv => ?_, ?_, ?_, fun q hq => ?_, read_ends h.1 b slots wbuf d⟩
  · rw [← b.seen]; exact rx
  · have shown := bytes i v hv
    rw [b.ctr] at shown
    exact b.shows shown
  · rw [← b.seen]; exact acks
  · rw [closed_ctr, ctr, b.ctr]
  · rw [closed_ctr, other q hq, b.ctr]

/-- Settles O15: it is a sequential read of one byte. -/
theorem currentRead : Obligations.CurrentRead := by
  intro s sp h
  obtain ⟨t, vs, E, rx, one, bytes, acks, ctr, rest⟩ := sequentialReadCurrent s sp 1 h le_rfl
  obtain ⟨v, rfl⟩ := List.length_eq_one_iff.1 one
  have shown : shows s sp (ctrOf s.bus sp) v := by simpa using bytes 0 v rfl
  exact ⟨t, v, E, rx, shown, by simpa using acks, ctr, rest⟩

/-- Settles O18, by the words of a sequential random read and their STOP. -/
theorem sequentialReadRandom : Obligations.SequentialReadRandom := by
  intro s sp a n h hn
  obtain ⟨t, begins, b, k⟩ := frame_begins h
  obtain ⟨u, vs, d, stops, slots, ctr, other, wbuf, rx, len, acks, bytes⟩ := randomRead_frame (Calm.of h.1) b k sp a n hn
  have E : exec (.seqReadRandom sp a n) s = .next (closed d u) :=
    (clocked_ready _ h).trans (by rw [frame, begins, stops])
  refine ⟨closed d u, vs, E, ?_, len, fun i v hv => b.shows (bytes i v hv), ?_, ?_, fun q hq => ?_,
    read_ends h.1 b slots wbuf d⟩
  · rw [← b.seen]; exact rx
  · rw [← b.seen]; exact acks
  · rw [closed_ctr, ctr]
  · rw [closed_ctr, other q hq, b.ctr]

/-- Settles O16: it is a sequential random read of one byte. -/
theorem randomRead : Obligations.RandomRead := by
  intro s sp a h
  obtain ⟨t, vs, E, rx, one, bytes, acks, ctr, rest⟩ := sequentialReadRandom s sp a 1 h le_rfl
  obtain ⟨v, rfl⟩ := List.length_eq_one_iff.1 one
  have shown : shows s sp a v := by simpa using bytes 0 v rfl
  exact ⟨t, v, E, rx, shown, by simpa using acks, ctr, rest⟩

/-! ### Writes -/

/-- Words that miss the Software Tx disable and the power level enable change neither at the STOP. -/
theorem stop_misses {u v : State} (hc : v.cfg = u.cfg) (h : missesControls u.cfg u.bus.sel u.bus.wbuf) :
    stopLevel u.bus (stopSoftTx u.bus v) = v := by
  have softTx : wordFor u.bus u.cfg.softTxField.space u.cfg.softTxField.addr = none :=
    wordFor_none fun w hw => (h w hw).1
  have power : wordFor u.bus u.cfg.powerField.space u.cfg.powerField.addr = none :=
    wordFor_none fun w hw => (h w hw).2
  have kept : stopSoftTx u.bus v = v := by rw [stopSoftTx, controlFor, hc, softTx]; rfl
  rw [kept, stopLevel, hc, power]; rfl

/-- The STOP of a write of up to four or of more words begins a write cycle of at most tWR (20_memory.md R93). -/
theorem beginWrite_due (u : State) :
    (beginWrite u).wr.startAt ≤ (beginWrite u).wr.due ∧ (beginWrite u).wr.due ≤
      (beginWrite u).wr.startAt + if u.bus.wbuf.length ≤ 4 then Config.tWr4 else Config.tWr8 :=
  ⟨drawDue_ge u 0 _, drawDue_le u 0 _⟩

/-- The controls that take effect at the STOP of a write change transmitter, power level and the free values used. -/
theorem stop_controls (u v : State) :
    ∃ x y n, stopLevel u.bus (stopSoftTx u.bus v) = { v with tx := x, lvl := y, clk := { v.clk with drawn := n } } := by
  obtain ⟨x, n, ex⟩ := stopSoftTx_txOnly u.bus v
  obtain ⟨y, m, ey⟩ := stopLevel_lvlOnly u.bus (stopSoftTx u.bus v)
  exact ⟨x, y, m, by rw [ey, ex]⟩

/-- A sequential write of more than eight words is refused whole (60_exceptions.md R637). -/
theorem seqWrite_refused (s : State) (sp : Space) (a : Byte) {ds : List Byte} (h : 8 < ds.length) :
    exec (.seqWrite sp a ds) s = .refused .writeOverrun := if_pos h

/-- Settles O20: the words are kept and the STOP begins the write cycle; nine are refused. -/
theorem sequentialWrite : Obligations.SequentialWrite := by
  refine ⟨fun s sp a ds h some8 room => ?_, fun s sp a ds h => seqWrite_refused s sp a h⟩
  obtain ⟨t, begins, b, k⟩ := frame_begins h
  obtain ⟨u, d, stops, slots, sel, ctr, other, wbuf, rx, acks⟩ := write_frame (Calm.of h.1) b k sp a ds some8 room
  have E : exec (.seqWrite sp a ds) s =
      .next (closed d (stopLevel u.bus (stopSoftTx u.bus (beginWrite u)))) :=
    (if_neg (Nat.not_lt.2 room)).trans ((clocked_ready _ h).trans (by rw [frame, begins, stops]))
  obtain ⟨⟨-, -, -, released, -, -⟩, -, -⟩ := h
  obtain ⟨around, controls, -, raised⟩ := closed_around (d := d) b slots released
  obtain ⟨due_ge, due_le⟩ := beginWrite_due u
  rw [wbuf, wordsAt_length] at due_le
  have missed : missesControls s.cfg sp (wordsAt a ds) →
      sameControls s (closed d (stopLevel u.bus (stopSoftTx u.bus (beginWrite u)))) := by
    intro misses
    have missed : missesControls u.cfg u.bus.sel u.bus.wbuf := by rwa [slots.cfg, b.cfg, sel, wbuf]
    rw [stop_misses (u := u) (v := beginWrite u) rfl missed]
    exact controls
  have cycles : u.wr.cycles + 1 = s.wr.cycles + 1 := by rw [slots.wr, b.wr]
  have now := b.slots_now slots
  obtain ⟨x, y, n, only⟩ := stop_controls u (beginWrite u)
  rw [only] at E missed
  refine ⟨_, E, ?_, ?_, ?_, fun q hq => ?_, rfl, wbuf, rfl, rfl, sel, due_ge, due_le, rfl, cycles, now, around,
    raised, missed⟩
  · rw [← b.seen]; exact acks
  · rw [← b.seen]; exact rx
  · rw [closed_ctr]; exact ctr
  · rw [closed_ctr]; exact (other q hq).trans (b.ctr q)

/-- Settles O19: it is a sequential write of one word. -/
theorem byteWrite : Obligations.ByteWrite := by
  intro s sp a d h
  obtain ⟨words, -⟩ := sequentialWrite
  obtain ⟨t, E, acks, rest⟩ := words s sp a [d] h (List.cons_ne_nil d []) (by simp)
  exact ⟨t, E, by simpa using acks, rest⟩

/-! ### The poll -/

/-- What the word of a poll of a ready module leaves, up to its end (43_two_wire_operations.md R376). -/
structure Polled (sp : Space) (r : Dir) (t u : State) : Prop where
  slots : ∃ m, Slots m t u
  sda : u.bus.sda = .high
  state : u.bus.state ≠ .writeData
  wbuf : u.bus.wbuf = t.bus.wbuf
  write : r = .write → u.seen.acks = t.seen.acks ++ [true] ∧ u.seen.rx = t.seen.rx ∧ ∀ q, ctrOf u.bus q = ctrOf t.bus q
  read : r = .read → u.seen.acks = t.seen.acks ++ [true, false] ∧ ctrOf u.bus sp = ctrOf t.bus sp + 1 ∧
    (∃ v, u.seen.rx = t.seen.rx ++ [v] ∧ Shows t sp (ctrOf t.bus sp) v) ∧ ∀ q, q ≠ sp → ctrOf u.bus q = ctrOf t.bus q

/-- A write word is acknowledged, and nothing more is clocked; after a read word one data word is. -/
theorem pollWord_polled {t : State} (h : Calm t) (k : Taking t .gotStart) (sp : Space) (r : Dir) :
    Polled sp r t (pollWord sp r t) := by
  cases r
  case write =>
    obtain ⟨u, e, a, taking, -, ctr, wbuf, rx, acks⟩ := word_devW h k sp
    have E : pollWord sp .write t = u := by rw [pollWord, e]; exact if_pos (acked_iff acks)
    rw [E]
    exact ⟨⟨1, a⟩, taking.sda, by rw [taking.state]; decide, wbuf, fun _ => ⟨acks, rx, ctr⟩, nofun⟩
  case read =>
    obtain ⟨v, e, a, sending, ctr, wbuf, rx, acks, byte⟩ := word_devR h k sp
    obtain ⟨u, e', a', state, -, -, sda, -, ctr', other', wbuf', rx', acks'⟩ := word_readLast (h.keeps a.toKeeps) sending
    have E : pollWord sp .read t = u := by rw [pollWord, e, ← e']; exact if_pos (acked_iff acks)
    rw [E]
    refine ⟨⟨_, a.trans a'⟩, sda, by rw [state]; decide, wbuf'.trans wbuf, nofun, fun _ => ⟨?_, ?_, ⟨_, ?_, byte⟩, ?_⟩⟩
    · rw [acks', acks, List.append_assoc]; rfl
    · rw [ctr', ctr]
    · rw [rx', rx]
    · exact fun q hq => (other' q hq).trans (ctr q)

/-- What the end of a poll leaves: STOP an idle engine, a repeated START one that awaits a device address word
(30_encoding.md R126). -/
structure PollEnded (e : PollEnd) (u t : State) : Prop where
  stop : e = .stop → t.bus.state = .idle ∧ t.host.inFrame = false
  start : e = .repeatedStart → wordReady t .gotStart ∧ t.host.inFrame = true
  wbuf : t.bus.wbuf = []
  seen : t.seen = u.seen
  ctr : ∀ q, ctrOf t.bus q = ctrOf u.bus q
  rest : Undisturbed u t
  raised : t.raised = u.raised

theorem pollEnd_ended {u : State} (h : calm u) (hd : u.bus.sda = .high) (hs : u.bus.state ≠ .writeData)
    (hw : u.bus.wbuf = []) (hf : u.host.inFrame = true) (e : PollEnd) : PollEnded e u (pollEnd e u) := by
  cases e
  case stop =>
    have q := closing_quiet u
    have E : pollEnd .stop u = closed (u.bus.deafTill, u.bus.deafWrite) (closing u) := stop_plain (Calm.of h) hd hs
    obtain ⟨-, -, -, released, -, -⟩ := h
    rw [E]
    refine ⟨fun _ => ⟨rfl, rfl⟩, nofun, q.wbuf.trans hw, q.seen, fun r => (closed_ctr _ _ r).trans (q.ctr r),
      ⟨⟨q.cfg, q.out, q.slot, q.rcv, q.rate, q.script, fun key => ?_, ?_, congrArg Seen.wires q.seen,
        (q.stretching released).trans released.symm⟩, ⟨q.tx, q.lvl⟩, q.wr⟩, q.raised⟩
    · show Memory.read (closing u).cfg.init (closing u).mem key = _
      rw [q.cfg, q.mem]; rfl
    · show ({ (closing u).host with inFrame := false } : HostSide) = _
      rw [q.host]; rfl
  case repeatedStart =>
    obtain ⟨t, begins, b, k⟩ := start_seen (Calm.of h) hd fun _ => hw
    have E : pollEnd .repeatedStart u = t := begins id
    have rest := b.undisturbed h
    rw [E]
    exact ⟨nofun, fun _ => ⟨⟨rest.calm h, k.state, k.phase, k.nbits, k.sda⟩, by rw [b.host]⟩, b.wbuf,
      b.seen.trans (by simp [openFrame, hf]), b.ctr, rest, b.raised⟩

/-- Settles O21, by what its word and its end leave. -/
theorem ackPoll : Obligations.AckPoll := by
  intro s sp r e h
  obtain ⟨t, begins, b, k⟩ := frame_begins h
  have began := b.undisturbed h.1
  have P := pollWord_polled ((Calm.of h.1).began b) k sp r
  have E : exec (.ackPoll sp ⟨r, e⟩) s = .next (pollEnd e (pollWord sp r t)) :=
    (clocked_ready _ h).trans (by rw [begins])
  generalize pollWord sp r t = u at P E
  obtain ⟨m, slots⟩ := P.slots
  have word := began.trans (slots.undisturbed (began.calm h.1))
  have Q := pollEnd_ended (word.calm h.1) P.sda P.state (P.wbuf.trans b.wbuf) (by rw [slots.host, b.host]) e
  have all := word.trans Q.rest
  refine ⟨_, E, fun hr => ?_, fun hr => ?_, Q.stop, Q.start, Q.wbuf, all.around, all.controls, all.wr,
    Q.raised.trans (slots.raised.trans b.raised)⟩
  · obtain ⟨acks, rx, ctr⟩ := P.write hr
    rw [Q.seen, ← b.seen]
    exact ⟨acks, rx, fun q => by rw [Q.ctr, ctr, b.ctr]⟩
  · obtain ⟨acks, ctr, ⟨v, rx, byte⟩, other⟩ := P.read hr
    rw [Q.seen, ← b.seen]
    rw [b.ctr] at byte
    exact ⟨acks, by rw [Q.ctr, ctr, b.ctr], ⟨v, rx, b.shows byte⟩, fun q hq => by rw [Q.ctr, other q hq, b.ctr]⟩

end Sys2Proof.Machine
end

section
/-! The management reset (43_two_wire_operations.md R377; 20_memory.md R98): pulses with SDA released, and START where SDA is
high. Only a module that sends, or acknowledges, holds SDA low; it lets go within nine pulses. -/

namespace Sys2Proof.Machine

/-! ### What a pulse leaves alone -/

/-- What one pulse of a management reset, or some of them, leave alone. -/
structure Pulsed (s t : State) : Prop extends Keeps s t where
  seen : t.seen = s.seen
  stretching : s.bus.stretching = false → t.bus.stretching = false

theorem Pulsed.refl (s : State) : Pulsed s s := ⟨Keeps.refl s, rfl, id⟩

theorem Pulsed.trans {s t u : State} (a : Pulsed s t) (b : Pulsed t u) : Pulsed s u :=
  ⟨a.toKeeps.trans b.toKeeps, b.seen.trans a.seen, fun h => b.stretching (a.stretching h)⟩

theorem Pulsed.calm {s t : State} (k : Pulsed s t) (h : calm s) : calm t := by
  have c := (Calm.of h).keeps k.toKeeps
  obtain ⟨-, -, -, released, -, scl⟩ := h
  exact ⟨c.lis, c.held, c.nack, k.stretching released, c.waits, by rw [k.out, scl]⟩

theorem pulseTime_pulsed (s : State) : Pulsed s (pulseTime s) := ⟨pulseTime_keeps s, rfl, busTime_released _ 1 s⟩

theorem lowPeriod_pulsed (s : State) : Pulsed s (lowPeriod s) :=
  have q := lowPeriod_quiet s
  ⟨q.toKeeps, q.seen, q.stretching⟩

/-- A counter loaded or stepped leaves the module's hold on SCL alone. -/
theorem setCtr_stretching (sp : Space) (v : Byte) (b : Bus) : (setCtr sp v b).stretching = b.stretching := by
  cases sp <;> rfl

/-- A word taken leaves what the host has seen, and the module's hold on SCL, alone. -/
theorem takeWord_record (s : State) :
    (takeWord s).seen = s.seen ∧ (takeWord s).bus.stretching = s.bus.stretching := by
  unfold takeWord
  cases s.bus.state
  case gotStart =>
    dsimp only [takeDeviceWord]
    split
    · exact ⟨rfl, rfl⟩
    · split <;> exact ⟨rfl, rfl⟩
  case expectAddr =>
    dsimp only [takeAddress]
    split
    · exact ⟨rfl, rfl⟩
    · exact ⟨rfl, setCtr_stretching _ _ _⟩
  case writeData =>
    dsimp only [takeData]
    split
    · exact ⟨rfl, rfl⟩
    · split
      · exact ⟨rfl, rfl⟩
      · exact ⟨rfl, setCtr_stretching _ _ _⟩
  all_goals exact ⟨rfl, rfl⟩

theorem sclRise_pulsed (x : Level) (s : State) : Pulsed s (sclRise x s) := by
  suffices h : (sclRise x s).seen = s.seen ∧ (sclRise x s).bus.stretching = s.bus.stretching from
    ⟨sclRise_keeps x s, h.1, h.2.trans⟩
  unfold sclRise
  cases s.bus.phase <;> dsimp only
  case recv =>
    split
    · exact takeWord_record _
    · exact ⟨rfl, rfl⟩
  case send =>
    refine ⟨rfl, ?_⟩
    split
    · exact setCtr_stretching _ _ _
    · rfl
  all_goals exact ⟨rfl, rfl⟩

theorem sclFall_pulsed (s : State) : Pulsed s (sclFall s) := by
  suffices h : (sclFall s).seen = s.seen ∧ (sclFall s).bus.stretching = s.bus.stretching from
    ⟨sclFall_keeps s, h.1, h.2.trans⟩
  unfold sclFall
  cases s.bus.phase <;> dsimp only
  case ackOut => cases s.bus.state <;> exact ⟨rfl, rfl⟩
  case off => exact ⟨rfl, rfl⟩
  all_goals split <;> exact ⟨rfl, rfl⟩

/-- What the host notes of a pulse is when tBUF runs from and that the module is not deaf: nothing of the engine. -/
theorem notePulse_eq (x : Level) (s t : State) :
    ∃ f d, notePulse x s t = { t with bus := { t.bus with freeAt := f, deafTill := d } } := by
  unfold notePulse
  split
  · exact ⟨_, _, rfl⟩
  · exact ⟨t.bus.freeAt, t.bus.deafTill, rfl⟩

theorem notePulse_pulsed (x : Level) (s t : State) : Pulsed t (notePulse x s t) := by
  obtain ⟨f, d, e⟩ := notePulse_eq x s t
  rw [e]
  exact ⟨putBus_keeps t _, rfl, id⟩

theorem notePulse_engine (x : Level) (s t : State) : SameEngine t (notePulse x s t) := by
  obtain ⟨f, d, e⟩ := notePulse_eq x s t
  rw [e]
  exact ⟨rfl, rfl, rfl, rfl, rfl, rfl, fun q => by cases q <;> rfl⟩

/-! ### Counters and slots in a pulse -/

/-- Outside a word's last bit the counters stand still while SCL rises. -/
theorem sclRise_ctr (x : Level) {s : State} (h : ¬((s.bus.phase = .recv ∨ s.bus.phase = .send) ∧ s.bus.nbits = 7))
    (q : Space) : ctrOf (sclRise x s).bus q = ctrOf s.bus q := by
  unfold sclRise
  cases hp : s.bus.phase <;> dsimp only
  case recv =>
    rw [if_neg fun e => h ⟨.inl hp, e⟩]
    cases q <;> rfl
  case send =>
    rw [if_neg fun e => h ⟨.inr hp, e⟩]
    cases q <;> rfl
  all_goals cases q <;> rfl

/-- The counters of `c` are those of `b`, but that the selected one may have gone on by one. -/
def CtrOnce (b c : Bus) : Prop := ∀ q, ctrOf c q = ctrOf b q ∨ q = b.sel ∧ ctrOf c q = ctrOf b q + 1

theorem ctrOnce_of_eq {b c : Bus} (h : ∀ q, ctrOf c q = ctrOf b q) : CtrOnce b c := fun q => .inl (h q)

theorem CtrOnce.of_eq_left {a b c : Bus} (h : CtrOnce b c) (hs : b.sel = a.sel) (e : ∀ q, ctrOf b q = ctrOf a q) :
    CtrOnce a c := by
  intro q
  rw [← hs, ← e q]
  exact h q

theorem CtrOnce.of_eq_right {a b c : Bus} (h : CtrOnce a b) (e : ∀ q, ctrOf c q = ctrOf b q) : CtrOnce a c := by
  intro q
  rw [e q]
  exact h q

/-- A word being sent takes its counter on by one with its last bit. -/
theorem sclRise_send_ctr (x : Level) {s : State} (h : s.bus.phase = .send) : CtrOnce s.bus (sclRise x s).bus := by
  intro q
  have out : (sclRise x s).bus = nextBit (if s.bus.nbits = 7 then stepCtr s.bus.sel s.bus else s.bus) := by
    rw [sclRise, h]
  have bit (b : Bus) : ctrOf (nextBit b) q = ctrOf b q := by cases q <;> rfl
  rw [out, bit]
  split
  · by_cases hq : q = s.bus.sel
    · subst hq
      exact .inr ⟨rfl, ctrOf_stepCtr _ _⟩
    · exact .inl (ctrOf_stepCtr_ne hq _)
  · exact .inl rfl

/-- One more bit of a word being sent is out. -/
theorem sclRise_send_slot (x : Level) {s : State} (h : s.bus.phase = .send) :
    (sclRise x s).bus.phase = .send ∧ (sclRise x s).bus.nbits = s.bus.nbits + 1 ∧ (sclRise x s).bus.sel = s.bus.sel := by
  rw [sclRise, h]
  dsimp only [nextBit]
  split
  · obtain ⟨phase, nbits⟩ := stepCtr_slot s.bus.sel s.bus
    exact ⟨phase.trans h, congrArg (· + 1) nbits, setCtr_sel _ _ _⟩
  · exact ⟨h, rfl, rfl⟩

/-- No counter moves while SCL falls. -/
theorem sclFall_ctr (s : State) (q : Space) : ctrOf (sclFall s).bus q = ctrOf s.bus q := by
  unfold sclFall
  cases s.bus.phase <;> dsimp only
  case ackOut => cases s.bus.state <;> cases q <;> rfl
  all_goals split <;> cases q <;> rfl

/-- Before its last bit a word goes on being sent, -/
theorem sclFall_send_next {s : State} (h : s.bus.phase = .send) (hn : s.bus.nbits < 8) :
    (sclFall s).bus.phase = .send ∧ (sclFall s).bus.nbits = s.bus.nbits ∧ (sclFall s).bus.sel = s.bus.sel := by
  rw [sclFall, h]
  dsimp only
  rw [if_neg (Nat.not_le.2 hn)]
  exact ⟨h, rfl, rfl⟩

/-- and after it the module lets SDA go for the host's acknowledge. -/
theorem sclFall_send_last {s : State} (h : s.bus.phase = .send) (hn : 8 ≤ s.bus.nbits) :
    (sclFall s).bus.phase = .ackIn ∧ (sclFall s).bus.sda = .high := by
  rw [sclFall, h]
  dsimp only
  rw [if_pos hn]
  exact ⟨rfl, rfl⟩

/-- After its own acknowledge the module sends a word, or lets SDA go. -/
theorem sclFall_ackOut {s : State} (h : s.bus.phase = .ackOut) :
    (sclFall s).bus.sel = s.bus.sel ∧ (sclFall s).bus.nbits = 0 ∧
      ((sclFall s).bus.phase = .send ∨ (sclFall s).bus.sda = .high) := by
  rw [sclFall, h]
  dsimp only
  cases s.bus.state
  case addressedRead => exact ⟨rfl, rfl, .inl rfl⟩
  all_goals exact ⟨rfl, rfl, .inr rfl⟩

/-! ### START -/

/-- The state after a management reset: the engine awaits a device address word with nothing buffered, and nothing around it has
changed. -/
structure Restarted (s t : State) : Prop extends Undisturbed s t where
  ready : wordReady t .gotStart
  wbuf : t.bus.wbuf = []
  inFrame : t.host.inFrame = true

/-- START made after some pulses. -/
theorem makeStart_restarted {s u : State} (h : calm s) (k : Pulsed s u) :
    Restarted s (makeStart u) ∧ ∀ q, ctrOf (makeStart u).bus q = ctrOf u.bus q := by
  have lis : listening (openFrame (advance Config.tHdSta u)) = true := ((Calm.of h).keeps k.toKeeps).lis
  have E : ∃ l, makeStart u = gotStart { openFrame (advance Config.tHdSta u) with raised := l } := by
    rw [makeStart, if_pos lis, resetStart]
    split
    · exact ⟨_, rfl⟩
    · exact ⟨u.raised, rfl⟩
  obtain ⟨l, E⟩ := E
  have rest : Undisturbed s (makeStart u) := by
    obtain ⟨-, -, -, released, -, -⟩ := h
    rw [E]
    refine ⟨⟨k.cfg, k.out, k.slot, k.rcv, k.rate, k.script, fun key => ?_, ?_, ?_,
      (k.stretching released).trans released.symm⟩, ⟨k.tx, k.lvl⟩, k.wr⟩
    · show Memory.read u.cfg.init u.mem key = _
      rw [k.cfg, k.mem]; rfl
    · show ({ u.host with inFrame := true } : HostSide) = _
      rw [k.host]; rfl
    · rw [gotStart_seen]
      exact (openFrame_wires (advance Config.tHdSta u)).trans (congrArg Seen.wires k.seen)
  have calm := rest.calm h
  rw [E] at rest calm ⊢
  exact ⟨⟨rest, ⟨calm, rfl, rfl, rfl, rfl⟩, rfl, rfl⟩, fun q => by cases q <;> rfl⟩

/-! ### The pulses -/

/-- In the last look, after nine pulses, SDA is high: START. -/
theorem resetPulses_zero {s : State} (h : Hears s) (hd : s.bus.sda = .high) : resetPulses 0 s = makeStart (lowPeriod s) := by
  have line : sdaLine .high s = .high := by rw [sdaLine_hears h, hd]; rfl
  rw [resetPulses, if_pos line, settleInterface_listening (h.keeps (lowPeriod_quiet s).toKeeps).lis]

/-- SDA is high in a pulse: START falls in its high period. -/
theorem resetPulses_high {s : State} (h : Hears s) (hd : s.bus.sda = .high) (n : Nat) :
    resetPulses (n + 1) s = makeStart (sclRise .high (pulseTime s)) := by
  have hu : Hears (pulseTime s) := h.keeps (pulseTime_keeps s)
  have line : sdaLine .high (pulseTime s) = .high := by rw [sdaLine_hears hu, (pulseTime_engine s).sda, hd]; rfl
  have heard : (listening (pulseTime s) && !pulseLost (pulseTime s)) = true := by
    rw [hu.lis, pulseLost_waits hu.waits]; rfl
  rw [resetPulses, settleInterface_listening hu.lis, line, heard]
  rfl

/-- SDA is low in a pulse: the engine is clocked on, and the next pulse follows. -/
theorem resetPulses_low {s : State} (h : Hears s) (hd : s.bus.sda = .low) (n : Nat) :
    ∃ w, resetPulses (n + 1) s = resetPulses n w ∧ Pulsed s w ∧ SameEngine (sclFall (sclRise .low (pulseTime s))) w := by
  have hu : Hears (pulseTime s) := h.keeps (pulseTime_keeps s)
  have line : sdaLine .high (pulseTime s) = .low := by rw [sdaLine_hears hu, (pulseTime_engine s).sda, hd]; rfl
  have heard : (listening (pulseTime s) && !pulseLost (pulseTime s)) = true := by
    rw [hu.lis, pulseLost_waits hu.waits]; rfl
  have E : resetPulses (n + 1) s =
      resetPulses n (notePulse .low (pulseTime s) (sclFall (sclRise .low (pulseTime s)))) := by
    rw [resetPulses, settleInterface_listening hu.lis, line, heard]
    rfl
  exact ⟨_, E, (pulseTime_pulsed s).trans ((sclRise_pulsed .low _).trans ((sclFall_pulsed _).trans (notePulse_pulsed _ _ _))),
    notePulse_engine _ _ _⟩

/-- Where SDA is high, START is made. -/
theorem resetPulses_restarts {r s : State} (h : calm r) (k : Pulsed r s) (hd : s.bus.sda = .high) (n : Nat) :
    Restarted r (resetPulses n s) := by
  have hs : Hears s := (Calm.of h).toHears.keeps k.toKeeps
  cases n with
  | zero =>
    rw [resetPulses_zero hs hd]
    exact (makeStart_restarted h (k.trans (lowPeriod_pulsed s))).1
  | succ n =>
    rw [resetPulses_high hs hd]
    exact (makeStart_restarted h (k.trans ((pulseTime_pulsed s).trans (sclRise_pulsed .high _)))).1

/-- and outside a word's last bit no counter moves. -/
theorem resetPulses_high_ctr {s : State} (h : calm s) (hd : s.bus.sda = .high)
    (hl : ¬((s.bus.phase = .recv ∨ s.bus.phase = .send) ∧ s.bus.nbits = 7)) (n : Nat) (q : Space) :
    ctrOf (resetPulses n s).bus q = ctrOf s.bus q := by
  have hs : Hears s := (Calm.of h).toHears
  cases n with
  | zero =>
    obtain ⟨-, ctr⟩ := makeStart_restarted h (lowPeriod_pulsed s)
    rw [resetPulses_zero hs hd, ctr, (lowPeriod_quiet s).ctr]
  | succ n =>
    have same := pulseTime_engine s
    obtain ⟨-, ctr⟩ := makeStart_restarted h ((pulseTime_pulsed s).trans (sclRise_pulsed .high _))
    rw [resetPulses_high hs hd, ctr, sclRise_ctr .high (by rwa [same.phase, same.nbits]), same.ctr]

/-- In a word being sent a counter goes on by at most one. -/
theorem resetPulses_send_high_ctr {s : State} (h : calm s) (hd : s.bus.sda = .high) (hp : s.bus.phase = .send) (n : Nat) :
    CtrOnce s.bus (resetPulses (n + 1) s).bus := by
  have same := pulseTime_engine s
  obtain ⟨-, ctr⟩ := makeStart_restarted h ((pulseTime_pulsed s).trans (sclRise_pulsed .high _))
  rw [resetPulses_high (Calm.of h).toHears hd]
  exact ((sclRise_send_ctr .high (same.phase.trans hp)).of_eq_right ctr).of_eq_left same.sel same.ctr

/-- A word being sent is out within the pulses left for its bits: START is made, and its counter goes on by at most one. -/
theorem resetPulses_sending {r s : State} (h : calm r) (k : Pulsed r s) (hp : s.bus.phase = .send) (hn : s.bus.nbits ≤ 7)
    {n : Nat} (room : 8 ≤ s.bus.nbits + n) : Restarted r (resetPulses n s) ∧ CtrOnce s.bus (resetPulses n s).bus := by
  induction n generalizing s with
  | zero => omega
  | succ n ih =>
    have hs : calm s := k.calm h
    cases hd : s.bus.sda
    case high => exact ⟨resetPulses_restarts h k hd _, resetPulses_send_high_ctr hs hd hp n⟩
    case low =>
      obtain ⟨w, e, kw, slot⟩ := resetPulses_low (Calm.of hs).toHears hd n
      have same := pulseTime_engine s
      have hu : (pulseTime s).bus.phase = .send := same.phase.trans hp
      obtain ⟨phase, nbits, sel⟩ := sclRise_send_slot .low hu
      rw [same.nbits] at nbits
      have once : CtrOnce s.bus w.bus :=
        (((sclRise_send_ctr .low hu).of_eq_right (sclFall_ctr _)).of_eq_right slot.ctr).of_eq_left same.sel same.ctr
      rw [e]
      by_cases last : s.bus.nbits = 7
      · obtain ⟨ackIn, sda⟩ := sclFall_send_last phase (by omega)
        have high : w.bus.sda = .high := slot.sda.trans sda
        have off : w.bus.phase = .ackIn := slot.phase.trans ackIn
        exact ⟨resetPulses_restarts h (k.trans kw) high n,
          once.of_eq_right (resetPulses_high_ctr (kw.calm hs) high (by simp [off]) n)⟩
      · obtain ⟨phase', nbits', sel'⟩ := sclFall_send_next phase (by omega)
        have bits : w.bus.nbits = s.bus.nbits + 1 := (slot.nbits.trans nbits').trans nbits
        obtain ⟨restarted, ctr⟩ :=
          ih (k.trans kw) (slot.phase.trans phase') (by omega) (by omega)
        have still (q : Space) : ctrOf w.bus q = ctrOf s.bus q := by
          rw [slot.ctr, sclFall_ctr, sclRise_ctr .low (by rw [same.nbits]; exact fun c => last c.2), same.ctr]
        exact ⟨restarted, ctr.of_eq_left (slot.sel.trans (sel'.trans (sel.trans same.sel))) still⟩

/-- After the module's own acknowledge there is a word of it to come at most. -/
theorem resetPulses_acking {s : State} (h : calm s) (hp : s.bus.phase = .ackOut) {n : Nat} (room : 8 ≤ n) :
    Restarted s (resetPulses (n + 1) s) ∧ CtrOnce s.bus (resetPulses (n + 1) s).bus := by
  cases hd : s.bus.sda
  case high =>
    exact ⟨resetPulses_restarts h (Pulsed.refl s) hd _, ctrOnce_of_eq (resetPulses_high_ctr h hd (by simp [hp]) _)⟩
  case low =>
    obtain ⟨w, e, kw, slot⟩ := resetPulses_low (Calm.of h).toHears hd n
    have same := pulseTime_engine s
    have hu : (pulseTime s).bus.phase = .ackOut := same.phase.trans hp
    have rise : sclRise .low (pulseTime s) = pulseTime s := by rw [sclRise, hu]
    rw [rise] at slot
    obtain ⟨sel, nbits, next⟩ := sclFall_ackOut hu
    have bits : w.bus.nbits = 0 := slot.nbits.trans nbits
    have still (q : Space) : ctrOf w.bus q = ctrOf s.bus q := by rw [slot.ctr, sclFall_ctr, same.ctr]
    rw [e]
    rcases next with send | high
    · obtain ⟨restarted, ctr⟩ := resetPulses_sending h kw (slot.phase.trans send) (by omega) (n := n) (by omega)
      exact ⟨restarted, ctr.of_eq_left (slot.sel.trans (sel.trans same.sel)) still⟩
    · have high : w.bus.sda = .high := slot.sda.trans high
      exact ⟨resetPulses_restarts h kw high n,
        ctrOnce_of_eq fun q => (resetPulses_high_ctr (kw.calm h) high (by simp [bits]) n q).trans (still q)⟩

/-- Wherever the engine stands, nine pulses are enough. -/
theorem resetPulses_nine {s : State} (h : calm s) (shape : EngineShape s) :
    Restarted s (resetPulses 9 s) ∧
      ((s.bus.phase = .send ∨ s.bus.phase = .ackOut) → CtrOnce s.bus (resetPulses 9 s).bus) ∧
      ((s.bus.phase = .off ∨ s.bus.phase = .ackIn ∨ (s.bus.phase = .recv ∧ s.bus.nbits < 7)) →
        ∀ q, ctrOf (resetPulses 9 s).bus q = ctrOf s.bus q) := by
  obtain ⟨off, recv, send, ackIn⟩ := shape
  cases hp : s.bus.phase
  case off =>
    exact ⟨resetPulses_restarts h (Pulsed.refl s) (off hp) 9, by simp,
      fun _ => resetPulses_high_ctr h (off hp) (by simp [hp]) 9⟩
  case ackIn =>
    exact ⟨resetPulses_restarts h (Pulsed.refl s) (ackIn hp) 9, by simp,
      fun _ => resetPulses_high_ctr h (ackIn hp) (by simp [hp]) 9⟩
  case recv =>
    obtain ⟨hd, -⟩ := recv hp
    refine ⟨resetPulses_restarts h (Pulsed.refl s) hd 9, by simp, fun early => ?_⟩
    have few : s.bus.nbits ≠ 7 := by simp at early; omega
    exact resetPulses_high_ctr h hd (fun last => few last.2) 9
  case send =>
    obtain ⟨restarted, ctr⟩ := resetPulses_sending h (Pulsed.refl s) hp (send hp) (n := 9) (by omega)
    exact ⟨restarted, fun _ => ctr, by simp⟩
  case ackOut =>
    obtain ⟨restarted, ctr⟩ := resetPulses_acking h hp (Nat.le_refl 8)
    exact ⟨restarted, fun _ => ctr, by simp⟩

/-! ### The operation -/

/-- On a calm bus a management reset is the wait for tBUF and nine pulses at most, but for a ninth data word's last bit. -/
theorem execMgmtReset_calm {s : State} (h : calm s) : exec .mgmtReset s =
    if overrun s = true ∧ s.bus.nbits = 7 then .refused .writeOverrun else .next (resetPulses 9 (awaitFree s)) := by
  obtain ⟨-, held, -, released, waits, scl⟩ := h
  have free := sclHeld_free released scl
  show execMgmtReset s = _
  simp [execMgmtReset, free, held, clocked_free _ free waits]

/-- Settles O29, by what nine pulses leave. -/
theorem managementReset : Obligations.ManagementReset := by
  intro s h shape
  refine ⟨fun ninth => (execMgmtReset_calm h).trans (if_pos ninth), fun ninth => ?_⟩
  obtain ⟨n, -, e, -⟩ := awaitFree_eq (Calm.of h).lis
  set u : State := { s with clk := { s.clk with now := n } }
  have E : exec .mgmtReset s = .next (resetPulses 9 u) := by
    rw [execMgmtReset_calm h, if_neg ninth, e]
  obtain ⟨k, once, still⟩ := resetPulses_nine (s := u) h shape
  exact ⟨resetPulses 9 u, E, k.ready, k.wbuf, k.inFrame, once, still, k.around, k.controls, k.wr⟩

end Sys2Proof.Machine
end

section
/-! The status wires, and how a fault and a loss of signal come to be known (60_exceptions.md R621 to R632, R646, R647). -/

namespace Sys2Proof.Machine

/-! ### The status wires, branch by branch -/

/-- The module holds Tx_Fault low where it does not implement it. -/
theorem txFaultWire_unimplemented {s : State} (hm : s.slot.mated = .all) (circuit : s.cfg.txFaultImpl = false) :
    txFaultWire s = .low := by
  simp [txFaultWire, hm, circuit]

theorem txFaultWire_unpowered {s : State} (hp : s.slot.powered = false) (circuit : s.cfg.txFaultImpl = true) :
    txFaultWire s = .high := by
  simp [txFaultWire, hp, circuit]

/-- A latched fault shows high wherever the wire is looked at. -/
theorem txFaultWire_latched {s : State} (circuit : s.cfg.txFaultImpl = true) (latched : s.tx.latch = true) :
    txFaultWire s = .high := by
  simp [txFaultWire, circuit, latched]

theorem txFaultWire_operating {s : State} (hm : s.slot.mated = .all) (hp : s.slot.powered = true)
    (clear : s.tx.latch = false) (operating : s.tx.state = .operating) : txFaultWire s = .low := by
  simp [txFaultWire, hm, hp, clear, txFaultOpen, operating]

/-- Rx_LOS is held low where it is not implemented, and in a passive cable. -/
theorem rxLosWire_unimplemented {s : State} (hm : s.slot.mated = .all)
    (none : s.cfg.rxLosImpl = false ∨ s.cfg.passiveCable = true) : rxLosWire s = .low := by
  rcases none with none | none <;> simp [rxLosWire, hm, none]

theorem rxLosWire_unpowered {s : State} (hp : s.slot.powered = false) (impl : s.cfg.rxLosImpl = true)
    (active : s.cfg.passiveCable = false) : rxLosWire s = .high := by
  simp [rxLosWire, hp, impl, active]

/-- Where the level is known the wire shows it. -/
theorem rxLosWire_known {s : State} (hm : s.slot.mated = .all) (hp : s.slot.powered = true)
    (impl : s.cfg.rxLosImpl = true) (active : s.cfg.passiveCable = false) (known : s.rcv.known = true) :
    rxLosWire s = Level.ofBool s.rcv.los := by
  simp [rxLosWire, hm, hp, impl, active, known]

/-- Settles O52, branch by branch of the three wires. -/
theorem statusWires : Obligations.StatusWires := fun _ =>
  ⟨fun unmated => ⟨txFaultWire_unmated unmated, rxLosWire_unmated unmated, modAbsWire_unmated unmated⟩,
    fun hm => ⟨modAbsWire_mated hm, txFaultWire_unimplemented hm, fun circuit _ => txFaultWire_latched circuit,
      txFaultWire_operating hm, rxLosWire_unimplemented hm, txFaultWire_unpowered, rxLosWire_unpowered⟩⟩

/-! ### A fault condition arises -/

/-- A condition that is detected, and none was before: its instant is drawn. -/
theorem faultEvent_detected {s : State} (clear : s.out.faultCond = false) (pending : s.tx.faultDue = none)
    (seen : faultSeen s = true) :
    faultEvent true s =
      { s with
        out := { s.out with faultCond := true }
        tx := { s.tx with faultAt := s.clk.now, faultDue := some (drawDue s 0 (tFaultOn s.cfg)) }
        clk := { s.clk with drawn := s.clk.drawn + 1 } } := by
  simp [faultEvent, clear, pending, seen, spend]

/-- A condition that is not detected, or was already: only the condition itself changes. -/
theorem faultEvent_kept {s : State} (clear : s.out.faultCond = false)
    (h : s.tx.faultDue ≠ none ∨ faultSeen s = false) :
    faultEvent true s =
      { s with out := { s.out with faultCond := true }, tx := { s.tx with faultAt := s.clk.now } } := by
  have still : (faultSeen s && s.tx.faultDue.isNone) = false := by
    rcases h with h | h
    · simp [Option.isSome_iff_ne_none.2 h]
    · simp [h]
  simp [faultEvent, clear, still]

/-- In a powered module with the safety circuit and no latched fault, a condition is detected while the transmitter operates
or starts, in the t_on window, and while it is disabled after its start-up where U11 says so. -/
theorem faultSeen_of {s : State} (hp : s.slot.powered = true) (circuit : s.cfg.txFaultImpl = true)
    (latch : s.tx.latch = false)
    (h : s.tx.state = .operating ∨ s.tx.state = .initializing ∨
      s.tx.state = .disabled ∧ (returning s.tx = true ∨ s.tx.initDone = true ∧ s.cfg.latchWhenDisabled = true)) :
    faultSeen s = true := by
  rcases h with h | h | ⟨h, back | ⟨started, atOnce⟩⟩
  · simp [faultSeen, hp, circuit, latch, h]
  · simp [faultSeen, hp, circuit, latch, h]
  · simp [faultSeen, hp, circuit, latch, h, back]
  · simp [faultSeen, hp, circuit, latch, h, started, atOnce]

/-- Settles O39: the event draws the instant where the condition is detected, and where it is left to the negation
(`TxDisableNegate`) that does. -/
theorem faultDetected : Obligations.FaultDetected := by
  refine ⟨fun s hp circuit latch clear => ⟨fun pending h => ?_, fun h => faultEvent_kept clear ?_⟩,
    fun s hm hp active high soft disabled started latch pending circuit late cond => ?_⟩
  · exact ⟨_, faultEvent_detected clear pending (faultSeen_of hp circuit latch h), drawDue_ge .., drawDue_le ..⟩
  · refine h.imp_right fun ⟨disabled, dark, late⟩ => ?_
    simp [faultSeen, disabled, dark, late]
  · obtain ⟨t, negates, -, -, normal, -⟩ := (txDisableNegate s).1 hm hp active high soft
    obtain ⟨-, -, -, -, -, detected⟩ := (normal disabled latch pending).1 started
    rw [cond, circuit, late] at detected
    obtain ⟨d, due, ge, le⟩ := detected
    exact ⟨t, d, negates, due, ge, le⟩

/-! ### What the timers leave of the transmitter -/

/-- What the 2-wire interface's own times leave alone: everything but readiness, the engine's place and the words it holds,
the write cycle, memory, the rates and the free values used. -/
structure InterfaceOnly (s t : State) : Prop where
  cfg : t.cfg = s.cfg
  now : t.clk.now = s.clk.now
  host : t.host = s.host
  seen : t.seen = s.seen
  out : t.out = s.out
  tx : t.tx = s.tx
  rcv : t.rcv = s.rcv
  lvl : t.lvl = s.lvl
  raised : t.raised = s.raised
  script : t.script = s.script
  slot : t.slot = { s.slot with ready := t.slot.ready }
  bus : t.bus = { s.bus with
    state := t.bus.state, phase := t.bus.phase, nbits := t.bus.nbits, sda := t.bus.sda, wbuf := t.bus.wbuf }

theorem InterfaceOnly.refl (s : State) : InterfaceOnly s s := ⟨rfl, rfl, rfl, rfl, rfl, rfl, rfl, rfl, rfl, rfl, rfl, rfl⟩

theorem InterfaceOnly.trans {s t u : State} (a : InterfaceOnly s t) (b : InterfaceOnly t u) : InterfaceOnly s u :=
  ⟨b.cfg.trans a.cfg, b.now.trans a.now, b.host.trans a.host, b.seen.trans a.seen, b.out.trans a.out, b.tx.trans a.tx,
    b.rcv.trans a.rcv, b.lvl.trans a.lvl, b.raised.trans a.raised, b.script.trans a.script,
    b.slot.trans (by rw [a.slot]), b.bus.trans (by rw [a.bus])⟩

theorem InterfaceOnly.mated {s t : State} (k : InterfaceOnly s t) : t.slot.mated = s.slot.mated := by rw [k.slot]

theorem InterfaceOnly.powered {s t : State} (k : InterfaceOnly s t) : t.slot.powered = s.slot.powered := by rw [k.slot]

theorem settleReady_interfaceOnly (s : State) : InterfaceOnly s (settleReady s) := by
  unfold settleReady
  split
  · exact ⟨rfl, rfl, rfl, rfl, rfl, rfl, rfl, rfl, rfl, rfl, rfl, rfl⟩
  · exact .refl s

theorem settleWrite_interfaceOnly (s : State) : InterfaceOnly s (settleWrite s) := by
  unfold settleWrite
  split
  · obtain ⟨x, n, e⟩ := commitWrite_eq s
    rw [e]
    exact ⟨rfl, rfl, rfl, rfl, rfl, rfl, rfl, rfl, rfl, rfl, rfl, rfl⟩
  · exact .refl s

theorem settleInterface_interfaceOnly (s : State) : InterfaceOnly s (settleInterface s) :=
  (settleReady_interfaceOnly s).trans (settleWrite_interfaceOnly _)

/-- The transmitter after the timers: the latch's and its own have run, then the fall of its light. -/
theorem settle_tx (s : State) :
    (settle s).tx = { (settleTx (settleFault (settleInterface s))).tx with offDue := (settle s).tx.offDue } := by
  have after : (settle s).tx = (settleOff (settleTx (settleFault (settleInterface s)))).tx := lateTimers_tx _
  rw [after]
  exact settleOff_tx _

theorem settleTx_idle {s : State} (h : s.tx.due = none) : settleTx s = s := by
  rw [settleTx, h]; rfl

theorem settleFault_latched {s : State} (h : s.tx.latch = true) : settleFault s = s := by
  simp [settleFault, h]

theorem settleFault_takes {s : State} (hp : s.slot.powered = true) (due : isDue s.tx.faultDue s = true)
    (clear : s.tx.latch = false) : settleFault s = enterTxFault s := by
  simp [settleFault, hp, due, clear]

/-- Nothing of the transmitter is to come but the fall of its light: no start-up or t_on runs, and a fault is latched already
or none is detected. -/
structure Resting (x : TxUnit) : Prop where
  due : x.due = none
  fault : x.latch = true ∨ x.faultDue = none

/-- A transmitter that rests is as it was after the timers, but for the fall of its light. -/
theorem settle_resting {s : State} (h : Resting s.tx) : (settle s).tx = { s.tx with offDue := (settle s).tx.offDue } := by
  have tx := (settleInterface_interfaceOnly s).tx
  rw [← tx] at h
  have noFault : settleFault (settleInterface s) = settleInterface s := h.fault.elim settleFault_latched settleFault_none
  have after := settle_tx s
  rwa [noFault, settleTx_idle h.due, tx] at after

/-- Settles O40: the latch's timer takes the fault, and leaves a transmitter that rests. -/
theorem faultTaken : Obligations.FaultTaken := by
  intro s d hp due come clear
  have takes : settleFault s = enterTxFault s := settleFault_takes hp (due ▸ isDue_of_le come) clear
  refine ⟨takes, fun circuit => ?_, ?_⟩
  · rw [takes]
    exact txFaultWire_latched circuit rfl
  · have k := settleInterface_interfaceOnly s
    have later : settleFault (settleInterface s) = enterTxFault (settleInterface s) := by
      refine settleFault_takes (k.powered.trans hp) ?_ (by rw [k.tx, clear])
      rw [k.tx, due]
      exact isDue_of_le (k.now.symm ▸ come)
    rw [settle_tx, later, settleTx_idle (enterTxFault_tx_due _)]
    exact ⟨rfl, rfl, rfl⟩

/-! ### A latched fault -/

/-- START or STOP as a device makes it is no proper STOP outside a write: the transmitter does not see it. -/
theorem holdSdaEvent_tx {s : State} (h : s.bus.state ≠ .writeData) (b : Bool) : (holdSdaEvent b s).tx = s.tx := by
  have start (u : State) : (seeStart u).tx = u.tx := by
    unfold seeStart abortWrite
    split <;> rfl
  have stop (u : State) (hu : u.bus.state ≠ .writeData) : (seeStop u).tx = u.tx := by
    rw [seeStop, if_neg hu]
    rfl
  unfold holdSdaEvent sdaMoves
  split
  · split
    · exact start _
    · exact stop _ h
    · rfl
    · rfl
  · rfl

theorem holdSclEvent_tx (b : Bool) (s : State) : (holdSclEvent b s).tx = s.tx := by
  unfold holdSclEvent
  split
  · split <;> rfl
  · split <;> rfl

theorem signalEvent_tx (b : Bool) (s : State) : (signalEvent b s).tx = s.tx := by
  unfold signalEvent
  dsimp only
  split <;> rfl

/-- A fault condition that comes or goes changes when a fault is detected, and nothing else of the transmitter. -/
theorem faultEvent_tx (b : Bool) (s : State) :
    (faultEvent b s).tx = { s.tx with
      faultAt := (faultEvent b s).tx.faultAt, faultDue := (faultEvent b s).tx.faultDue } := by
  unfold faultEvent
  dsimp only
  split
  · split <;> rfl
  · rfl

/-- Every event but a STOP inside a write leaves the latch, `tx_state` and the start-up as they were. -/
theorem runEvent_latch (e : EnvEvent) {s : State} (h : (∃ b, e = .holdSda b) → s.bus.state ≠ .writeData) :
    (runEvent e s).tx.latch = s.tx.latch ∧ (runEvent e s).tx.state = s.tx.state ∧ (runEvent e s).tx.due = s.tx.due := by
  suffices same : (runEvent e s).tx = { s.tx with
      faultAt := (runEvent e s).tx.faultAt, faultDue := (runEvent e s).tx.faultDue } by
    rw [same]
    exact ⟨rfl, rfl, rfl⟩
  cases e with
  | fault b => exact faultEvent_tx b s
  | signal b => rw [show (runEvent (.signal b) s).tx = s.tx from signalEvent_tx b s]
  | rxData b => rfl
  | holdSda b => rw [show (runEvent (.holdSda b) s).tx = s.tx from holdSdaEvent_tx (h ⟨b, rfl⟩) b]
  | holdScl b => rw [show (runEvent (.holdScl b) s).tx = s.tx from holdSclEvent_tx b s]
  | blockScl b => rfl

/-- The timers leave a latched fault as it is. -/
theorem settle_latch {s : State} (latch : s.tx.latch = true) (due : s.tx.due = none) :
    (settle s).tx.latch = true ∧ (settle s).tx.state = s.tx.state := by
  rw [settle_resting ⟨due, .inl latch⟩]
  exact ⟨latch, rfl⟩

/-- Settles O41: with the latch set no start-up runs (`Inv`), so neither the event nor the timers move the transmitter. -/
theorem latchHeld : Obligations.LatchHeld := by
  intro s t inv latch script steps
  obtain ⟨-, due⟩ := ((inv_iff_sound s).1 inv).tx.armed latch
  rcases script with idle | ⟨e, rest, entry, outside⟩
  · have E : step s = .next (settle (idleTick s)) := by rw [step, idle]
    cases E.symm.trans steps
    exact settle_latch (s := idleTick s) latch due
  · have E : step s = .next (settle (runEvent e { s with script := rest })) := by rw [step, entry]; rfl
    cases E.symm.trans steps
    obtain ⟨latch', state', due'⟩ := runEvent_latch e (s := { s with script := rest }) outside
    rw [← show _ = s.tx.state from state']
    exact settle_latch (latch'.trans latch) (due'.trans due)

/-! ### Loss of signal -/

/-- A change of the signal in a powered module starts the receiver's time, of the same bound either way. -/
theorem signalEvent_changes {s : State} {b : Bool} (hp : s.slot.powered = true) (h : s.out.signal ≠ b) :
    ∃ d, signalEvent b s =
        { s with
          out := { s.out with signal := b }, rcv := { s.rcv with due := some d, changeAt := s.clk.now }
          clk := { s.clk with drawn := s.clk.drawn + 1 } } ∧
      s.clk.now ≤ d ∧ d ≤ s.clk.now + 1000 := by
  have bound : (if b then Config.tLosOff else Config.tLosOn) = 1000 := by cases b <;> rfl
  refine ⟨drawDue s 0 1000, ?_, drawDue_ge .., drawDue_le ..⟩
  simp only [signalEvent, bound]
  exact if_pos ⟨h.symm, hp⟩

theorem settleFault_raised (s : State) : ∃ l, (settleFault s).raised = s.raised ++ l := by
  unfold settleFault
  split
  · exact ⟨_, rfl⟩
  · exact ⟨[], (List.append_nil _).symm⟩

theorem settleTx_raised (s : State) : ∃ l, (settleTx s).raised = s.raised ++ l := by
  have same : ∃ l, s.raised = s.raised ++ l := ⟨[], (List.append_nil _).symm⟩
  unfold settleTx
  split
  · cases s.tx.state
    case initializing =>
      dsimp only
      split
      · exact ⟨_, rfl⟩
      · exact same
    all_goals exact same
  · exact same

theorem settleOff_raised (s : State) : (settleOff s).raised = s.raised := by
  unfold settleOff
  split <;> rfl

/-- Of the timers, the latch's and the transmitter's may raise something before the receiver's does, and none after it. -/
theorem lateTimers_raised_los (s : State) :
    ∃ a u, u.raised = s.raised ++ a ∧ u.rcv = s.rcv ∧ u.out = s.out ∧ u.cfg = s.cfg ∧ u.clk = s.clk ∧
      (lateTimers s).raised = (settleLos u).raised := by
  obtain ⟨f, fault⟩ := settleFault_raised s
  obtain ⟨x, starts⟩ := settleTx_raised (settleFault s)
  have k := ((settleFault_ticks s).trans (settleTx_ticks _)).trans (settleOff_ticks _)
  have rcv : (settleOff (settleTx (settleFault s))).rcv = s.rcv := by
    rw [(settleOff_other _).1, (settleTx_other _).1, (settleFault_other _).1]
  have level (u : State) : (settleLevel u).raised = u.raised := by unfold settleLevel; split <;> rfl
  refine ⟨f ++ x, settleOff (settleTx (settleFault s)), ?_, rcv, k.out, k.cfg, k.clk, ?_⟩
  · rw [settleOff_raised, starts, fault, List.append_assoc]
  · rw [lateTimers, level, settleTxRate_eq, settleRx_eq]

theorem settleLos_raises {s : State} (due : isDue s.rcv.due s = true) (signal : s.out.signal = false)
    (negated : s.rcv.los = false) (impl : s.cfg.rxLosImpl = true) (active : s.cfg.passiveCable = false) :
    (settleLos s).raised = s.raised ++ [.rxLos] := by
  simp [settleLos, due, signal, negated, impl, active]

/-- Settles O51: the event starts the receiver's time, at whose end Rx_LOS is what the signal says. -/
theorem lossOfSignal : Obligations.LossOfSignal := by
  refine ⟨fun s b hp h => signalEvent_changes hp h, fun s d due come => ?_⟩
  have k := settleInterface_interfaceOnly s
  have late : settle s = lateTimers (settleInterface s) := rfl
  generalize settleInterface s = u at k late
  have dueAt : isDue u.rcv.due u = true := by
    rw [k.rcv, due]
    exact isDue_of_le (k.now.symm ▸ come)
  have rcv : (settle s).rcv = { s.rcv with los := !s.out.signal, known := true, due := none } := by
    rw [late, lateTimers_rcv, if_pos dueAt, k.rcv, k.out]
  refine ⟨rcv, fun hm hp impl active => ?_, fun signal clear impl active => ?_⟩
  · have q := lateTimers_ticks u
    rw [← late] at q
    rw [rxLosWire_known (by rw [q.slot, k.mated, hm]) (by rw [q.slot, k.powered, hp]) (by rw [q.cfg, k.cfg, impl])
      (by rw [q.cfg, k.cfg, active]) (by rw [rcv]), rcv]
  · obtain ⟨a, v, raised, rcv', out, cfg, clk, loses⟩ := lateTimers_raised_los u
    have raises := settleLos_raises (s := v) (by rw [isDue_congr _ clk, rcv', dueAt]) (by rw [out, k.out, signal])
      (by rw [rcv', k.rcv, clear]) (by rw [cfg, k.cfg, impl]) (by rw [cfg, k.cfg, active])
    exact ⟨a, [], by rw [late, loses, raises, raised, k.raised]⟩

end Sys2Proof.Machine
end

section
/-! Writes cut short, and a bus that hangs (20_memory.md R89; 60_exceptions.md R620, R636, R641). -/

namespace Sys2Proof.Machine

/-! ### SDA held low -/

/-- START and STOP are impossible with SDA low. -/
theorem hostStart_held {s : State} (h : sdaLine .high s = .low) : hostStart s = raise .hungBus s := if_pos h

theorem hostStop_held {s : State} (h : sdaLine .high s = .low) : hostStop s = raise .hungBus s := if_pos h

/-- A bus operation of which only `HungBus` comes brings no ninth word. -/
theorem clocked_hungBus {f : State → State} {s : State} (free : sclHeld s = false) (h : f s = raise .hungBus s) :
    clocked f s = .next (raise .hungBus s) := by
  rw [clocked_kept f free (overran_append (l := [.hungBus]) (congrArg State.raised h) (by decide)), h]

/-- Settles O27: the host makes neither, and records it. -/
theorem heldSdaHangsBus : Obligations.HeldSdaHangsBus := fun _ free held =>
  ⟨clocked_hungBus free (hostStart_held held), clocked_hungBus free (hostStop_held held)⟩

/-! ### SCL held low -/

/-- What follows START in a frame: its words and its end. -/
def frameTail (i : Instr) : State → State :=
  match i with
  | .currentRead sp => fun t => hostStop (readBody sp 1 t)
  | .randomRead sp a => fun t => hostStop (randomBody sp a 1 t)
  | .seqReadCurrent sp n => fun t => hostStop (readBody sp n t)
  | .seqReadRandom sp a n => fun t => hostStop (randomBody sp a n t)
  | .byteWrite sp a d => fun t => hostStop (writeBody sp a [d] t)
  | .seqWrite sp a ds => fun t => hostStop (writeBody sp a ds t)
  | .ackPoll sp r => fun t => pollEnd r.fin (pollWord sp r.dir t)
  | _ => id

/-- A frame is a bus operation that makes START and goes on. -/
theorem exec_frame {i : Instr} (h : isFrame i = true) (s : State) : exec i s = clocked (startThen (frameTail i)) s := by
  cases i
  case seqWrite sp a ds => exact if_neg (Nat.not_lt.2 (of_decide_eq_true h))
  case currentRead | randomRead | seqReadCurrent | seqReadRandom | byteWrite | ackPoll => rfl
  all_goals cases h

/-- Where the module holds SCL, T_clock_hold runs and it is marked faulty, -/
theorem hang_own {s : State} (h : moduleHolds s = true) : hang s =
    { s with
      clk := { s.clk with now := max s.clk.now (s.bus.heldAt + Config.tClockHold) }
      slot := { s.slot with stuck := true }
      raised := s.raised ++ [.hungBus] } := by
  simp only [hang, h, if_true, Bool.true_or, raise]

/-- and where another device does, `HungBus` is all. -/
theorem hang_other {s : State} (h : moduleHolds s = false) : hang s = { s with raised := s.raised ++ [.hungBus] } := by
  simp only [hang, h, Bool.false_eq_true, if_false, Bool.false_or, raise]

theorem wordSlot_held (f : State → State) {s : State} (h : sclHeld s = true) : wordSlot f s = .next (hang s) := if_pos h

/-- A management reset hangs too: the refusal of a ninth word's last bit is for a bus that can be clocked. -/
theorem execMgmtReset_held {s : State} (h : sclHeld s = true) : exec .mgmtReset s = .next (hang s) := by
  show execMgmtReset s = _
  rw [execMgmtReset, h, if_neg (by simp)]
  exact clocked_held _ h

/-- The fault reset by software is one bus operation: the control asserted, its write cycle, and the control negated. -/
theorem execTxFaultReset_software (s : State) : exec (.txFaultReset .software) s =
    clocked (fun t => writeSoftTx false (awaitWrite (writeSoftTx true t))) s := rfl

/-- Settles O28: frames and controls are bus operations, words are slots, and each finds SCL held first. -/
theorem heldClockSticks : Obligations.HeldClockSticks := by
  intro s i held needs
  have hangs : exec i s = .next (hang s) := by
    rcases needs with frame | ⟨sp, r, rfl⟩ | ⟨a, rfl⟩ | ⟨d, rfl⟩ | rfl | ⟨l, rfl⟩ | rfl | ⟨v, rfl⟩ | ⟨x, y, rfl⟩ | rfl
    · exact (exec_frame frame s).trans (clocked_held _ held)
    · exact wordSlot_held _ held
    · exact wordSlot_held _ held
    · exact wordSlot_held _ held
    · exact execMgmtReset_held held
    · exact clocked_held _ held
    · exact clocked_held _ held
    · exact clocked_held _ held
    · exact clocked_held _ held
    · exact (execTxFaultReset_software s).trans (clocked_held _ held)
  exact ⟨fun own => by rw [hangs, hang_own own], fun other => by rw [hangs, hang_other other]⟩

/-! ### A write dropped -/

/-- What neither touches a write in progress nor raises anything. -/
structure Beside (s t : State) : Prop extends Undisturbed s t where
  raised : t.raised = s.raised
  wbuf : t.bus.wbuf = s.bus.wbuf
  sel : t.bus.sel = s.bus.sel
  loaded : t.bus.loaded = s.bus.loaded
  ctr : ∀ q, ctrOf t.bus q = ctrOf s.bus q

theorem Beside.trans {s t u : State} (a : Beside s t) (b : Beside t u) : Beside s u :=
  ⟨a.toUndisturbed.trans b.toUndisturbed, b.raised.trans a.raised, b.wbuf.trans a.wbuf, b.sel.trans a.sel,
    b.loaded.trans a.loaded, fun q => (b.ctr q).trans (a.ctr q)⟩

/-- What keeps all that is not the bus, and of the bus what a write holds. -/
theorem Keeps.beside {s t : State} (k : Keeps s t) (e : SameEngine s t) (raised : t.raised = s.raised)
    (seen : t.seen = s.seen) (loaded : t.bus.loaded = s.bus.loaded) (stretching : t.bus.stretching = s.bus.stretching) :
    Beside s t :=
  ⟨⟨⟨k.cfg, k.out, k.slot, k.rcv, k.rate, k.script, fun key => by rw [readByte, readByte, k.cfg, k.mem], by rw [k.host],
    by rw [seen], stretching⟩, ⟨k.tx, k.lvl⟩, k.wr⟩, raised, e.wbuf, e.sel, loaded, e.ctr⟩

theorem lowPeriod_beside {s : State} (h : calm s) : Beside s (lowPeriod s) := by
  obtain ⟨-, -, -, released, -, -⟩ := h
  have q := lowPeriod_quiet s
  exact q.toKeeps.beside q.toSameEngine q.raised q.seen rfl ((q.stretching released).trans released.symm)

theorem closing_beside {s : State} (h : calm s) : Beside s (closing s) := by
  obtain ⟨-, -, -, released, -, -⟩ := h
  have q := closing_quiet s
  exact q.toKeeps.beside q.toSameEngine q.raised q.seen rfl ((q.stretching released).trans released.symm)

theorem openFrame_beside (n : Nat) (s : State) : Beside s (openFrame (advance n s)) :=
  ⟨⟨⟨rfl, rfl, rfl, rfl, rfl, rfl, fun _ => rfl, rfl, openFrame_wires _, rfl⟩, ⟨rfl, rfl⟩, rfl⟩, rfl, rfl, rfl, rfl,
    fun _ => rfl⟩

theorem gotStart_beside {s : State} (h : s.bus.wbuf = []) : Beside s (spend 2 (gotStart s)) :=
  ⟨⟨⟨rfl, rfl, rfl, rfl, rfl, rfl, fun _ => rfl, rfl, rfl, rfl⟩, ⟨rfl, rfl⟩, rfl⟩, rfl, h.symm, rfl, rfl,
    fun q => by cases q <;> rfl⟩

theorem closed_beside (d : Option Nat × Bool) (s : State) : Beside s (closed d s) :=
  ⟨⟨⟨rfl, rfl, rfl, rfl, rfl, rfl, fun _ => rfl, rfl, rfl, rfl⟩, ⟨rfl, rfl⟩, rfl⟩, rfl, rfl, rfl, rfl, closed_ctr d s⟩

/-- What the drop of a write leaves (60_exceptions.md R636): no words, the counter by `P_ABORT_CTR`, and the rest. -/
structure Dropped (s t : State) : Prop extends Undisturbed s t where
  wbuf : t.bus.wbuf = []
  raised : t.raised = s.raised ++ [.abortedWrite]
  kept : s.cfg.abortCtr = .keepIncremented → ∀ q, ctrOf t.bus q = ctrOf s.bus q
  restored : s.cfg.abortCtr = .restoreLoaded →
    ctrOf t.bus s.bus.sel = s.bus.loaded ∧ ∀ q, q ≠ s.bus.sel → ctrOf t.bus q = ctrOf s.bus q

/-- A write is dropped with its words and no more. -/
theorem abortWrite_dropped {s : State} (hs : s.bus.state = .writeData) (hw : s.bus.wbuf ≠ []) :
    Dropped s (abortWrite s) := by
  rw [abortWrite, if_pos ⟨hs, hw⟩]
  cases policy : s.cfg.abortCtr
  case keepIncremented =>
    exact ⟨⟨⟨rfl, rfl, rfl, rfl, rfl, rfl, fun _ => rfl, rfl, rfl, rfl⟩, ⟨rfl, rfl⟩, rfl⟩, rfl, rfl,
      fun _ q => by cases q <;> rfl, fun other => absurd (policy.symm.trans other) (by decide)⟩
  case restoreLoaded =>
    have ctr (q : Space) : ctrOf { setCtr s.bus.sel s.bus.loaded s.bus with wbuf := [] } q =
        ctrOf (setCtr s.bus.sel s.bus.loaded s.bus) q := by cases q <;> rfl
    exact ⟨⟨⟨rfl, rfl, rfl, rfl, rfl, rfl, fun _ => rfl, rfl, rfl, setCtr_stretching _ _ _⟩, ⟨rfl, rfl⟩, rfl⟩, rfl, rfl,
      fun other => absurd (policy.symm.trans other) (by decide),
      fun _ => ⟨(ctr _).trans (ctrOf_setCtr ..), fun q hq => (ctr q).trans (ctrOf_setCtr_ne hq ..)⟩⟩

/-- The drop among what is beside the write. -/
theorem Dropped.between {s u v t : State} (a : Beside s u) (k : Dropped u v) (b : Beside v t) : Dropped s t := by
  obtain ⟨cfg, -⟩ := a.around
  refine ⟨(a.toUndisturbed.trans k.toUndisturbed).trans b.toUndisturbed, b.wbuf.trans k.wbuf, ?_, fun keep q => ?_,
    fun restore => ?_⟩
  · rw [b.raised, k.raised, a.raised]
  · rw [b.ctr, k.kept (by rw [cfg, keep]), a.ctr]
  · obtain ⟨own, other⟩ := k.restored (by rw [cfg, restore])
    rw [a.sel, a.loaded] at own
    exact ⟨(b.ctr _).trans own, fun q hq => by rw [b.ctr, other q (by rw [a.sel]; exact hq), a.ctr]⟩

/-- Settles O24: START drops the write before the engine takes it. -/
theorem abortedWrite : Obligations.AbortedWrite := by
  intro s h hs hw hd free
  have sees := hostStart_seen (Calm.of h).toHears hd free
  have before := (lowPeriod_beside h).trans (openFrame_beside (Config.tSuSta + Config.tHdSta) (lowPeriod s))
  have state : (openFrame (advance (Config.tSuSta + Config.tHdSta) (lowPeriod s))).bus.state = .writeData := hs
  have E : runSym .start s = .next (hostStart s) := by
    obtain ⟨-, -, -, released, waits, scl⟩ := h
    exact clocked_free hostStart (sclHeld_free released scl) waits
  rw [sees, seeStart] at E
  generalize openFrame (advance (Config.tSuSta + Config.tHdSta) (lowPeriod s)) = u at before state E
  have drops := abortWrite_dropped state (by rw [before.wbuf]; exact hw)
  have k := Dropped.between before drops (gotStart_beside drops.wbuf)
  exact ⟨_, E, ⟨k.toUndisturbed.calm h, rfl, rfl, rfl, rfl⟩, k.wbuf, k.raised, k.kept, k.restored, k.around, k.controls,
    k.wr⟩

/-- STOP inside a word after the first is no proper STOP: no write cycle may follow, as far as the host knows too. -/
theorem stop_inside {s : State} (h : Calm s) (hd : s.bus.sda = .high) (hs : s.bus.state = .writeData)
    (hw : s.bus.wbuf ≠ []) (hn : s.bus.nbits ≠ 0) :
    hostStop s = closed (s.bus.deafTill, s.bus.deafWrite) (abortWrite (closing s)) := by
  have line : ¬ sdaLine .high s = .low := by rw [sdaLine_calm h]; simp [hd, Level.meet]
  have q := closing_quiet s
  have c : Hears (closing s) := h.toHears.keeps q.toKeeps
  have lost : edgeLost (lowPeriod s) = false := edgeLost_waits c.waits
  have state : (closing s).bus.state = .writeData := q.state.trans hs
  have words : (closing s).bus.wbuf ≠ [] := by rw [q.wbuf]; exact hw
  have bits : (closing s).bus.nbits ≠ 0 := by rw [q.nbits]; exact hn
  have cut : mayWrite (closing s) = false := by simp [mayWrite, words, bits]
  rw [hostStop, if_neg line]
  dsimp only
  rw [lost, show spend 1 (advance Config.tSuSto (lowPeriod s)) = closing s from rfl, c.lis, cut, q.deafTill, q.deafWrite]
  simp only [Bool.not_false, Bool.and_true, if_true, Bool.false_eq_true, if_false, Bool.false_or]
  rw [seeStop, if_pos state, if_neg words, if_neg bits]; rfl

/-- Settles O25: the STOP drops the write and ends the transaction. -/
theorem stopInsideWordAborts : Obligations.StopInsideWordAborts := by
  intro s h hs hw hn hd
  have before := closing_beside h
  have state : (closing s).bus.state = .writeData := hs
  have E : runSym .stop s = .next (closed (s.bus.deafTill, s.bus.deafWrite) (abortWrite (closing s))) := by
    rw [← stop_inside (Calm.of h) hd hs hw hn]
    obtain ⟨-, -, -, released, waits, scl⟩ := h
    exact clocked_free hostStop (sclHeld_free released scl) waits
  generalize closing s = u at before state E
  have drops := abortWrite_dropped state (by rw [before.wbuf]; exact hw)
  have k := Dropped.between before drops (closed_beside (s.bus.deafTill, s.bus.deafWrite) _)
  exact ⟨_, E, rfl, rfl, k.wbuf, k.raised, k.kept, k.restored, k.around, k.controls, k.wr⟩

end Sys2Proof.Machine
end

section
/-! The fault reset protocol, by the contact and by the Software Tx disable (60_exceptions.md R626; 40_low_speed_control.md
R162, R163; 20_memory.md R97, R99). -/

namespace Sys2Proof.Machine

/-! ### What the timers leave for the protocol -/

/-- What a wait until `n` leaves alone of everything around the module's own units. -/
structure Waited (n : Nat) (s t : State) : Prop where
  cfg : t.cfg = s.cfg
  now : t.clk.now = max s.clk.now n
  host : t.host = s.host
  out : t.out = s.out
  mated : t.slot.mated = s.slot.mated
  powered : t.slot.powered = s.slot.powered
  soft : t.tx.soft = s.tx.soft

theorem settleFault_soft (s : State) : (settleFault s).tx.soft = s.tx.soft := by
  unfold settleFault
  split <;> rfl

theorem settleTx_soft (s : State) : (settleTx s).tx.soft = s.tx.soft := by
  unfold settleTx
  split
  · cases s.tx.state
    case initializing => dsimp only; split <;> rfl
    all_goals rfl
  · rfl

theorem settle_soft (s : State) : (settle s).tx.soft = s.tx.soft := by
  rw [settle_tx, settleTx_soft, settleFault_soft]
  exact congrArg TxUnit.soft (settleInterface_interfaceOnly s).tx

/-- The state at a later instant, before its timers run. -/
def atTime (n : Nat) (s : State) : State :=
  { s with clk := { s.clk with now := max s.clk.now n } }

theorem waitUntil_eq_settle (n : Nat) (s : State) : waitUntil n s = settle (atTime n s) :=
  rfl

theorem waitUntil_waited (n : Nat) (s : State) : Waited n s (waitUntil n s) := by
  rw [waitUntil_eq_settle]
  have k := settleInterface_interfaceOnly (atTime n s)
  have q := lateTimers_ticks (settleInterface (atTime n s))
  exact ⟨q.cfg.trans k.cfg, (congrArg Clock.now q.clk).trans k.now, q.host.trans k.host, q.out.trans k.out,
    (congrArg SlotUnit.mated q.slot).trans k.mated, (congrArg SlotUnit.powered q.slot).trans k.powered,
    settle_soft (atTime n s)⟩

/-- A wait leaves a transmitter that rests as it was, but for the fall of its light. -/
theorem waitUntil_resting {s : State} (n : Nat) (h : Resting s.tx) :
    (waitUntil n s).tx = { s.tx with offDue := (waitUntil n s).tx.offDue } :=
  settle_resting (s := atTime n s) h

theorem settleReady_idle {s : State} (h : s.wr.busy = false) : (settleReady s).wr.busy = false := by
  unfold settleReady
  split
  · rfl
  · exact h

/-- With no write cycle running, readiness and the module's own timers are all that runs. -/
theorem settle_idle {s : State} (h : s.wr.busy = false) : settle s = lateTimers (settleReady s) := by
  rw [settle_eq, settleWrite_idle (settleReady_idle h)]

theorem settle_slot (s : State) : (settle s).slot = (settleReady s).slot := by
  have commits : (settleWrite (settleReady s)).slot = (settleReady s).slot := by
    unfold settleWrite
    split
    · obtain ⟨x, n, e⟩ := commitWrite_eq (settleReady s)
      rw [e]
    · rfl
  rw [settle_eq, (lateTimers_ticks _).slot, commits]

/-! ### What a move of the contact leaves to the timers -/

/-- A state with Tx_Disable at another level, another transmitter, and other free values used. -/
def contactMoved (x : Level) (y : TxUnit) (n : Nat) (s : State) : State :=
  { s with host := { s.host with txDisable := x }, tx := y, clk := { s.clk with drawn := n } }

theorem settleReady_contactMoved (x : Level) (y : TxUnit) (n : Nat) (s : State) :
    settleReady (contactMoved x y n s) = contactMoved x y n (settleReady s) := by
  unfold settleReady
  rw [show (contactMoved x y n s).slot = s.slot from rfl, show (contactMoved x y n s).clk.now = s.clk.now from rfl]
  split <;> rfl

theorem waitUntil_contactMoved (x : Level) (y : TxUnit) (n m : Nat) (s : State) :
    waitUntil n (contactMoved x y m s) = settle (contactMoved x y m (atTime n s)) :=
  rfl

/-- Presence and readiness look at neither contact nor transmitter, -/
theorem waitUntil_contactMoved_slot (x : Level) (y : TxUnit) (n m : Nat) (s : State) :
    (waitUntil n (contactMoved x y m s)).slot = (waitUntil n s).slot := by
  rw [waitUntil_contactMoved, waitUntil_eq_settle, settle_slot, settle_slot, settleReady_contactMoved]
  rfl

/-- nor, without a write cycle, do the timers of receiver, rates, level and bus. -/
theorem waitUntil_contactMoved_idle {s : State} (x : Level) (y : TxUnit) (n m : Nat) (idle : s.wr.busy = false) :
    (waitUntil n (contactMoved x y m s)).rcv = (waitUntil n s).rcv ∧
      (waitUntil n (contactMoved x y m s)).rate = (waitUntil n s).rate ∧
      (waitUntil n (contactMoved x y m s)).lvl = (waitUntil n s).lvl ∧
      (waitUntil n (contactMoved x y m s)).bus = (waitUntil n s).bus ∧
      (waitUntil n (contactMoved x y m s)).mem = s.mem := by
  rw [waitUntil_contactMoved, waitUntil_eq_settle, settle_idle (s := atTime n s) idle,
    settle_idle (s := contactMoved x y m (atTime n s)) idle, settleReady_contactMoved]
  have mem : (settleReady (atTime n s)).mem = s.mem := by
    obtain ⟨-, -, -, -, -, -, -, -, -, mem, -⟩ := settleReady_keeps (atTime n s)
    exact mem
  generalize settleReady (atTime n s) = u at mem
  have moved := lateTimers_ticks (contactMoved x y m u)
  refine ⟨?_, ?_, ?_, ?_, moved.mem.trans mem⟩
  · rw [lateTimers_rcv, lateTimers_rcv]; rfl
  · rw [lateTimers_ratesSettled, lateTimers_ratesSettled]; rfl
  · rw [lateTimers_lvl, lateTimers_lvl]; rfl
  · rw [moved.bus, (lateTimers_ticks u).bus]; rfl

/-! ### The contact high for t_reset -/

/-- Driving the contact takes no time. -/
theorem driveTxDisable_now (x : Level) (s : State) : (driveTxDisable x s).clk.now = s.clk.now := by
  obtain ⟨y, n, e⟩ := reTx_txOnly (txOff s) { s with host := { s.host with txDisable := x } }
  rw [driveTxDisable, e]

/-- The pulse is an assertion, t_reset, and a negation. -/
theorem execTxFaultReset_contact (s : State) : exec (.txFaultReset .contact) s =
    exec .txDisableNegate (waitUntil (s.clk.now + Config.tReset) (driveTxDisable .high s)) := by
  show Host.Outcome.next (driveTxDisable .low
    (waitUntil ((driveTxDisable .high s).clk.now + Config.tReset) (driveTxDisable .high s))) = _
  rw [driveTxDisable_now]
  rfl

/-- The state `w` after the contact of `s` has been high for t_reset: around the transmitter as without the pulse, and a
transmitter whose fault is latched, or that has none detected, is disabled and waits for the negation. -/
structure HeldHigh (s w : State) : Prop where
  cfg : w.cfg = s.cfg
  now : w.clk.now = s.clk.now + Config.tReset
  host : w.host = { s.host with txDisable := .high }
  out : w.out = s.out
  mated : w.slot.mated = s.slot.mated
  powered : w.slot.powered = s.slot.powered
  soft : w.tx.soft = s.tx.soft
  slot : w.slot = (waitUntil (s.clk.now + Config.tReset) s).slot
  idle : s.wr.busy = false →
    w.rcv = (waitUntil (s.clk.now + Config.tReset) s).rcv ∧ w.rate = (waitUntil (s.clk.now + Config.tReset) s).rate ∧
    w.lvl = (waitUntil (s.clk.now + Config.tReset) s).lvl ∧ w.bus = (waitUntil (s.clk.now + Config.tReset) s).bus ∧
    w.mem = s.mem
  tx : s.tx.state ≠ .offUnpowered → s.tx.latch = true ∨ s.tx.faultDue = none →
    w.tx = { s.tx with
      state := .disabled, outputOn := false, due := none, offDue := w.tx.offDue, riseAt := s.clk.now }

theorem waitUntil_heldHigh {s : State} (hp : s.slot.powered = true) (active : s.cfg.passiveCable = false)
    (on : txOff s = false) : HeldHigh s (waitUntil (s.clk.now + Config.tReset) (driveTxDisable .high s)) := by
  obtain ⟨u, asserts, frame, off, disables, -, -⟩ := (txDisableAssert s).1 hp active on
  obtain rfl : driveTxDisable .high s = u := Host.Outcome.next.inj asserts
  generalize driveTxDisable .high s = u at frame off disables
  have moved : u = contactMoved .high u.tx u.clk.drawn s := frame
  have k := waitUntil_waited (s.clk.now + Config.tReset) u
  have slot := waitUntil_contactMoved_slot .high u.tx (s.clk.now + Config.tReset) u.clk.drawn s
  have idle := waitUntil_contactMoved_idle (s := s) .high u.tx (s.clk.now + Config.tReset) u.clk.drawn
  have tx := waitUntil_resting (s := u) (s.clk.now + Config.tReset)
  rw [← moved] at slot idle
  generalize waitUntil (s.clk.now + Config.tReset) u = w at k slot idle tx
  refine ⟨by rw [k.cfg, frame], ?_, by rw [k.host, frame], by rw [k.out, frame], by rw [k.mated, frame],
    by rw [k.powered, frame], by rw [k.soft, off], slot, idle, fun live fault => ?_⟩
  · rw [k.now, frame]
    exact max_eq_right (Nat.le_add_right ..)
  · have after := tx (by rw [off]; exact ⟨rfl, fault⟩)
    rwa [off, disables live] at after

/-- Settles O42: what the contact high for t_reset leaves, and what a negation makes of it (`TxDisableNegate`). -/
theorem txFaultResetByContact : Obligations.TxFaultResetByContact := by
  refine ⟨fun s => ⟨_, rfl, execTxFaultReset_contact s⟩, fun s hm hp active low soft => ?_⟩
  have k := waitUntil_heldHigh hp active (txOff_eq_false.2 ⟨(if_pos hm).trans low, soft⟩)
  have pulses := execTxFaultReset_contact s
  generalize waitUntil (s.clk.now + Config.tReset) (driveTxDisable .high s) = w at k pulses
  obtain ⟨t, negates, frame, fell⟩ := (txDisableNegate w).1 (k.mated.trans hm) (k.powered.trans hp)
    (by rw [k.cfg, active]) (by rw [k.host]) (by rw [k.cfg, k.soft]; exact soft)
  have now : t.clk.now = w.clk.now := by rw [frame]
  obtain ⟨⟨fallAt, -⟩, normal, -, reset, -⟩ := fell
  refine ⟨t, pulses.trans negates, now.trans k.now, ?_, by rw [frame, ← k.cfg], by rw [frame, ← k.out],
    by rw [frame, ← k.slot], fun idle => ?_, fun latch latched => ?_, fun clear operating started pending => ?_⟩
  · rw [frame]
    show ({ w.host with txDisable := .low } : HostSide) = s.host
    rw [k.host, ← low]
  · obtain ⟨rcv, rate, lvl, bus, mem⟩ := k.idle idle
    rw [frame]
    exact ⟨rcv, rate, lvl, bus, fun key => by simp only [readByte, k.cfg, mem]⟩
  · have tx := k.tx (by rw [latched]; decide) (.inl latch)
    obtain ⟨state, unlatched, dark, -, due, -⟩ := reset (by rw [tx]; exact latch) (by rw [tx, k.now])
    rw [now, ← k.cfg]
    exact ⟨unlatched, state, dark, fallAt, due⟩
  · have tx := k.tx (by rw [operating]; decide) (.inr pending)
    obtain ⟨⟨state, due⟩, unlatched, -⟩ := (normal (by rw [tx]) (by rw [tx]; exact clear) (by rw [tx]; exact pending)).1
      (by rw [tx]; exact started)
    rw [now]
    exact ⟨unlatched, state, due⟩

/-! ### The Software Tx disable takes a value -/

/-- What the Software Tx disable at `v` makes of the transmitter of `s` at the instant `now`: an edge where it turns the
transmitter off or on, and nothing but the control elsewhere. -/
structure SoftTxTaken (v : Bool) (s : State) (now : Nat) (y : TxUnit) : Prop where
  soft : y.soft = v
  still : s.cfg.passiveCable = true ∨ txOff { s with tx := { s.tx with soft := v } } = txOff s →
    y = { s.tx with soft := v }
  off : s.cfg.passiveCable = false → txOff s = false → txOff { s with tx := { s.tx with soft := v } } = true →
    asserted now { s.tx with soft := v } y
  on : s.cfg.passiveCable = false → txOff s = true → txOff { s with tx := { s.tx with soft := v } } = false →
    negated s now { s.tx with soft := v } y

theorem setSoftTx_taken (v : Bool) {s : State} (hp : s.slot.powered = true) :
    SoftTxTaken v s s.clk.now (setSoftTx v s).tx := by
  refine ⟨reTx_soft _ _, fun still => ?_, fun active before after => ?_, fun active before after => ?_⟩
  · rw [setSoftTx, reTx_kept (still.imp_right Or.inr)]
  · rw [setSoftTx, before, reTx_rise (s := { s with tx := { s.tx with soft := v } }) active hp after]
    exact txRise_asserted { s with tx := { s.tx with soft := v } }
  · rw [setSoftTx, before, reTx_fall (s := { s with tx := { s.tx with soft := v } }) active hp after]
    exact txFall_negated { s with tx := { s.tx with soft := v } }

/-- What a negation makes of a transmitter rests on the fault condition and the parameters. -/
theorem negated_congr {s t : State} {n : Nat} {x y : TxUnit} (cfg : t.cfg = s.cfg) (out : t.out = s.out)
    (h : negated t n x y) : negated s n x y := by
  simpa only [negated, startsBy, cfg, out] using h

theorem SoftTxTaken.congr {v : Bool} {s t : State} {n : Nat} {y : TxUnit} (k : SoftTxTaken v t n y) (cfg : t.cfg = s.cfg)
    (out : t.out = s.out) (slot : t.slot = s.slot) (contact : t.host.txDisable = s.host.txDisable) (tx : t.tx = s.tx) :
    SoftTxTaken v s n y := by
  have pin : txDisableIn t = txDisableIn s := by simp only [txDisableIn, slot, contact]
  have before : txOff t = txOff s := txOff_congr cfg pin (by rw [tx])
  have after : txOff { t with tx := { t.tx with soft := v } } = txOff { s with tx := { s.tx with soft := v } } :=
    txOff_congr cfg pin rfl
  obtain ⟨soft, still, off, on⟩ := k
  rw [before, after, cfg, tx] at still off on
  exact ⟨soft, still, off, fun active b a => negated_congr cfg out (on active b a)⟩

/-! ### The Software Tx disable written over the bus -/

/-- What the write of the Software Tx disable leaves at its STOP: the byte in its write cycle, the control taken there, and
everything else as it was. -/
structure SoftTxWritten (v : Bool) (x : Byte) (s t : State) : Prop extends
    InCycle s t s.cfg.softTxField.space s.cfg.softTxField.addr (fieldPut s.cfg.softTxField v x) where
  space : t.wr.space = s.cfg.softTxField.space
  lvl : t.lvl = s.lvl
  around : sameAround s t
  raised : t.raised = s.raised
  slots : s.clk.now + 27 * s.host.sclPeriod ≤ t.clk.now
  tx : SoftTxTaken v s t.clk.now t.tx

/-- At its STOP a byte with a value in the control's place sets the Software Tx disable, and nothing else. -/
theorem Wrote.takes_softTx {s u : State} {v : Bool} {x : Byte} (c : controlsApart s.cfg)
    (w : Wrote s u s.cfg.softTxField.space s.cfg.softTxField.addr (fieldPut s.cfg.softTxField v x)) :
    stopLevel u.bus (stopSoftTx u.bus (beginWrite u)) = setSoftTx v (beginWrite u) := by
  obtain ⟨apart, mask, -⟩ := c
  have word : wordFor u.bus s.cfg.softTxField.space s.cfg.softTxField.addr = some (fieldPut s.cfg.softTxField v x) :=
    w.hit rfl
  have takes : stopSoftTx u.bus (beginWrite u) = setSoftTx v (beginWrite u) := by
    rw [stopSoftTx, controlFor, show (beginWrite u).cfg = s.cfg from w.cfg, word, Option.map_some, fieldGet_put _ _ _ mask]
  obtain ⟨y, n, only⟩ := setSoftTx_txOnly v (beginWrite u)
  have cfg : (setSoftTx v (beginWrite u)).cfg = u.cfg := by rw [only]; rfl
  rw [takes, w.no_level _ cfg apart]

theorem Wrote.softTxWritten {s u : State} {v : Bool} {x : Byte} (hp : s.slot.powered = true) (c : controlsApart s.cfg)
    (w : Wrote s u s.cfg.softTxField.space s.cfg.softTxField.addr (fieldPut s.cfg.softTxField v x))
    (d : Option Nat × Bool) :
    SoftTxWritten v x s (closed d (stopLevel u.bus (stopSoftTx u.bus (beginWrite u)))) := by
  have k := w.inCycle d
  have taken := setSoftTx_taken v (s := beginWrite u) (by rw [beginWrite_slot, w.slot, hp])
  have contact : (beginWrite u).host.txDisable = s.host.txDisable := by rw [beginWrite_host, w.host]
  rw [w.takes_softTx c] at k ⊢
  obtain ⟨y, n, only⟩ := setSoftTx_txOnly v (beginWrite u)
  rw [only] at k taken ⊢
  exact ⟨k, w.sel, w.lvl, w.around rfl rfl rfl rfl rfl rfl rfl rfl rfl rfl d, w.raised, w.now,
    taken.congr w.cfg w.out w.slot contact w.tx⟩

/-- The control written on a bus that is ready, as one operation and as the two transactions it is (20_memory.md R99). -/
theorem writeSoftTx_operations {s : State} (h : frameReady s) (c : controlsApart s.cfg) (v : Bool) :
    ∃ u x, exec (.randomRead s.cfg.softTxField.space s.cfg.softTxField.addr) s = .next u ∧ u.seen.rx.getLast? = some x ∧
      exec (.byteWrite s.cfg.softTxField.space s.cfg.softTxField.addr (fieldPut s.cfg.softTxField v x)) u =
        .next (writeSoftTx v s) ∧
      exec (.softTxDisable v) s = .next (writeSoftTx v s) ∧ SoftTxWritten v x s (writeSoftTx v s) := by
  obtain ⟨-, powered, -⟩ := (listening_iff s).1 h.1.1
  obtain ⟨u, x, d, b, reads, last, r, writes, stops, w⟩ :=
    rewrite_one h s.cfg.softTxField.space s.cfg.softTxField.addr (fieldPut s.cfg.softTxField v)
  refine ⟨u, x, ?_, last, ?_, clocked_ready _ h, ?_⟩
  · rw [← reads]
    exact clocked_ready _ h
  · rw [writeSoftTx, writes]
    exact clocked_ready _ r.ready
  · rw [writeSoftTx, stops]
    exact w.softTxWritten powered c d

/-- Settles O44: the two transactions, and the control taken at the STOP of the second. -/
theorem softTxDisable : Obligations.SoftTxDisable := by
  intro s v h c
  obtain ⟨u, x, reads, last, writes, runs, k⟩ := writeSoftTx_operations h c v
  exact ⟨u, x, _, reads, last, writes, runs, k.wbuf, k.busy, k.space, k.now.symm, k.due_ge, k.due_le, k.tx.soft, k.lvl,
    k.around, k.raised, k.tx.still, k.tx.off, k.tx.on⟩

/-! ### The fault reset by software -/

/-- The latched fault of a transmitter disabled by software, armed for its reset, once the write cycle has ended. -/
structure Armed (s w : State) : Prop where
  ready : frameReady w
  cfg : w.cfg = s.cfg
  slot : w.slot = s.slot
  host : w.host = { s.host with inFrame := false }
  latch : w.tx.latch = true
  soft : w.tx.soft = true
  riseAt : w.tx.riseAt ≤ w.clk.now

/-- The first write, and the wait for the end of its write cycle. -/
theorem SoftTxWritten.armed {s t : State} {x : Byte} (k : SoftTxWritten true x s t) (h : frameReady s)
    (active : s.cfg.passiveCable = false) (combine : s.cfg.txDisCombine = .or) (on : txOff s = false)
    (latch : s.tx.latch = true) : Armed s (awaitWrite t) := by
  obtain ⟨-, -, ready, -, -⟩ := (listening_iff s).1 h.1.1
  obtain ⟨off, -⟩ := k.tx.off active on (by simp [txOff, combine])
  have latched : t.tx.latch = true := by rw [off]; exact latch
  have rests : Resting t.tx := ⟨by rw [off], .inl latched⟩
  have riseAt : t.tx.riseAt = t.clk.now := by rw [off]
  rw [awaitWrite, if_pos k.busy]
  have e := waitUntil_committed (by rw [k.slot, ready]) k.busy
  have tx := waitUntil_resting t.wr.due rests
  have now := (waitUntil_waited t.wr.due t).now
  generalize waitUntil t.wr.due t = w at e tx now
  refine ⟨k.after h e, e.cfg.trans k.cfg, e.slot.trans k.slot, e.host.trans k.host, ?_, ?_, ?_⟩
  · rw [tx]; exact latched
  · rw [tx]; exact k.tx.soft
  · rw [tx, now]
    exact riseAt.trans_le (Nat.le_max_left ..)

/-- 27 pulses are more than t_reset at any SCL period the source states. -/
theorem reset_within_write {period : Nat} (h : Config.sclPeriodMin ≤ period) : Config.tReset ≤ 27 * period := by
  have min : Config.sclPeriodMin = 25 := rfl
  have reset : Config.tReset = 100 := rfl
  omega

/-- Settles O43: the first write arms the latched fault, and the STOP of the second, more than t_reset later, resets it. -/
theorem txFaultResetBySoftware : Obligations.TxFaultResetBySoftware := by
  intro s h c active combine low soft latch latched period
  obtain ⟨mated, powered, -⟩ := (listening_iff s).1 h.1.1
  have on : txOff s = false := txOff_eq_false.2 ⟨(if_pos mated).trans low, fun _ => soft⟩
  obtain ⟨-, x, -, -, -, asserts, first⟩ := writeSoftTx_operations h c true
  have a := first.armed h active combine on latch
  have resets : exec (.txFaultReset .software) s = .next (writeSoftTx false (awaitWrite (writeSoftTx true s))) :=
    (execTxFaultReset_software s).trans (clocked_ready _ h)
  refine ⟨_, writeSoftTx false (awaitWrite (writeSoftTx true s)), asserts, a.ready, ?_⟩
  generalize awaitWrite (writeSoftTx true s) = w at a resets
  obtain ⟨-, y, -, -, -, negates, second⟩ := writeSoftTx_operations a.ready (by rw [a.cfg]; exact c) false
  generalize writeSoftTx false w = t at resets negates second
  have before : txOff w = true := by simp [txOff, a.cfg, combine, a.soft]
  have contact : txDisableIn w = .low := by
    rw [txDisableIn, a.slot, if_pos mated, a.host]
    exact low
  obtain ⟨-, -, -, reset, -⟩ := second.tx.on (by rw [a.cfg, active]) before (txOff_eq_false.2 ⟨contact, fun _ => rfl⟩)
  have long : w.tx.riseAt + Config.tReset ≤ t.clk.now :=
    (Nat.add_le_add a.riseAt (reset_within_write (by rw [a.host]; exact period))).trans second.slots
  obtain ⟨state, unlatched, dark, -, due, -⟩ := reset a.latch long
  rw [a.cfg] at due
  exact ⟨negates, resets, unlatched, state, second.tx.soft, dark, due, second.busy, by rw [second.host, a.host]; exact low,
    by rw [second.slot, a.slot, powered], second.cfg.trans a.cfg⟩

end Sys2Proof.Machine
end

section
/-! A frame that meets a deaf module (60_exceptions.md R635; 20_memory.md R93). -/

namespace Sys2Proof.Machine

/-! ### The host's wait for tBUF -/

/-- Nothing of the 2-wire interface has come due: no write cycle ends, and readiness is there or still to come. -/
structure InterfaceSettled (s : State) : Prop where
  write : s.wr.busy = true → s.clk.now < s.wr.due
  ready : s.slot.powered = true → s.slot.ready = false → s.clk.now < s.slot.readyDue

theorem settleReady_settled {s : State} (h : s.slot.powered = true → s.slot.ready = false → s.clk.now < s.slot.readyDue) :
    settleReady s = s := by
  rw [settleReady, if_neg]
  simp only [Bool.and_eq_true, Bool.not_eq_true', decide_eq_true_eq, not_and, not_le, and_imp]
  exact h

theorem InterfaceSettled.settleInterface {s : State} (h : InterfaceSettled s) : settleInterface s = s := by
  rw [Machine.settleInterface, settleReady_settled h.ready]
  cases busy : s.wr.busy
  · exact settleWrite_idle busy
  · exact settleWrite_early (h.write busy)

/-- Its times leave nothing due. -/
theorem settleInterface_settled (s : State) : InterfaceSettled (settleInterface s) := by
  have ready : (settleReady s).slot.powered = true → (settleReady s).slot.ready = false →
      (settleReady s).clk.now < (settleReady s).slot.readyDue := by
    unfold settleReady
    split
    next => exact fun _ unready => by cases unready
    next early => simpa [not_and, not_le] using early
  rw [settleInterface]
  generalize settleReady s = u at ready
  unfold settleWrite
  split
  next =>
    obtain ⟨x, n, e⟩ := commitWrite_eq u
    rw [e]
    exact ⟨fun busy => Bool.noConfusion busy, ready⟩
  next early =>
    have write : u.wr.busy = true → u.clk.now < u.wr.due := by simpa [not_and, not_le] using early
    exact ⟨write, ready⟩

theorem awaitFree_interfaceOnly (s : State) :
    InterfaceOnly { s with clk := { s.clk with now := (awaitFree s).clk.now } } (awaitFree s) := by
  unfold awaitFree
  split
  next t _ =>
    have k := settleInterface_interfaceOnly (atTime (t + Config.tBuf) s)
    exact ⟨k.cfg, rfl, k.host, k.seen, k.out, k.tx, k.rcv, k.lvl, k.raised, k.script, k.slot, k.bus⟩
  next => exact .refl s

/-- Where nothing of the interface comes due in the wait, only time passes. -/
theorem awaitFree_early {s : State} (h : InterfaceSettled { s with clk := { s.clk with now := (awaitFree s).clk.now } }) :
    awaitFree s = { s with clk := { s.clk with now := (awaitFree s).clk.now } } := by
  cases free : s.bus.freeAt with
  | none => rw [awaitFree, free]
  | some t =>
    have waits : awaitFree s = settleInterface (atTime (t + Config.tBuf) s) := by rw [awaitFree, free]; rfl
    have now : (awaitFree s).clk.now = (atTime (t + Config.tBuf) s).clk.now := by
      rw [waits, (settleInterface_interfaceOnly _).now]
    rw [now] at h ⊢
    exact waits.trans h.settleInterface

/-- A wait is over when tBUF has run. -/
theorem awaitFree_awaitFree (s : State) : awaitFree (awaitFree s) = awaitFree s := by
  have freeAt : (awaitFree s).bus.freeAt = s.bus.freeAt := by rw [(awaitFree_interfaceOnly s).bus]
  cases free : s.bus.freeAt with
  | none => rw [awaitFree, freeAt, free]
  | some t =>
    have waits : awaitFree s = settleInterface (atTime (t + Config.tBuf) s) := by rw [awaitFree, free]; rfl
    have passed : atTime (t + Config.tBuf) (awaitFree s) = awaitFree s := by
      have now : t + Config.tBuf ≤ (awaitFree s).clk.now := by
        rw [waits, (settleInterface_interfaceOnly _).now]
        exact le_max_right ..
      rw [atTime, max_eq_left now]
    have again : awaitFree (awaitFree s) = settleInterface (atTime (t + Config.tBuf) (awaitFree s)) := by
      conv_lhs => rw [awaitFree, freeAt, free]
      rfl
    rw [again, passed, waits]
    exact (settleInterface_settled _).settleInterface

/-- A transaction that begins after the wait is the one that begins with it. -/
theorem startThen_awaitFree (k : State → State) (s : State) : startThen k (awaitFree s) = startThen k s := by
  rw [startThen, startThen, awaitFree_awaitFree]

theorem sclHeld_awaitFree (s : State) : sclHeld (awaitFree s) = sclHeld s := by
  have k := awaitFree_interfaceOnly s
  have stretching : (awaitFree s).bus.stretching = s.bus.stretching := by rw [k.bus]
  simp only [sclHeld, moduleHolds, stretching, k.mated, k.powered, k.out]

theorem clocked_awaitFree (k : State → State) {s : State} (free : sclHeld s = false) :
    clocked (startThen k) (awaitFree s) = clocked (startThen k) s := by
  have e := awaitFree_interfaceOnly s
  have raised : (awaitFree s).raised = s.raised := e.raised
  have host : (awaitFree s).host = s.host := e.host
  simp only [clocked, sclHeld_awaitFree, free, overran, raised, host, startThen_awaitFree, Bool.false_eq_true, if_false]
  rfl

/-! ### A module that does not hear -/

/-- What passes over a module that does not hear: the clock, the host's frame and what it has seen, the record of a stretch and
of the end of a transaction, conditions. -/
structure PassedOver (s t : State) : Prop where
  frame : t = { s with
    clk := t.clk, host := { s.host with inFrame := t.host.inFrame }, seen := t.seen, raised := t.raised
    bus := { s.bus with hold := t.bus.hold, freeAt := t.bus.freeAt } }
  wires : t.seen.wires = s.seen.wires

theorem PassedOver.trans {s t u : State} (a : PassedOver s t) (b : PassedOver t u) : PassedOver s u :=
  ⟨b.frame.trans (by rw [a.frame]), b.wires.trans a.wires⟩

theorem PassedOver.deaf {s t : State} (k : PassedOver s t) (h : deaf s) : deaf t := by
  rw [k.frame]
  exact h

theorem PassedOver.around {s t : State} (k : PassedOver s t) : sameAround s t :=
  ⟨by rw [k.frame], by rw [k.frame], by rw [k.frame], by rw [k.frame], by rw [k.frame], by rw [k.frame],
    fun _ => by rw [k.frame]; rfl, by rw [k.frame], k.wires, by rw [k.frame]⟩

/-- It holds SCL for no time. -/
theorem busTime_deaf {s : State} (h : listening s = false) (m n : Nat) : busTime m n s =
    { s with
      clk := { now := s.clk.now + n * s.host.sclPeriod, drawn := s.clk.drawn + 1 }
      bus := { s.bus with hold := 0 } } := by
  have still : mayStretch s = false := by simp [mayStretch, h]
  simp [busTime, still, stretchFor, holdScl, releaseScl, advance]

theorem busTime_passedOver {s : State} (h : deaf s) (m n : Nat) : PassedOver s (busTime m n s) := by
  obtain ⟨lis, -⟩ := h
  rw [busTime_deaf lis]
  exact ⟨rfl, rfl⟩

/-- START to it is a START all the same, which it does not see. -/
theorem hostStart_deaf {s : State} (h : deaf s) :
    hostStart s = spend 2 (openFrame (advance (Config.tSuSta + Config.tHdSta) (lowPeriod s))) := by
  obtain ⟨lis, -⟩ := (busTime_passedOver h (if engaged s.bus then 1 else 0) 0).deaf h
  have lis : listening (lowPeriod s) = false := lis
  rw [hostStart, if_neg (by rw [(unheard_of_deaf h).sda]; decide)]
  dsimp only
  rw [if_neg (by simp [lis])]

/-- What START opens over it. -/
structure Opened (s t : State) : Prop extends PassedOver s t where
  inFrame : t.host.inFrame = true
  seen : t.seen = (openFrame s).seen
  raised : t.raised = s.raised
  now : t.clk.now = s.clk.now + Config.tSuSta + Config.tHdSta

theorem hostStart_opened {s : State} (h : deaf s) : Opened s (hostStart s) := by
  rw [hostStart_deaf h, lowPeriod]
  have k := busTime_passedOver h (if engaged s.bus then 1 else 0) 0
  refine ⟨k.trans ⟨rfl, openFrame_wires _⟩, rfl, rfl, rfl, ?_⟩
  obtain ⟨lis, -⟩ := h
  rw [busTime_deaf lis]
  simp [openFrame, advance, spend, Nat.add_assoc]

theorem startThen_deaf {s w : State} (waits : awaitFree s = w) (h : deaf w) (k : State → State) :
    startThen k s = k (hostStart w) := by
  rw [startThen, waits]
  exact if_neg (by rw [(unheard_of_deaf h).sda]; decide)

/-- A transaction opened over it, whose device address word it does not acknowledge. -/
structure Unanswered (s t : State) : Prop extends PassedOver s t where
  acks : t.seen.acks = (openFrame s).seen.acks ++ [false]
  rx : t.seen.rx = (openFrame s).seen.rx
  raised : t.raised = s.raised ++ [.noAcknowledge]

theorem Unanswered.trans {s t u : State} (a : Unanswered s t) (b : PassedOver t u) (seen : u.seen = t.seen)
    (raised : u.raised = t.raised) : Unanswered s u :=
  ⟨a.toPassedOver.trans b, by rw [seen, a.acks], by rw [seen, a.rx], raised.trans a.raised⟩

/-- The device address word of a frame to it. -/
structure WordUnheard (s t : State) : Prop extends Unanswered s t where
  inFrame : t.host.inFrame = true
  now : t.clk.now = s.clk.now + Config.tSuSta + Config.tHdSta + 9 * s.host.sclPeriod

theorem sendWord_unheard {s : State} (h : deaf s) (d : Byte) : WordUnheard s (sendWord d (hostStart s)) := by
  have opened := hostStart_opened h
  generalize hostStart s = u at opened
  have still := opened.toPassedOver.deaf h
  have k := busTime_passedOver still (stretchable d u) 9
  have period : u.host.sclPeriod = s.host.sclPeriod := by rw [opened.frame]
  rw [sendWord_aside (unheard_of_deaf still).aside (unheard_of_deaf still).sda, wordTime]
  refine ⟨⟨opened.toPassedOver.trans (k.trans ⟨rfl, rfl⟩), ?_, ?_, ?_⟩, opened.inFrame, ?_⟩
  · show u.seen.acks ++ [false] = _
    rw [opened.seen]
  · show u.seen.rx = _
    rw [opened.seen]
  · show u.raised ++ [.noAcknowledge] = _
    rw [opened.raised]
  · obtain ⟨lis, -⟩ := still
    rw [busTime_deaf lis]
    show u.clk.now + 9 * u.host.sclPeriod = _
    rw [opened.now, period]

theorem Unanswered.not_acked {s t : State} (k : Unanswered s t) : acked t = false := by
  rw [acked, k.acks, List.getLast?_concat]
  decide

/-- STOP to it ends the host's frame, and nothing else. -/
theorem hostStop_deaf {s : State} (h : deaf s) :
    PassedOver s (hostStop s) ∧ (hostStop s).seen = s.seen ∧ (hostStop s).raised = s.raised ∧
      (hostStop s).host.inFrame = false := by
  have low : PassedOver s (lowPeriod s) := busTime_passedOver h _ 0
  have k : PassedOver s (closing s) := low.trans ⟨rfl, rfl⟩
  obtain ⟨lis, -⟩ := k.deaf h
  have e : hostStop s = { closing s with
      host := { (closing s).host with inFrame := false }
      bus := { (closing s).bus with freeAt := some (closing s).clk.now } } := by
    rw [hostStop, if_neg (by rw [(unheard_of_deaf h).sda]; decide)]
    dsimp only
    rw [show spend 1 (advance Config.tSuSto (lowPeriod s)) = closing s from rfl, mayWrite, lis]
    simp
  rw [e]
  exact ⟨k.trans ⟨rfl, rfl⟩, rfl, rfl, rfl⟩

theorem Unanswered.stop {s t : State} (k : Unanswered s t) (h : deaf s) :
    Unanswered s (hostStop t) ∧ (hostStop t).host.inFrame = false := by
  obtain ⟨passes, seen, raised, ends⟩ := hostStop_deaf (k.toPassedOver.deaf h)
  exact ⟨k.trans passes seen raised, ends⟩

/-! ### The frames -/

/-- A frame other than a poll is its device address word, what follows an acknowledge, and STOP. -/
theorem frameTail_word {i : Instr} (h : isFrame i = true) (noPoll : ∀ sp r, i ≠ .ackPoll sp r) :
    ∃ d k, ∀ s, frameTail i s = hostStop (sendThen d k s) := by
  cases i
  case currentRead sp => exact ⟨devWord sp .read, readWords 1, fun _ => rfl⟩
  case randomRead sp a => exact ⟨devWord sp .write, sendThen a (startThen (readBody sp 1)), fun _ => rfl⟩
  case seqReadCurrent sp n => exact ⟨devWord sp .read, readWords n, fun _ => rfl⟩
  case seqReadRandom sp a n => exact ⟨devWord sp .write, sendThen a (startThen (readBody sp n)), fun _ => rfl⟩
  case byteWrite sp a d => exact ⟨devWord sp .write, sendThen a (sendAll [d]), fun _ => rfl⟩
  case seqWrite sp a ds => exact ⟨devWord sp .write, sendThen a (sendAll ds), fun _ => rfl⟩
  case ackPoll sp r => exact absurd rfl (noPoll sp r)
  all_goals cases h

theorem sendThen_unacked {d : Byte} {s t : State} (k : State → State) (e : sendWord d s = t) (h : acked t = false) :
    sendThen d k s = t := by
  rw [sendThen, e, if_neg (Bool.eq_false_iff.1 h)]

/-- The bus free from this instant on: tBUF begins to run. -/
def restFrom (s : State) : State := { s with bus := { s.bus with freeAt := some s.clk.now } }

/-- An unanswered poll starts tBUF. -/
theorem pollWord_unacked {sp : Space} {r : Dir} {s t : State} (e : sendWord (devWord sp r) s = t) (h : acked t = false) :
    pollWord sp r s = restFrom t := by
  rw [pollWord, e, if_neg (Bool.eq_false_iff.1 h)]
  rfl

theorem WordUnheard.rest {s t : State} (k : WordUnheard s t) : WordUnheard s (restFrom t) :=
  ⟨k.toUnanswered.trans ⟨rfl, rfl⟩ rfl rfl, k.inFrame, k.now⟩

theorem pollWord_unheard {w : State} (h : deaf w) (sp : Space) (r : Dir) :
    ∃ t, pollWord sp r (hostStart w) = restFrom t ∧ WordUnheard w t :=
  have k := sendWord_unheard h (devWord sp r)
  ⟨_, pollWord_unacked rfl k.not_acked, k⟩

/-- The repeated START after an unanswered poll, the module still deaf when tBUF has run again. -/
theorem repeat_unheard {w t : State} (h : deaf w) (k : WordUnheard w t)
    (still : InterfaceSettled { w with clk := { w.clk with
      now := w.clk.now + Config.tSuSta + Config.tHdSta + 9 * w.host.sclPeriod + Config.tBuf } }) :
    Unanswered w (startThen id (restFrom t)) ∧ (startThen id (restFrom t)).host.inFrame = true := by
  have rests := k.rest
  have now : (awaitFree (restFrom t)).clk.now = t.clk.now + Config.tBuf := by
    show (settleInterface (atTime (t.clk.now + Config.tBuf) (restFrom t))).clk.now = _
    rw [(settleInterface_interfaceOnly _).now]
    exact max_eq_right (Nat.le_add_right ..)
  generalize restFrom t = u at rests now
  rw [k.now] at now
  have wr : u.wr = w.wr := by rw [rests.frame]
  have slot : u.slot = w.slot := by rw [rests.frame]
  have settled : InterfaceSettled { u with clk := { u.clk with now := (awaitFree u).clk.now } } := by
    obtain ⟨write, ready⟩ := still
    rw [now]
    exact ⟨by simpa only [wr] using write, by simpa only [slot] using ready⟩
  have waits := awaitFree_early settled
  have passes : PassedOver u (awaitFree u) := by
    rw [waits]
    exact ⟨rfl, rfl⟩
  have seen : (awaitFree u).seen = u.seen := by rw [waits]
  have raised : (awaitFree u).raised = u.raised := by rw [waits]
  have inFrame : (awaitFree u).host.inFrame = true := by
    rw [waits]
    exact rests.inFrame
  have quiet := passes.deaf (rests.toPassedOver.deaf h)
  have opened := hostStart_opened quiet
  have same : (openFrame (awaitFree u)).seen = u.seen := by rw [openFrame, inFrame, ← seen]; rfl
  rw [startThen_deaf rfl quiet]
  exact ⟨rests.toUnanswered.trans (passes.trans opened.toPassedOver) (opened.seen.trans same) (opened.raised.trans raised),
    opened.inFrame⟩

/-- A frame that meets a module that does not hear ends unanswered, in a repeated START where a poll ends so. -/
theorem frameTail_deaf {w : State} {i : Instr} (h : deaf w) (hi : isFrame i = true)
    (still : (∃ sp r, i = .ackPoll sp ⟨r, .repeatedStart⟩) → InterfaceSettled { w with clk := { w.clk with
      now := w.clk.now + Config.tSuSta + Config.tHdSta + 9 * w.host.sclPeriod + Config.tBuf } }) :
    Unanswered w (frameTail i (hostStart w)) ∧
      ((frameTail i (hostStart w)).host.inFrame = true ↔ ∃ sp r, i = .ackPoll sp ⟨r, .repeatedStart⟩) := by
  by_cases poll : ∃ sp r, i = .ackPoll sp r
  · obtain ⟨sp, ⟨r, fin⟩, rfl⟩ := poll
    obtain ⟨t, e, word⟩ := pollWord_unheard h sp r
    have tail : frameTail (.ackPoll sp ⟨r, fin⟩) (hostStart w) = pollEnd fin (restFrom t) := congrArg (pollEnd fin) e
    rw [tail]
    cases fin
    case stop =>
      obtain ⟨ended, stops⟩ := word.rest.toUnanswered.stop h
      exact ⟨ended, iff_of_false (by rw [pollEnd, stops]; decide) (by simp)⟩
    case repeatedStart =>
      obtain ⟨ended, starts⟩ := repeat_unheard h word (still ⟨sp, r, rfl⟩)
      exact ⟨ended, iff_of_true starts ⟨sp, r, rfl⟩⟩
  · have noPoll (sp : Space) (r : Poll) : i ≠ .ackPoll sp r := fun e => poll ⟨sp, r, e⟩
    obtain ⟨d, k, tail⟩ := frameTail_word hi noPoll
    have word := sendWord_unheard h d
    generalize e : sendWord d (hostStart w) = t at word
    rw [tail, sendThen_unacked k e word.not_acked]
    obtain ⟨ended, stops⟩ := word.toUnanswered.stop h
    exact ⟨ended, iff_of_false (by rw [stops]; decide) fun ⟨sp, r, e⟩ => noPoll sp _ e⟩

/-- Settles O23: the wait for tBUF, what it leaves, and the frame that the deaf module does not hear. -/
theorem deafFrameHasNoEffect : Obligations.DeafFrameHasNoEffect := by
  refine ⟨fun s i hi free => ?_, fun s write ready => awaitFree_early ⟨write, ready⟩, fun s w i waits h hi still => ?_⟩
  · rw [exec_frame hi, exec_frame hi, clocked_awaitFree _ free]
  · have k := awaitFree_interfaceOnly s
    have free : sclHeld s = false := by
      obtain ⟨-, -, released, -, scl⟩ := h
      rw [← sclHeld_awaitFree, waits]
      exact sclHeld_free released scl
    rw [waits] at k
    have raised : w.raised = s.raised := k.raised
    have seen : (openFrame w).seen = (openFrame s).seen := by
      simp only [openFrame, k.seen, k.host]
    obtain ⟨ended, inFrame⟩ := frameTail_deaf h hi fun poll => by
      obtain ⟨write, ready⟩ := still poll _ rfl
      exact ⟨write, ready⟩
    rw [← startThen_deaf waits h (frameTail i)] at ended inFrame
    have runs : exec i s = .next (startThen (frameTail i) s) := by
      rw [exec_frame hi]
      exact clocked_kept _ free (overran_append (l := [.noAcknowledge]) (by rw [ended.raised, raised]) (by decide))
    generalize startThen (frameTail i) s = t at ended inFrame runs
    refine ⟨t, runs, by rw [ended.acks, seen], by rw [ended.rx, seen], by rw [ended.raised, raised], ?_, by rw [ended.frame],
      ended.toPassedOver.around, ⟨by rw [ended.frame], by rw [ended.frame]⟩, by rw [ended.frame]⟩
    split
    next sp r => exact inFrame.2 ⟨sp, r, rfl⟩
    next other =>
      have stops : ¬ t.host.inFrame = true := fun starts => by
        obtain ⟨sp, r, e⟩ := inFrame.1 starts
        exact other sp r e
      exact Bool.eq_false_iff.2 stops

end Sys2Proof.Machine
end

section
/-! Readiness of the 2-wire interface (70_reset_and_hazards.md R674). -/

namespace Sys2Proof.Machine

/-- The interface becomes ready at its time: the bus engine stands idle, and nothing is buffered or being written. -/
theorem settleReady_due {s : State} (powered : s.slot.powered = true) (unready : s.slot.ready = false)
    (due : s.slot.readyDue ≤ s.clk.now) : settleReady s = { s with
      slot := { s.slot with ready := true }
      bus := { s.bus with state := .idle, phase := .off, nbits := 0, sda := .high, wbuf := [] }
      wr := { s.wr with busy := false } } := by
  rw [settleReady, if_pos (by simp [powered, unready, due])]

/-- At readiness no write cycle is left to end: only the timers of the module's other units still run. -/
theorem settle_due {s : State} (powered : s.slot.powered = true) (unready : s.slot.ready = false)
    (due : s.slot.readyDue ≤ s.clk.now) : Ticks (settleReady s) (settle s) := by
  have idle : (settleReady s).wr.busy = false := by rw [settleReady_due powered unready due]
  rw [settle_eq, settleWrite_idle idle]
  exact lateTimers_ticks _

theorem unready_unheard {s : State} (unready : s.slot.ready = false) : listening s = false := by
  simp [listening, unready]

/-- Settles O57: at its time the interface is ready with the counters and the memory as they were; before it, it hears
nothing. -/
theorem twoWireReady : Obligations.TwoWireReady := by
  intro s powered unready
  constructor
  · intro due
    have k := settle_due powered unready due
    have readied := settleReady_due powered unready due
    refine ⟨?ready, ?idle, ?unbuffered, ?unwritten, fun q => ?counter, fun key => ?byte⟩
    case ready => rw [k.slot, readied]
    case idle => rw [k.bus, readied]
    case unbuffered => rw [k.bus, readied]
    case unwritten => rw [k.wr, readied]
    case counter =>
      rw [k.bus, readied]
      cases q <;> rfl
    case byte => rw [readByte, k.cfg, k.mem, readied, readByte]
  · intro early
    have still : (settle s).slot.ready = false := by rw [settle_slot, settleReady_early early, unready]
    exact ⟨still, unready_unheard still⟩

end Sys2Proof.Machine
end
